-- ==== Sys2Proof/Word.lean ====
section
/-!
DEFINITION. Words, names of the part's numbered things, and fixed tables.

The numbered things of the spec (ports P0 to P3, windows W0 to W3, lines L0 to L7, slots S0 to S15,
frames F0 to F127, tags) are bounded numbers; a word of the link is 32 bits, a byte 8 bits.
-/

namespace Sys2Proof

/-- A byte is 8 bits (spec/00, conventions). -/
abbrev Byte := BitVec 8
/-- A word is 4 bytes (spec/00, conventions). -/
abbrev Word := BitVec 32
/-- P0 to P3. -/
abbrev Port := Fin 4
/-- W0 to W3 of a port. -/
abbrev WindowNo := Fin 4
/-- L0 to L7. -/
abbrev LineNo := Fin 8
/-- S0 to S15. -/
abbrev SlotNo := Fin 16
/-- F0 to F127. -/
abbrev FrameNo := Fin 128
/-- A read tag, 0 to 7 (R65). -/
abbrev ReadTag := Fin 8
/-- A command tag, 0 or 1 (R161). -/
abbrev CmdTag := Fin 2
/-- A sequence number of a link, 0 to 7 (R152); its arithmetic is modulo 8. -/
abbrev Seq := Fin 8

/-- How a flash page differs, as the device returned it, from what the flash holds: byte offsets and the
bits read wrongly there. The empty list is a read that returns what is stored. -/
abbrev ReadErrors := List (Nat × Byte)

/-- The part of a read request a segment serves (R66). -/
inductive Part where
  | lower
  | upper
deriving DecidableEq, Repr

/-- A packet whose link check fails: the port whose link it arrived on and its kind byte as it was received
(R156, R157). -/
structure FailedPacket where
  port : Port
  kind : Byte
deriving DecidableEq, Repr

/-! Fixed tables: `Vector`s read and written at a bounded number. -/

/-- The entry of a table. -/
def tget {α : Type} {n : Nat} (v : Vector α n) (i : Fin n) : α := v.get i

/-- The table with one entry replaced. -/
def tset {α : Type} {n : Nat} (v : Vector α n) (i : Fin n) (a : α) : Vector α n := v.set i.val a i.isLt

/-- Every entry of a table mapped. -/
def tmap {α β : Type} {n : Nat} (f : α → β) (v : Vector α n) : Vector β n :=
  ⟨⟨v.toList.map f⟩, by simp⟩

/-- The lowest-numbered entry that a test accepts. -/
def tfind {α : Type} {n : Nat} (f : α → Bool) (v : Vector α n) : Option (Fin n) :=
  (List.finRange n).find? (fun i => f (tget v i))

/-- All numbers of a table, lowest first. -/
def tall (n : Nat) : List (Fin n) := List.finRange n

end Sys2Proof
end

