-- ==== Sys2Proof/Config.lean ====
section
/-!
DEFINITION. The free values: what the spec leaves to the part or to the flash device. None of them has a
body, so nothing can be proved of the value they give; the model applies them to a counter of State, so
that each draw is a fresh value.
-/

namespace Sys2Proof

/-- The value the hub chooses for a token at draw `n` (R140: "chosen by the hub without reference to the
master"), before its bounds are applied. Free value, log 6. -/
opaque Config.freeToken : Nat → BitVec 16

/-- The byte that an interrupted or failed program or erase leaves at a flash address, at draw `n` (R99:
"in an unknown state"), before the bounds of the rules are applied. Free value, log 5. -/
opaque Config.freeByte : Nat → Nat → Byte

end Sys2Proof
end

