-- ==== Sys2Proof/Syntax.lean ====
section
/-!
DEFINITION. The commands of the part: one constructor for each row of spec/opcode_table.json, in the
table's order.

A packet of a master carries its port; a sequenced packet carries its sequence number (R156), a READ its
read tag, a CMD its command tag and its argument words (spec/11, opcodes). The end of a flash operation
carries what the device answered: `pass` for a program, mark or erase, the read errors for a page read.
-/

namespace Sys2Proof

inductive Instr where
  /-- Power is applied or the hub reset input is released (R170). -/
  | coldStart
  /-- The hub reset input is asserted (R170). -/
  | hubResetInputAsserted
  /-- The transmission of an accepted RESTART_HUB reply ends (R171). -/
  | hubRestart
  /-- A TRAIN packet whose link check holds: link version, port number, acknowledged flag (R154). -/
  | train (p : Port) (version : Byte) (portNumber : Byte) (acked : Bool)
  /-- An ACK packet (R157). -/
  | ack (p : Port) (s : Seq)
  /-- A NAK packet (R157). -/
  | nak (p : Port) (s : Seq)
  /-- A packet whose link check fails, with its kind byte as it was received (R156, R157). -/
  | packetCheckFailed (p : FailedPacket)
  /-- A malformed packet: its kind byte and, where its kind is sequenced, its sequence number (R162). -/
  | malformed (p : Port) (kind : Byte) (s : Seq)
  /-- A READ packet (R68). -/
  | read (p : Port) (s : Seq) (tag : ReadTag) (addr : BitVec 24) (count : Byte)
  /-- BIND: window, base, size, line, image offset (R29). -/
  | bind (p : Port) (s : Seq) (tag : CmdTag) (window base size line offset : Word)
  /-- UNBIND: window (R31). -/
  | unbind (p : Port) (s : Seq) (tag : CmdTag) (window : Word)
  /-- REBIND: line, or 8 for all lines (R32). -/
  | rebind (p : Port) (s : Seq) (tag : CmdTag) (line : Word)
  /-- TOUCH: port address, page count (R62). -/
  | touch (p : Port) (s : Seq) (tag : CmdTag) (addr count : Word)
  /-- SERVICE: token in the low 16 bits (R139). -/
  | service (p : Port) (s : Seq) (tag : CmdTag) (token : Word)
  /-- LOCK_UPDATE: line, name (two words), version, length (R114). -/
  | lockUpdate (p : Port) (s : Seq) (tag : CmdTag) (line name0 name1 version length : Word)
  /-- STAGE: unit offset and 64 data words (R116). -/
  | stage (p : Port) (s : Seq) (tag : CmdTag) (offset : Word) (data : List Word)
  /-- SEAL: image check (R120). -/
  | seal (p : Port) (s : Seq) (tag : CmdTag) (check : Word)
  /-- COMMIT: line (R124). -/
  | commit (p : Port) (s : Seq) (tag : CmdTag) (line : Word)
  /-- ABORT_UPDATE: line (R128). -/
  | abortUpdate (p : Port) (s : Seq) (tag : CmdTag) (line : Word)
  /-- STATUS_LINE: line (R183). -/
  | statusLine (p : Port) (s : Seq) (tag : CmdTag) (line : Word)
  /-- STATUS_SLOT: slot (R184). -/
  | statusSlot (p : Port) (s : Seq) (tag : CmdTag) (slot : Word)
  /-- STATUS_PORT: port (R185). -/
  | statusPort (p : Port) (s : Seq) (tag : CmdTag) (port : Word)
  /-- RESET_PORT: port (R149). -/
  | resetPort (p : Port) (s : Seq) (tag : CmdTag) (port : Word)
  /-- RELEASE_PORT: port (R150). -/
  | releasePort (p : Port) (s : Seq) (tag : CmdTag) (port : Word)
  /-- CHANNEL_RESET (R105). -/
  | channelReset (p : Port) (s : Seq) (tag : CmdTag)
  /-- READ_EVENTS: starting sequence, count (R187). -/
  | readEvents (p : Port) (s : Seq) (tag : CmdTag) (start count : Word)
  /-- WRITE_CONFIG: bytes 4 to 199 of the configuration record as 49 words (R175). -/
  | writeConfig (p : Port) (s : Seq) (tag : CmdTag) (record : List Word)
  /-- RESTART_HUB (R171). -/
  | restartHub (p : Port) (s : Seq) (tag : CmdTag)
  /-- A CMD whose opcode names no command, or whose argument count is not its opcode's (R163). -/
  | unknownOpcode (p : Port) (s : Seq) (tag : CmdTag) (opcode argCount : Byte)
  /-- The port link sends one packet (R160). -/
  | linkSend (p : Port)
  /-- The 1 ms TRAIN of a link that is not UP (R153). -/
  | trainPeriod (p : Port)
  /-- The training timer expires (R154). -/
  | trainingTimeout (p : Port)
  /-- The acknowledgement timer expires (R158). -/
  | acknowledgementTimeout (p : Port)
  /-- A segment is looked up in the shadow store (R47). -/
  | segmentLookup (p : Port) (tag : ReadTag) (part : Part)
  /-- A segment's copy completes (R75). -/
  | copyComplete (p : Port) (tag : ReadTag) (part : Part)
  /-- A fill's page read ends with DONE (R54). -/
  | fillReadEnd (errors : ReadErrors)
  /-- The run since resume reaches 1 ms while a class 1 request waits (R94). -/
  | eraseSuspend
  /-- The device answers a suspend: suspended, or erase complete (R94). -/
  | suspendAnswer (suspended : Bool)
  /-- No answer to a suspend within 100 µs (R94). -/
  | suspendAckTimeout
  /-- An operation's timer runs out (R99). -/
  | operationTimeout
  /-- The fill engine takes the channel's entry to OFFLINE (R59). -/
  | offlineFillFail
  /-- The update writer takes the channel's entry to OFFLINE (R131). -/
  | offlineUpdateLoss
  /-- A DEVICE_RESET after a timeout, or the start's own, completes (R100). -/
  | deviceResetReady
  /-- A DEVICE_RESET times out (R100). -/
  | deviceResetTimeout
  /-- The reset of a CHANNEL_RESET completes (R105). -/
  | channelResetComplete
  /-- The start-up controller asks for a recovery reset (R172). -/
  | recoveryReset
  /-- The recovery reset completes (R172). -/
  | recoveryResetComplete
  /-- The stage record mark ends (R115). -/
  | stageMarkEnd (pass : Bool)
  /-- A DATA unit program ends (R118). -/
  | dataProgramEnd (pass : Bool)
  /-- A verify read ends (R121). -/
  | verifyReadEnd (errors : ReadErrors)
  /-- A LIST unit program ends (R123). -/
  | listProgramEnd (pass : Bool)
  /-- The seal record mark ends (R123). -/
  | sealMarkEnd (pass : Bool)
  /-- The commit record mark ends (R125). -/
  | commitMarkEnd (pass : Bool)
  /-- The retire record mark ends (R126). -/
  | retireMarkEnd (pass : Bool)
  /-- The erase mark ends (R108). -/
  | eraseMarkEnd (pass : Bool)
  /-- A reclaimer block erase ends (R107). -/
  | reclaimEraseEnd (pass : Bool)
  /-- The configuration writer's erase ends (R176). -/
  | configEraseEnd (pass : Bool)
  /-- The configuration record's program ends (R176). -/
  | configProgramEnd (pass : Bool)
  /-- A configuration copy's page read ends (R174). -/
  | configReadEnd (errors : ReadErrors)
  /-- A slot header page read ends (R177). -/
  | headerReadEnd (errors : ReadErrors)
  /-- A check list page read ends (R180). -/
  | listReadEnd (errors : ReadErrors)
  /-- The binding unit takes a port's boot-window item (R39). -/
  | bootWindowsBind (p : Port)
  /-- The binding unit's report reaches the supervision unit (R136). -/
  | bootWindowsReport (p : Port)
  /-- The preload completion report reaches the supervision unit (R137). -/
  | preloadComplete (p : Port)
  /-- The boot timeout expires (R138). -/
  | bootTimeout (p : Port)
  /-- The deadline expires (R141). -/
  | deadlineExpiry (p : Port)
  /-- The grace timer expires (R142). -/
  | graceExpiry (p : Port)
  /-- The reset hold expires (R147). -/
  | resetHoldExpiry (p : Port)
  /-- The binding unit takes a restart's unbind item (R41). -/
  | restartUnbind (p : Port)
  /-- The read engine and the port link end a restarted port's reads (R82). -/
  | restartEndReads (p : Port)
  /-- The port link discards a restarted port's command replies and notices (R145, R146). -/
  | restartClearNotices (p : Port)
  /-- The update writer takes the restart of a lock's holder (R129, R130). -/
  | restartLockLoss (p : Port)
  /-- The fill engine closes a restarted port's preload (R64). -/
  | preloadCancel (p : Port)
  /-- A lock's idle timer expires (R119). -/
  | idleTimeout (line : LineNo)
  /-- The supply is removed (R176). -/
  | lossOfPower
deriving DecidableEq, Repr

end Sys2Proof
end

