-- ==== Sys2Proof/Decode.lean ====
section
/-!
DEFINITION. The words of the command table, and the opcodes of the CMD packet.

No row of spec/opcode_table.json gives any bits (every row's "fields" is empty, and none has "fixed"), so no
word spells a command. A raw link packet is read into its command by `packetCommand` of
Machine/Packets.lean (R188, R189).
-/

namespace Sys2Proof

/-- The command that a word spells by the table's bits: the table gives no row any. -/
def decodeTableWord (_nbits _w : Nat) : Option Instr := none

/-- No word spells a command. -/
theorem decodeTableWord_none (nbits w : Nat) : decodeTableWord nbits w = none := rfl

/-- The argument words an opcode carries (spec/11, opcodes); none where the opcode names no command. -/
def opcodeArgs (opcode : Byte) : Option Nat :=
  match opcode.toNat with
  | 0x01 => some 5
  | 0x02 => some 1
  | 0x03 => some 1
  | 0x04 => some 2
  | 0x05 => some 1
  | 0x10 => some 5
  | 0x11 => some 65
  | 0x12 => some 1
  | 0x13 => some 1
  | 0x14 => some 1
  | 0x20 => some 1
  | 0x21 => some 1
  | 0x22 => some 1
  | 0x30 => some 1
  | 0x31 => some 1
  | 0x32 => some 0
  | 0x33 => some 2
  | 0x34 => some 49
  | 0x35 => some 0
  | _ => none

/-- Whether a packet kind is a sequenced one (spec/08, introduction; codes of spec/11 section 11.2): READ,
READ_REPLY, CMD, CMD_REPLY, NOTICE. -/
def sequencedKind (kind : Byte) : Bool :=
  [0x10, 0x11, 0x20, 0x21, 0x30].contains kind.toNat

/-- Whether a packet kind is TRAIN (codes of spec/11 section 11.2). -/
def trainKind (kind : Byte) : Bool := kind.toNat == 0x01

/-- Whether a packet kind is ACK or NAK (codes of spec/11 section 11.2). -/
def answerKind (kind : Byte) : Bool := [0x02, 0x03].contains kind.toNat

end Sys2Proof
end

