-- ==== Sys2Proof/Machine/State.lean ====
section
/-!
DEFINITION. The state of the hub: every record, queue, table, timer and line the spec gives it, as plain
data, with the after-start value of each, and the queue of waiting commands.

A field marked optional in the spec is an `Option`. Durations are held in microseconds.
-/

namespace Sys2Proof.Machine

/-! ### Image directory (spec/01) -/

/-- Line states (R3). -/
inductive LineState where
  | empty
  | active
  | damaged
deriving DecidableEq, Repr

/-- Slot states (spec/01 section 1.4). -/
inductive SlotState where
  | empty
  | staging
  | sealed
  | current
  | retired
  | dirty
  | erasing
  | bad
deriving DecidableEq, Repr

/-- A name: 1 to 8 printable characters. -/
abbrev Name := List Byte

/-- A lock record (R24); its line is the line whose record holds it. `idle` is the idle timer: the time left,
or none when stopped. -/
structure Lock where
  holder : Port
  slot   : SlotNo
  idle   : Option Nat
deriving DecidableEq, Repr

/-- A line record (R3). -/
structure Line where
  state      : LineState
  name       : Option Name
  current    : Option SlotNo
  pending    : Option SlotNo
  generation : Nat
  version    : Option Word
  lock       : Option Lock
deriving DecidableEq, Repr

/-- A line before the scan has run (R26). -/
def Line.reset : Line :=
  { state := .empty, name := none, current := none, pending := none, generation := 0, version := none,
    lock := none }

/-- A slot record (R7). `checkList` is the slot's list in the check list store (R22), none when not held. -/
structure Slot where
  state       : SlotState
  line        : Option LineNo
  name        : Option Name
  version     : Option Word
  length      : Option Nat
  generation  : Option Nat
  windowPins  : Nat
  segmentPins : Nat
  fillPins    : Nat
  checkList   : Option (List Word)
  reclaimHold : Bool
deriving DecidableEq, Repr

/-- A slot record with nothing in it; before the scan no slot exists, the slot count being 0 (R26). -/
def Slot.reset : Slot :=
  { state := .empty, line := none, name := none, version := none, length := none, generation := none,
    windowPins := 0, segmentPins := 0, fillPins := 0, checkList := none, reclaimHold := false }

/-! ### Configuration (spec/09, spec/11 section 11.4) -/

/-- A boot window of the configuration; its line is any byte (R173). -/
structure BootWindow where
  base   : Nat
  size   : Nat
  offset : Nat
  line   : Nat
deriving DecidableEq, Repr

/-- A port record of the configuration (R133). Times in the units of R133: `resetHold`, `heartbeat`,
`grace` and `bootTimeout` in ms, `restartWindow` in s. `bootWindows` are those up to the boot window count. -/
structure PortConfig where
  enabled       : Bool
  supervised    : Bool
  fetch         : Bool
  update        : Bool
  supervise     : Bool
  resetHold     : Nat
  restartLimit  : Nat
  heartbeat     : Nat
  grace         : Nat
  bootTimeout   : Nat
  restartWindow : Nat
  preloadCount  : Nat
  prefetchDepth : Nat
  bootWindows   : List BootWindow
deriving DecidableEq, Repr

/-- No port record chosen yet: not enabled, no right (log 8). -/
def PortConfig.unchosen : PortConfig :=
  { enabled := false, supervised := false, fetch := false, update := false, supervise := false,
    resetHold := 0, restartLimit := 0, heartbeat := 0, grace := 0, bootTimeout := 0, restartWindow := 0,
    preloadCount := 0, prefetchDepth := 0, bootWindows := [] }

/-- The configuration in force: sizes as exponents of two, the idle timeout in s (R173, section 11.4). -/
structure ConfigRecord where
  flashExp    : Nat
  slotExp     : Nat
  slotCount   : Nat
  idleTimeout : Nat
  ports       : Vector PortConfig 4
deriving DecidableEq, Repr

/-- No configuration chosen yet: no slot exists and no port has a right (log 8). -/
def ConfigRecord.unchosen : ConfigRecord :=
  { flashExp := 0, slotExp := 0, slotCount := 0, idleTimeout := 0,
    ports := Vector.replicate 4 PortConfig.unchosen }

/-- Copy A and copy B of the configuration. -/
inductive Copy where
  | a
  | b
deriving DecidableEq, Repr

/-- The configuration chosen at a start (R170). -/
inductive CopyUsed where
  | a
  | b
  | defaults
deriving DecidableEq, Repr

/-- The configuration writer's state of a copy (R175). -/
inductive CopyState where
  | invalid
  | valid (sequence : Nat)
deriving DecidableEq, Repr

/-- The write in progress of the configuration writer (R175). `programming` is its step: ERASE or PROGRAM. -/
structure ConfigWrite where
  copy        : Copy
  programming : Bool
  sequence    : Nat
  record      : List Byte
  port        : Port
  tag         : CmdTag
deriving DecidableEq, Repr

/-- The configuration writer (R175). -/
structure ConfigWriter where
  copyA : CopyState
  copyB : CopyState
  write : Option ConfigWrite
deriving DecidableEq, Repr

def ConfigWriter.reset : ConfigWriter := { copyA := .invalid, copyB := .invalid, write := none }

/-! ### Statuses, commands, packets and notices (spec/08) -/

/-- The status codes of command replies (R164) and of read replies (R78). -/
inductive Status where
  | ok
  | busy
  | noRight
  | badArgument
  | badState
  | overlap
  | noLine
  | damaged
  | locked
  | noLock
  | noSlot
  | pendingExists
  | noPending
  | versionOld
  | alreadyStaged
  | incomplete
  | checkMismatch
  | programFail
  | genExhausted
  | badToken
  | notSupervised
  | portHeld
  | channelDown
  | noWindow
  | outOfWindow
  | outOfImage
  | badRequest
  | checkFail
  | channelFault
deriving DecidableEq, Repr

/-- The commands of section 8.6. -/
inductive Command where
  | bind
  | unbind
  | rebind
  | touch
  | service
  | lockUpdate
  | stage
  | seal
  | commit
  | abortUpdate
  | statusLine
  | statusSlot
  | statusPort
  | resetPort
  | releasePort
  | channelReset
  | readEvents
  | writeConfig
  | restartHub
deriving DecidableEq, Repr

/-- Notice kinds (section 8.7). -/
inductive NoticeKind where
  | newGeneration
  | updateLost
  | supervisionWarning
  | portReset
  | channelState
  | protocolError
  | noticesLost
deriving DecidableEq, Repr

/-- A notice: its kind, its line or port when the kind carries one, and its value word (section 11.2). -/
structure Notice where
  kind    : NoticeKind
  subject : Option Nat
  value   : Word
deriving DecidableEq, Repr

/-- An entry of the notice queue (R165): `sent` is its progress; `readyAt` its readiness (R160), which also
names it (log 26). -/
structure NoticeEntry where
  notice  : Notice
  sent    : Bool
  readyAt : Nat
deriving DecidableEq, Repr

/-- What a sequenced packet to the master carries. Read data is held as bytes, in port address order. -/
inductive Body where
  | readReply (tag : ReadTag) (status : Status) (data : List Byte)
  | cmdReply (tag : CmdTag) (status : Status) (result : List Word)
  | notice (n : Notice)
deriving DecidableEq, Repr

/-- A packet of the retransmit buffer (R152), with the notice entry it came from, if any (R167). -/
structure Buffered where
  seq    : Seq
  body   : Body
  source : Option Nat
deriving DecidableEq, Repr

/-- A packet put on the link towards the master (log 25). -/
inductive Packet where
  | train (acked : Bool)
  | ack (s : Seq)
  | nak (s : Seq)
  | sequenced (s : Seq) (body : Body)
deriving DecidableEq, Repr

/-- The acknowledgement the hub has still to send (R152). -/
inductive Owed where
  | ack (s : Seq)
  | nak (s : Seq)
deriving DecidableEq, Repr

/-- Link states (R153). -/
inductive LinkState where
  | down
  | training
  | up
deriving DecidableEq, Repr

/-- The link record (R152). -/
structure Link where
  state           : LinkState
  sendSeq         : Seq
  recvSeq         : Seq
  buffer          : List Buffered
  retransmissions : Nat
  ackTimer        : Option Nat
  trainTimer      : Option Nat
  owed            : Option Owed
deriving DecidableEq, Repr

def Link.reset : Link :=
  { state := .down, sendSeq := 0, recvSeq := 0, buffer := [], retransmissions := 0, ackTimer := none,
    trainTimer := none, owed := none }

/-- Tag states (R65, R161). -/
inductive TagState where
  | free
  | opened
  | ready
  | discard
deriving DecidableEq, Repr

/-- A read tag record (R65). The reply buffer is held as the bytes of its lower and of its upper segment.
`readyAt` is the readiness of R160, present when READY. -/
structure ReadTagRecord where
  state    : TagState
  addr     : Option (BitVec 24)
  count    : Option Nat
  openSegs : Nat
  status   : Option Status
  lower    : List Byte
  upper    : List Byte
  readyAt  : Option Nat
deriving DecidableEq, Repr

def ReadTagRecord.reset : ReadTagRecord :=
  { state := .free, addr := none, count := none, openSegs := 0, status := none, lower := [], upper := [],
    readyAt := none }

/-- A command tag record (R161). `args` are the argument words of a status command held during start-up
(R181); `restartHeld` marks a tag that was held when a restart of its port was taken (R145, log 22). -/
structure CmdTagRecord where
  state       : TagState
  command     : Option Command
  args        : List Word
  status      : Option Status
  result      : List Word
  readyAt     : Option Nat
  restartHeld : Bool
deriving DecidableEq, Repr

def CmdTagRecord.reset : CmdTagRecord :=
  { state := .free, command := none, args := [], status := none, result := [], readyAt := none,
    restartHeld := false }

/-! ### Windows (spec/02), supervision (spec/07) and what is kept for a port -/

/-- A BOUND window (R27); an UNBOUND one is `none`, every optional field absent and the boot flag clear. -/
structure Binding where
  base       : Nat
  size       : Nat
  line       : LineNo
  offset     : Nat
  slot       : SlotNo
  generation : Nat
  boot       : Bool
deriving DecidableEq, Repr

/-- Supervision states (R134). -/
inductive SupState where
  | off
  | held
  | preloading
  | booting
  | running
  | warned
  | free
  | quarantined
deriving DecidableEq, Repr

/-- The one timer of a supervision unit, with its remaining time (R133). -/
inductive SupTimer where
  | stopped
  | resetHold (left : Nat)
  | bootTimeout (left : Nat)
  | deadline (left : Nat)
  | grace (left : Nat)
deriving DecidableEq, Repr

/-- Causes of a port restart (R143). -/
inductive RestartCause where
  | bootTimeout
  | deadline
  | command
deriving DecidableEq, Repr

/-- The supervision record (R133). -/
structure Supervision where
  state        : SupState
  lineAsserted : Bool
  timer        : SupTimer
  token        : Option (BitVec 16)
  lastToken    : Option (BitVec 16)
  history      : List Nat
  bootRequest  : Nat
  lastCause    : Option RestartCause
deriving DecidableEq, Repr

def Supervision.reset : Supervision :=
  { state := .held, lineAsserted := true, timer := .stopped, token := none, lastToken := none, history := [],
    bootRequest := 0, lastCause := none }

/-- An item the supervision unit has handed to the binding unit (R39, R41). -/
inductive BindItem where
  | boot (count : Nat)
  | unbindAll
deriving DecidableEq, Repr

/-- The binding unit's report of the boot windows it bound, under the request's count (R40, R136). -/
structure BootReport where
  count : Nat
  bound : List WindowNo
deriving DecidableEq, Repr

/-- A preload record (R63): the next data page, the last one, and the port's PRELOAD entries in the queue. -/
structure Preload where
  slot    : SlotNo
  cursor  : Nat
  last    : Nat
  entries : Nat
deriving DecidableEq, Repr

/-- Everything kept for one port: its windows (R27), link (R152), tags (R65, R161), notices (R165),
supervision record (R133) and preload record (R63), and the requests handed between its units and not yet
taken (R136, R137, R143). `nextReady` numbers readiness (log 26); `wire` holds the packets sent (log 25). -/
structure PortRecord where
  windows      : Vector (Option Binding) 4
  link         : Link
  readTags     : Vector ReadTagRecord 8
  cmdTags      : Vector CmdTagRecord 2
  notices      : List NoticeEntry
  lost         : Nat
  nextReady    : Nat
  sup          : Supervision
  preload      : Option Preload
  bindItems    : List BindItem
  reports      : List BootReport
  completions  : Nat
  endReads     : Nat
  clearNotices : Nat
  dropLock     : Nat
  cancelLoads  : Nat
  wire         : List Packet
deriving DecidableEq, Repr

def PortRecord.reset : PortRecord :=
  { windows := Vector.replicate 4 none, link := Link.reset,
    readTags := Vector.replicate 8 ReadTagRecord.reset, cmdTags := Vector.replicate 2 CmdTagRecord.reset,
    notices := [], lost := 0, nextReady := 0, sup := Supervision.reset, preload := none, bindItems := [],
    reports := [], completions := 0, endReads := 0, clearNotices := 0, dropLock := 0, cancelLoads := 0,
    wire := [] }

/-! ### Read engine (spec/04) and shadow store (spec/03) -/

/-- A segment's name: its request and its part (R66). -/
structure SegId where
  port : Port
  tag  : ReadTag
  part : Part
deriving DecidableEq, Repr

/-- Where a segment stands (R66). -/
inductive Place where
  | lookup
  | waiting
  | frameWait
  | copying
  | done
deriving DecidableEq, Repr

/-- A segment table entry (R66). -/
structure Segment where
  id      : SegId
  slot    : SlotNo
  page    : Nat
  first   : Nat
  length  : Nat
  place   : Place
  outcome : Option Status
deriving DecidableEq, Repr

/-- Frame states (R44). -/
inductive FrameState where
  | free
  | filling
  | valid
deriving DecidableEq, Repr

/-- A frame (R44). `data` is the verified copy of its page, held while VALID; `served` the waiters of its verified
fill whose copies still run, in waiter list order (R56, R160, log 50). -/
structure Frame where
  state   : FrameState
  page    : Option Nat
  slot    : Option SlotNo
  waiters : List SegId
  uses    : Nat
  served  : List SegId
  data    : List Byte
deriving DecidableEq, Repr

def Frame.reset : Frame :=
  { state := .free, page := none, slot := none, waiters := [], uses := 0, served := [], data := [] }

/-- Why a fill was queued (R53). -/
inductive FillClass where
  | demand
  | preload
  | prefetch
deriving DecidableEq, Repr

/-- A fill-queue entry (R53). `reading` is its progress, `retry` its attempt: false for 1, true for 2. -/
structure FillEntry where
  frame   : FrameNo
  page    : Nat
  slot    : SlotNo
  cls     : FillClass
  retry   : Bool
  port    : Option Port
  reading : Bool
deriving DecidableEq, Repr

/-- A bad-page entry (R60). -/
structure BadPage where
  page  : Nat
  slot  : SlotNo
  check : Word
deriving DecidableEq, Repr

/-- The fill engine: its two FIFOs (R53), the bad-page list (R60), the last port served (R63), and whether it
has been told of OFFLINE and has not yet acted (R59, R103). -/
structure FillEngine where
  demand      : List FillEntry
  ahead       : List FillEntry
  badPages    : List BadPage
  lastServed  : Port
  toldOffline : Bool
deriving DecidableEq, Repr

def FillEngine.reset : FillEngine :=
  { demand := [], ahead := [], badPages := [], lastServed := 3, toldOffline := false }

/-! ### Flash channel (spec/05) -/

/-- Channel states (R87). -/
inductive ChanState where
  | idle
  | busy
  | eraseSuspended
  | offline
deriving DecidableEq, Repr

/-- Who commits: the line's lock, or the commit sequence of a holderless pending slot (R110). -/
inductive Committer where
  | lock (line : LineNo)
  | sequence (line : LineNo)
deriving DecidableEq, Repr

/-- Why a DEVICE_RESET runs: the start (R170), a timeout (R99), CHANNEL_RESET (R105), recovery (R172). -/
inductive ResetCause where
  | startUp
  | timeout
  | command (p : Port) (tag : CmdTag)
  | recovery
deriving DecidableEq, Repr

/-- The work an operation does for its requester (R88, R90). -/
inductive Work where
  | fill (frame : FrameNo)
  | stageMark (line : LineNo)
  | dataProgram (line : LineNo) (unit : Nat)
  | verifyRead (line : LineNo)
  | listProgram (line : LineNo) (unit : Nat)
  | sealMark (line : LineNo)
  | commitMark (by' : Committer)
  | retireMark (by' : Committer)
  | configErase (copy : Copy)
  | configProgram (copy : Copy)
  | eraseMark
  | reclaimErase (block : Nat)
  | deviceReset (cause : ResetCause)
  | configRead (copy : Copy)
  | headerRead (slot : SlotNo)
  | listRead (slot : SlotNo)
deriving DecidableEq, Repr

/-- Phases of an erase (R86). -/
inductive ErasePhase where
  | running
  | suspending
  | suspended
deriving DecidableEq, Repr

/-- The erase record (R86). `ackLeft` is the suspend-acknowledge timer, which runs in phase SUSPENDING. -/
structure EraseRecord where
  block       : Nat
  eraseTime   : Nat
  run         : Nat
  suspensions : Nat
  reads       : Nat
  phase       : ErasePhase
  ackLeft     : Nat
deriving DecidableEq, Repr

/-- The operation record (R86): what runs, for which slot, at which byte address of the flash, the bytes a
program writes, the time left before its timeout, and the erase record of an ERASE_BLOCK. -/
structure Operation where
  work  : Work
  slot  : Option SlotNo
  addr  : Nat
  data  : List Byte
  left  : Nat
  erase : Option EraseRecord
deriving DecidableEq, Repr

/-- The channel record (R86), but for the waiting requests, which are read off the requesters (log 11). -/
structure Channel where
  state     : ChanState
  op        : Option Operation
  suspended : Option Operation
  timeouts  : Nat
  aging     : Nat
deriving DecidableEq, Repr

def Channel.reset : Channel := { state := .idle, op := none, suspended := none, timeouts := 0, aging := 0 }

/-- The start's DEVICE_RESET as it runs (R170), under its 10 ms timer (R98). -/
def Operation.startReset : Operation :=
  { work := .deviceReset .startUp, slot := none, addr := 0, data := [], left := 10000, erase := none }

/-! ### Update writer (spec/06) and reclaimer -/

/-- Phases of a lock (R110). -/
inductive LockPhase where
  | marking
  | opened
  | sealing
  | sealed
  | committing
deriving DecidableEq, Repr

/-- Steps of a SEAL (R110). -/
inductive SealStep where
  | drain
  | verify
  | list
  | mark
deriving DecidableEq, Repr

/-- A commit as it runs: the command it answers, its step (COMMIT_MARK, or RETIRE_MARK once the switch is
taken), the generation given at the switch and the old slot (R110, R125, R126). -/
structure CommitRun where
  port       : Port
  tag        : CmdTag
  retiring   : Bool
  generation : Nat
  oldSlot    : Option SlotNo
deriving DecidableEq, Repr

/-- The working record of a lock (R110). `checks` and `image` are the computed checks, `wanted` the image
check of the SEAL, `listNext` the next LIST unit to place (R123), `commit` the COMMIT that runs. -/
structure LockWork where
  phase       : LockPhase
  staged      : List Bool
  sealStep    : Option SealStep
  cursor      : Option Nat
  checks      : List Word
  image       : Word
  wanted      : Word
  listNext    : Nat
  lossPending : Bool
  command     : Option (Port × CmdTag)
  commit      : Option CommitRun
deriving DecidableEq, Repr

/-- Kinds of program queue entry (R111). -/
inductive ProgKind where
  | data
  | list
deriving DecidableEq, Repr

/-- A program queue entry (R111), with the slot of its lock. `programming` is its progress. -/
structure ProgEntry where
  line        : LineNo
  slot        : SlotNo
  kind        : ProgKind
  unit        : Nat
  data        : List Byte
  owner       : Option (Port × CmdTag)
  programming : Bool
deriving DecidableEq, Repr

/-- Ready work of the update writer (R112). -/
inductive ReadyItem where
  | entry (slot : SlotNo) (kind : ProgKind) (unit : Nat)
  | lockStep (line : LineNo)
  | commitStep (line : LineNo)
deriving DecidableEq, Repr

/-- The update writer: working records by line (R110), commit sequences by line (R110), the program queue
(R111), ready work, earliest first (R112), SEALs with LIST units to place, in the order begun (R123), the
waiting request that OFFLINE took (R103), and whether OFFLINE has been told and not yet taken (R131). -/
structure UpdateWriter where
  work        : Vector (Option LockWork) 8
  sequences   : Vector (Option CommitRun) 8
  queue       : List ProgEntry
  ready       : List ReadyItem
  listing     : List LineNo
  lost        : Option ReadyItem
  toldOffline : Bool
deriving DecidableEq, Repr

def UpdateWriter.reset : UpdateWriter :=
  { work := Vector.replicate 8 none, sequences := Vector.replicate 8 none, queue := [], ready := [],
    listing := [], lost := none, toldOffline := false }

/-- The reclaimer with a target (R106). `erasing` is its step: MARK or ERASE. -/
structure ReclaimJob where
  target  : SlotNo
  cursor  : Nat
  erasing : Bool
deriving DecidableEq, Repr

/-! ### Start-up controller (spec/09) and event record (spec/10) -/

/-- Start-up phases (R170). -/
inductive StartPhase where
  | reset
  | config
  | scan
  | lists
  | done
deriving DecidableEq, Repr

/-- Kinds of start (R170). -/
inductive StartKind where
  | cold
  | restart
deriving DecidableEq, Repr

/-- Why a slot was made DIRTY at a start (section 11.2, recovery reason). -/
inductive RecoveryReason where
  | invalidHeader
  | unsealed
  | superseded
  | oldVersion
  | duplicateSeal
  | listFail
deriving DecidableEq, Repr

/-- The class of a scanned slot (R178), and what R179 makes of a candidate. -/
inductive ScanClass where
  | empty
  | dirty (reason : RecoveryReason)
  | sealedCandidate
  | committedCandidate
  | sealed
  | current
deriving DecidableEq, Repr

/-- A valid stage record (R177). -/
structure StageRecord where
  line    : LineNo
  name    : Name
  version : Word
  length  : Nat
deriving DecidableEq, Repr

/-- A scan table entry (R170, R177): the valid records of a header page and the class given. `sealRec` holds the
image check and the check-list check; `list` the check list once it has verified (R180). -/
structure ScanEntry where
  stageRec  : Option StageRecord
  sealRec   : Option (Word × Word)
  commitRec : Option Nat
  retireRec : Option Nat
  cls       : ScanClass
  list      : Option (List Word)
deriving DecidableEq, Repr

/-- The start-up controller (R170, R172). `request` is what it has before the channel; `copyA` what copy A
gave while copy B is read; `toRead` the slots whose check lists are still to be read; `wait` the time left
before it asks for a recovery reset. -/
structure StartUp where
  phase    : StartPhase
  kind     : StartKind
  copyUsed : Option CopyUsed
  scan     : List ScanEntry
  retry    : Option Work
  request  : Option Work
  copyA    : Option (Nat × ConfigRecord)
  copyB    : Option (Nat × ConfigRecord)
  toRead   : List SlotNo
  wait     : Option Nat
deriving DecidableEq, Repr

def StartUp.reset : StartUp :=
  { phase := .reset, kind := .cold, copyUsed := none, scan := [], retry := none, request := none,
    copyA := none, copyB := none, toRead := [], wait := none }

/-- Event kinds (section 10.2), in the order of their codes. -/
inductive EventKind where
  | startup
  | configFallback
  | recovery
  | lineDamaged
  | checkRetry
  | pageBad
  | badListFull
  | channelTimeout
  | channelOffline
  | channelOnline
  | programFail
  | eraseFail
  | commit
  | updateAborted
  | lockLost
  | portWarned
  | portReset
  | portQuarantined
  | bootWindowSkipped
  | linkDown
  | linkUp
  | protocolError
deriving DecidableEq, Repr

/-- What a block appends to the event record (R186); `code0` and `code1` are the detail codes of section
11.5. -/
structure EventBody where
  kind   : EventKind
  port   : Option Port   := none
  slot   : Option SlotNo := none
  line   : Option LineNo := none
  page   : Option Nat    := none
  code0  : Byte          := 0
  code1  : Byte          := 0
  detail : Word          := 0
deriving DecidableEq, Repr

/-- An entry of the event record (R186). -/
structure Event where
  seq  : Word
  body : EventBody
deriving DecidableEq, Repr

/-- The event record (R186). -/
structure EventRecord where
  entries : List Event
  next    : Word
deriving DecidableEq, Repr

/-- After a cold start the record is empty and the counter 1 (R186). -/
def EventRecord.reset : EventRecord := { entries := [], next := 1 }

/-- Where an accepted RESTART_HUB has got (R171): none; its reply is being sent; its reply was dropped, so
that the restart begins in the step that dropped it (log 14). -/
inductive HubRestart where
  | none
  | sending
  | dropped
deriving DecidableEq, Repr

/-! ### The state -/

/-- The hub, the flash behind it, and the commands that wait. -/
structure State where
  /-- Power is applied (R170). -/
  powered    : Bool
  /-- The hub reset input is asserted (R170). -/
  resetInput : Bool
  /-- An accepted RESTART_HUB on its way (R171). -/
  hubRestart : HubRestart
  /-- Microseconds passed (log 1). -/
  clock      : Nat
  /-- Free values drawn so far (log 5, log 6). -/
  draws      : Nat
  /-- The flash: bytes by address; an unlisted address holds the erased value 0xFF (log 4). -/
  flash      : List Host.Cell
  /-- The configuration in force (R174). -/
  cfg        : ConfigRecord
  /-- Image line records (R3). -/
  lines      : Vector Line 8
  /-- Slot records (R7); those below the configured slot count exist. -/
  slots      : Vector Slot 16
  /-- What is kept for each port. -/
  ports      : Vector PortRecord 4
  /-- The segment table (R66). -/
  segments   : List Segment
  /-- The frame-wait queue (R67). -/
  frameWait  : List SegId
  /-- The frames (R44). -/
  frames     : Vector Frame 128
  /-- The age order, most recently used first (R46). -/
  age        : List FrameNo
  /-- The fill engine (R53, R60, R63). -/
  fill       : FillEngine
  /-- The flash channel (R86). -/
  chan       : Channel
  /-- The update writer (R110, R111). -/
  upd        : UpdateWriter
  /-- The reclaimer, none when idle (R106). -/
  reclaim    : Option ReclaimJob
  /-- The configuration writer (R175). -/
  cfgw       : ConfigWriter
  /-- The start-up controller (R170). -/
  start      : StartUp
  /-- The event record (R186). -/
  events     : EventRecord
  /-- The commands that wait, oldest first. -/
  pending    : List Instr
deriving DecidableEq, Repr

/-- The hub right after power-up, over a wholly erased flash: every block at its "after start" value (R170),
and the start-up controller's first request, the DEVICE_RESET, granted (R91, log 7). -/
def State.reset : State :=
  { powered := true, resetInput := false, hubRestart := .none, clock := 0, draws := 0, flash := [],
    cfg := ConfigRecord.unchosen, lines := Vector.replicate 8 Line.reset,
    slots := Vector.replicate 16 Slot.reset, ports := Vector.replicate 4 PortRecord.reset,
    segments := [], frameWait := [], frames := Vector.replicate 128 Frame.reset, age := [],
    fill := FillEngine.reset,
    chan := { Channel.reset with state := .busy, op := some Operation.startReset },
    upd := UpdateWriter.reset, reclaim := none, cfgw := ConfigWriter.reset, start := StartUp.reset,
    events := EventRecord.reset, pending := [] }

/-- Faults. The block has none: the spec lets no command stop it (log 33). -/
inductive Fault where
  /-- Raised by no meaning: the interface asks for a type of faults and this block never stops. Safe. -/
  | neverRaised
deriving DecidableEq, Repr

/-- Refusals. -/
inductive Refusal where
  /-- A command that has no meaning yet; raised by exec's arm alone. Safe: the model stops. -/
  | notModelled (mnemonic : String)
deriving DecidableEq, Repr

end Sys2Proof.Machine
end

