-- ==== Sys2Proof/Machine/Formats.lean ====
section
/-!
DEFINITION. The layouts of spec/11: checks, byte order, codes, header records, the configuration record and
event entries.
-/

namespace Sys2Proof.Machine

/-! ### Bytes and words, least significant byte first (spec/00, spec/11) -/

/-- The byte with a given value. -/
def byteOf (n : Nat) : Byte := BitVec.ofNat 8 n

/-- The word with a given value. -/
def wordOf (n : Nat) : Word := BitVec.ofNat 32 n

/-- The `n` bytes of a value, least significant first. -/
def leBytes : Nat → Nat → List Byte
  | 0, _ => []
  | n + 1, v => byteOf v :: leBytes n (v / 256)

/-- The value of bytes stored least significant first. -/
def leNat : List Byte → Nat
  | [] => 0
  | b :: r => b.toNat + 256 * leNat r

/-- The 4 bytes of a word. -/
def wordBytes (w : Word) : List Byte := leBytes 4 w.toNat

/-- The bytes of words in order. -/
def wordsBytes (ws : List Word) : List Byte := ws.flatMap wordBytes

/-- A word from its four bytes, byte 0 first. -/
def packWord (b0 b1 b2 b3 : Nat) : Word :=
  wordOf (b0 % 256 + 256 * (b1 % 256) + 65536 * (b2 % 256) + 16777216 * (b3 % 256))

/-- The bytes of a list from an offset, `n` of them. -/
def slice (l : List Byte) (off n : Nat) : List Byte := (l.drop off).take n

/-- A little-endian field of a record. -/
def field (l : List Byte) (off n : Nat) : Nat := leNat (slice l off n)

/-- Whether every byte holds the erased value (spec/11 section 11.1). -/
def erased (l : List Byte) : Bool := l.all (· == 0xFF)

/-! ### Checks (R188) -/

/-- `k n`, with `n` evaluated first, so that the kernel can evaluate a long check. -/
def strictNat {α : Type} (n : Nat) (k : Nat → α) : α :=
  match n with
  | 0 => k 0
  | m + 1 => k (m + 1)

/-- One bit of the 32-bit CRC: polynomial 0x04C11DB7, reflected. -/
def crc32Bit (c : Nat) : Nat := if c % 2 = 1 then (c / 2) ^^^ 0xEDB88320 else c / 2

/-- `n` bits of the 32-bit CRC. -/
def crc32Bits : Nat → Nat → Nat
  | 0, c => c
  | n + 1, c => strictNat (crc32Bit c) (crc32Bits n)

/-- The register of the 32-bit CRC carried over bytes. -/
def crc32Run : List Byte → Nat → Nat
  | [], c => c
  | b :: r, c => strictNat (crc32Bits 8 (c ^^^ b.toNat)) (crc32Run r)

/-- The initial value and the final XOR of the 32-bit CRC. -/
def crc32Ones : Nat := 0xFFFFFFFF

/-- Page check, image check, check-list check, record check and configuration check (R188). -/
def crc32 (l : List Byte) : Word := wordOf (crc32Run l crc32Ones ^^^ crc32Ones)

/-- A running image check begun afresh (R121). -/
def imageStart : Word := wordOf crc32Ones

/-- A running image check carried forward over bytes (R121). -/
def imageCarry (c : Word) (l : List Byte) : Word := wordOf (crc32Run l c.toNat)

/-- The image check a running check ends with. -/
def imageEnd (c : Word) : Word := wordOf (c.toNat ^^^ crc32Ones)

/-- One bit of the 16-bit CRC: polynomial 0x1021, not reflected. -/
def crc16Bit (c : Nat) : Nat := if 32768 ≤ c then (c * 2 % 65536) ^^^ 0x1021 else c * 2

/-- `n` bits of the 16-bit CRC. -/
def crc16Bits : Nat → Nat → Nat
  | 0, c => c
  | n + 1, c => strictNat (crc16Bit c) (crc16Bits n)

/-- The register of the 16-bit CRC carried over bytes. -/
def crc16Run : List Byte → Nat → Nat
  | [], c => c
  | b :: r, c => strictNat (crc16Bits 8 (c ^^^ (b.toNat * 256))) (crc16Run r)

/-- The link check (R188). -/
def linkCheck (l : List Byte) : BitVec 16 := BitVec.ofNat 16 (crc16Run l 0xFFFF)

/-! ### Codes (spec/11: explicit codes, else the place in the defining table) -/

def Status.code : Status → Nat
  | .ok => 0x00
  | .busy => 0x01
  | .noRight => 0x02
  | .badArgument => 0x03
  | .badState => 0x04
  | .overlap => 0x05
  | .noLine => 0x06
  | .damaged => 0x07
  | .locked => 0x08
  | .noLock => 0x09
  | .noSlot => 0x0B
  | .pendingExists => 0x0C
  | .noPending => 0x0D
  | .versionOld => 0x0E
  | .alreadyStaged => 0x0F
  | .incomplete => 0x10
  | .checkMismatch => 0x11
  | .programFail => 0x12
  | .genExhausted => 0x13
  | .badToken => 0x14
  | .notSupervised => 0x15
  | .portHeld => 0x16
  | .channelDown => 0x17
  | .noWindow => 0x20
  | .outOfWindow => 0x21
  | .outOfImage => 0x22
  | .badRequest => 0x23
  | .checkFail => 0x24
  | .channelFault => 0x25

def NoticeKind.code : NoticeKind → Nat
  | .newGeneration => 1
  | .updateLost => 2
  | .supervisionWarning => 3
  | .portReset => 4
  | .channelState => 5
  | .protocolError => 6
  | .noticesLost => 7

def LineState.code : LineState → Nat
  | .empty => 0
  | .active => 1
  | .damaged => 2

def SlotState.code : SlotState → Nat
  | .empty => 0
  | .staging => 1
  | .sealed => 2
  | .current => 3
  | .retired => 4
  | .dirty => 5
  | .erasing => 6
  | .bad => 7

def SupState.code : SupState → Nat
  | .off => 0
  | .held => 1
  | .preloading => 2
  | .booting => 3
  | .running => 4
  | .warned => 5
  | .free => 6
  | .quarantined => 7

def LinkState.code : LinkState → Nat
  | .down => 0
  | .training => 1
  | .up => 2

def TagState.code : TagState → Nat
  | .free => 0
  | .opened => 1
  | .ready => 2
  | .discard => 3

def LockPhase.code : LockPhase → Nat
  | .marking => 0
  | .opened => 1
  | .sealing => 2
  | .sealed => 3
  | .committing => 4

def FillClass.code : FillClass → Nat
  | .demand => 0
  | .preload => 1
  | .prefetch => 2

def RestartCause.code : RestartCause → Nat
  | .bootTimeout => 1
  | .deadline => 2
  | .command => 3

def RecoveryReason.code : RecoveryReason → Nat
  | .invalidHeader => 1
  | .unsealed => 2
  | .superseded => 3
  | .oldVersion => 4
  | .duplicateSeal => 5
  | .listFail => 6

def StartKind.code : StartKind → Nat
  | .cold => 0
  | .restart => 1

def CopyUsed.code : CopyUsed → Nat
  | .a => 0
  | .b => 1
  | .defaults => 2

/-- Lock loss reasons (section 11.2, reason codes). -/
inductive LossReason where
  | idle
  | reset
  | channel
  | program
deriving DecidableEq, Repr

def LossReason.code : LossReason → Nat
  | .idle => 1
  | .reset => 2
  | .channel => 3
  | .program => 4

/-- Link down reasons (section 11.2, reason codes). -/
inductive DownReason where
  | retransmit
  | retrain
  | off
deriving DecidableEq, Repr

def DownReason.code : DownReason → Nat
  | .retransmit => 1
  | .retrain => 2
  | .off => 3

/-- Protocol error kinds (section 11.2, reason codes). -/
inductive ErrorKind where
  | reusedTag
  | malformed
deriving DecidableEq, Repr

def ErrorKind.code : ErrorKind → Nat
  | .reusedTag => 1
  | .malformed => 2

/-- Event kinds are numbered in the order of the kind table, from STARTUP = 1 (section 11.5). -/
def EventKind.code : EventKind → Nat
  | .startup => 1
  | .configFallback => 2
  | .recovery => 3
  | .lineDamaged => 4
  | .checkRetry => 5
  | .pageBad => 6
  | .badListFull => 7
  | .channelTimeout => 8
  | .channelOffline => 9
  | .channelOnline => 10
  | .programFail => 11
  | .eraseFail => 12
  | .commit => 13
  | .updateAborted => 14
  | .lockLost => 15
  | .portWarned => 16
  | .portReset => 17
  | .portQuarantined => 18
  | .bootWindowSkipped => 19
  | .linkDown => 20
  | .linkUp => 21
  | .protocolError => 22

/-- The operation kinds in the order of R88 (section 11.5). -/
def Work.kindCode : Work → Nat
  | .fill _ => 0
  | .verifyRead _ => 0
  | .configRead _ => 0
  | .headerRead _ => 0
  | .listRead _ => 0
  | .dataProgram _ _ => 1
  | .listProgram _ _ => 1
  | .configProgram _ => 1
  | .stageMark _ => 2
  | .sealMark _ => 2
  | .commitMark _ => 2
  | .retireMark _ => 2
  | .eraseMark => 2
  | .configErase _ => 3
  | .reclaimErase _ => 3
  | .deviceReset _ => 4

/-- The steps of PROGRAM_FAIL (section 11.5); work that no PROGRAM_FAIL names has the last code. -/
def Work.stepCode : Work → Nat
  | .stageMark _ => 0
  | .dataProgram _ _ => 1
  | .verifyRead _ => 2
  | .listProgram _ _ => 3
  | .sealMark _ => 4
  | .commitMark _ => 5
  | .retireMark _ => 6
  | .configErase _ => 7
  | .configProgram _ => 8
  | _ => 8

/-- An absent byte field holds all ones (section 11.1). -/
def optByte (o : Option Nat) : Nat := o.getD 0xFF

/-- An event entry's four words as READ_EVENTS returns it (section 11.5). -/
def Event.words (e : Event) : List Word :=
  [ e.seq,
    packWord e.body.kind.code (optByte (e.body.port.map Fin.val)) (optByte (e.body.slot.map Fin.val))
      (optByte (e.body.line.map Fin.val)),
    wordOf (e.body.page.getD 0xFFFF % 65536 + 65536 * e.body.code0.toNat + 16777216 * e.body.code1.toNat),
    e.body.detail ]

/-! ### Names -/

/-- A printable character of a name: 0x20 to 0x7E (section 11.3). -/
def printable (b : Byte) : Bool := 0x20 ≤ b.toNat && b.toNat ≤ 0x7E

/-- A name from its 8-byte field: 1 to 8 printable characters, then zero bytes to the end (R177, R190). -/
def parseName (b : List Byte) : Option Name :=
  let n := b.takeWhile (· != 0)
  if b.length = 8 ∧ n ≠ [] ∧ n.all printable ∧ (b.drop n.length).all (· == 0) then some n else none

/-- The 8-byte field of a name. -/
def nameField (n : Name) : List Byte := (n ++ List.replicate 8 0).take 8

/-- The two words of a name in a reply; all ones when absent. -/
def nameWords (n : Option Name) : List Word :=
  match n with
  | none => [wordOf 0xFFFFFFFF, wordOf 0xFFFFFFFF]
  | some n => [wordOf (field (nameField n) 0 4), wordOf (field (nameField n) 4 4)]

/-! ### Header records (section 11.3, R177, R190) -/

/-- A record closed by its record check over the bytes before it. -/
def withCheck (body : List Byte) : List Byte := body ++ wordBytes (crc32 body)

/-- The 24 bytes of a stage record. -/
def stageBytes (line : LineNo) (name : Name) (version : Word) (length : Nat) : List Byte :=
  withCheck ([0x01, byteOf line.val, 0, 0] ++ nameField name ++ wordBytes version ++ leBytes 4 length)

/-- The 16 bytes of a seal record. -/
def sealBytes (image listCheck : Word) : List Byte :=
  withCheck ([0x02, 0, 0, 0] ++ wordBytes image ++ wordBytes listCheck)

/-- The 8 bytes of a commit record. -/
def commitBytes (generation : Nat) : List Byte := withCheck ([0x03, 0] ++ leBytes 2 generation)

/-- The 8 bytes of a retire record. -/
def retireBytes (generation : Nat) : List Byte := withCheck ([0x04, 0] ++ leBytes 2 generation)

/-- The check of a present record holds: its kind byte, its record check, and an erased rest of the unit
(R190). `size` is the record's size. -/
def recordHolds (kind : Byte) (size : Nat) (unit : List Byte) : Bool :=
  unit.head? == some kind && wordOf (field unit (size - 4) 4) == crc32 (unit.take (size - 4)) &&
    erased (unit.drop size)

/-- The unit of a header page that holds record `k`: 0 stage, 1 seal, 2 commit, 3 retire (section 11.3). -/
def headerUnit (page : List Byte) (k : Nat) : List Byte := slice page (256 * k) 256

/-- The stage record of a header page, when valid (R177); `largest` is the largest image. -/
def readStage (largest : Nat) (page : List Byte) : Option StageRecord :=
  let u := headerUnit page 0
  let line := field u 1 1
  let length := field u 16 4
  match parseName (slice u 4 8) with
  | none => none
  | some name =>
    if h : line < 8 then
      if recordHolds 0x01 24 u ∧ length % 256 = 0 ∧ 256 ≤ length ∧ length ≤ largest then
        some { line := ⟨line, h⟩, name := name, version := wordOf (field u 12 4), length := length }
      else none
    else none

/-- The seal record of a header page, when valid: the image check and the check-list check (R177). -/
def readSeal (page : List Byte) : Option (Word × Word) :=
  let u := headerUnit page 1
  if recordHolds 0x02 16 u then some (wordOf (field u 4 4), wordOf (field u 8 4)) else none

/-- The commit record of a header page, when valid: its generation, 1 to 65535 (R177). -/
def readCommit (page : List Byte) : Option Nat :=
  let u := headerUnit page 2
  if recordHolds 0x03 8 u ∧ 1 ≤ field u 2 2 then some (field u 2 2) else none

/-- The retire record of a header page, when valid: the superseding generation, 2 to 65535 (R177). -/
def readRetire (page : List Byte) : Option Nat :=
  let u := headerUnit page 3
  if recordHolds 0x04 8 u ∧ 2 ≤ field u 2 2 then some (field u 2 2) else none

/-- Whether a record of a header page is present and invalid, `k` being its unit (R177, R190). -/
def recordInvalid (largest : Nat) (page : List Byte) (k : Nat) : Bool :=
  !erased (headerUnit page k) &&
    (match k with
     | 0 => (readStage largest page).isNone
     | 1 => (readSeal page).isNone
     | 2 => (readCommit page).isNone
     | _ => (readRetire page).isNone)

/-- The kind byte and the size of the header record in a unit of a header page (section 11.3). -/
def recordForm : Nat → Byte × Nat
  | 0 => (0x01, 24)
  | 1 => (0x02, 16)
  | 2 => (0x03, 8)
  | _ => (0x04, 8)

/-- Whether a record of a header page is present and its check does not hold, `k` being its unit (R190). -/
def recordFailsCheck (page : List Byte) (k : Nat) : Bool :=
  !erased (headerUnit page k) && !recordHolds (recordForm k).1 (recordForm k).2 (headerUnit page k)

/-! ### The configuration record (section 11.4, R173, R191) -/

/-- A boot window's 8 bytes. -/
def parseBootWindow (largest : Nat) (b : List Byte) : Option BootWindow :=
  let base := field b 0 3
  let sizeExp := field b 3 1
  let offset := field b 4 2 * 4096
  if 12 ≤ sizeExp ∧ sizeExp ≤ 22 ∧ base % 2 ^ sizeExp = 0 ∧ offset < largest ∧ field b 7 1 = 0 then
    some { base := base, size := 2 ^ sizeExp, offset := offset, line := field b 6 1 }
  else none

/-- The first `n` boot windows of a port record, when each is valid; those past the count are not examined. -/
def parseBootWindows (largest : Nat) : Nat → List Byte → Option (List BootWindow)
  | 0, _ => some []
  | n + 1, b =>
    match parseBootWindow largest (b.take 8), parseBootWindows largest n (b.drop 8) with
    | some w, some ws => some (w :: ws)
    | _, _ => none

/-- A port record's 48 bytes, when every field holds a value of its encoding (R173, R191). -/
def parsePort (largest : Nat) (b : List Byte) : Option PortConfig :=
  let flags := field b 0 1
  let count := field b 3 1
  let beat := field b 4 2
  let grace := field b 6 2
  let boot := field b 8 2
  let window := field b 10 2
  if flags < 32 ∧ 1 ≤ field b 1 1 ∧ 1 ≤ field b 2 1 ∧ field b 2 1 ≤ 15 ∧ count ≤ 4 ∧
      1 ≤ beat ∧ beat ≤ 1000 ∧ grace ≤ beat ∧ 10 ≤ boot ∧ boot ≤ 60000 ∧ 1 ≤ window ∧ window ≤ 600 ∧
      field b 12 1 ≤ 64 ∧ field b 13 1 ≤ 4 ∧ field b 14 2 = 0 then
    match parseBootWindows largest count (b.drop 16) with
    | none => none
    | some ws =>
      some
        { enabled := flags.testBit 0, supervised := flags.testBit 1, fetch := flags.testBit 2,
          update := flags.testBit 3, supervise := flags.testBit 4, resetHold := field b 1 1,
          restartLimit := field b 2 1, heartbeat := beat * 10, grace := grace * 10, bootTimeout := boot,
          restartWindow := window, preloadCount := field b 12 1, prefetchDepth := field b 13 1,
          bootWindows := ws }
  else none

/-- The largest image of a slot size: all of the slot but its first two pages (R2). -/
def largestImageOf (slotExp : Nat) : Nat := 2 ^ slotExp - 8192

/-- Bytes 4 to 199 of a configuration record, when they hold values in the ranges of R173. -/
def parseConfig (b : List Byte) : Option ConfigRecord :=
  let flashExp := field b 0 1
  let slotExp := field b 1 1
  let count := field b 2 1
  let idle := field b 3 1
  let largest := largestImageOf slotExp
  if b.length = 196 ∧ 20 ≤ flashExp ∧ flashExp ≤ 26 ∧ 18 ≤ slotExp ∧ slotExp ≤ 22 ∧ 1 ≤ count ∧ count ≤ 16 ∧
      count ≤ (2 ^ flashExp - 131072) / 2 ^ slotExp ∧ 1 ≤ idle ∧ idle ≤ 60 then
    match parsePort largest (slice b 4 48), parsePort largest (slice b 52 48),
        parsePort largest (slice b 100 48), parsePort largest (slice b 148 48) with
    | some p0, some p1, some p2, some p3 =>
      some { flashExp := flashExp, slotExp := slotExp, slotCount := count, idleTimeout := idle,
             ports := ⟨#[p0, p1, p2, p3], rfl⟩ }
    | _, _, _, _ => none
  else none

/-- The 204 bytes of a configuration record: the hub fills in the sequence and the check (R176, R191). -/
def configBytes (sequence : Nat) (body : List Byte) : List Byte := withCheck (leBytes 4 sequence ++ body)

/-- A configuration copy as its page reads, when valid: its sequence and its values (R173). -/
def readCopy (page : List Byte) : Option (Nat × ConfigRecord) :=
  let seq := field page 0 4
  if wordOf (field page 200 4) = crc32 (page.take 200) ∧ 1 ≤ seq then
    (parseConfig (slice page 4 196)).map (fun c => (seq, c))
  else none

/-- The defaults of R174, P0. -/
def PortConfig.defaultP0 : PortConfig :=
  { enabled := true, supervised := false, fetch := true, update := true, supervise := true, resetHold := 10,
    restartLimit := 15, heartbeat := 1000, grace := 0, bootTimeout := 10000, restartWindow := 600,
    preloadCount := 0, prefetchDepth := 2, bootWindows := [] }

/-- The defaults of R174: 16 MiB of flash, 15 slots of 1 MiB, an idle timeout of 10 s, P0 alone enabled. Of P1 to P3
R174 states only that they are not enabled; they have no right and zeros (DESIGN CHOICE, log 48). -/
def ConfigRecord.defaults : ConfigRecord :=
  { flashExp := 24, slotExp := 20, slotCount := 15, idleTimeout := 10,
    ports := tset (Vector.replicate 4 PortConfig.unchosen) 0 PortConfig.defaultP0 }

end Sys2Proof.Machine
end

