-- ==== Sys2Proof/Machine/Ops.lean ====
section
/-!
DEFINITION. The named operations the meanings are written over: the flash memory, the records of State, the
event record, notices, tags and replies, the passing of time, and the beginning of a start.
-/

namespace Sys2Proof.Machine

/-! ### The flash memory: bytes by address, unlisted addresses erased (log 4) -/

/-- What an unlisted address reads as: the erased value (spec/11 section 11.1). -/
def Memory.unlisted : Byte := 0xFF

/-- The byte at an address. -/
def Memory.read : List Host.Cell → Nat → Byte
  | [], _ => Memory.unlisted
  | c :: m, a => if c.1 = a then c.2 else Memory.read m a

/-- The memory with the byte at an address replaced, in canonical form again. -/
def Memory.write : List Host.Cell → Nat → Byte → List Host.Cell
  | [], a, v => if v = Memory.unlisted then [] else [(a, v)]
  | c :: m, a, v =>
    if a < c.1 then (if v = Memory.unlisted then c :: m else (a, v) :: c :: m)
    else if a = c.1 then (if v = Memory.unlisted then m else (a, v) :: m)
    else c :: Memory.write m a v

/-- The canonical form: addresses strictly rising, and no entry equal to the erased value. -/
abbrev Memory.wf (m : List Host.Cell) : Prop :=
  m.Pairwise (fun c d => c.1 < d.1) ∧ ∀ c ∈ m, c.2 ≠ Memory.unlisted

/-- The bytes at `n` addresses from `a`. -/
def Memory.range (m : List Host.Cell) (a n : Nat) : List Byte :=
  (List.range n).map (fun i => Memory.read m (a + i))

/-- Programming: it can only change bits from one to zero (R88). -/
def Memory.program : List Host.Cell → Nat → List Byte → List Host.Cell
  | m, _, [] => m
  | m, a, b :: bs => Memory.program (Memory.write m a (Memory.read m a &&& b)) (a + 1) bs

/-- Erasing a 64 KiB block to all ones (R88). -/
def Memory.eraseBlock (m : List Host.Cell) (block : Nat) : List Host.Cell :=
  m.filter (fun c => c.1 / 65536 != block)

/-- Bytes written whatever was there: what an interrupted erase can leave. -/
def Memory.fill : List Host.Cell → Nat → List Byte → List Host.Cell
  | m, _, [] => m
  | m, a, b :: bs => Memory.fill (Memory.write m a b) (a + 1) bs

/-- The 4 KiB of a flash page. -/
def Memory.page (m : List Host.Cell) (pg : Nat) : List Byte := Memory.range m (4096 * pg) 4096

/-- A page as the device returned it: what is stored, with the read's errors. -/
def withErrors (d : List Byte) (e : ReadErrors) : List Byte :=
  e.foldl (fun d x => d.modify x.1 (fun b => b ^^^ x.2)) d

/-! ### Records of State -/

namespace State

/-- The record kept for a port. -/
def port (s : State) (p : Port) : PortRecord := tget s.ports p

/-- A line record. -/
def line (s : State) (l : LineNo) : Line := tget s.lines l

/-- A slot record. -/
def slot (s : State) (n : SlotNo) : Slot := tget s.slots n

/-- A frame. -/
def frame (s : State) (f : FrameNo) : Frame := tget s.frames f

/-- The configured values of a port (R133). -/
def portCfg (s : State) (p : Port) : PortConfig := tget s.cfg.ports p

/-- The working record of a line's lock (R110). -/
def work (s : State) (l : LineNo) : Option LockWork := tget s.upd.work l

/-- The commit sequence of a line (R110). -/
def sequence (s : State) (l : LineNo) : Option CommitRun := tget s.upd.sequences l

def modPort (p : Port) (f : PortRecord → PortRecord) (s : State) : State :=
  { s with ports := tset s.ports p (f (s.port p)) }

def modLine (l : LineNo) (f : Line → Line) (s : State) : State :=
  { s with lines := tset s.lines l (f (s.line l)) }

def modSlot (n : SlotNo) (f : Slot → Slot) (s : State) : State :=
  { s with slots := tset s.slots n (f (s.slot n)) }

def modFrame (n : FrameNo) (f : Frame → Frame) (s : State) : State :=
  { s with frames := tset s.frames n (f (s.frame n)) }

def modLink (p : Port) (f : Link → Link) : State → State :=
  modPort p (fun r => { r with link := f r.link })

def modSup (p : Port) (f : Supervision → Supervision) : State → State :=
  modPort p (fun r => { r with sup := f r.sup })

def modReadTag (p : Port) (t : ReadTag) (f : ReadTagRecord → ReadTagRecord) : State → State :=
  modPort p (fun r => { r with readTags := tset r.readTags t (f (tget r.readTags t)) })

def modCmdTag (p : Port) (t : CmdTag) (f : CmdTagRecord → CmdTagRecord) : State → State :=
  modPort p (fun r => { r with cmdTags := tset r.cmdTags t (f (tget r.cmdTags t)) })

def modChan (f : Channel → Channel) (s : State) : State := { s with chan := f s.chan }

def modFill (f : FillEngine → FillEngine) (s : State) : State := { s with fill := f s.fill }

def modUpd (f : UpdateWriter → UpdateWriter) (s : State) : State := { s with upd := f s.upd }

def modStart (f : StartUp → StartUp) (s : State) : State := { s with start := f s.start }

def setWork (l : LineNo) (w : Option LockWork) : State → State :=
  modUpd (fun u => { u with work := tset u.work l w })

def setSequence (l : LineNo) (c : Option CommitRun) : State → State :=
  modUpd (fun u => { u with sequences := tset u.sequences l c })

/-- A read tag's record. -/
def readTag (s : State) (p : Port) (t : ReadTag) : ReadTagRecord := tget (s.port p).readTags t

/-- A command tag's record. -/
def cmdTag (s : State) (p : Port) (t : CmdTag) : CmdTagRecord := tget (s.port p).cmdTags t

/-- A window of a port. -/
def window (s : State) (p : Port) (w : WindowNo) : Option Binding := tget (s.port p).windows w

def setWindow (p : Port) (w : WindowNo) (b : Option Binding) : State → State :=
  modPort p (fun r => { r with windows := tset r.windows w b })

/-- The hub runs: it has power and its reset input is released (R170). -/
def live (s : State) : Bool := s.powered && !s.resetInput

/-- A step of the running hub; without power, or with its reset input asserted, it takes nothing (R170). -/
def whenLive (s : State) (f : State → State) : State := if s.live then f s else s

/-- Start-up is complete (R182). -/
def started (s : State) : Bool := s.start.phase == .done

/-- The flash channel is OFFLINE (R87). -/
def offline (s : State) : Bool := s.chan.state == .offline

/-- The requesting port is HELD, PRELOADING or QUARANTINED, the condition of PORT_HELD. -/
def portHeld (s : State) (p : Port) : Bool :=
  match (s.port p).sup.state with
  | .held => true
  | .preloading => true
  | .quarantined => true
  | _ => false

/-- The port is OFF (R134). -/
def portOff (s : State) (p : Port) : Bool := (s.port p).sup.state == .off

/-- All ports, P0 first. -/
def allPorts : List Port := tall 4

/-- All lines, L0 first. -/
def allLines : List LineNo := tall 8

/-- All slots, S0 first. -/
def allSlots : List SlotNo := tall 16

/-- All frames, F0 first. -/
def allFrames : List FrameNo := tall 128

/-! ### The event record (R186) -/

/-- Appends an event: it takes the counter's value, the counter rises by 1, and of 64 entries held the
oldest is removed. -/
def log (e : EventBody) (s : State) : State :=
  let all := s.events.entries ++ [{ seq := s.events.next, body := e }]
  { s with events := { entries := if all.length ≤ 64 then all else all.drop 1, next := s.events.next + 1 } }

/-! ### Readiness, notices and replies (spec/08) -/

/-- Whether an entry is the WAITING NEW_GENERATION that a notice merges into (R166). -/
def mergesInto (n : Notice) (e : NoticeEntry) : Bool :=
  n.kind == .newGeneration && !e.sent && e.notice.kind == .newGeneration && e.notice.subject == n.subject

/-- The queue with the oldest entry a notice merges into given the notice's value (R166, log 18). -/
def mergeNotice (n : Notice) : List NoticeEntry → List NoticeEntry
  | [] => []
  | e :: es =>
    if mergesInto n e then { e with notice := { e.notice with value := n.value } } :: es
    else e :: mergeNotice n es

/-- A notice handed to a port's link: merged, discarded for an OFF port, queued, or counted lost (R165). -/
def hand (p : Port) (n : Notice) (s : State) : State :=
  let r := s.port p
  if r.notices.any (mergesInto n) then s.modPort p (fun r => { r with notices := mergeNotice n r.notices })
  else if r.sup.state = .off then s
  else if r.notices.length < 8 then
    s.modPort p (fun r =>
      { r with notices := r.notices ++ [{ notice := n, sent := false, readyAt := r.nextReady }],
               nextReady := r.nextReady + 1 })
  else s.modPort p (fun r => { r with lost := min 255 (r.lost + 1) })

/-- A notice handed to each of some ports in turn. -/
def handAll (n : Notice) : List Port → State → State
  | [], s => s
  | p :: ps, s => handAll n ps (s.hand p n)

/-- The ports with the SUPERVISE right (R163: as the configuration chosen at the last start gives them; no
port holds a right before the hand-over, R172). -/
def supervisors (s : State) : List Port :=
  allPorts.filter (fun p => s.started && (s.portCfg p).supervise)

/-- A read tag becomes READY with a status (R77). -/
def readReady (p : Port) (t : ReadTag) (st : Status) (s : State) : State :=
  s.modPort p (fun r =>
    { r with readTags := tset r.readTags t
               { tget r.readTags t with state := .ready, status := some st, readyAt := some r.nextReady },
             nextReady := r.nextReady + 1 })

/-- An owning block answers a command (R164): an OPEN tag becomes READY with the status and the result words;
a DISCARD tag becomes FREE, its reply dropped. -/
def answer (p : Port) (t : CmdTag) (st : Status) (res : List Word) (s : State) : State :=
  match (s.cmdTag p t).state with
  | .opened =>
    s.modPort p (fun r =>
      { r with cmdTags := tset r.cmdTags t
                 { tget r.cmdTags t with state := .ready, status := some st, result := res, args := [],
                                         readyAt := some r.nextReady },
               nextReady := r.nextReady + 1 })
  | .discard => s.modCmdTag p t (fun _ => CmdTagRecord.reset)
  | .free => s
  | .ready => s

/-- The answer to a command in progress, when there is one. -/
def answerTo (c : Option (Port × CmdTag)) (st : Status) (res : List Word) (s : State) : State :=
  match c with
  | none => s
  | some (p, t) => s.answer p t st res

/-- A packet put on the link towards a master (log 25). -/
def put (p : Port) (x : Packet) : State → State :=
  modPort p (fun r => { r with wire := r.wire ++ [x] })

/-- The reply of an accepted RESTART_HUB (R171); a refused one restarts nothing. -/
def restartReply (r : CmdTagRecord) : Bool := r.command == some .restartHub && r.status == some .ok

/-- A command reply formed and waiting for the link is dropped and its tag becomes free (R159, R145); a
dropped reply of an accepted RESTART_HUB begins the hub restart (R171, log 14). -/
def dropCmdReply (p : Port) (t : CmdTag) (s : State) : State :=
  let dropped := restartReply (s.cmdTag p t)
  let s := s.modCmdTag p t (fun _ => CmdTagRecord.reset)
  if dropped then { s with hubRestart := .dropped } else s

/-! ### Time (log 1) -/

/-- A running timer after `d` microseconds. -/
def timerAfter (d : Nat) (t : Option Nat) : Option Nat := t.map (· - d)

/-- A supervision timer after `d` microseconds. -/
def supTimerAfter (d : Nat) : SupTimer → SupTimer
  | .stopped => .stopped
  | .resetHold n => .resetHold (n - d)
  | .bootTimeout n => .bootTimeout (n - d)
  | .deadline n => .deadline (n - d)
  | .grace n => .grace (n - d)

/-- An erase record after `d` microseconds of erasing (R97). -/
def eraseAfter (d : Nat) (e : EraseRecord) : EraseRecord :=
  { e with eraseTime := e.eraseTime + d, run := e.run + d,
           ackLeft := if e.phase = .suspending then e.ackLeft - d else e.ackLeft }

/-- The running operation after `d` microseconds (R98). -/
def operationAfter (d : Nat) (o : Operation) : Operation :=
  { o with left := o.left - d, erase := o.erase.map (eraseAfter d) }

/-- A port's timers after `d` microseconds. -/
def portAfter (d : Nat) (r : PortRecord) : PortRecord :=
  { r with link := { r.link with ackTimer := timerAfter d r.link.ackTimer,
                                 trainTimer := timerAfter d r.link.trainTimer },
           sup := { r.sup with timer := supTimerAfter d r.sup.timer } }

/-- A line's idle timer after `d` microseconds (R119). -/
def lineAfter (d : Nat) (l : Line) : Line :=
  { l with lock := l.lock.map (fun k => { k with idle := timerAfter d k.idle }) }

/-- `d` microseconds pass: every running timer counts down, and a held erase's time stands still (R97). -/
def advance (d : Nat) (s : State) : State :=
  { s with clock := s.clock + d, ports := tmap (portAfter d) s.ports, lines := tmap (lineAfter d) s.lines,
           chan := { s.chan with op := s.chan.op.map (operationAfter d) },
           start := { s.start with wait := timerAfter d s.start.wait } }

/-! ### Free values (log 5, log 6) -/

/-- A token drawn (R140): a free value, kept within its bounds: not 0 and not the token it replaces. -/
def boundToken (t : BitVec 16) (old : Option (BitVec 16)) : BitVec 16 :=
  if t ≠ 0 ∧ some t ≠ old then t else if old = some 1 then 2 else 1

/-- One more free value has been drawn. -/
def drawn (s : State) : State := { s with draws := s.draws + 1 }

/-- Free bytes at addresses from `a`, for the present draw. -/
def freeBytes (draw a n : Nat) : List Byte := (List.range n).map (fun i => Config.freeByte draw (a + i))

/-! ### The beginning of a start (R170) -/

/-- Every block takes its after-start values; at a cold start the event record is cleared, at a hub restart it
keeps its entries and its sequence. The flash, the time passed, the free values drawn, the packets already
sent and the waiting commands stay. The start-up controller enters RESET and presents a DEVICE_RESET, which
the channel grants. -/
def afterStart (kind : StartKind) (s : State) : State :=
  { State.reset with
    clock := s.clock, draws := s.draws, flash := s.flash, pending := s.pending,
    ports := tmap (fun r => { PortRecord.reset with wire := r.wire }) s.ports,
    start := { StartUp.reset with kind := kind },
    events := match kind with
      | .cold => EventRecord.reset
      | .restart => s.events }

end State

end Sys2Proof.Machine
end

