-- ==== Sys2Proof/Machine/Operands.lean ====
section
/-!
DEFINITION. The operands: slot geometry (R2), the ranges of command arguments, and the translation of a port
address (R34 to R36).
-/

namespace Sys2Proof.Machine

namespace State

/-! ### Slot geometry (R2) -/

/-- The slot size in bytes; 0 before a configuration is chosen. -/
def slotSize (s : State) : Nat := if s.cfg.slotExp = 0 then 0 else 2 ^ s.cfg.slotExp

/-- Pages per slot. -/
def slotPages (s : State) : Nat := s.slotSize / 4096

/-- Blocks per slot. -/
def slotBlocks (s : State) : Nat := s.slotSize / 65536

/-- The largest image: the slot but for its header page and its check list page. -/
def largestImage (s : State) : Nat := s.slotSize - 8192

/-- The first byte of a slot: 128 KiB + n × slot size. -/
def slotBase (s : State) (n : SlotNo) : Nat := 131072 + n.val * s.slotSize

/-- The first page of a slot: 32 + n × (slot size ÷ 4 KiB). -/
def slotPage (s : State) (n : SlotNo) : Nat := 32 + n.val * s.slotPages

/-- The flash page of a data page of a slot: data pages begin at the slot's third page (R2, R36). -/
def dataPage (s : State) (n : SlotNo) (i : Nat) : Nat := s.slotPage n + 2 + i

/-- The data page index of a flash page of a slot. -/
def dataIndex (s : State) (n : SlotNo) (pg : Nat) : Nat := pg - (s.slotPage n + 2)

/-- The image length of a slot; 0 where the slot has none. -/
def imageLength (s : State) (n : SlotNo) : Nat := (s.slot n).length.getD 0

/-- The data page count of a slot: ⌈length ÷ 4096⌉ (R2). -/
def dataPages (s : State) (n : SlotNo) : Nat := (s.imageLength n + 4095) / 4096

/-- The slots of the configuration, S0 first (R2: those beyond the slot count do not exist). -/
def existingSlots (s : State) : List SlotNo := allSlots.filter (fun n => n.val < s.cfg.slotCount)

/-! ### Arguments -/

/-- A line number argument: L0 to L7. -/
def lineArg (w : Word) : Option LineNo := if h : w.toNat < 8 then some ⟨w.toNat, h⟩ else none

/-- A port number argument: 0 to 3. -/
def portArg (w : Word) : Option Port := if h : w.toNat < 4 then some ⟨w.toNat, h⟩ else none

/-- A window number argument: 0 to 3. -/
def windowArg (w : Word) : Option WindowNo := if h : w.toNat < 4 then some ⟨w.toNat, h⟩ else none

/-- A slot number argument: below the configured slot count (R184). -/
def slotArg (s : State) (w : Word) : Option SlotNo :=
  if h : w.toNat < 16 then if w.toNat < s.cfg.slotCount then some ⟨w.toNat, h⟩ else none else none

/-- The sizes a window may have: powers of two from 4 KiB to 4 MiB (R27). -/
def windowSizes : List Nat := (List.range 11).map (fun i => 2 ^ (12 + i))

/-- The checks of R29 step 2 on base, size, line and image offset; the line when they all pass. -/
def bindArgs (s : State) (base size line offset : Nat) : Option LineNo :=
  if base < 16777216 ∧ size ∈ windowSizes ∧ base % size = 0 ∧ offset % 4096 = 0 ∧ offset < s.largestImage then
    if h : line < 8 then some ⟨line, h⟩ else none
  else none

/-- Whether a range of port addresses shares any with the range of a BOUND window of the port (R29). -/
def overlaps (s : State) (p : Port) (base size : Nat) : Bool :=
  (s.port p).windows.toList.any (fun w =>
    match w with
    | none => false
    | some b => decide (base < b.base + b.size) && decide (b.base < base + size))

/-! ### Translation (R34 to R36) -/

/-- The BOUND window of a port whose range holds an address (R34). -/
def windowAt (s : State) (p : Port) (a : Nat) : Option (WindowNo × Binding) :=
  match tfind (fun w => match w with
      | none => false
      | some b => decide (b.base ≤ a) && decide (a < b.base + b.size)) (s.port p).windows with
  | none => none
  | some w => (s.window p w).map (fun b => (w, b))

/-- The translation of an address and a length in bytes: the slot and the image offset of the first byte, or
the refusal. -/
def translate (s : State) (p : Port) (a n : Nat) : Except Status (SlotNo × Nat) :=
  match s.windowAt p a with
  | none => .error .noWindow
  | some (_, b) =>
    let d := a - b.base
    if b.size < d + n then .error .outOfWindow
    else if s.imageLength b.slot < b.offset + d + n then .error .outOfImage
    else .ok (b.slot, b.offset + d)

/-! ### Rights (R163) -/

/-- The rights a configuration gives (spec/00). -/
inductive Right where
  | none
  | fetch
  | update
  | supervise
deriving DecidableEq, Repr

/-- Whether a port holds a right. -/
def hasRight (s : State) (p : Port) (r : Right) : Bool :=
  match r with
  | .none => true
  | .fetch => (s.portCfg p).fetch
  | .update => (s.portCfg p).update
  | .supervise => (s.portCfg p).supervise

end State

end Sys2Proof.Machine
end

