-- ==== Sys2Proof/Machine/Device.lean ====
section
/-!
DEFINITION. What the flash device does with an operation, by how the operation ended, and the channel's own
part of an end (spec/05).

What an interrupted or failed program or erase leaves is free, within the bounds the rules give (log 5).
-/

namespace Sys2Proof.Machine

/-- The outcome of an operation, as its requester hears it (R89). -/
inductive OpOutcome where
  | done
  | deviceFail
  | timeout
  | lost
deriving DecidableEq, Repr

/-- How an operation ended at the device. -/
inductive DeviceEnd where
  | done
  | failed
  | timedOut
  | abandoned
  | powerLost
deriving DecidableEq, Repr

/-- What an operation does to the flash when it runs to its end (R88). -/
inductive FlashUse where
  | nothing
  | programs
  | erases
deriving DecidableEq, Repr

/-- What an operation of some work does to the flash. -/
def Work.flashUse (w : Work) : FlashUse :=
  match w.kindCode with
  | 1 => .programs
  | 2 => .programs
  | 3 => .erases
  | _ => .nothing

/-- The header record in whose unit a mark programs: 0 stage, 1 seal, 2 commit, 3 retire (section 11.3); the erase mark
is a byte of the stage record's unit (R108). -/
def Work.headerRecord : Work → Option Nat
  | .stageMark _ => some 0
  | .sealMark _ => some 1
  | .commitMark _ => some 2
  | .retireMark _ => some 3
  | .eraseMark => some 0
  | _ => none

/-- The bytes whose state an interrupted program leaves unknown: the erase mark's one byte, else the unit
(R99). -/
def Work.reach : Work → Nat
  | .eraseMark => 1
  | _ => 256

/-- Whether an operation is one of the configuration writer's. -/
def Work.ofConfig : Work → Bool
  | .configErase _ => true
  | .configProgram _ => true
  | _ => false

namespace State

/-- The flash after a program that was cut: bits may have gone from one to zero, and no others (R88, R99). -/
def cutBytes (o : Operation) (s : State) : List Host.Cell :=
  Memory.program s.flash o.addr (freeBytes s.draws o.addr o.work.reach)

/-- Whether a cut mark may leave a header page so: the record of its unit is present and invalid where the record's
program failed at the device (R177), and present and failing its check or its trailing-erased test where a program was
cut by a loss of power (R190), the erase mark's taken among them (DEDUCED, log 56). -/
def mayLeave (h : DeviceEnd) (w : Work) (largest : Nat) (page : List Byte) (k : Nat) : Bool :=
  match h with
  | .failed => w == .eraseMark || recordInvalid largest page k
  | .powerLost => recordFailsCheck page k
  | .done => true
  | .timedOut => true
  | .abandoned => true

/-- The flash after a program that was cut, within its bounds: a header page is left as `mayLeave` says, and a
configuration copy whose write a start or a loss of power cut fails its check (R176). -/
def cutProgram (h : DeviceEnd) (o : Operation) (s : State) : List Host.Cell :=
  let m := s.cutBytes o
  match o.work.headerRecord with
  | some k =>
    if mayLeave h o.work s.largestImage (Memory.page m (o.addr / 4096)) k then m
    else Memory.program m o.addr [0]
  | none =>
    if o.work.ofConfig ∧ (h = .abandoned ∨ h = .powerLost) ∧
        (readCopy (Memory.page m (o.addr / 4096))).isSome then
      Memory.program m o.addr (List.replicate 204 0)
    else m

/-- A cut erase leaves its block in an unknown state (R99). -/
def cutErase (o : Operation) (s : State) : List Host.Cell :=
  Memory.fill s.flash o.addr (freeBytes s.draws o.addr 65536)

/-- A cut erase within its bounds: a slot's header page is never left blank, nor with a stage record that
passes its test (R107, R108, R178), and a configuration copy is left failing its check (R176). -/
def cutEraseBound (o : Operation) (s : State) : List Host.Cell :=
  let m := s.cutErase o
  let pg := Memory.page m (o.addr / 4096)
  if o.work.ofConfig then (if (readCopy pg).isSome then Memory.eraseBlock s.flash (o.addr / 65536) else m)
  else
    match o.slot with
    | none => m
    | some n =>
      if o.addr ≠ s.slotBase n ∨ (erased pg = false ∧ readStage s.largestImage pg = none) then m
      else Memory.fill m o.addr (Memory.page s.flash (o.addr / 4096))

/-- The flash after an operation ended at the device. A cut draws free bytes. -/
def deviceEffect (h : DeviceEnd) (o : Operation) (s : State) : State :=
  match o.work.flashUse, h with
  | .nothing, _ => s
  | .programs, .done => { s with flash := Memory.program s.flash o.addr o.data }
  | .programs, _ => { s with flash := s.cutProgram h o }.drawn
  | .erases, .done => { s with flash := Memory.eraseBlock s.flash (o.addr / 65536) }
  | .erases, _ => { s with flash := s.cutEraseBound o }.drawn

/-- An operation ends with a device answer: the count returns to 0, and the channel becomes IDLE unless an
erase is held (R89, R96). -/
def endOp : State → State :=
  modChan (fun c =>
    { c with op := none, timeouts := 0, state := if c.state = .busy then .idle else c.state })

/-- The page a flash read returns: what is stored, with the read's errors (log 4). -/
def pageRead (o : Operation) (e : ReadErrors) (s : State) : List Byte :=
  withErrors (Memory.page s.flash (o.addr / 4096)) e

/-- The device's end of a program or an erase that it answered. -/
def deviceAnswer (pass : Bool) : DeviceEnd := if pass then .done else .failed

/-- The outcome of a program or an erase that the device answered (R89, R102). -/
def answered (pass : Bool) : OpOutcome := if pass then .done else .deviceFail

/-- PROGRAM_FAIL for an operation: its slot, the flash page of its target, its step, and whether the device
or the channel failed (R113, R176). The LOST of a request waiting at OFFLINE is not logged (R113). -/
def logProgramFail (o : Operation) (out : OpOutcome) (s : State) : State :=
  match out with
  | .done => s
  | .lost => s
  | .deviceFail =>
    s.log { kind := .programFail, slot := o.slot, page := some (o.addr / 4096),
            detail := packWord o.work.stepCode 0 0 0 }
  | .timeout =>
    s.log { kind := .programFail, slot := o.slot, page := some (o.addr / 4096),
            detail := packWord o.work.stepCode 1 0 0 }

/-! ### The beginning of a start -/

/-- The operations on the device, the running one and the held one, are abandoned without an outcome. A configuration
write whose erase still waits for its grant has no operation there and leaves its target as it was (DESIGN CHOICE,
log 54). -/
def abandonOps (h : DeviceEnd) (s : State) : State :=
  let op := s.chan.op
  let held := s.chan.suspended
  let s := match op with
    | none => s
    | some o => s.deviceEffect h o
  match held with
  | none => s
  | some o => s.deviceEffect h o

/-- A start begins (R170): the running operation is abandoned and every block takes its after-start values. -/
def beginStart (kind : StartKind) (s : State) : State := (s.abandonOps .abandoned).afterStart kind

end State

end Sys2Proof.Machine
end

