-- ==== Sys2Proof/Machine/Directory.lean ====
section
/-!
DEFINITION. The image directory (spec/01): pins, the transitions of a slot, locks, and the commit switch, with
the two requests a slot's DIRTY transition makes of the shadow store and of the fill engine.
-/

namespace Sys2Proof.Machine

namespace State

/-! ### Frames and bad pages given up with a slot (R19, R52, R60) -/

/-- A frame of a slot made FREE; any other frame as it is. -/
def freedOf (n : SlotNo) (f : Frame) : Frame := if f.slot = some n then Frame.reset else f

/-- The shadow store frees every frame that holds a page of a slot (R52). -/
def freeFramesOf (n : SlotNo) (s : State) : State :=
  { s with age := s.age.filter (fun f => (s.frame f).slot != some n), frames := tmap (freedOf n) s.frames }

/-- The fill engine removes every bad-page entry of a slot (R60). -/
def dropBadPages (n : SlotNo) : State → State :=
  modFill (fun f => { f with badPages := f.badPages.filter (fun b => b.slot != n) })

/-! ### Transitions -/

/-- A slot enters DIRTY: its frames are freed, its bad-page entries removed and its check list dropped; it
keeps its other fields (R19). -/
def toDirty (n : SlotNo) (s : State) : State :=
  (s.modSlot n (fun r => { r with state := .dirty, checkList := none })).freeFramesOf n |>.dropBadPages n

/-- A slot goes to BAD: its line, name, version, length and generation are absent (R7, R15, R21). -/
def toBad (n : SlotNo) : State → State :=
  modSlot n (fun r =>
    { r with state := .bad, line := none, name := none, version := none, length := none, generation := none,
             checkList := none })

/-- An ERASING slot goes back to DIRTY after a channel failure (R20). -/
def eraseFailed (n : SlotNo) : State → State := toDirty n

/-- The header block of an ERASING slot is erased (R20). -/
def toEmpty (n : SlotNo) : State → State := modSlot n (fun _ => Slot.reset)

/-! ### Pins (R9 to R11) -/

/-- A slot's pin count (R9). -/
def pinCount (r : Slot) : Nat := r.windowPins + r.segmentPins + r.fillPins

/-- Pins are allowed on a CURRENT or RETIRED slot (R10). -/
def pinnable (r : Slot) : Bool := r.state == .current || r.state == .retired

/-- After an unpin: a RETIRED slot left with a pin count of 0 goes to DIRTY (R11). -/
def afterUnpin (n : SlotNo) (s : State) : State :=
  if (s.slot n).state = .retired ∧ pinCount (s.slot n) = 0 then s.toDirty n else s

/-- A window unpin (R11). -/
def windowUnpin (n : SlotNo) (s : State) : State :=
  (s.modSlot n (fun r => { r with windowPins := r.windowPins - 1 })).afterUnpin n

/-- A segment unpin (R11). -/
def segmentUnpin (n : SlotNo) (s : State) : State :=
  (s.modSlot n (fun r => { r with segmentPins := r.segmentPins - 1 })).afterUnpin n

/-- A fill unpin (R11). -/
def fillUnpin (n : SlotNo) (s : State) : State :=
  (s.modSlot n (fun r => { r with fillPins := r.fillPins - 1 })).afterUnpin n

/-- A segment pin; refused, and nothing changes, on a slot that is neither CURRENT nor RETIRED (R10). -/
def segmentPin (n : SlotNo) (s : State) : Option State :=
  if pinnable (s.slot n) then some (s.modSlot n (fun r => { r with segmentPins := r.segmentPins + 1 })) else none

/-- A fill pin (R10). -/
def fillPin (n : SlotNo) (s : State) : Option State :=
  if pinnable (s.slot n) then some (s.modSlot n (fun r => { r with fillPins := r.fillPins + 1 })) else none

/-- A bind pin (R10): on an ACTIVE line it pins the current slot and returns it with the generation;
otherwise nothing changes and the line state is answered as NO_LINE or DAMAGED. -/
def bindPin (l : LineNo) (s : State) : Except Status (SlotNo × Nat × State) :=
  match (s.line l).state, (s.line l).current with
  | .active, some n =>
    .ok (n, (s.line l).generation, s.modSlot n (fun r => { r with windowPins := r.windowPins + 1 }))
  | .damaged, _ => .error .damaged
  | _, _ => .error .noLine

/-- A rebind (R10): when the line's generation is above the named slot's, one window pin moves from the named
slot to the current slot, and the current slot and generation are returned. -/
def rebindPin (l : LineNo) (n : SlotNo) (s : State) : Option (SlotNo × Nat × State) :=
  match (s.line l).current with
  | none => none
  | some c =>
    if (s.slot n).generation.getD 0 < (s.line l).generation then
      some (c, (s.line l).generation,
        (s.modSlot c (fun r => { r with windowPins := r.windowPins + 1 })).windowUnpin n)
    else none

/-! ### Locks (R24) -/

/-- The line whose lock a port holds. -/
def lockOf (s : State) (p : Port) : Option LineNo :=
  tfind (fun l => match l.lock with
    | none => false
    | some k => k.holder == p) s.lines

/-- The lock record of a line is removed. -/
def unlock (l : LineNo) : State → State := modLine l (fun r => { r with lock := none })

/-- The idle timer of a line's lock is started at the configured idle timeout (R119). -/
def startIdle (l : LineNo) (s : State) : State :=
  s.modLine l (fun r =>
    { r with lock := r.lock.map (fun k => { k with idle := some (s.cfg.idleTimeout * 1000000) }) })

/-- The idle timer of a line's lock is stopped (R119). -/
def stopIdle (l : LineNo) : State → State :=
  modLine l (fun r => { r with lock := r.lock.map (fun k => { k with idle := none }) })

/-- The lowest-numbered EMPTY slot (R12). -/
def emptySlot (s : State) : Option SlotNo := s.existingSlots.find? (fun n => (s.slot n).state == .empty)

/-! ### The commit switch (R16) -/

/-- Whether a port has at least one BOUND window on a line (R38). -/
def boundOn (s : State) (l : LineNo) (p : Port) : Bool :=
  (s.port p).windows.toList.any (fun w => match w with
    | none => false
    | some b => b.line == l)

/-- The slot that was current leaves the line: RETIRED while it is pinned, else DIRTY; its reclaim hold is set
until its retire mark ends (R16, R126). -/
def supersede (n : SlotNo) (s : State) : State :=
  let s := s.modSlot n (fun r => { r with reclaimHold := true })
  if 0 < pinCount (s.slot n) then s.modSlot n (fun r => { r with state := .retired }) else s.toDirty n

/-- The commit switch of a line with a pending slot, as one claim. -/
def commitSwitch (l : LineNo) (s : State) : State :=
  match (s.line l).pending with
  | none => s
  | some n =>
    let g := (s.line l).generation + 1
    let old := (s.line l).current
    let told := allPorts.filter (s.boundOn l)
    let s := s.modSlot n (fun r => { r with state := .current, generation := some g })
    let s := s.modLine l (fun r =>
      { r with state := .active, name := (s.slot n).name, current := some n, pending := none, generation := g,
               version := (s.slot n).version })
    let s := match old with
      | none => s
      | some o => s.supersede o
    let s := s.handAll { kind := .newGeneration, subject := some l.val, value := wordOf g } told
    s.log { kind := .commit, slot := some n, line := some l, code0 := byteOf g, code1 := byteOf (g / 256),
            detail := (s.slot n).version.getD 0 }

/-- A pending slot leaves its line by ABORT_UPDATE or by a channel failure of its commit record (R18). -/
def dropPending (l : LineNo) (n : SlotNo) (s : State) : State :=
  (s.modLine l (fun r => { r with pending := none })).toDirty n

/-- A pending slot goes to BAD by a device failure of its commit record (R15). -/
def badPending (l : LineNo) (n : SlotNo) (s : State) : State :=
  (s.modLine l (fun r => { r with pending := none })).toBad n

end State

end Sys2Proof.Machine
end

