-- ==== Sys2Proof/Machine/ReadEngine.lean ====
section
/-!
DEFINITION. The read engine's segment table and the end of a request (spec/04 sections 4.2, 4.4 and 4.5).
-/

namespace Sys2Proof.Machine

namespace State

/-- A segment's entry (R66). -/
def segment (s : State) (id : SegId) : Option Segment := s.segments.find? (fun g => g.id == id)

/-- A segment's entry changed. -/
def modSegment (id : SegId) (f : Segment → Segment) (s : State) : State :=
  { s with segments := s.segments.map (fun g => if g.id = id then f g else g) }

/-- Whether an entry belongs to a request. -/
def ofRequest (p : Port) (t : ReadTag) (g : Segment) : Bool := g.id.port == p && g.id.tag == t

/-- One segment unpin for each of some entries. -/
def unpinSegments : List Segment → State → State
  | [], s => s
  | g :: gs, s => unpinSegments gs (s.segmentUnpin g.slot)

/-- A request's entries are removed with one segment unpin each (R78, R80). -/
def releaseRequest (p : Port) (t : ReadTag) (s : State) : State :=
  unpinSegments (s.segments.filter (ofRequest p t))
    { s with segments := s.segments.filter (fun g => !ofRequest p t g) }

/-- A request ends without a reply: its entries are released and its tag becomes FREE (R80). -/
def dropRequest (p : Port) (t : ReadTag) (s : State) : State :=
  (s.releaseRequest p t).modReadTag p t (fun _ => ReadTagRecord.reset)

/-- A segment's outcome; OK where the request has no such segment. -/
def outcomeOf (s : State) (id : SegId) : Status := ((s.segment id).bind (·.outcome)).getD .ok

/-- The reply status of R77: the outcome of the lower-addressed segment that did not finish with OK. -/
def replyStatus (s : State) (p : Port) (t : ReadTag) : Status :=
  if s.outcomeOf ⟨p, t, .lower⟩ = .ok then s.outcomeOf ⟨p, t, .upper⟩ else s.outcomeOf ⟨p, t, .lower⟩

/-- The last segment of a request has finished: an OPEN tag becomes READY (R77), a DISCARD request ends
without a reply (R80). -/
def endRequest (p : Port) (t : ReadTag) (s : State) : State :=
  match (s.readTag p t).state with
  | .opened => s.readReady p t (s.replyStatus p t)
  | .discard => s.dropRequest p t
  | .free => s
  | .ready => s

/-- A segment is DONE with an outcome, and its tag's segments open fall by one (R72 to R75). -/
def finishSegment (id : SegId) (o : Status) (s : State) : State :=
  let s := s.modSegment id (fun g => { g with place := .done, outcome := some o })
  let s := s.modReadTag id.port id.tag (fun r => { r with openSegs := r.openSegs - 1 })
  if (s.readTag id.port id.tag).openSegs = 0 then s.endRequest id.port id.tag else s

/-- Some segments finish with one outcome, in order. -/
def finishAll (o : Status) : List SegId → State → State
  | [], s => s
  | id :: ids, s => finishAll o ids (s.finishSegment id o)

/-- What a loss of link or a restart does to one read tag (R80): OPEN becomes DISCARD; READY becomes FREE, its
reply dropped and its pins returned. -/
def endRead (p : Port) (t : ReadTag) (s : State) : State :=
  match (s.readTag p t).state with
  | .opened => s.modReadTag p t (fun r => { r with state := .discard })
  | .ready => s.dropRequest p t
  | .free => s
  | .discard => s

/-- R80 for some tags in turn. -/
def endReadsOf (p : Port) : List ReadTag → State → State
  | [], s => s
  | t :: ts, s => endReadsOf p ts (s.endRead p t)

/-- R80 for all tags of a port. -/
def endReads (p : Port) : State → State := endReadsOf p (tall 8)

end State

end Sys2Proof.Machine
end

