-- ==== Sys2Proof/Machine/Shadow.lean ====
section
/-!
DEFINITION. The shadow store and the fill engine (spec/03): lookup, allocation and replacement, the fill queue,
the ends of a fill, the hand-out of room, prefetch and preload.
-/

namespace Sys2Proof.Machine

namespace State

/-! ### Residency, the age order and the queue -/

/-- The residency table: the frame, FILLING or VALID, that holds a page (R45). -/
def resident (s : State) (pg : Nat) : Option FrameNo :=
  tfind (fun f => f.page == some pg && f.state != .free) s.frames

/-- Whether a page is on the bad-page list (R60). -/
def isBad (s : State) (pg : Nat) : Bool := s.fill.badPages.any (fun b => b.page == pg)

/-- The frame at the front of the age order (R46). -/
def toFront (f : FrameNo) (age : List FrameNo) : List FrameNo := f :: age.filter (fun g => g != f)

/-- The entries the fill queue holds, over both FIFOs (R53). -/
def fillCount (s : State) : Nat := s.fill.demand.length + s.fill.ahead.length

/-- The frame that an allocation takes: the lowest-numbered FREE frame, else the VALID frame nearest the back
of the age order whose use count is 0 (R50). -/
def victim (s : State) : Option FrameNo :=
  match tfind (fun f => f.state == .free) s.frames with
  | some f => some f
  | none => s.age.reverse.find? (fun f => (s.frame f).uses == 0)

/-- The frame taken becomes FILLING with a new page and slot (R50). -/
def allocate (f : FrameNo) (n : SlotNo) (pg : Nat) (s : State) : State :=
  { s.modFrame f (fun _ => { Frame.reset with state := .filling, page := some pg, slot := some n }) with
    age := s.age.filter (fun g => g != f) }

/-- An entry at the tail of its FIFO (R53). -/
def enqueueFill (e : FillEntry) : State → State :=
  modFill (fun q =>
    if e.cls = .prefetch then { q with ahead := q.ahead ++ [e] } else { q with demand := q.demand ++ [e] })

/-- A fill is queued in one claim: fill pin, frame, entry (R53). None where the pin is refused. -/
def queueFill (n : SlotNo) (pg : Nat) (c : FillClass) (p : Option Port) (s : State) :
    Option (FrameNo × State) :=
  match s.fillPin n, s.victim with
  | some s, some f =>
    some (f, (s.allocate f n pg).enqueueFill
      { frame := f, page := pg, slot := n, cls := c, retry := false, port := p, reading := false })
  | _, _ => none

/-- PREFETCH entries for some data pages of a slot in order (R61, R62): a resident or bad page is passed over;
when the queue would be left with fewer than 8 free entries, no further page is considered. -/
def queueAhead (n : SlotNo) : List Nat → State → Nat × State
  | [], s => (0, s)
  | i :: is, s =>
    let pg := s.dataPage n i
    if (s.resident pg).isSome || s.isBad pg then queueAhead n is s
    else if 16 < s.fillCount + 1 + 8 then (0, s)
    else
      match s.queueFill n pg .prefetch none with
      | none => (0, s)
      | some (_, s) =>
        let r := queueAhead n is s
        (r.1 + 1, r.2)

/-- The prefetch that follows a DEMAND entry for a data page on behalf of a port (R61). -/
def prefetchAfter (p : Port) (n : SlotNo) (i : Nat) (s : State) : State :=
  (queueAhead n (((List.range (s.portCfg p).prefetchDepth).map (fun k => i + 1 + k)).filter
    (fun j => j < s.dataPages n)) s).2

/-! ### Lookup (R47 to R49) -/

/-- A lookup of a segment, settled by the first case that applies (R47). -/
def lookup (id : SegId) (s : State) : State :=
  match s.segment id with
  | none => s
  | some g =>
    match s.resident g.page with
    | some f =>
      if (s.frame f).state = .valid then
        ({ s.modFrame f (fun r => { r with uses := r.uses + 1 }) with age := toFront f s.age }).modSegment id
          (fun g => { g with place := .copying })
      else
        (s.modFrame f (fun r => { r with waiters := r.waiters ++ [id] })).modSegment id
          (fun g => { g with place := .waiting })
    | none =>
      if s.isBad g.page then s.finishSegment id .checkFail
      else if s.offline then s.finishSegment id .channelFault
      else if s.fillCount < 16 then
        match s.queueFill g.slot g.page .demand none with
        | none => s
        | some (f, s) =>
          let s := (s.modFrame f (fun r => { r with waiters := [id] })).modSegment id
            (fun g => { g with place := .waiting })
          s.prefetchAfter id.port g.slot (s.dataIndex g.slot g.page)
      else
        { s.modSegment id (fun g => { g with place := .frameWait }) with frameWait := s.frameWait ++ [id] }

/-! ### Room in the fill queue (R55) and preloads (R63, R64) -/

/-- The frame-wait queue re-presents its oldest segments while the fill queue has a free entry (R55, R73). -/
def represent : Nat → State → State
  | 0, s => s
  | k + 1, s =>
    match s.frameWait with
    | [] => s
    | id :: rest =>
      if s.fillCount < 16 then
        represent k (({ s with frameWait := rest }.modSegment id (fun g => { g with place := .lookup })).lookup id)
      else s

/-- A port's preload takes pages at its cursor until one entry is queued or the cursor passes the last page
(R63); while the channel is OFFLINE its pages count as failed as they are reached (R64). A page whose fill pin is
refused (R53) is passed over like a listed one, which R63 does not state (DESIGN CHOICE, log 43). -/
def preloadTurn : Nat → Port → State → State
  | 0, _, s => s
  | k + 1, p, s =>
    match (s.port p).preload with
    | none => s
    | some l =>
      if l.last < l.cursor then s
      else
        let pg := s.dataPage l.slot l.cursor
        let s := s.modPort p (fun r => { r with preload := some { l with cursor := l.cursor + 1 } })
        if (s.resident pg).isSome || s.isBad pg || s.offline then preloadTurn k p s
        else
          match s.queueFill l.slot pg .preload (some p) with
          | none => preloadTurn k p s
          | some (_, s) =>
            (s.modPort p (fun r =>
              { r with preload := some { l with cursor := l.cursor + 1, entries := l.entries + 1 } })).modFill
              (fun q => { q with lastServed := p })

/-- The ports in turn, beginning with the port after the one last served (R55). -/
def turns (s : State) : List Port :=
  [s.fill.lastServed + 1, s.fill.lastServed + 2, s.fill.lastServed + 3, s.fill.lastServed]

/-- The pages a port's preload has still to consider. -/
def pagesLeft (s : State) (p : Port) : Nat :=
  match (s.port p).preload with
  | none => 0
  | some l => l.last + 1 - l.cursor

/-- Whether a port's preload has a page left to queue. -/
def preloadLeft (s : State) (p : Port) : Bool := s.pagesLeft p != 0

/-- Preloads in progress take room one page at a time, in turn, while the frame-wait queue is empty and the
fill queue has a free entry (R55, R63). -/
def preloadRounds : Nat → State → State
  | 0, s => s
  | k + 1, s =>
    if s.offline || (s.frameWait.isEmpty && decide (s.fillCount < 16)) then
      match s.turns.find? s.preloadLeft with
      | none => s
      | some p => preloadRounds k (preloadTurn (s.pagesLeft p) p s)
    else s

/-- A preload whose cursor has passed its last page, with no entry left, is closed and its completion reported
(R64). -/
def closePreload (p : Port) (s : State) : State :=
  match (s.port p).preload with
  | none => s
  | some l =>
    if l.last < l.cursor ∧ l.entries = 0 then
      s.modPort p (fun r => { r with preload := none, completions := r.completions + 1 })
    else s

/-- R64 for some ports in turn. -/
def closePreloads : List Port → State → State
  | [], s => s
  | p :: ps, s => closePreloads ps (s.closePreload p)

/-- Freed room handed out: first to the frame-wait queue, then to the preloads (R55). A turn queues an entry, of 16 at
most, or uses up the preload of one of the 4 ports, so 32 turns are enough. -/
def handOut (s : State) : State :=
  closePreloads allPorts (preloadRounds 32 (represent s.frameWait.length s))

/-- A port's preload is closed without a completion report, and the port field of its entries cleared (R64). -/
def cancelPreload (p : Port) (s : State) : State :=
  let clear := fun (e : FillEntry) => if e.port = some p then { e with port := none } else e
  (s.modPort p (fun r => { r with preload := none })).modFill
    (fun q => { q with demand := q.demand.map clear, ahead := q.ahead.map clear })

/-- What an opening finds of an earlier preload of its port: a cancellation asked for before is taken now, and not after
the opening (log 23), and a record still open is closed as a cancelled one, so that its entries do not count for the new
one (DESIGN CHOICE, log 57). -/
def takeCancels (p : Port) (s : State) : State :=
  if (s.port p).cancelLoads = 0 ∧ (s.port p).preload = none then s
  else (s.cancelPreload p).modPort p (fun r => { r with cancelLoads := 0 })

/-- A port's preload is opened over the first N data pages of its window W0 (R63); it is complete at once if N
is 0, or if W0 is not BOUND with its boot flag set. An earlier record of the port is closed first (`takeCancels`). -/
def openPreload (p : Port) (s : State) : State :=
  let s := s.takeCancels p
  let n := (s.portCfg p).preloadCount
  let done := s.modPort p (fun r => { r with preload := none, completions := r.completions + 1 })
  match s.window p 0 with
  | none => done
  | some b =>
    let from' := b.offset / 4096
    let last := min (from' + n) (min ((b.offset + b.size - 1) / 4096 + 1) (s.dataPages b.slot))
    if n = 0 ∨ b.boot = false ∨ last ≤ from' then done
    else
      (s.modPort p (fun r =>
        { r with preload := some { slot := b.slot, cursor := from', last := last - 1, entries := 0 } })).handOut

/-! ### The ends of a fill (R56 to R59) -/

/-- The fill-queue entry of a frame. -/
def fillOf (s : State) (f : FrameNo) : Option FillEntry :=
  (s.fill.demand ++ s.fill.ahead).find? (fun e => e.frame == f)

/-- A removed PRELOAD entry counts as done for its port (R64). -/
def countPreload (e : FillEntry) (s : State) : State :=
  match e.port with
  | none => s
  | some p =>
    s.modPort p (fun r => { r with preload := r.preload.map (fun l => { l with entries := l.entries - 1 }) })

/-- An entry is taken out of its FIFO. -/
def unqueueFill (f : FrameNo) : State → State :=
  modFill (fun q => { q with demand := q.demand.filter (fun e => e.frame != f),
                             ahead := q.ahead.filter (fun e => e.frame != f) })

/-- An entry is removed in the claim that ends it, with its fill unpin (R53). -/
def removeFill (e : FillEntry) (s : State) : State :=
  ((s.unqueueFill e.frame).countPreload e).fillUnpin e.slot

/-- The waiters of a verified fill copy, in list order (R56). -/
def serveWaiters (f : FrameNo) : List SegId → State → State
  | [], s => s
  | id :: ids, s =>
    serveWaiters f ids
      ((s.modFrame f (fun r => { r with uses := r.uses + 1 })).modSegment id
        (fun g => { g with place := .copying }))

/-- The fill has verified (R56). Its waiters are noted in list order, the order in which their copies complete
(log 50). -/
def fillVerified (e : FillEntry) (d : List Byte) (s : State) : State :=
  let ids := (s.frame e.frame).waiters
  let s := { s.modFrame e.frame (fun r => { r with state := .valid, waiters := [], served := ids, data := d }) with
             age := toFront e.frame s.age }
  ((serveWaiters e.frame ids s).removeFill e).handOut

/-- A first attempt that mismatches is queued again at the head as attempt 2 (R57). -/
def fillRetried (e : FillEntry) (c : Word) (s : State) : State :=
  let cls := if e.cls = .prefetch then FillClass.demand else e.cls
  ((s.unqueueFill e.frame).modFill (fun q =>
    { q with demand := { e with cls := cls, retry := true, reading := false } :: q.demand })).log
    { kind := .checkRetry, slot := some e.slot, page := some e.page, code0 := byteOf cls.code, detail := c }

/-- A PREFETCH entry without waiters that mismatches is dropped (R57). -/
def fillDropped (e : FillEntry) (c : Word) (s : State) : State :=
  (((s.modFrame e.frame (fun _ => Frame.reset)).removeFill e).log
    { kind := .checkRetry, slot := some e.slot, page := some e.page, code0 := byteOf e.cls.code, code1 := 1,
      detail := c }).handOut

/-- A page is recorded bad, or BAD_LIST_FULL is logged (R58 step 1). -/
def recordBad (e : FillEntry) (c : Word) (s : State) : State :=
  if s.fill.badPages.length < 32 then
    s.modFill (fun q => { q with badPages := q.badPages ++ [{ page := e.page, slot := e.slot, check := c }] })
  else s.log { kind := .badListFull, slot := some e.slot, page := some e.page }

/-- A second attempt mismatches: the page is bad (R58). -/
def fillBad (e : FillEntry) (c : Word) (s : State) : State :=
  let ids := (s.frame e.frame).waiters
  let s := finishAll .checkFail ids (s.recordBad e c)
  let s := (s.modFrame e.frame (fun _ => Frame.reset)).removeFill e
  (s.log { kind := .pageBad, slot := some e.slot, page := some e.page, detail := c }).handOut

/-- A fill fails through the channel (R59). -/
def fillFailed (e : FillEntry) (s : State) : State :=
  let ids := (s.frame e.frame).waiters
  (((finishAll .channelFault ids s).modFrame e.frame (fun _ => Frame.reset)).removeFill e).handOut

/-- The check list store's entry for an entry's page (R22, R54). -/
def listEntry (s : State) (e : FillEntry) : Option Word :=
  (s.slot e.slot).checkList.bind (fun l => l[s.dataIndex e.slot e.page]?)

/-- The end of a fill's page read: the computed page check against the store's entry (R54). -/
def fillEnd (e : FillEntry) (d : List Byte) (s : State) : State :=
  let c := crc32 d
  if s.listEntry e = some c then s.fillVerified e d
  else if e.retry then s.fillBad e c
  else if e.cls = .prefetch ∧ (s.frame e.frame).waiters = [] then s.fillDropped e c
  else s.fillRetried e c

/-- Every entry of some list fails in turn (R59). -/
def failFills : List FillEntry → State → State
  | [], s => s
  | e :: es, s => failFills es (s.fillFailed e)

end State

end Sys2Proof.Machine
end

