-- ==== Sys2Proof/Machine/Channel.lean ====
section
/-!
DEFINITION. The flash channel (spec/05): the requests that wait, the grant, erase suspension, and what ends a
step: room for LIST units, the reclaimer's pick, and the channel's next grant.
-/

namespace Sys2Proof.Machine

/-! ### Timeouts (R98), in microseconds -/

def Timeout.pageRead : Nat := 1000
def Timeout.program : Nat := 5000
def Timeout.erase : Nat := 3000000
def Timeout.suspendAck : Nat := 100
def Timeout.deviceReset : Nat := 10000

/-- The erase progress between suspensions: 1 ms (R94). -/
def Timeout.eraseRun : Nat := 1000

namespace State

/-! ### Operations built from requests -/

/-- A PAGE_READ of a flash page (R88). -/
def readOp (w : Work) (n : Option SlotNo) (pg : Nat) : Operation :=
  { work := w, slot := n, addr := 4096 * pg, data := [], left := Timeout.pageRead, erase := none }

/-- A PROGRAM_UNIT or PROGRAM_MARK of bytes at an address (R88). -/
def programOp (w : Work) (n : Option SlotNo) (addr : Nat) (d : List Byte) : Operation :=
  { work := w, slot := n, addr := addr, data := d, left := Timeout.program, erase := none }

/-- An ERASE_BLOCK, with a fresh erase record (R86, R97). -/
def eraseOp (w : Work) (n : Option SlotNo) (block : Nat) : Operation :=
  { work := w, slot := n, addr := 65536 * block, data := [], left := Timeout.erase,
    erase := some { block := block, eraseTime := 0, run := 0, suspensions := 0, reads := 0, phase := .running,
                    ackLeft := 0 } }

/-- A DEVICE_RESET (R88). -/
def resetOp (c : ResetCause) : Operation :=
  { work := .deviceReset c, slot := none, addr := 0, data := [], left := Timeout.deviceReset, erase := none }

/-! ### The requesters' requests (R90) -/

/-- The fill engine's class 1 request: the QUEUED entry nearest the head of the DEMAND and PRELOAD FIFO (R54). -/
def class1 (s : State) : Option FillEntry := s.fill.demand.find? (fun e => !e.reading)

/-- The fill engine's class 4 request, when it has no class 1 request (R54). -/
def class4 (s : State) : Option FillEntry :=
  if s.class1.isSome then none else s.fill.ahead.find? (fun e => !e.reading)

/-- The operation of a program queue entry (R111). -/
def entryOp (s : State) (e : ProgEntry) : Operation :=
  match e.kind with
  | .data => programOp (.dataProgram e.line e.unit) (some e.slot) (s.slotBase e.slot + 8192 + 256 * e.unit) e.data
  | .list => programOp (.listProgram e.line e.unit) (some e.slot) (s.slotBase e.slot + 4096 + 256 * e.unit) e.data

/-- The entry a ready item names. -/
def readyEntry (s : State) (n : SlotNo) (k : ProgKind) (u : Nat) : Option ProgEntry :=
  s.upd.queue.find? (fun e => e.slot == n && e.kind == k && e.unit == u)

/-- The commit mark of a line's pending slot, carrying the generation g + 1 (R125). -/
def commitOp (s : State) (c : Committer) (l : LineNo) : Option Operation :=
  (s.line l).pending.map (fun n =>
    programOp (.commitMark c) (some n) (s.slotBase n + 512) (commitBytes ((s.line l).generation + 1)))

/-- The retire mark of an old slot, carrying the generation that superseded it (R126). -/
def retireOp (s : State) (c : Committer) (r : CommitRun) : Option Operation :=
  r.oldSlot.map (fun n => programOp (.retireMark c) (some n) (s.slotBase n + 768) (retireBytes r.generation))

/-- The next flash step of a line's lock (R112). -/
def lockOp (s : State) (l : LineNo) : Option Operation :=
  match (s.line l).lock, s.work l with
  | some k, some w =>
    match w.phase, w.sealStep, w.commit with
    | .marking, _, _ =>
      some (programOp (.stageMark l) (some k.slot) (s.slotBase k.slot)
        (stageBytes l ((s.slot k.slot).name.getD []) ((s.slot k.slot).version.getD 0) (s.imageLength k.slot)))
    | .sealing, some .verify, _ =>
      some (readOp (.verifyRead l) (some k.slot) (s.dataPage k.slot (w.cursor.getD 0)))
    | .sealing, some .mark, _ =>
      some (programOp (.sealMark l) (some k.slot) (s.slotBase k.slot + 256)
        (sealBytes w.wanted (crc32 (wordsBytes w.checks))))
    | .committing, _, some r => if r.retiring then s.retireOp (.lock l) r else s.commitOp (.lock l) l
    | _, _, _ => none
  | _, _ => none

/-- The operation of ready work (R112). -/
def readyOp (s : State) : ReadyItem → Option Operation
  | .entry n k u => (s.readyEntry n k u).map s.entryOp
  | .lockStep l => s.lockOp l
  | .commitStep l =>
    match s.sequence l with
    | none => none
    | some r => if r.retiring then s.retireOp (.sequence l) r else s.commitOp (.sequence l) l

/-- The update writer's class 2 request: its earliest ready work (R112). -/
def updateRequest (s : State) : Option ReadyItem := s.upd.ready.head?

/-- The block of a configuration copy: block 0 for A, block 1 for B (spec/00, R176). -/
def copyBlock : Copy → Nat
  | .a => 0
  | .b => 1

/-- The configuration writer's class 3 request (R176); the record is one unit (R191). -/
def configRequest (s : State) : Option Operation :=
  s.cfgw.write.map (fun w =>
    if w.programming then programOp (.configProgram w.copy) none (65536 * copyBlock w.copy) w.record
    else eraseOp (.configErase w.copy) none (copyBlock w.copy))

/-- The flash block of a reclaim target at a block cursor: 2 + slot number × blocks per slot + cursor (R107). -/
def reclaimBlock (s : State) (n : SlotNo) (cursor : Nat) : Nat := 2 + n.val * s.slotBlocks + cursor

/-- The reclaimer's class 5 request: the erase mark at byte 255 of the header page (R108), or the erase of the
block at the cursor (R107). -/
def reclaimRequest (s : State) : Option Operation :=
  s.reclaim.map (fun j =>
    if j.erasing then
      eraseOp (.reclaimErase (s.reclaimBlock j.target j.cursor)) (some j.target) (s.reclaimBlock j.target j.cursor)
    else programOp .eraseMark (some j.target) (s.slotBase j.target + 255) [0])

/-- The flash page of a configuration copy (spec/09 section 9.3). -/
def copyPage (c : Copy) : Nat := 16 * copyBlock c

/-- The operation of a start-up controller's read (R174, R177, R180). -/
def startOp (s : State) (w : Work) : Operation :=
  match w with
  | .configRead c => readOp w none (copyPage c)
  | .headerRead n => readOp w (some n) (s.slotPage n)
  | .listRead n => readOp w (some n) (s.slotPage n + 1)
  | _ => resetOp .startUp

/-! ### The grant (R91, R92) -/

/-- An operation becomes the current one. -/
def runOp (o : Operation) : State → State := modChan (fun c => { c with op := some o })

/-- A fill's entry becomes READING (R54). -/
def markReading (f : FrameNo) : State → State :=
  let mark := fun (e : FillEntry) => if e.frame = f then { e with reading := true } else e
  modFill (fun q => { q with demand := q.demand.map mark, ahead := q.ahead.map mark })

/-- The fill engine's request is granted. -/
def grantFill (e : FillEntry) (s : State) : State :=
  (s.markReading e.frame).runOp (readOp (.fill e.frame) (some e.slot) e.page)

/-- A program queue entry granted becomes PROGRAMMING (R111). -/
def markProgramming (i : ReadyItem) : State → State :=
  match i with
  | .entry n k u =>
    modUpd (fun w => { w with queue := w.queue.map (fun e =>
      if e.slot = n ∧ e.kind = k ∧ e.unit = u then { e with programming := true } else e) })
  | .lockStep _ => id
  | .commitStep _ => id

/-- The update writer's request is granted; the aging count returns to 0 (R92). -/
def grantUpdate (i : ReadyItem) (s : State) : State :=
  match s.readyOp i with
  | none => s.modUpd (fun w => { w with ready := w.ready.drop 1 })
  | some o =>
    (((s.modUpd (fun w => { w with ready := w.ready.drop 1 })).markProgramming i).modChan
      (fun c => { c with state := .busy, aging := 0 })).runOp o

/-- A grant of another request: the aging count is set to 0 when the update writer has none waiting (R92). -/
def grantOther (o : Operation) (s : State) : State :=
  (s.modChan (fun c =>
    { c with state := .busy, aging := if s.updateRequest.isSome then c.aging else 0 })).runOp o

/-- A class 1 grant from IDLE: the aging count rises by 1, up to 8, while the update writer waits (R92). -/
def grantClass1 (e : FillEntry) (s : State) : State :=
  (s.modChan (fun c =>
    { c with state := .busy, aging := if s.updateRequest.isSome then min 8 (c.aging + 1) else 0 })).grantFill e

/-- Whether an operation is an ERASE_BLOCK. -/
def isErase (o : Operation) : Bool := o.erase.isSome

/-- A request granted from IDLE: the aged update writer, then the lowest class among requests other than
erases, then the configuration writer's erase, then the reclaimer's (R91). -/
def grant (s : State) : State :=
  let upd := s.updateRequest
  let cfg := s.configRequest
  let rec' := s.reclaimRequest
  if upd.isSome ∧ s.chan.aging = 8 then
    match upd with
    | some i => s.grantUpdate i
    | none => s
  else
    match s.class1 with
    | some e => s.grantClass1 e
    | none =>
    match upd with
    | some i => s.grantUpdate i
    | none =>
    match cfg.filter (fun o => !isErase o) with
    | some o => s.grantOther o
    | none =>
    match s.class4 with
    | some e => (s.modChan (fun c => { c with state := .busy, aging := 0 })).grantFill e
    | none =>
    match rec'.filter (fun o => !isErase o) with
    | some o => s.grantOther o
    | none =>
    match s.start.request with
    | some w => (s.modStart (fun t => { t with request := none })).grantOther (s.startOp w)
    | none =>
    match cfg with
    | some o => s.grantOther o
    | none =>
    match rec' with
    | some o => s.grantOther o
    | none => s

/-! ### Erase suspension (R94) -/

/-- A suspend may be issued to the running erase: fewer than 8 suspensions used, 1 ms run since resume, and a
class 1 request waiting (R94). -/
def maySuspend (s : State) (e : EraseRecord) : Bool :=
  e.phase == .running && decide (e.suspensions < 8) && decide (Timeout.eraseRun ≤ e.run) && s.class1.isSome

/-- A suspend issued: phase SUSPENDING, and the suspend-acknowledge timer of 100 µs starts (R94). -/
def suspend : State → State :=
  modChan (fun c =>
    { c with op := c.op.map (fun o =>
        { o with erase := o.erase.map (fun e => { e with phase := .suspending, ackLeft := Timeout.suspendAck }) }) })

/-- What the channel does when requests have changed: from IDLE it grants (R91); a running erase may be
suspended (R94). -/
def kick (s : State) : State :=
  match s.chan.state with
  | .idle => s.grant
  | .busy =>
    match s.chan.op.bind (·.erase) with
    | none => s
    | some e => if s.maySuspend e then s.suspend else s
  | .eraseSuspended => s
  | .offline => s

/-! ### The reclaimer's pick (R20, R106) -/

/-- The reclaimer may pick: idle, the channel not OFFLINE, start-up complete (R106). -/
def mayPick (s : State) : Bool := s.reclaim.isNone && !s.offline && s.started

/-- The lowest-numbered DIRTY slot whose reclaim hold is clear (R20). -/
def dirtySlot (s : State) : Option SlotNo :=
  allSlots.find? (fun n => (s.slot n).state == .dirty && !(s.slot n).reclaimHold)

/-- The directory moves the picked slot to ERASING and clears its fields (R20). -/
def toErasing (n : SlotNo) : State → State :=
  modSlot n (fun r =>
    { r with state := .erasing, line := none, name := none, version := none, length := none, generation := none })

/-- The reclaimer picks when its conditions hold: the target's last block, step MARK (R106). -/
def pick (s : State) : State :=
  if s.mayPick then
    match s.dirtySlot with
    | none => s
    | some n =>
      { s.toErasing n with reclaim := some { target := n, cursor := s.slotBlocks - 1, erasing := false } }
  else s

/-! ### LIST units (R123) -/

/-- The entries of the program queue that a lock's slot holds: its share (R111). -/
def share (s : State) (n : SlotNo) : Nat := (s.upd.queue.filter (fun e => e.slot == n)).length

/-- The LIST units of a check list: ⌈data page count ÷ 64⌉ (R123). -/
def listUnits (checks : List Word) : Nat := (checks.length + 63) / 64

/-- The 256 bytes of a LIST unit; past the last entry the page stays erased (R123). -/
def listUnit (checks : List Word) (u : Nat) : List Byte :=
  ((wordsBytes ((checks.drop (64 * u)).take 64)) ++ List.replicate 256 0xFF).take 256

/-- An entry at the tail of the program queue, ready from now (R111, R112). -/
def enqueueProgram (e : ProgEntry) : State → State :=
  modUpd (fun u => { u with queue := u.queue ++ [e], ready := u.ready ++ [.entry e.slot e.kind e.unit] })

/-- Whether a SEAL may place its next LIST unit: its lock holds fewer than 4 entries. -/
def mayList (s : State) (l : LineNo) : Bool :=
  match (s.line l).lock with
  | none => false
  | some k => decide (s.share k.slot < 4)

/-- A SEAL places its next LIST unit; after its last one it waits for room no more. -/
def placeList (l : LineNo) (s : State) : State :=
  match (s.line l).lock, s.work l with
  | some k, some w =>
    let s := s.enqueueProgram
      { line := l, slot := k.slot, kind := .list, unit := w.listNext, data := listUnit w.checks w.listNext,
        owner := none, programming := false }
    let s := s.setWork l (some { w with listNext := w.listNext + 1 })
    if listUnits w.checks ≤ w.listNext + 1 then
      s.modUpd (fun u => { u with listing := u.listing.filter (fun m => m != l) })
    else s
  | _, _ => s

/-- Free places of the program queue go to the SEALs with LIST units, the one whose LIST step began first
taking each (R123). -/
def placeLists : Nat → State → State
  | 0, s => s
  | k + 1, s =>
    if s.upd.queue.length < 8 then
      match s.upd.listing.find? s.mayList with
      | none => s
      | some l => placeLists k (s.placeList l)
    else s

/-! ### The end of a step -/

/-- What follows a change within its step: a dropped RESTART_HUB reply begins the hub restart (R171, log 14);
else LIST units take free places, the reclaimer picks, and the channel grants or suspends. A step of a lock that became
ready in the change so stands before the LIST units placed here, which R112 does not state (DESIGN CHOICE, log 53). -/
def settle (s : State) : State :=
  if s.hubRestart = .dropped then s.beginStart .restart else ((s.placeLists 8).pick).kick

end State

end Sys2Proof.Machine
end

