-- ==== Sys2Proof/Machine/Commands.lean ====
section
/-!
DEFINITION. The taking of a sequenced packet and of a command at a port link (R156, R162, R163), and a link
going DOWN (R159).
-/

namespace Sys2Proof.Machine

/-- Packet kinds as protocol errors carry them (section 11.2). -/
def PacketKind.read : Nat := 0x10
def PacketKind.cmd : Nat := 0x20

/-- The command an opcode names (section 11.2, opcodes). -/
def commandOf (opcode : Byte) : Option Command :=
  match opcode.toNat with
  | 0x01 => some .bind
  | 0x02 => some .unbind
  | 0x03 => some .rebind
  | 0x04 => some .touch
  | 0x05 => some .service
  | 0x10 => some .lockUpdate
  | 0x11 => some .stage
  | 0x12 => some .seal
  | 0x13 => some .commit
  | 0x14 => some .abortUpdate
  | 0x20 => some .statusLine
  | 0x21 => some .statusSlot
  | 0x22 => some .statusPort
  | 0x30 => some .resetPort
  | 0x31 => some .releasePort
  | 0x32 => some .channelReset
  | 0x33 => some .readEvents
  | 0x34 => some .writeConfig
  | 0x35 => some .restartHub
  | _ => none

/-- The right a command needs (R163); STATUS_PORT's depends on its argument. -/
def Command.right : Command → State.Right
  | .bind => .fetch
  | .unbind => .fetch
  | .rebind => .fetch
  | .touch => .fetch
  | .service => .none
  | .lockUpdate => .update
  | .stage => .update
  | .seal => .update
  | .commit => .update
  | .abortUpdate => .update
  | .statusLine => .none
  | .statusSlot => .none
  | .statusPort => .none
  | .resetPort => .supervise
  | .releasePort => .supervise
  | .channelReset => .supervise
  | .readEvents => .supervise
  | .writeConfig => .supervise
  | .restartHub => .supervise

namespace State

/-- The link of a port takes packets other than TRAIN: it is UP, and the port is not OFF (R153, R169). -/
def linkUp (s : State) (p : Port) : Bool := (s.port p).link.state == .up && !s.portOff p

/-- The receive sequence advances and the ACK of the packet taken is owed (R156). -/
def accept (p : Port) (q : Seq) : State → State :=
  modLink p (fun k => { k with recvSeq := k.recvSeq + 1, owed := some (.ack q) })

/-- An answer owed in place of the one owed before (R156). -/
def owe (p : Port) (a : Owed) : State → State := modLink p (fun k => { k with owed := some a })

/-- A sequenced packet whose link check holds (R156): taken, a repeat, or a packet after a gap. -/
def sequenced (p : Port) (q : Seq) (f : State → State) (s : State) : State :=
  if s.linkUp p then
    let r := (s.port p).link.recvSeq
    if q = r then f (s.accept p q)
    else if 4 ≤ (q - r).val then s.owe p (.ack (r - 1))
    else s.owe p (.nak r)
  else s

/-- A protocol error: a PROTOCOL_ERROR notice is queued and PROTOCOL_ERROR is logged, with the error kind, the
packet kind and the tag (R162). -/
def protocolError (p : Port) (k : ErrorKind) (packet : Nat) (tag : Option Nat) (s : State) : State :=
  let v := packWord k.code packet (optByte tag) 0
  (s.hand p { kind := .protocolError, subject := none, value := v }).log
    { kind := .protocolError, port := some p, detail := v }

/-- A CMD is accepted: its tag becomes OPEN with the command recorded (R163). -/
def openCmd (p : Port) (t : CmdTag) (c : Option Command) : State → State :=
  modCmdTag p t (fun _ => { CmdTagRecord.reset with state := .opened, command := c })

/-- The argument of a status command is kept while its tag is held (R181). -/
def holdArgs (p : Port) (t : CmdTag) (a : List Word) : State → State :=
  modCmdTag p t (fun r => { r with args := a })

/-- A CMD taken against its tag and dispatched (R161 to R163). `counted` says that the argument words have
their number; `held` is the argument of a status command, which stays OPEN during start-up (R181). -/
def command (p : Port) (q : Seq) (t : CmdTag) (c : Command) (counted : Bool) (held : Option Word)
    (body : State → State) : State → State :=
  sequenced p q (fun s =>
    if (s.cmdTag p t).state ≠ .free then s.protocolError p .reusedTag PacketKind.cmd (some t.val)
    else
      let s := s.openCmd p t (some c)
      if counted = false then s.answer p t .badArgument []
      else if s.started = false then
        match held with
        | some a => s.holdArgs p t [a]
        | none => s.answer p t .portHeld []
      else if s.hasRight p c.right then body s
      else s.answer p t .noRight [])

/-- A command of a fixed number of words that start-up answers PORT_HELD. -/
def simpleCommand (p : Port) (q : Seq) (t : CmdTag) (c : Command) (body : State → State) : State → State :=
  command p q t c true none body

/-- What a loss of link does to one command tag (R159): OPEN becomes DISCARD, READY becomes FREE with its reply
dropped. -/
def endCmd (p : Port) (t : CmdTag) (s : State) : State :=
  match (s.cmdTag p t).state with
  | .opened => s.modCmdTag p t (fun r => { r with state := .discard })
  | .ready => s.dropCmdReply p t
  | .free => s
  | .discard => s

/-- A SENT notice whose packet the buffer holds becomes WAITING again, in its place (R168). -/
def resend (buffer : List Buffered) (e : NoticeEntry) : NoticeEntry :=
  if buffer.any (fun b => b.source == some e.readyAt) then { e with sent := false } else e

/-- The link leaves UP for DOWN (R159). -/
def linkDown (p : Port) (why : DownReason) (s : State) : State :=
  let s := s.modPort p (fun r =>
    { r with notices := r.notices.map (resend r.link.buffer), link := { r.link with buffer := [] } })
  let s := ((s.endReads p).endCmd p 0).endCmd p 1
  let s := s.modLink p (fun k =>
    { k with state := .down, owed := none, ackTimer := none, trainTimer := none })
  s.log { kind := .linkDown, port := some p, detail := wordOf why.code }

end State

/-! ### The commands that dispatch answers by itself -/

/-- UNKNOWN_OPCODE: the opcode names no command, or the number of words is not its own (R163 step 1). -/
def execUnknownOpcode (p : Port) (q : Seq) (t : CmdTag) (opcode _argCount : Byte) (s : State) :
    Host.Outcome State Fault Refusal :=
  .next (s.whenLive (State.sequenced p q (fun s =>
    if (s.cmdTag p t).state ≠ .free then s.protocolError p .reusedTag PacketKind.cmd (some t.val)
    else (s.openCmd p t (commandOf opcode)).answer p t .badArgument [])))

/-- MALFORMED (R162): a packet of a sequenced kind is first taken by R156; one of an unsequenced or unknown
kind is a protocol error on an UP link, and the sequences stay as they were. -/
def execMalformed (p : Port) (kind : Byte) (q : Seq) (s : State) : Host.Outcome State Fault Refusal :=
  .next (s.whenLive (fun s =>
    if sequencedKind kind then s.sequenced p q (fun s => s.protocolError p .malformed kind.toNat none)
    else if s.linkUp p then s.protocolError p .malformed kind.toNat none
    else s))

end Sys2Proof.Machine
end

