-- ==== Sys2Proof/Machine/Windows.lean ====
section
/-!
DEFINITION. The binding unit (spec/02): BIND, UNBIND, REBIND, TOUCH (R62), the boot windows and the unbinding
of a restarted port.
-/

namespace Sys2Proof.Machine

namespace State

/-- A window bound, for BIND and for a boot window: the checks of R29 from step 2 on, the bind pin and the new
window (R30, R39); or the refusal. -/
def bindTo (p : Port) (w : WindowNo) (base size line offset : Nat) (boot : Bool) (s : State) :
    Except Status (SlotNo × Nat × State) :=
  match s.bindArgs base size line offset with
  | none => .error .badArgument
  | some l =>
    if (s.window p w).isSome then .error .busy
    else if s.overlaps p base size then .error .overlap
    else
      match s.bindPin l with
      | .error e => .error e
      | .ok (n, g, s) =>
        .ok (n, g, s.setWindow p w (some
          { base := base, size := size, line := l, offset := offset, slot := n, generation := g, boot := boot }))

/-- A BOUND window ended: its window pin is returned and the window becomes UNBOUND (R31). -/
def unbindWindow (p : Port) (w : WindowNo) (b : Binding) (s : State) : State :=
  (s.windowUnpin b.slot).setWindow p w none

/-- Some windows of a port ended in turn (R41). -/
def unbindAll (p : Port) : List WindowNo → State → State
  | [], s => s
  | w :: ws, s =>
    match s.window p w with
    | none => unbindAll p ws s
    | some b => unbindAll p ws (s.unbindWindow p w b)

/-! ### The unbinding items of a restarted port (R41) -/

/-- An unbinding item of a port waits at the binding unit. -/
def unbindWaits (s : State) (p : Port) : Bool := (s.port p).bindItems.contains .unbindAll

/-- Every unbinding item of a port is taken: each BOUND window is unbound (R41). -/
def takeUnbinds (p : Port) (s : State) : State :=
  (s.modPort p (fun r => { r with bindItems := r.bindItems.filter (fun i => i != .unbindAll) })).unbindAll p (tall 4)

/-- Work of a port handed to the binding unit now: an unbinding item that waits was handed by an earlier restart claim,
so it is taken before (R41), in the same step (log 51). -/
def afterUnbinds (p : Port) (f : State → State) (s : State) : State :=
  if s.unbindWaits p then (f (s.takeUnbinds p)).settle else f s

/-! ### REBIND and TOUCH -/

/-- The line argument of a REBIND: a line, or 8 for all lines (section 11.2). -/
def rebindArg (w : Word) : Option (Option LineNo) :=
  if w.toNat = 8 then some none else (lineArg w).map some

/-- Whether a REBIND takes a window. -/
def rebindTakes (l : Option LineNo) (b : Binding) : Bool :=
  match l with
  | none => true
  | some l => b.line == l

/-- The windows of a port moved in order; the number moved (R32). -/
def rebindAll (p : Port) (l : Option LineNo) : List WindowNo → State → Nat × State
  | [], s => (0, s)
  | w :: ws, s =>
    match s.window p w with
    | none => rebindAll p l ws s
    | some b =>
      if rebindTakes l b then
        match s.rebindPin b.line b.slot with
        | none => rebindAll p l ws s
        | some (n, g, s) =>
          let r := rebindAll p l ws (s.setWindow p w (some { b with slot := n, generation := g }))
          (r.1 + 1, r.2)
      else rebindAll p l ws s

/-- The data pages a TOUCH considers: from the page of its address, up to its count, the window's last page and
the image's last data page (R62). -/
def touchPages (s : State) (b : Binding) (a count : Nat) : List Nat :=
  let q := (b.offset + (a - b.base)) / 4096
  ((List.range count).map (fun i => q + i)).filter
    (fun i => decide (i ≤ (b.offset + b.size - 1) / 4096) && decide (i < s.dataPages b.slot))

/-- A boot window skipped (R40); a configured line past L7 is logged as absent (log 24). -/
def logSkipped (p : Port) (w : WindowNo) (line : Nat) (why : Status) (s : State) : State :=
  s.log { kind := .bootWindowSkipped, port := some p, line := if h : line < 8 then some ⟨line, h⟩ else none,
          detail := packWord w.val why.code 0 0 }

/-- The configured boot windows bound in order; which windows were bound (R39, R40). -/
def bindBoot (p : Port) : List WindowNo → List BootWindow → State → List WindowNo × State
  | w :: ws, b :: bs, s =>
    match s.bindTo p w b.base b.size b.line b.offset true with
    | .error e => bindBoot p ws bs (s.logSkipped p w b.line e)
    | .ok (_, _, s) =>
      let r := bindBoot p ws bs s
      (w :: r.1, r.2)
  | _, _, s => ([], s)

/-- The present PRELOADING entry is the one a count names (R136). -/
def bootCurrent (s : State) (p : Port) (count : Nat) : Bool :=
  (s.port p).sup.state == .preloading && (s.port p).sup.bootRequest == count

/-- A report handed to the supervision unit. -/
def reportBoot (p : Port) (count : Nat) (bound : List WindowNo) : State → State :=
  modPort p (fun r => { r with reports := r.reports ++ [{ count := count, bound := bound }] })

/-- The binding unit's head item has been taken. -/
def popBindItem (p : Port) : State → State := modPort p (fun r => { r with bindItems := r.bindItems.drop 1 })

/-- BIND settled (R29, R30). -/
def bindBody (p : Port) (t : CmdTag) (window base size line offset : Word) (s : State) : State :=
  if s.portHeld p then s.answer p t .portHeld []
  else
    match windowArg window with
    | none => s.answer p t .badArgument []
    | some w =>
      match s.bindTo p w base.toNat size.toNat line.toNat offset.toNat false with
      | .error e => s.answer p t e []
      | .ok (n, g, s) => s.answer p t .ok [wordOf n.val, wordOf g]

/-- UNBIND settled (R31). -/
def unbindBody (p : Port) (t : CmdTag) (window : Word) (s : State) : State :=
  if s.portHeld p then s.answer p t .portHeld []
  else
    match windowArg window with
    | none => s.answer p t .badArgument []
    | some w =>
      match s.window p w with
      | none => s.answer p t .badState []
      | some b => ((s.unbindWindow p w b).answer p t .ok [wordOf b.slot.val, wordOf b.generation]).settle

/-- REBIND settled (R32). -/
def rebindBody (p : Port) (t : CmdTag) (line : Word) (s : State) : State :=
  if s.portHeld p then s.answer p t .portHeld []
  else
    match rebindArg line with
    | none => s.answer p t .badArgument []
    | some l =>
      let r := s.rebindAll p l (tall 4)
      (r.2.answer p t .ok [wordOf r.1]).settle

/-- TOUCH settled (R62). -/
def touchBody (p : Port) (t : CmdTag) (addr count : Word) (s : State) : State :=
  if s.portHeld p then s.answer p t .portHeld []
  else if count.toNat = 0 ∨ 8 < count.toNat ∨ 16777216 ≤ addr.toNat then s.answer p t .badArgument []
  else
    match s.windowAt p addr.toNat with
    | none => s.answer p t .badArgument []
    | some (_, b) =>
      if s.offline then s.answer p t .channelDown []
      else
        let r := s.queueAhead b.slot (s.touchPages b addr.toNat count.toNat)
        (r.2.answer p t .ok [wordOf r.1]).settle

end State

/-- BIND (R29, R30). -/
def execBind (p : Port) (q : Seq) (t : CmdTag) (window base size line offset : Word) (s : State) :
    Host.Outcome State Fault Refusal :=
  .next (s.whenLive (State.simpleCommand p q t .bind (State.afterUnbinds p (State.bindBody p t window base size line offset))))

/-- UNBIND (R31). -/
def execUnbind (p : Port) (q : Seq) (t : CmdTag) (window : Word) (s : State) :
    Host.Outcome State Fault Refusal :=
  .next (s.whenLive (State.simpleCommand p q t .unbind (State.afterUnbinds p (State.unbindBody p t window))))

/-- REBIND (R32). -/
def execRebind (p : Port) (q : Seq) (t : CmdTag) (line : Word) (s : State) :
    Host.Outcome State Fault Refusal :=
  .next (s.whenLive (State.simpleCommand p q t .rebind (State.afterUnbinds p (State.rebindBody p t line))))

/-- TOUCH (R62). -/
def execTouch (p : Port) (q : Seq) (t : CmdTag) (addr count : Word) (s : State) :
    Host.Outcome State Fault Refusal :=
  .next (s.whenLive (State.simpleCommand p q t .touch (State.afterUnbinds p (State.touchBody p t addr count))))

/-- BOOT_WINDOWS_BIND: the boot-window item at the head of the binding unit's items is taken (R39, R40); one
whose count is no longer the present one binds nothing (R136). -/
def execBootWindowsBind (p : Port) (s : State) : Host.Outcome State Fault Refusal :=
  .next (s.whenLive (fun s =>
    match (s.port p).bindItems with
    | .boot count :: _ =>
      let s := s.popBindItem p
      if s.bootCurrent p count then
        let r := s.bindBoot p (tall 4) (s.portCfg p).bootWindows
        r.2.reportBoot p count r.1
      else s.reportBoot p count []
    | _ => s))

/-- BOOT_WINDOWS_REPORT: with the present count, the port's preload is opened; else the report is disregarded
(R136, R63). -/
def execBootWindowsReport (p : Port) (s : State) : Host.Outcome State Fault Refusal :=
  .next (s.whenLive (fun s =>
    match (s.port p).reports with
    | r :: rest =>
      let s := s.modPort p (fun x => { x with reports := rest })
      if s.bootCurrent p r.count then (s.openPreload p).settle else s
    | [] => s))

/-- RESTART_UNBIND: every BOUND window of the restarted port is unbound as one item (R41). A boot-window item that the
restart left behind may stand before it: of two items either may be taken first (R28), and that one binds nothing
(R136). -/
def execRestartUnbind (p : Port) (s : State) : Host.Outcome State Fault Refusal :=
  .next (s.whenLive (fun s =>
    if s.unbindWaits p then
      ((s.modPort p (fun r => { r with bindItems := r.bindItems.erase .unbindAll })).unbindAll p (tall 4)).settle
    else s))

end Sys2Proof.Machine
end

