-- ==== Sys2Proof/Machine/ReadPath.lean ====
section
/-!
DEFINITION. The read path (spec/04): READ, the lookup of a segment, the end of a copy, and the end of a fill's
page read.
-/

namespace Sys2Proof.Machine

namespace State

/-- A READ accepted: its tag becomes OPEN; the word count is recorded when it is 1 to 64 (R68). -/
def openRead (p : Port) (t : ReadTag) (addr : BitVec 24) (count : Nat) : State → State :=
  modReadTag p t (fun _ =>
    { ReadTagRecord.reset with
      state := .opened, addr := some addr, count := if 1 ≤ count ∧ count ≤ 64 then some count else none })

/-- The segment table entries of a translated request of `n` bytes at image offset `e` of a slot (R71). -/
def segmentsOf (s : State) (p : Port) (t : ReadTag) (slot : SlotNo) (e n : Nat) : List Segment :=
  let first := e % 4096
  let pg := s.dataPage slot (e / 4096)
  if 4096 < first + n then
    [ { id := ⟨p, t, .lower⟩, slot := slot, page := pg, first := first, length := 4096 - first, place := .lookup,
        outcome := none },
      { id := ⟨p, t, .upper⟩, slot := slot, page := pg + 1, first := 0, length := first + n - 4096,
        place := .lookup, outcome := none } ]
  else
    [ { id := ⟨p, t, .lower⟩, slot := slot, page := pg, first := first, length := n, place := .lookup,
        outcome := none } ]

/-- One segment enters the table with its segment pin; the directory accepts the pin, since the window holds
the slot (R36, R71). -/
def addSegment (g : Segment) (s : State) : State :=
  match s.segmentPin g.slot with
  | none => s
  | some s => { s with segments := s.segments ++ [g] }

/-- Some segments enter the table in order. -/
def addSegments : List Segment → State → State
  | [], s => s
  | g :: gs, s => addSegments gs (s.addSegment g)

/-- The translation of a READ (R70) and its segmenting (R71), as one item. -/
def translateRead (p : Port) (t : ReadTag) (addr count : Nat) (s : State) : State :=
  match s.translate p addr (4 * count) with
  | .error e => s.readReady p t e
  | .ok (n, e) =>
    let gs := s.segmentsOf p t n e (4 * count)
    (s.addSegments gs).modReadTag p t (fun r => { r with openSegs := gs.length })

/-- An accepted READ settled: the checks of R69, then its translation (R70). -/
def readBodyOf (p : Port) (t : ReadTag) (addr count : Nat) (s : State) : State :=
  if s.portHeld p then s.readReady p t .portHeld
  else if addr % 4 ≠ 0 ∨ count = 0 ∨ 64 < count then s.readReady p t .badRequest
  else s.afterUnbinds p (translateRead p t addr count)

/-- The bytes a COPYING segment copies out of the frame that holds its page (R75). -/
def copiedBytes (s : State) (g : Segment) : List Byte :=
  match s.resident g.page with
  | none => []
  | some f => slice (s.frame f).data g.first g.length

/-- The bytes placed in the reply buffer: a lower segment's first, an upper segment's after them (R75). -/
def placeBytes (id : SegId) (d : List Byte) : State → State :=
  modReadTag id.port id.tag (fun r =>
    match id.part with
    | .lower => { r with lower := d }
    | .upper => { r with upper := d })

/-- The use count of the frame that holds a segment's page falls by one, and the segment is served (R48). -/
def releaseUse (g : Segment) (s : State) : State :=
  match s.resident g.page with
  | none => s
  | some f => s.modFrame f (fun r => { r with uses := r.uses - 1, served := r.served.filter (fun x => x != g.id) })

/-- A segment's copy completes (R75). -/
def copied (g : Segment) (s : State) : State :=
  ((s.placeBytes g.id (s.copiedBytes g)).releaseUse g).finishSegment g.id .ok

/-- A COPYING segment's copy may complete: the waiters of one verified fill complete in waiter list order, so that
their tags become READY in that order (R56, R160, log 50); a copy that began with a hit waits for no other. -/
def mayComplete (s : State) (g : Segment) : Bool :=
  g.place == .copying &&
    (match s.resident g.page with
     | none => true
     | some f => !(s.frame f).served.contains g.id || (s.frame f).served.head? == some g.id)

/-- A segment may be presented: it stands in LOOKUP, and an upper one after the lower one's lookup (R72). -/
def mayLookup (s : State) (id : SegId) : Bool :=
  match s.segment id with
  | none => false
  | some g =>
    g.place == .lookup &&
      (match id.part with
       | .lower => true
       | .upper =>
         match s.segment { id with part := .lower } with
         | none => true
         | some l => l.place != .lookup)

/-- The erase held during a read, with its reads this suspension raised by one (R96). -/
def countRead : State → State :=
  modChan (fun c =>
    { c with suspended := c.suspended.map (fun o =>
        { o with erase := o.erase.map (fun e => { e with reads := e.reads + 1 }) }) })

/-- The suspended erase resumes: RUNNING, its run since resume 0, and the channel BUSY with it (R96). -/
def resume (s : State) : State :=
  s.modChan (fun c =>
    { c with state := .busy, suspended := none,
             op := c.suspended.map (fun o =>
               { o with erase := o.erase.map (fun e => { e with phase := .running, run := 0 }) }) })

/-- The reads made in the present suspension. -/
def readsMade (s : State) : Nat := ((s.chan.suspended.bind (·.erase)).map (·.reads)).getD 0

/-- After a read of a suspension: the erase resumes after 4 reads or when no class 1 request waits, else the
waiting request is granted (R96). -/
def afterRead (s : State) : State :=
  let s := s.countRead
  if 4 ≤ s.readsMade then s.resume
  else
    match s.class1 with
    | none => s.resume
    | some e => s.grantFill e

/-- What the channel does once a fill's read has ended: in ERASE_SUSPENDED by R96, else as at any end. -/
def afterFillRead (s : State) : State :=
  if s.chan.state = .eraseSuspended then s.afterRead.settle else s.settle

/-- A fill's page read ends with DONE (R54). -/
def fillReadEnd (f : FrameNo) (o : Operation) (errors : ReadErrors) (s : State) : State :=
  let d := pageRead o errors s
  let s := s.endOp
  let s := match s.fillOf f with
    | none => s
    | some e => s.fillEnd e d
  s.afterFillRead

end State

/-- READ (R68): taken against its tag; a tag that is not FREE is a reused tag (R162). -/
def execRead (p : Port) (q : Seq) (t : ReadTag) (addr : BitVec 24) (count : Byte) (s : State) :
    Host.Outcome State Fault Refusal :=
  .next (s.whenLive (State.sequenced p q (fun s =>
    if (s.readTag p t).state ≠ .free then s.protocolError p .reusedTag PacketKind.read (some t.val)
    else (s.openRead p t addr count.toNat).readBodyOf p t addr.toNat count.toNat)))

/-- SEGMENT_LOOKUP (R47, R72). -/
def execSegmentLookup (p : Port) (t : ReadTag) (part : Part) (s : State) : Host.Outcome State Fault Refusal :=
  .next (s.whenLive (fun s => if s.mayLookup ⟨p, t, part⟩ then (s.lookup ⟨p, t, part⟩).settle else s))

/-- COPY_COMPLETE (R75). A completion ahead of an earlier waiter of the same fill does not occur (R160, log 50). -/
def execCopyComplete (p : Port) (t : ReadTag) (part : Part) (s : State) : Host.Outcome State Fault Refusal :=
  .next (s.whenLive (fun s =>
    match s.segment ⟨p, t, part⟩ with
    | none => s
    | some g => if s.mayComplete g then (s.copied g).settle else s))

/-- FILL_READ_END (R54). -/
def execFillReadEnd (errors : ReadErrors) (s : State) : Host.Outcome State Fault Refusal :=
  .next (s.whenLive (fun s =>
    match s.chan.op with
    | none => s
    | some o =>
      match o.work with
      | .fill f => s.fillReadEnd f o errors
      | _ => s))

end Sys2Proof.Machine
end

