-- ==== Sys2Proof/Machine/Reclaim.lean ====
section
/-!
DEFINITION. The reclaimer (R106 to R109) and the configuration writer (R175, R176).
-/

namespace Sys2Proof.Machine

namespace State

/-! ### The reclaimer -/

/-- The target goes to BAD, and ERASE_FAIL is logged with the first flash page of a block (R20, R107, R108). -/
def reclaimBad (j : ReclaimJob) (block : Nat) (s : State) : State :=
  { (s.toBad j.target).log { kind := .eraseFail, slot := some j.target, page := some (16 * block) } with
    reclaim := none }

/-- The target goes back to DIRTY and the reclaimer is idle (R20, R107 to R109). -/
def reclaimFailed (j : ReclaimJob) (s : State) : State := { s.eraseFailed j.target with reclaim := none }

/-- The erase mark ends (R108). -/
def eraseMarkEnded (out : OpOutcome) (s : State) : State :=
  match s.reclaim with
  | none => s
  | some j =>
    match out with
    | .done => { s with reclaim := some { j with erasing := true } }
    | .deviceFail => s.reclaimBad j (s.reclaimBlock j.target 0)
    | .timeout => s.reclaimFailed j
    | .lost => s.reclaimFailed j

/-- A block erase of the reclaimer ends (R107). -/
def reclaimEraseEnded (block : Nat) (out : OpOutcome) (s : State) : State :=
  match s.reclaim with
  | none => s
  | some j =>
    match out with
    | .done =>
      if j.cursor = 0 then { s.toEmpty j.target with reclaim := none }
      else { s with reclaim := some { j with cursor := j.cursor - 1 } }
    | .deviceFail => s.reclaimBad j block
    | .timeout => s.reclaimFailed j
    | .lost => s.reclaimFailed j

/-! ### The configuration writer -/

/-- A copy's state. -/
def copyState (s : State) : Copy → CopyState
  | .a => s.cfgw.copyA
  | .b => s.cfgw.copyB

/-- A copy's state set. -/
def setCopy (c : Copy) (x : CopyState) (s : State) : State :=
  match c with
  | .a => { s with cfgw := { s.cfgw with copyA := x } }
  | .b => { s with cfgw := { s.cfgw with copyB := x } }

/-- The sequence of a VALID copy; 0 of an INVALID one. -/
def CopyState.sequence : CopyState → Nat
  | .invalid => 0
  | .valid n => n

/-- The higher VALID sequence; 0 when neither copy is VALID (R175). -/
def highestSequence (s : State) : Nat := max (CopyState.sequence s.cfgw.copyA) (CopyState.sequence s.cfgw.copyB)

/-- The copy a write takes: the INVALID one, A if both are; the one with the lower sequence, B when they are
equal (R175). -/
def targetCopy (s : State) : Copy :=
  match s.cfgw.copyA, s.cfgw.copyB with
  | .invalid, _ => .a
  | .valid _, .invalid => .b
  | .valid a, .valid b => if a < b then .a else .b

/-- The write ends in a failure: the target stays INVALID, PROGRAM_FAIL is logged with the first flash page of
the target's block, and WRITE_CONFIG is answered PROGRAM_FAIL (R176). -/
def failConfig (device : Bool) (s : State) : State :=
  match s.cfgw.write with
  | none => s
  | some w =>
    let step := if w.programming then (Work.configProgram w.copy).stepCode else (Work.configErase w.copy).stepCode
    (({ s with cfgw := { s.cfgw with write := none } }).log
      { kind := .programFail, page := some (copyPage w.copy), detail := packWord step (if device then 0 else 1) 0 0 }).answer
      w.port w.tag .programFail []

/-- The erase of the target's block ends (R176). -/
def configEraseEnded (out : OpOutcome) (s : State) : State :=
  if out = .done then
    { s with cfgw := { s.cfgw with write := s.cfgw.write.map (fun w => { w with programming := true }) } }
  else s.failConfig (out == .deviceFail)

/-- The number a reply gives a copy: 0 for A, 1 for B (section 11.2). -/
def copyNumber : Copy → Nat
  | .a => 0
  | .b => 1

/-- The record's program ends (R176). -/
def configProgramEnded (out : OpOutcome) (s : State) : State :=
  if out = .done then
    match s.cfgw.write with
    | none => s
    | some w =>
      ((({ s with cfgw := { s.cfgw with write := none } }).setCopy w.copy (.valid w.sequence)).answer w.port w.tag .ok
        [wordOf (copyNumber w.copy), wordOf w.sequence])
  else s.failConfig (out == .deviceFail)

/-- An accepted WRITE_CONFIG: the target becomes INVALID and the write enters step ERASE (R175). -/
def acceptConfig (p : Port) (t : CmdTag) (body : List Byte) (s : State) : State :=
  let c := s.targetCopy
  let n := s.highestSequence + 1
  let w : ConfigWrite :=
    { copy := c, programming := false, sequence := n, record := configBytes n body, port := p, tag := t }
  let s := s.setCopy c .invalid
  { s with cfgw := { s.cfgw with write := some w } }

/-- WRITE_CONFIG settled (R175). -/
def configBody (p : Port) (t : CmdTag) (record : List Word) (s : State) : State :=
  if s.portHeld p then s.answer p t .portHeld []
  else if s.cfgw.write.isSome then s.answer p t .busy []
  else if (parseConfig (wordsBytes record)).isNone then s.answer p t .badArgument []
  else if s.highestSequence = 4294967295 then s.answer p t .badState []
  else if s.offline then s.answer p t .channelDown []
  else (s.acceptConfig p t (wordsBytes record)).settle

/-- The end of an operation that the device answered, for a requester that logs its own failures. -/
def endOwnOp (o : Operation) (pass : Bool) (f : OpOutcome → State → State) (s : State) : State :=
  (f (answered pass) (s.deviceEffect (deviceAnswer pass) o).endOp).settle

end State

/-- WRITE_CONFIG (R175); a record that is not 49 words carries a wrong argument count (R163, log 29). -/
def execWriteConfig (p : Port) (q : Seq) (t : CmdTag) (record : List Word) (s : State) :
    Host.Outcome State Fault Refusal :=
  .next (s.whenLive
    (State.command p q t .writeConfig (record.length == 49) none (State.configBody p t record)))

/-- ERASE_MARK_END (R108). -/
def execEraseMarkEnd (pass : Bool) (s : State) : Host.Outcome State Fault Refusal :=
  .next (s.whenLive (fun s =>
    match s.chan.op with
    | none => s
    | some o =>
      match o.work with
      | .eraseMark => s.endOwnOp o pass State.eraseMarkEnded
      | _ => s))

/-- RECLAIM_ERASE_END (R107). A suspended erase does not end. -/
def execReclaimEraseEnd (pass : Bool) (s : State) : Host.Outcome State Fault Refusal :=
  .next (s.whenLive (fun s =>
    match s.chan.op with
    | none => s
    | some o =>
      match o.work with
      | .reclaimErase b => s.endOwnOp o pass (State.reclaimEraseEnded b)
      | _ => s))

/-- CONFIG_ERASE_END (R176). -/
def execConfigEraseEnd (pass : Bool) (s : State) : Host.Outcome State Fault Refusal :=
  .next (s.whenLive (fun s =>
    match s.chan.op with
    | none => s
    | some o =>
      match o.work with
      | .configErase _ => s.endOwnOp o pass State.configEraseEnded
      | _ => s))

/-- CONFIG_PROGRAM_END (R176). -/
def execConfigProgramEnd (pass : Bool) (s : State) : Host.Outcome State Fault Refusal :=
  .next (s.whenLive (fun s =>
    match s.chan.op with
    | none => s
    | some o =>
      match o.work with
      | .configProgram _ => s.endOwnOp o pass State.configProgramEnded
      | _ => s))

end Sys2Proof.Machine
end

