-- ==== Sys2Proof/Machine/Links.lean ====
section
/-!
DEFINITION. The port link unit (spec/08): training, acknowledgement, retransmission, and the order of packets
to the master.
-/

namespace Sys2Proof.Machine

/-- The acknowledgement timer's 100 µs (R157). -/
def Timeout.acknowledgement : Nat := 100

/-- The training timer's 10 ms (R154). -/
def Timeout.training : Nat := 10000

/-- What a link can send next (R160): a READY read reply, a READY command reply, or a WAITING notice, each with
its readiness. -/
inductive Outgoing where
  | readReply (t : ReadTag) (readyAt : Nat)
  | cmdReply (t : CmdTag) (readyAt : Nat)
  | notice (e : NoticeEntry)
deriving DecidableEq, Repr

/-- An item's readiness. -/
def Outgoing.ready : Outgoing → Nat
  | .readReply _ n => n
  | .cmdReply _ n => n
  | .notice e => e.readyAt

/-- The item that became ready earliest. -/
def Outgoing.earliest : List Outgoing → Option Outgoing
  | [] => none
  | x :: xs =>
    match Outgoing.earliest xs with
    | none => some x
    | some y => if y.ready < x.ready then some y else some x

namespace State

/-! ### Training (R154, R155) -/

/-- A TRAIN matches: its link version is 1 and its port number is that of its link (section 8.2). -/
def trainMatches (p : Port) (version portNumber : Byte) : Bool := version == 1 && portNumber.toNat == p.val

/-- Entry to UP (R155). -/
def enterUp (p : Port) (s : State) : State :=
  (s.modLink p (fun _ => { Link.reset with state := .up })).log { kind := .linkUp, port := some p }

/-- A TRAIN taken in DOWN or TRAINING (R154). -/
def takeTrain (p : Port) (matched acked : Bool) (s : State) : State :=
  if matched then
    let s := s.put p (.train true)
    if acked then s.enterUp p
    else s.modLink p (fun k => { k with state := .training, trainTimer := some Timeout.training })
  else (s.put p (.train false)).modLink p (fun k => { k with state := .down, trainTimer := none })

/-- A TRAIN taken in UP that is not the closing one: the link goes DOWN with the reason RETRAIN, and the TRAIN is then
taken as in DOWN (R155). -/
def retrain (p : Port) (matched acked : Bool) (s : State) : State :=
  ((s.linkDown p .retrain).takeTrain p matched acked).settle

/-! ### The retransmit buffer (R157, R158) -/

/-- A sequenced packet put on the link for the first time (R157). -/
def sendNew (p : Port) (b : Body) (source : Option Nat) (s : State) : State :=
  let q := (s.port p).link.sendSeq
  (s.put p (.sequenced q b)).modLink p (fun k =>
    { k with sendSeq := q + 1, buffer := k.buffer ++ [{ seq := q, body := b, source := source }],
             ackTimer := some (k.ackTimer.getD Timeout.acknowledgement) })

/-- The NOTICES_LOST entry that a freed place takes when the lost count is above 0 (R167). -/
def reportLost (p : Port) (s : State) : State :=
  let r := s.port p
  if r.lost = 0 then s
  else
    s.modPort p (fun r =>
      { r with notices := r.notices ++
                 [{ notice := { kind := .noticesLost, subject := none, value := wordOf r.lost }, sent := false,
                    readyAt := r.nextReady }],
               lost := 0, nextReady := r.nextReady + 1 })

/-- An acknowledged notice leaves the queue (R167); one whose entry a restart has removed frees no place
(R168). -/
def leaveQueue (p : Port) (source : Option Nat) (s : State) : State :=
  match source with
  | none => s
  | some n =>
    if (s.port p).notices.any (fun e => e.readyAt == n) then
      (s.modPort p (fun r => { r with notices := r.notices.filter (fun e => e.readyAt != n) })).reportLost p
    else s

/-- What the removal of packets from the buffer does to their sources, oldest first (R157, R167). -/
def acknowledged (p : Port) : List Buffered → State → State
  | [], s => s
  | b :: bs, s => acknowledged p bs (s.leaveQueue p b.source)

/-- The `n` oldest packets leave the buffer; if any leaves, the retransmission count returns to 0 (R157). -/
def dropOldest (p : Port) (n : Nat) (s : State) : State :=
  let gone := (s.port p).link.buffer.take n
  acknowledged p gone (s.modLink p (fun k =>
    { k with buffer := k.buffer.drop n, retransmissions := if gone.isEmpty then k.retransmissions else 0 }))

/-- The acknowledgement timer after an ACK: restarted at 100 µs if packets remain, else stopped (R157). -/
def restartAck (p : Port) : State → State :=
  modLink p (fun k => { k with ackTimer := if k.buffer.isEmpty then none else some Timeout.acknowledgement })

/-- Packets put on the link again. -/
def putAll (p : Port) : List Buffered → State → State
  | [], s => s
  | b :: bs, s => putAll p bs (s.put p (.sequenced b.seq b.body))

/-- A retransmission of the whole buffer; one that becomes due with the count at 8 is not made, and the link
goes DOWN (R158). -/
def retransmit (p : Port) (s : State) : State :=
  let k := (s.port p).link
  if 8 ≤ k.retransmissions then (s.linkDown p .retransmit).settle
  else
    (s.putAll p k.buffer).modLink p (fun k =>
      { k with retransmissions := k.retransmissions + 1, ackTimer := some Timeout.acknowledgement })

/-- The place in the buffer of the packet with a sequence number. -/
def placeOf (s : State) (p : Port) (q : Seq) : Option Nat :=
  (s.port p).link.buffer.findIdx? (fun b => b.seq == q)

/-! ### The order of packets (R160) -/

/-- The READY read replies, each with its readiness; a READY tag has one in every run (log 32). -/
def readReplies (s : State) (p : Port) : List Outgoing :=
  (tall 8).filterMap (fun t =>
    if (s.readTag p t).state = .ready then some (.readReply t ((s.readTag p t).readyAt.getD 0)) else none)

/-- The READY command replies, but for those of tags held at a restart (log 22). -/
def cmdReplies (s : State) (p : Port) : List Outgoing :=
  (tall 2).filterMap (fun t =>
    if (s.cmdTag p t).state = .ready ∧ (s.cmdTag p t).restartHeld = false then
      some (.cmdReply t ((s.cmdTag p t).readyAt.getD 0))
    else none)

/-- The oldest WAITING notice entry (R167). -/
def waitingNotice (s : State) (p : Port) : List Outgoing :=
  ((s.port p).notices.find? (fun e => !e.sent)).toList.map Outgoing.notice

/-- The sequenced packet that became ready earliest (R160). -/
def nextOutgoing (s : State) (p : Port) : Option Outgoing :=
  Outgoing.earliest (s.readReplies p ++ s.cmdReplies p ++ s.waitingNotice p)

/-- The body of a read reply: the data only with the status OK (R77). -/
def readBody (s : State) (p : Port) (t : ReadTag) : Body :=
  let r := s.readTag p t
  let st := r.status.getD .ok
  .readReply t st (if st = .ok then r.lower ++ r.upper else [])

/-- The link takes an item for sending: a read reply with its unpins (R78), a command reply (R164), or a notice,
whose entry becomes SENT (R167). -/
def takeOutgoing (p : Port) (x : Outgoing) (s : State) : State :=
  match x with
  | .readReply t _ => ((s.sendNew p (s.readBody p t) none).dropRequest p t).settle
  | .cmdReply t _ =>
    let r := s.cmdTag p t
    let s := (s.sendNew p (.cmdReply t (r.status.getD .ok) r.result) none).modCmdTag p t
      (fun _ => CmdTagRecord.reset)
    if restartReply r then { s with hubRestart := .sending } else s
  | .notice e =>
    (s.sendNew p (.notice e.notice) (some e.readyAt)).modPort p (fun r =>
      { r with notices := r.notices.map (fun x => if x.readyAt = e.readyAt then { x with sent := true } else x) })

/-- The packet an owed answer is sent as. -/
def owedPacket : Owed → Packet
  | .ack q => .ack q
  | .nak q => .nak q

/-- One packet sent, by the order of R160. -/
def sendOne (p : Port) (s : State) : State :=
  match (s.port p).link.owed with
  | some a => (s.put p (owedPacket a)).modLink p (fun k => { k with owed := none })
  | none =>
    if (s.port p).link.buffer.length < 4 then
      match s.nextOutgoing p with
      | some x => s.takeOutgoing p x
      | none => s
    else s

end State

/-! ### The commands -/

/-- TRAIN (R154, R155): an OFF port discards it (R169). -/
def execTrain (p : Port) (version portNumber : Byte) (acked : Bool) (s : State) :
    Host.Outcome State Fault Refusal :=
  .next (s.whenLive (fun s =>
    let matched := State.trainMatches p version portNumber
    if s.portOff p then s
    else
      match (s.port p).link.state with
      | .up =>
        if matched && acked then s
        else s.retrain p matched acked
      | .down => s.takeTrain p matched acked
      | .training => s.takeTrain p matched acked))

/-- PACKET_CHECK_FAILED on an UP link, by the kind byte as it was received (log 16): an ACK or a NAK is only discarded
(R157); a TRAIN does not match (section 8.2), so the link goes DOWN and it is answered (R155); any other packet is
discarded and a NAK is owed (R156). On a link that is not UP every packet is discarded without an answer (R153). -/
def execPacketCheckFailed (p : FailedPacket) (s : State) : Host.Outcome State Fault Refusal :=
  .next (s.whenLive (fun s =>
    if s.linkUp p.port then
      if answerKind p.kind then s
      else if trainKind p.kind then s.retrain p.port false false
      else s.owe p.port (.nak (s.port p.port).link.recvSeq)
    else s))

/-- ACK (R157): every packet up to and including the one named leaves the buffer. -/
def execAck (p : Port) (q : Seq) (s : State) : Host.Outcome State Fault Refusal :=
  .next (s.whenLive (fun s =>
    if s.linkUp p then
      match s.placeOf p q with
      | some i => (s.dropOldest p (i + 1)).restartAck p
      | none => s
    else s))

/-- NAK (R157): the packets before the one named leave the buffer and the rest are sent again; a NAK of the
send sequence empties the buffer. -/
def execNak (p : Port) (q : Seq) (s : State) : Host.Outcome State Fault Refusal :=
  .next (s.whenLive (fun s =>
    if s.linkUp p then
      match s.placeOf p q with
      | some i => (s.dropOldest p i).retransmit p
      | none =>
        if q = (s.port p).link.sendSeq then (s.dropOldest p (s.port p).link.buffer.length).restartAck p else s
    else s))

/-- LINK_SEND (R160). -/
def execLinkSend (p : Port) (s : State) : Host.Outcome State Fault Refusal :=
  .next (s.whenLive (fun s => if s.linkUp p then s.sendOne p else s))

/-- TRAIN_PERIOD: the TRAIN of a link that is not UP (R153); an OFF port sends none (R169). From when the 1 ms period
counts is not stated: the command marks its end, and no time passes with it (DESIGN CHOICE, log 47). -/
def execTrainPeriod (p : Port) (s : State) : Host.Outcome State Fault Refusal :=
  .next (s.whenLive (fun s =>
    if s.portOff p then s
    else
      match (s.port p).link.state with
      | .down => s.put p (.train false)
      | .training => s.put p (.train true)
      | .up => s))

/-- TRAINING_TIMEOUT: the link returns to DOWN (R154). -/
def execTrainingTimeout (p : Port) (s : State) : Host.Outcome State Fault Refusal :=
  .next (s.whenLive (fun s =>
    match (s.port p).link.state, (s.port p).link.trainTimer with
    | .training, some d =>
      (s.advance d).modLink p (fun k => { k with state := .down, trainTimer := none })
    | _, _ => s))

/-- ACKNOWLEDGEMENT_TIMEOUT: a retransmission is due (R158). -/
def execAcknowledgementTimeout (p : Port) (s : State) : Host.Outcome State Fault Refusal :=
  .next (s.whenLive (fun s =>
    match (s.port p).link.state, (s.port p).link.ackTimer with
    | .up, some d => (s.advance d).retransmit p
    | _, _ => s))

end Sys2Proof.Machine
end

