-- ==== Sys2Proof/Machine/Flags.lean ====
section
/-!
DEFINITION. The words of the status replies and of READ_EVENTS (spec/10, section 11.2): each state, flag, timer
and count packed into its byte.
-/

namespace Sys2Proof.Machine

/-- All ones of a word: an absent word field (section 11.1). -/
def absentWord : Word := wordOf 0xFFFFFFFF

/-- An absent two-byte field holds all ones (section 11.1). -/
def optHalf (o : Option Nat) : Nat := o.getD 0xFFFF

/-- A flag's byte: 1 when it holds. -/
def flagByte (b : Bool) : Nat := if b then 1 else 0

/-- A word from two bytes and a two-byte field below them. -/
def packHalf (low b2 b3 : Nat) : Word := packWord low (low / 256) b2 b3

/-- A time in ms: whole milliseconds of its microseconds (log 19). -/
def ms (us : Nat) : Word := wordOf (us / 1000)

namespace State

/-- The phase of a line's lock. -/
def lockPhase (s : State) (l : LineNo) : Option Nat := (s.work l).map (fun w => w.phase.code)

/-- The idle timer as STATUS_LINE reports it: the remaining time in ms, 0xFFFFFFFE when stopped, all ones with no
holder (section 11.2). -/
def idleWord (k : Option Lock) : Word :=
  match k with
  | none => absentWord
  | some k =>
    match k.idle with
    | none => wordOf 0xFFFFFFFE
    | some d => ms d

/-- The eight words of STATUS_LINE (R183). -/
def lineWords (s : State) (l : LineNo) : List Word :=
  let r := s.line l
  [ packWord r.state.code (optByte (r.current.map Fin.val)) (optByte (r.pending.map Fin.val))
      (optByte (r.lock.map (fun k => k.holder.val))) ] ++
  nameWords r.name ++
  [ packHalf r.generation (optByte (r.lock.bind (fun _ => s.lockPhase l)))
      (optByte ((s.sequence l).map (fun c => c.port.val))),
    r.version.getD absentWord,
    packWord (optByte (r.lock.map (fun k => k.slot.val))) 0 0 0,
    idleWord r.lock,
    0 ]

/-- The reclaimer's block cursor for a slot, when the slot is its target (R184). -/
def cursorOf (s : State) (n : SlotNo) : Option Nat :=
  s.reclaim.bind (fun j => if j.target = n then some j.cursor else none)

/-- The eight words of STATUS_SLOT (R184). -/
def slotWords (s : State) (n : SlotNo) : List Word :=
  let r := s.slot n
  [ packWord r.state.code (optByte (r.line.map Fin.val)) (flagByte r.checkList.isSome) (flagByte r.reclaimHold) ] ++
  nameWords r.name ++
  [ r.version.getD absentWord,
    (r.length.map wordOf).getD absentWord,
    packHalf (optHalf r.generation) (optByte (s.cursorOf n)) 0,
    packWord r.windowPins r.segmentPins r.fillPins 0,
    0 ]

/-- The kind of a supervision timer (section 11.2). -/
def timerKind : SupTimer → Nat
  | .stopped => 0xFF
  | .resetHold _ => 0
  | .bootTimeout _ => 1
  | .deadline _ => 2
  | .grace _ => 3

/-- The remaining time of a supervision timer; all ones when stopped (log 20). -/
def timerLeft : SupTimer → Word
  | .stopped => absentWord
  | .resetHold d => ms d
  | .bootTimeout d => ms d
  | .deadline d => ms d
  | .grace d => ms d

/-- The rights byte: bit 0 FETCH, bit 1 UPDATE, bit 2 SUPERVISE (section 11.2). -/
def rightsByte (c : PortConfig) : Nat := flagByte c.fetch + 2 * flagByte c.update + 4 * flagByte c.supervise

/-- The three words of a window (section 11.2); the absent fields of an UNBOUND one hold all ones (log 20). -/
def windowWords (b : Option Binding) : List Word :=
  match b with
  | none => [absentWord, packWord 0xFF 0xFF 0xFF 0, packWord 0xFF 0 0xFF 0xFF]
  | some b =>
    [ wordOf (b.base % 16777216 + 16777216 * Nat.log2 b.size),
      packHalf (b.offset / 4096) b.line.val (1 + 2 * flagByte b.boot),
      packWord b.slot.val 0 b.generation (b.generation / 256) ]

/-- Some tag states at 2 bits each, the first in the low bits (section 11.2). -/
def tagBits : List TagState → Nat
  | [] => 0
  | t :: ts => t.code + 4 * tagBits ts

/-- The word of a port's lock: line, slot, phase and loss pending (section 11.2). -/
def lockWord (s : State) (p : Port) : Word :=
  match s.lockOf p with
  | none => packWord 0xFF 0xFF 0xFF 0
  | some l =>
    packWord l.val (optByte ((s.line l).lock.map (fun k => k.slot.val))) (optByte (s.lockPhase l))
      (flagByte ((s.work l).elim false (·.lossPending)))

/-- The twenty words of STATUS_PORT (R185). -/
def portWords (s : State) (p : Port) : List Word :=
  let r := s.port p
  let c := s.portCfg p
  [ packWord r.sup.state.code (flagByte r.sup.lineAsserted) (timerKind r.sup.timer) r.sup.history.length,
    timerLeft r.sup.timer,
    packWord (optByte (r.sup.lastCause.map RestartCause.code)) (rightsByte c) (flagByte c.supervised)
      r.link.state.code ] ++
  r.windows.toList.flatMap windowWords ++
  [ s.lockWord p,
    wordOf (tagBits (r.readTags.toList.map (·.state))),
    wordOf (tagBits (r.cmdTags.toList.map (·.state))),
    packWord r.notices.length r.lost 0 0,
    0 ]

/-! ### READ_EVENTS (R187) -/

/-- The entries READ_EVENTS returns, and its gap flag, for a starting sequence and a count (R187). -/
def eventsFrom (r : EventRecord) (from' : Word) (count : Nat) : List Event × Bool :=
  match r.entries with
  | [] => ([], from' != r.next)
  | o :: _ =>
    let d := (from' - o.seq).toNat
    if d < r.entries.length then ((r.entries.drop d).take count, false)
    else if d = r.entries.length then ([], false)
    else (r.entries.take count, true)

/-- The next sequence of a READ_EVENTS reply (R187). -/
def nextSequence (r : EventRecord) (from' : Word) (x : List Event × Bool) : Word :=
  match x.1.getLast? with
  | some e => e.seq + 1
  | none => if x.2 then r.next else from'

/-- The words of a READ_EVENTS reply (section 11.2). -/
def eventWords (r : EventRecord) (from' : Word) (count : Nat) : List Word :=
  let x := eventsFrom r from' count
  [packWord x.1.length (flagByte x.2) 0 0, nextSequence r from' x] ++ x.1.flatMap Event.words

end State

end Sys2Proof.Machine
end

