-- ==== Sys2Proof/Machine/Status.lean ====
section
/-!
DEFINITION. The status commands (R183 to R185), READ_EVENTS (R187) and RESTART_HUB (R171).
-/

namespace Sys2Proof.Machine

namespace State

/-- STATUS_LINE settled (R183). -/
def statusLineBody (p : Port) (t : CmdTag) (line : Word) (s : State) : State :=
  match lineArg line with
  | none => s.answer p t .badArgument []
  | some l => s.answer p t .ok (s.lineWords l)

/-- STATUS_SLOT settled (R184). -/
def statusSlotBody (p : Port) (t : CmdTag) (slot : Word) (s : State) : State :=
  match s.slotArg slot with
  | none => s.answer p t .badArgument []
  | some n => s.answer p t .ok (s.slotWords n)

/-- STATUS_PORT settled: naming another port needs the SUPERVISE right; a number that names no port is refused
with BAD_ARGUMENT (R163, R185, log 42). -/
def statusPortBody (p : Port) (t : CmdTag) (port : Word) (s : State) : State :=
  match portArg port with
  | none => s.answer p t .badArgument []
  | some x =>
    if x = p ∨ s.hasRight p .supervise then s.answer p t .ok (s.portWords x) else s.answer p t .noRight []

/-- READ_EVENTS settled (R187). -/
def readEventsBody (p : Port) (t : CmdTag) (start count : Word) (s : State) : State :=
  if s.portHeld p then s.answer p t .portHeld []
  else if count.toNat = 0 ∨ 8 < count.toNat then s.answer p t .badArgument []
  else s.answer p t .ok (eventWords s.events start count.toNat)

/-- RESTART_HUB settled: answered OK; the restart begins when the reply has been sent, or is dropped (R171). -/
def restartHubBody (p : Port) (t : CmdTag) (s : State) : State :=
  if s.portHeld p then s.answer p t .portHeld [] else s.answer p t .ok []

/-- A status command held during start-up, settled at the hand-over (R181). -/
def settleStatus (p : Port) (t : CmdTag) (s : State) : State :=
  match (s.cmdTag p t).command, (s.cmdTag p t).args with
  | some .statusLine, [a] => s.statusLineBody p t a
  | some .statusSlot, [a] => s.statusSlotBody p t a
  | some .statusPort, [a] => s.statusPortBody p t a
  | _, _ => s

/-- The held status commands of some ports, tag 0 before tag 1 (R181, log 31). -/
def settleStatuses : List Port → State → State
  | [], s => s
  | p :: ps, s => settleStatuses ps ((s.settleStatus p 0).settleStatus p 1)

end State

/-- STATUS_LINE (R183). -/
def execStatusLine (p : Port) (q : Seq) (t : CmdTag) (line : Word) (s : State) :
    Host.Outcome State Fault Refusal :=
  .next (s.whenLive (State.command p q t .statusLine true (some line) (State.statusLineBody p t line)))

/-- STATUS_SLOT (R184). -/
def execStatusSlot (p : Port) (q : Seq) (t : CmdTag) (slot : Word) (s : State) :
    Host.Outcome State Fault Refusal :=
  .next (s.whenLive (State.command p q t .statusSlot true (some slot) (State.statusSlotBody p t slot)))

/-- STATUS_PORT (R185). -/
def execStatusPort (p : Port) (q : Seq) (t : CmdTag) (port : Word) (s : State) :
    Host.Outcome State Fault Refusal :=
  .next (s.whenLive (State.command p q t .statusPort true (some port) (State.statusPortBody p t port)))

/-- READ_EVENTS (R187). -/
def execReadEvents (p : Port) (q : Seq) (t : CmdTag) (start count : Word) (s : State) :
    Host.Outcome State Fault Refusal :=
  .next (s.whenLive (State.simpleCommand p q t .readEvents (State.readEventsBody p t start count)))

/-- RESTART_HUB (R171). -/
def execRestartHub (p : Port) (q : Seq) (t : CmdTag) (s : State) : Host.Outcome State Fault Refusal :=
  .next (s.whenLive (State.simpleCommand p q t .restartHub (State.restartHubBody p t)))

end Sys2Proof.Machine
end

