-- ==== Sys2Proof/Machine/Supervise.lean ====
section
/-!
DEFINITION. The supervision unit (spec/07): release, heartbeat, restart and quarantine.
-/

namespace Sys2Proof.Machine

namespace State

/-! ### Entering PRELOADING and leaving it (R136, R137) -/

/-- A port becomes PRELOADING: its boot request rises by 1 and the binding unit is handed its boot-window item
under that count (R136). -/
def enterPreloading (p : Port) : State → State :=
  modPort p (fun r =>
    { r with sup := { r.sup with state := .preloading, lineAsserted := true, timer := .stopped,
                                 bootRequest := r.sup.bootRequest + 1 },
             bindItems := r.bindItems ++ [.boot (r.sup.bootRequest + 1)] })

/-- The preload is complete: the reset line is released, into BOOTING or FREE (R137). -/
def releaseMaster (p : Port) (s : State) : State :=
  let c := s.portCfg p
  s.modSup p (fun u =>
    if c.supervised then
      { u with state := .booting, lineAsserted := false, timer := .bootTimeout (c.bootTimeout * 1000) }
    else { u with state := .free, lineAsserted := false, timer := .stopped })

/-! ### Port restart (R143 to R148) -/

/-- The restart times that lie within the restart window of a time (R148). -/
def withinWindow (now window : Nat) (h : List Nat) : List Nat :=
  h.dropWhile (fun t => decide (window * 1000000 < now - t))

/-- The history with a restart entered (R148). -/
def newHistory (s : State) (p : Port) : List Nat :=
  withinWindow s.clock (s.portCfg p).restartWindow (s.port p).sup.history ++ [s.clock]

/-- The state a restart enters: QUARANTINED when the history passes the limit, else HELD (R143 step 1). -/
def stateEntered (s : State) (p : Port) : SupState :=
  if (s.portCfg p).restartLimit < (s.newHistory p).length then .quarantined else .held

/-- The reset hold started in full. -/
def holdTimer (s : State) (p : Port) : SupTimer := .resetHold ((s.portCfg p).resetHold * 1000)

/-- The supervision record after a restart (R143 steps 1 to 3). -/
def restartedSup (s : State) (p : Port) (cause : RestartCause) (u : Supervision) : Supervision :=
  { u with state := s.stateEntered p, lineAsserted := true,
           timer := if s.stateEntered p = .quarantined then .stopped else s.holdTimer p,
           token := none, lastToken := if u.token.isSome then u.token else u.lastToken,
           history := s.newHistory p, lastCause := some cause }

/-- A command tag held at a restart claim is marked (R145). -/
def markHeld (r : CmdTagRecord) : CmdTagRecord :=
  if r.state = .free then r else { r with restartHeld := true }

/-- The requests a restart hands to the port's neighbours (R143 steps 4 to 8). -/
def handRequests (p : Port) (s : State) : State :=
  let preloading := (s.port p).sup.state = .preloading
  s.modPort p (fun r =>
    { r with cancelLoads := if preloading then r.cancelLoads + 1 else r.cancelLoads,
             bindItems := r.bindItems ++ [.unbindAll], endReads := r.endReads + 1,
             clearNotices := r.clearNotices + 1, cmdTags := tmap markHeld r.cmdTags,
             dropLock := r.dropLock + 1 })

/-- The ports told of a restart: each other port with the SUPERVISE right that is not OFF (R146). -/
def toldOfReset (s : State) (p : Port) : List Port :=
  s.supervisors.filter (fun x => x != p && !s.portOff x)

/-- A port restart, as one claim (R143). `by'` is the requesting port, for the cause COMMAND. -/
def restart (p : Port) (cause : RestartCause) (by' : Option Port) (s : State) : State :=
  let st := s.stateEntered p
  let told := s.toldOfReset p
  let s := (s.handRequests p).modSup p (s.restartedSup p cause)
  let s := s.log { kind := .portReset, port := some p,
                   detail := packWord cause.code st.code (optByte (by'.map Fin.val)) 0 }
  let s := s.handAll { kind := .portReset, subject := some p.val, value := packWord cause.code st.code 0 0 } told
  if st = .quarantined then s.log { kind := .portQuarantined, port := some p } else s

/-! ### The heartbeat (R139 to R141) -/

/-- An accepted SERVICE: a new token is drawn, the port is RUNNING, and the deadline starts at the heartbeat
period; the reply carries both (R139, R140). -/
def acceptService (p : Port) (t : CmdTag) (old : Option (BitVec 16)) (s : State) : State :=
  let tok := boundToken (Config.freeToken s.draws) old
  let beat := (s.portCfg p).heartbeat
  (s.drawn.modSup p (fun u => { u with state := .running, token := some tok, timer := .deadline (beat * 1000) })).answer
    p t .ok [wordOf tok.toNat, wordOf beat]

/-- SERVICE settled by the port's state and the token (R139). -/
def serviceBody (p : Port) (t : CmdTag) (token : Word) (s : State) : State :=
  let u := (s.port p).sup
  let tok := token.setWidth 16
  match u.state with
  | .booting => if tok = 0 then s.acceptService p t u.lastToken else s.answer p t .badToken []
  | .running => if u.token = some tok then s.acceptService p t u.token else s.answer p t .badToken []
  | .warned => if u.token = some tok then s.acceptService p t u.token else s.answer p t .badToken []
  | .off => s.answer p t .notSupervised []
  | .held => s.answer p t .notSupervised []
  | .preloading => s.answer p t .notSupervised []
  | .free => s.answer p t .notSupervised []
  | .quarantined => s.answer p t .notSupervised []

/-- The deadline has expired with a grace above 0: the port is WARNED (R141). -/
def warn (p : Port) (s : State) : State :=
  let c := s.portCfg p
  ((s.modSup p (fun u => { u with state := .warned, timer := .grace (c.grace * 1000) })).hand p
    { kind := .supervisionWarning, subject := some p.val, value := wordOf c.grace }).log
    { kind := .portWarned, port := some p, detail := wordOf c.heartbeat }

/-! ### The commands on ports (R149, R150) -/

/-- RESET_PORT settled (R149). -/
def resetPortBody (p : Port) (t : CmdTag) (port : Word) (s : State) : State :=
  if s.portHeld p then s.answer p t .portHeld []
  else
    match portArg port with
    | none => s.answer p t .badArgument []
    | some x =>
      match (s.port x).sup.state with
      | .off => s.answer p t .badState []
      | .quarantined => s.answer p t .badState []
      | _ => (s.restart x .command (some p)).answer p t .ok [wordOf (s.stateEntered x).code]

/-- RELEASE_PORT settled (R150). -/
def releasePortBody (p : Port) (t : CmdTag) (port : Word) (s : State) : State :=
  if s.portHeld p then s.answer p t .portHeld []
  else
    match portArg port with
    | none => s.answer p t .badArgument []
    | some x =>
      if (s.port x).sup.state = .quarantined then
        (s.modSup x (fun u => { u with state := .held, history := [], timer := s.holdTimer x })).answer p t .ok []
      else s.answer p t .badState []

/-- The held command tags of a restarted port: a formed reply is dropped, a running command's will be (R145). -/
def dropHeld (p : Port) (t : CmdTag) (s : State) : State :=
  if (s.cmdTag p t).restartHeld then s.endCmd p t else s

/-- The notice queue emptied and the lost count set to 0 (R146). -/
def clearNotices (p : Port) : State → State := modPort p (fun r => { r with notices := [], lost := 0 })

end State

/-- SERVICE (R139). -/
def execService (p : Port) (q : Seq) (t : CmdTag) (token : Word) (s : State) :
    Host.Outcome State Fault Refusal :=
  .next (s.whenLive (State.simpleCommand p q t .service (State.serviceBody p t token)))

/-- RESET_PORT (R149). -/
def execResetPort (p : Port) (q : Seq) (t : CmdTag) (port : Word) (s : State) :
    Host.Outcome State Fault Refusal :=
  .next (s.whenLive (State.simpleCommand p q t .resetPort (State.resetPortBody p t port)))

/-- RELEASE_PORT (R150). -/
def execReleasePort (p : Port) (q : Seq) (t : CmdTag) (port : Word) (s : State) :
    Host.Outcome State Fault Refusal :=
  .next (s.whenLive (State.simpleCommand p q t .releasePort (State.releasePortBody p t port)))

/-- PRELOAD_COMPLETE: the report reaches the supervision unit (R137). -/
def execPreloadComplete (p : Port) (s : State) : Host.Outcome State Fault Refusal :=
  .next (s.whenLive (fun s =>
    if (s.port p).completions = 0 then s
    else
      let s := s.modPort p (fun r => { r with completions := r.completions - 1 })
      if (s.port p).sup.state = .preloading then s.releaseMaster p else s))

/-- BOOT_TIMEOUT (R138). -/
def execBootTimeout (p : Port) (s : State) : Host.Outcome State Fault Refusal :=
  .next (s.whenLive (fun s =>
    match (s.port p).sup.state, (s.port p).sup.timer with
    | .booting, .bootTimeout d => (s.advance d).restart p .bootTimeout none
    | _, _ => s))

/-- DEADLINE_EXPIRY: WARNED with a grace above 0, else a restart (R141). -/
def execDeadlineExpiry (p : Port) (s : State) : Host.Outcome State Fault Refusal :=
  .next (s.whenLive (fun s =>
    match (s.port p).sup.state, (s.port p).sup.timer with
    | .running, .deadline d =>
      let s := s.advance d
      if (s.portCfg p).grace = 0 then s.restart p .deadline none else s.warn p
    | _, _ => s))

/-- GRACE_EXPIRY (R142). -/
def execGraceExpiry (p : Port) (s : State) : Host.Outcome State Fault Refusal :=
  .next (s.whenLive (fun s =>
    match (s.port p).sup.state, (s.port p).sup.timer with
    | .warned, .grace d => (s.advance d).restart p .deadline none
    | _, _ => s))

/-- RESET_HOLD_EXPIRY: the port becomes PRELOADING (R147). -/
def execResetHoldExpiry (p : Port) (s : State) : Host.Outcome State Fault Refusal :=
  .next (s.whenLive (fun s =>
    match (s.port p).sup.state, (s.port p).sup.timer with
    | .held, .resetHold d => (s.advance d).enterPreloading p
    | _, _ => s))

/-- RESTART_END_READS: the read engine and the port link end a restarted port's reads (R82). -/
def execRestartEndReads (p : Port) (s : State) : Host.Outcome State Fault Refusal :=
  .next (s.whenLive (fun s =>
    if (s.port p).endReads = 0 then s
    else ((s.modPort p (fun r => { r with endReads := r.endReads - 1 })).endReads p).settle))

/-- RESTART_CLEAR_NOTICES: the port link discards the held commands' replies and empties the notice queue (R145,
R146). -/
def execRestartClearNotices (p : Port) (s : State) : Host.Outcome State Fault Refusal :=
  .next (s.whenLive (fun s =>
    if (s.port p).clearNotices = 0 then s
    else
      let s := s.modPort p (fun r => { r with clearNotices := r.clearNotices - 1 })
      (((s.clearNotices p).dropHeld p 0).dropHeld p 1).settle))

/-- PRELOAD_CANCEL: the fill engine closes a restarted port's preload (R64). -/
def execPreloadCancel (p : Port) (s : State) : Host.Outcome State Fault Refusal :=
  .next (s.whenLive (fun s =>
    if (s.port p).cancelLoads = 0 then s
    else (s.modPort p (fun r => { r with cancelLoads := r.cancelLoads - 1 })).cancelPreload p))

end Sys2Proof.Machine
end

