-- ==== Sys2Proof/Machine/StartUp.lean ====
section
/-!
DEFINITION. The start-up controller (spec/09): the choice of a configuration, the header scan, the check lists,
the rebuild and the hand-over.
-/

namespace Sys2Proof.Machine

/-! ### The header scan (R177 to R179) -/

/-- The class a slot's own header gives it (R178). -/
def scanClass (page : List Byte) (stageRec : Option StageRecord) (sealRec : Option (Word × Word))
    (commitRec : Option Nat) : ScanClass :=
  if erased page then .empty
  else
    match stageRec, sealRec, commitRec with
    | none, _, _ => .dirty .invalidHeader
    | some _, _, some _ => .committedCandidate
    | some _, some _, none => .sealedCandidate
    | some _, none, none => .dirty .unsealed

/-- The scan table entry of a header page (R177, R178). -/
def scanEntry (largest : Nat) (page : List Byte) : ScanEntry :=
  let st := readStage largest page
  { stageRec := st, sealRec := readSeal page, commitRec := readCommit page, retireRec := readRetire page,
    cls := scanClass page st (readSeal page) (readCommit page), list := none }

namespace ScanEntry

/-- The line a valid stage record gives. -/
def line (e : ScanEntry) : Option LineNo := e.stageRec.map (·.line)

/-- The version a valid stage record gives. -/
def version (e : ScanEntry) : Nat := (e.stageRec.map (fun r => r.version.toNat)).getD 0

/-- The data page count of the length a valid stage record gives (R2). -/
def pages (e : ScanEntry) : Nat := ((e.stageRec.map (·.length)).getD 0 + 4095) / 4096

/-- One committed candidate is chosen before another (R179 step 1): the higher generation; then the one without
a valid retire record; then the higher version. -/
def beats (x y : ScanEntry) : Bool :=
  let gx := x.commitRec.getD 0
  let gy := y.commitRec.getD 0
  decide (gy < gx) ||
    (gx == gy &&
      ((x.retireRec.isNone && y.retireRec.isSome) ||
        (x.retireRec.isNone == y.retireRec.isNone && decide (y.version < x.version))))

/-- One sealed candidate is chosen before another (R179 step 3): the higher version. -/
def newer (x y : ScanEntry) : Bool := decide (y.version < x.version)

end ScanEntry

/-- The entry chosen among some numbered entries; the lower slot number among equals (R179). -/
def choose (better : ScanEntry → ScanEntry → Bool) : List (Nat × ScanEntry) → Option (Nat × ScanEntry)
  | [] => none
  | x :: xs =>
    match choose better xs with
    | none => some x
    | some y => if better y.2 x.2 then some y else some x

/-- The entries of a scan table with their slot numbers, from `k`. -/
def numbered (k : Nat) : List ScanEntry → List (Nat × ScanEntry)
  | [] => []
  | e :: es => (k, e) :: numbered (k + 1) es

/-- The candidates of a line of one class. -/
def candidates (t : List ScanEntry) (c : ScanClass) (l : LineNo) : List (Nat × ScanEntry) :=
  (numbered 0 t).filter (fun x => x.2.cls == c && x.2.line == some l)

/-- The committed candidate chosen for a line: its CURRENT slot (R179 step 1). -/
def chosenCurrent (t : List ScanEntry) (l : LineNo) : Option (Nat × ScanEntry) :=
  choose ScanEntry.beats (candidates t .committedCandidate l)

/-- A sealed candidate's version is not above that of its line's CURRENT slot (R179 step 2). -/
def oldVersion (t : List ScanEntry) (l : LineNo) (e : ScanEntry) : Bool :=
  match chosenCurrent t l with
  | none => false
  | some c => decide (e.version ≤ c.2.version)

/-- The sealed candidate chosen for a line: its SEALED slot (R179 step 3). -/
def chosenSealed (t : List ScanEntry) (l : LineNo) : Option (Nat × ScanEntry) :=
  choose ScanEntry.newer ((candidates t .sealedCandidate l).filter (fun x => !oldVersion t l x.2))

/-- What becomes of a slot's class when the candidates are resolved (R179). -/
def resolvedClass (t : List ScanEntry) (i : Nat) (e : ScanEntry) : ScanClass :=
  match e.cls, e.line with
  | .committedCandidate, some l =>
    if (chosenCurrent t l).map Prod.fst = some i then .current else .dirty .superseded
  | .sealedCandidate, some l =>
    if oldVersion t l e then .dirty .oldVersion
    else if (chosenSealed t l).map Prod.fst = some i then .sealed else .dirty .duplicateSeal
  | c, _ => c

/-- The scan table with its candidates resolved (R179). -/
def resolveScan (t : List ScanEntry) : List ScanEntry :=
  (numbered 0 t).map (fun x => { x.2 with cls := resolvedClass t x.1 x.2 })

/-- The slots of a class, in slot order. -/
def slotsOf (t : List ScanEntry) (c : ScanClass) : List SlotNo :=
  (tall 16).filter (fun n => match t[n.val]? with
    | none => false
    | some e => e.cls == c)

/-! ### The rebuild (R26, R180) -/

/-- The slot record the scan gives (R26). A DIRTY slot keeps the fields of its valid stage and commit records
(R179). -/
def rebuiltSlot (e : ScanEntry) : Slot :=
  let fields : Slot :=
    { Slot.reset with
      line := e.line, name := e.stageRec.map (·.name), version := e.stageRec.map (·.version),
      length := e.stageRec.map (·.length) }
  match e.cls with
  | .empty => Slot.reset
  | .dirty _ => { fields with state := .dirty, generation := e.commitRec }
  | .sealedCandidate => { fields with state := .dirty }
  | .committedCandidate => { fields with state := .dirty, generation := e.commitRec }
  | .sealed => { fields with state := .sealed, checkList := e.list }
  | .current => { fields with state := .current, generation := e.commitRec, checkList := e.list }

/-- The slot of a scan table that a line has in a class. -/
def slotOfLine (t : List ScanEntry) (c : ScanClass) (l : LineNo) : Option SlotNo :=
  (slotsOf t c).find? (fun n => match t[n.val]? with
    | none => false
    | some e => e.line == some l)

/-- The line record the scan gives (R180). -/
def rebuiltLine (t : List ScanEntry) (l : LineNo) : Line :=
  let pending := slotOfLine t .sealed l
  match slotOfLine t .current l with
  | none => { Line.reset with pending := pending }
  | some n =>
    match t[n.val]? with
    | none => { Line.reset with pending := pending }
    | some e =>
      { state := if e.list.isSome then .active else .damaged, name := e.stageRec.map (·.name),
        current := some n, pending := pending, generation := e.commitRec.getD 0,
        version := e.stageRec.map (·.version), lock := none }

/-- A table filled from a function. -/
def tableOf {α : Type} (n : Nat) (f : Fin n → α) : Vector α n := ⟨⟨(tall n).map f⟩, by simp [tall]⟩

/-- The words of bytes, 4 bytes each. -/
def bytesWords : Nat → List Byte → List Word
  | 0, _ => []
  | n + 1, b => wordOf (leNat (b.take 4)) :: bytesWords n (b.drop 4)

namespace State

/-! ### The controller's steps -/

/-- The controller presents a request (R172). -/
def present (w : Work) : State → State := modStart (fun t => { t with request := some w })

/-- The channel is IDLE again: the controller goes on to its next step, or presents its retry (R172). -/
def resumeStart (s : State) : State :=
  match s.start.phase with
  | .done => s
  | .reset => (s.modStart (fun t => { t with phase := .config })).present (.configRead .a)
  | .config => s.modStart (fun t => { t with request := t.retry, retry := none })
  | .scan => s.modStart (fun t => { t with request := t.retry, retry := none })
  | .lists => s.modStart (fun t => { t with request := t.retry, retry := none })

/-- The configuration chosen from the two copies' tests (R174). -/
def chosenConfig (a b : Option (Nat × ConfigRecord)) : CopyUsed × ConfigRecord :=
  match a, b with
  | some (m, x), some (n, y) => if m < n then (.b, y) else (.a, x)
  | some (_, x), none => (.a, x)
  | none, some (_, y) => (.b, y)
  | none, none => (.defaults, ConfigRecord.defaults)

/-- The configuration is chosen and the scan begins (R174, R177). -/
def chooseConfig (s : State) : State :=
  let c := chosenConfig s.start.copyA s.start.copyB
  let s := ({ s with cfg := c.2 }).modStart (fun t => { t with copyUsed := some c.1, phase := .scan, scan := [] })
  let s := if c.1 = .defaults then s.log { kind := .configFallback } else s
  s.present (.headerRead 0)

/-- A configuration copy's page has been read (R174). -/
def configRead (c : Copy) (d : List Byte) (s : State) : State :=
  match c with
  | .a => (s.modStart (fun t => { t with copyA := readCopy d })).present (.configRead .b)
  | .b => (s.modStart (fun t => { t with copyB := readCopy d })).chooseConfig

/-- RECOVERY logged for each DIRTY slot, in slot order (R179). -/
def logRecovery : List (Nat × ScanEntry) → State → State
  | [], s => s
  | (i, e) :: es, s =>
    match e.cls with
    | .dirty r =>
      logRecovery es (s.log
        { kind := .recovery, slot := if h : i < 16 then some ⟨i, h⟩ else none, line := e.line,
          detail := wordOf r.code })
    | _ => logRecovery es s

/-- The directory takes the rebuild (R26). -/
def rebuild (s : State) : State :=
  let t := s.start.scan
  { s with
    slots := tableOf 16 (fun n => ((t[n.val]?).map rebuiltSlot).getD Slot.reset),
    lines := tableOf 8 (rebuiltLine t) }

/-- A copy's state as the configuration writer takes it (R175). -/
def takenCopy (c : Option (Nat × ConfigRecord)) : CopyState :=
  match c with
  | none => .invalid
  | some (n, _) => .valid n

/-- A port made OFF at the hand-over: its link is taken DOWN and its notice queue emptied (R135, R169). -/
def makeOff (p : Port) (s : State) : State :=
  let s := if (s.port p).link.state = .up then s.linkDown p .off
    else s.modLink p (fun k => { k with state := .down, trainTimer := none })
  (s.clearNotices p).modSup p (fun u => { u with state := .off, lineAsserted := true, timer := .stopped })

/-- A port at the hand-over: OFF, or PRELOADING (R135). -/
def handOverPort (p : Port) (s : State) : State :=
  if (s.portCfg p).enabled then s.enterPreloading p else s.makeOff p

/-- Some ports at the hand-over, one after another. R182 states no order among the told blocks: taken from P0 to P3, the
ports made OFF have their LINK_DOWN events in that order (DESIGN CHOICE, log 61). -/
def handOverPorts : List Port → State → State
  | [], s => s
  | p :: ps, s => handOverPorts ps (s.handOverPort p)

/-- The hand-over (R182). -/
def handOver (s : State) : State :=
  let s := s.modStart (fun t => { t with phase := .done })
  let s := s.log { kind := .startup,
                   detail := packWord s.start.kind.code ((s.start.copyUsed.map CopyUsed.code).getD 0) 0 0 }
  let s := { s with cfgw := { copyA := takenCopy s.start.copyA, copyB := takenCopy s.start.copyB, write := none } }
  settleStatuses allPorts (handOverPorts allPorts s)

/-- The next check list is read; after the last, the rebuild and the hand-over (R180, R182). -/
def nextList (s : State) : State :=
  match s.start.toRead with
  | n :: rest => (s.modStart (fun t => { t with toRead := rest })).present (.listRead n)
  | [] => s.rebuild.handOver

/-- The scan has read its last header page: the candidates are resolved and the lists begin (R179, R180). -/
def resolve (s : State) : State :=
  let t := resolveScan s.start.scan
  let s := s.modStart (fun x => { x with scan := t, phase := .lists, toRead := slotsOf t .current ++ slotsOf t .sealed })
  (s.logRecovery (numbered 0 t)).nextList

/-- A slot's header page has been read (R177). -/
def headerRead (n : SlotNo) (d : List Byte) (s : State) : State :=
  let s := s.modStart (fun t => { t with scan := t.scan ++ [scanEntry s.largestImage d] })
  if n.val + 1 < s.cfg.slotCount then s.present (.headerRead (n + 1)) else s.resolve

/-- A check list page has been read and is verified (R180, R23). -/
def listRead (n : SlotNo) (d : List Byte) (s : State) : State :=
  match s.start.scan[n.val]? with
  | none => s.nextList
  | some e =>
    let held := match e.sealRec with
      | none => false
      | some r => r.2 == crc32 (d.take (4 * e.pages))
    if held then
      (s.modStart (fun t => { t with scan := t.scan.set n.val { e with list := some (bytesWords e.pages d) } })).nextList
    else if e.cls = .current then
      (s.log { kind := .lineDamaged, slot := some n, line := e.line }).nextList
    else
      ((s.modStart (fun t => { t with scan := t.scan.set n.val { e with cls := .dirty .listFail } })).log
        { kind := .recovery, slot := some n, line := e.line, detail := wordOf RecoveryReason.listFail.code }).nextList

/-- A read of the controller has ended through the channel: it is kept to be presented again (R172). -/
def retryRead (w : Work) : State → State := modStart (fun t => { t with retry := some w })

end State

/-- CONFIG_READ_END (R174). -/
def execConfigReadEnd (errors : ReadErrors) (s : State) : Host.Outcome State Fault Refusal :=
  .next (s.whenLive (fun s =>
    match s.chan.op with
    | none => s
    | some o =>
      match o.work with
      | .configRead c => (s.endOp.configRead c (State.pageRead o errors s)).settle
      | _ => s))

/-- HEADER_READ_END (R177 to R179). -/
def execHeaderReadEnd (errors : ReadErrors) (s : State) : Host.Outcome State Fault Refusal :=
  .next (s.whenLive (fun s =>
    match s.chan.op with
    | none => s
    | some o =>
      match o.work with
      | .headerRead n => (s.endOp.headerRead n (State.pageRead o errors s)).settle
      | _ => s))

/-- LIST_READ_END (R180, R26, R182, R135). -/
def execListReadEnd (errors : ReadErrors) (s : State) : Host.Outcome State Fault Refusal :=
  .next (s.whenLive (fun s =>
    match s.chan.op with
    | none => s
    | some o =>
      match o.work with
      | .listRead n => (s.endOp.listRead n (State.pageRead o errors s)).settle
      | _ => s))

end Sys2Proof.Machine
end

