-- ==== Sys2Proof/Machine/Update.lean ====
section
/-!
DEFINITION. The update writer (spec/06): the five update commands, the ends of its flash operations, the loss of
a lock, and what the channel's entry to OFFLINE does to it.
-/

namespace Sys2Proof.Machine

/-- The image check reasons of UPDATE_ABORTED (section 11.2, abort reason). -/
def AbortReason.mismatch : Nat := 1
def AbortReason.abort : Nat := 2

namespace State

/-! ### The end of a lock (R129, R122, R126 to R128) -/

/-- A QUEUED entry of a lock's slot. -/
def queuedOf (n : SlotNo) (e : ProgEntry) : Bool := e.slot == n && !e.programming

/-- The STAGEs of some entries answered in order. -/
def answerEntries (st : Status) : List ProgEntry → State → State
  | [], s => s
  | e :: es, s => answerEntries st es (s.answerTo e.owner st [])

/-- Ready work that a lock's end discards: its entries and its next step (R112). -/
def ofLock (l : LineNo) (n : SlotNo) : ReadyItem → Bool
  | .entry m _ _ => m == n
  | .lockStep m => m == l
  | .commitStep _ => false

/-- The work of an ended lock leaves the program queue, the ready work and the SEALs that wait for room, and its request
reported LOST is withdrawn with it (R112; DEDUCED, log 58). -/
def withdraw (l : LineNo) (n : SlotNo) : State → State :=
  modUpd (fun u =>
    { u with queue := u.queue.filter (fun e => !queuedOf n e), ready := u.ready.filter (fun i => !ofLock l n i),
             listing := u.listing.filter (fun m => m != l), lost := u.lost.filter (fun i => !ofLock l n i) })

/-- A lock ends: its lock record and its working record are removed, its QUEUED entries discarded and their
STAGEs answered NO_LOCK (R129 steps 2 and 3). -/
def endLock (l : LineNo) (s : State) : State :=
  match (s.line l).lock with
  | none => s
  | some k =>
    answerEntries .noLock (s.upd.queue.filter (queuedOf k.slot))
      (((s.unlock l).setWork l none).withdraw l k.slot)

/-- A STAGING slot left by its lock: to BAD after a device failure, else to DIRTY (R14, R15). -/
def leaveStaging (n : SlotNo) (device : Bool) (s : State) : State :=
  if (s.slot n).state = .staging then (if device then s.toBad n else s.toDirty n) else s

/-- A lock is lost (R129). For the reason RESET no notice is handed. -/
def loseLock (l : LineNo) (why : LossReason) (device : Bool) (s : State) : State :=
  match (s.line l).lock with
  | none => s
  | some k =>
    let s := ((s.leaveStaging k.slot device).endLock l).log
      { kind := .lockLost, port := some k.holder, slot := some k.slot, line := some l, detail := wordOf why.code }
    if why = .reset then s
    else s.hand k.holder { kind := .updateLost, subject := some l.val, value := wordOf why.code }

/-- Whether a pending loss acts at a failure of the SEAL: in DRAIN and VERIFY (R130, log 21). -/
def pendingActs (w : LockWork) : Bool :=
  w.lossPending && (w.sealStep == some .drain || w.sealStep == some .verify)

/-- An operation of a lock fails, at the device or through the channel: the lock is lost and the command in
progress answered PROGRAM_FAIL (R118, R121, R123). -/
def failLock (l : LineNo) (device : Bool) (s : State) : State :=
  match s.work l with
  | none => s
  | some w =>
    let own := if device then LossReason.program else LossReason.channel
    (s.loseLock l (if pendingActs w then .reset else own) device).answerTo w.command .programFail []

/-- The slot of a line's lock is the one named, and STAGING: an outcome may act on it (R113). -/
def staging (s : State) (l : LineNo) (n : SlotNo) : Bool :=
  (match (s.line l).lock with
   | none => false
   | some k => k.slot == n) && (s.slot n).state == .staging && (s.work l).isSome

/-! ### The steps of a SEAL (R121 to R123) -/

/-- Ready work, ready from now (R112). -/
def addReady (i : ReadyItem) : State → State := modUpd (fun u => { u with ready := u.ready ++ [i] })

/-- A working record changed. -/
def modWork (l : LineNo) (f : LockWork → LockWork) (s : State) : State :=
  match s.work l with
  | none => s
  | some w => s.setWork l (some (f w))

/-- DRAIN ends when the lock holds no entry: the verify pass begins (R121). -/
def drainEnd (l : LineNo) (n : SlotNo) (s : State) : State :=
  match s.work l with
  | none => s
  | some w =>
    if w.sealStep = some .drain ∧ s.share n = 0 then
      (s.setWork l (some { w with sealStep := some .verify, cursor := some 0, checks := [], image := imageStart })).addReady
        (.lockStep l)
    else s

/-- The image checks differ (R122). -/
def mismatch (l : LineNo) (n : SlotNo) (c : Option (Port × CmdTag)) (s : State) : State :=
  (((s.toDirty n).endLock l).log
    { kind := .updateAborted, slot := some n, line := some l, detail := wordOf AbortReason.mismatch }).answerTo
    c .checkMismatch []

/-- The end of VERIFY: a pending loss acts (R130), else the checks are compared (R122, R123). -/
def verifyDone (l : LineNo) (n : SlotNo) (w : LockWork) (s : State) : State :=
  let agree := imageEnd w.image = w.wanted
  if w.lossPending then
    (s.loseLock l .reset false).answerTo w.command (if agree then .noLock else .checkMismatch) []
  else if agree then
    (s.setWork l (some { w with sealStep := some .list, cursor := none, listNext := 0 })).modUpd
      (fun u => { u with listing := u.listing ++ [l] })
  else s.mismatch l n w.command

/-- A verify read ended with DONE: the page check is recorded, the image check carried forward over the bytes
below the length, and the cursor advances (R121). -/
def verifyPage (l : LineNo) (n : SlotNo) (d : List Byte) (w : LockWork) (s : State) : State :=
  let c := w.cursor.getD 0
  let w := { w with checks := w.checks ++ [crc32 d], cursor := some (c + 1),
                    image := imageCarry w.image (d.take (s.imageLength n - 4096 * c)) }
  if c + 1 < s.dataPages n then (s.setWork l (some w)).addReady (.lockStep l) else s.verifyDone l n w

/-- LIST ends when every LIST entry has ended: the seal mark becomes ready (R123). -/
def listEnd (l : LineNo) (n : SlotNo) (s : State) : State :=
  match s.work l with
  | none => s
  | some w =>
    if w.sealStep = some .list ∧ s.share n = 0 ∧ listUnits w.checks ≤ w.listNext then
      (s.setWork l (some { w with sealStep := some .mark })).addReady (.lockStep l)
    else s

/-- The seal record is written (R123, R13); a pending loss then acts (R130). -/
def sealDone (l : LineNo) (n : SlotNo) (w : LockWork) (s : State) : State :=
  let s := (s.modSlot n (fun r => { r with state := .sealed, checkList := some w.checks })).modLine l
    (fun r => { r with pending := some n })
  let s := s.setWork l (some { w with phase := .sealed, sealStep := none, checks := [], image := 0, wanted := 0,
                                      listNext := 0, command := none, lossPending := false })
  let s := (s.startIdle l).answerTo w.command .ok [wordOf n.val]
  if w.lossPending then s.loseLock l .reset false else s

/-! ### The ends of the update writer's operations (R113) -/

/-- The entry of the program queue that ran is removed, whatever the outcome (R111). -/
def takeEntry (n : SlotNo) (k : ProgKind) (u : Nat) : State → State :=
  modUpd (fun x => { x with queue := x.queue.filter (fun e => !(e.slot == n && e.kind == k && e.unit == u)) })

/-- The STAGE that owns an entry. -/
def ownerOf (s : State) (n : SlotNo) (k : ProgKind) (u : Nat) : Option (Port × CmdTag) :=
  (s.readyEntry n k u).bind (·.owner)

/-- The stage mark ends (R115). -/
def stageMarkEnded (l : LineNo) (n : SlotNo) (out : OpOutcome) (s : State) : State :=
  match s.staging l n, s.work l with
  | true, some w =>
    match out with
    | .done =>
      (((s.setWork l (some { w with phase := .opened, command := none })).startIdle l).answerTo w.command .ok
        [wordOf n.val])
    | .deviceFail => ((s.toBad n).endLock l).answerTo w.command .programFail []
    | .timeout => ((s.toDirty n).endLock l).answerTo w.command .programFail []
    | .lost => ((s.toDirty n).endLock l).answerTo w.command .programFail []
  | _, _ => s

/-- A DATA program ends (R117, R118). -/
def dataEnded (l : LineNo) (n : SlotNo) (u : Nat) (out : OpOutcome) (s : State) : State :=
  let owner := s.ownerOf n .data u
  let s := s.takeEntry n .data u
  if s.staging l n then
    if out = .done then (s.answerTo owner .ok []).drainEnd l n
    else (s.answerTo owner .programFail []).failLock l (out == .deviceFail)
  else s.answerTo owner .noLock []

/-- A verify read ends (R121). -/
def verifyEnded (l : LineNo) (n : SlotNo) (d : List Byte) (out : OpOutcome) (s : State) : State :=
  match s.staging l n, s.work l with
  | true, some w => if out = .done then s.verifyPage l n d w else s.failLock l (out == .deviceFail)
  | _, _ => s

/-- A LIST program ends (R123). -/
def listEnded (l : LineNo) (n : SlotNo) (u : Nat) (out : OpOutcome) (s : State) : State :=
  let s := s.takeEntry n .list u
  if s.staging l n then
    if out = .done then s.listEnd l n else s.failLock l (out == .deviceFail)
  else s

/-- The seal mark ends (R123). -/
def sealMarkEnded (l : LineNo) (n : SlotNo) (out : OpOutcome) (s : State) : State :=
  match s.staging l n, s.work l with
  | true, some w => if out = .done then s.sealDone l n w else s.failLock l (out == .deviceFail)
  | _, _ => s

/-! ### Commits (R125 to R127) -/

/-- The line a commit is on. -/
def committerLine : Committer → LineNo
  | .lock l => l
  | .sequence l => l

/-- The commit that runs. -/
def commitRun (s : State) : Committer → Option CommitRun
  | .lock l => (s.work l).bind (·.commit)
  | .sequence l => s.sequence l

/-- The commit's record changed. -/
def setCommitRun (c : Committer) (r : CommitRun) : State → State :=
  match c with
  | .lock l => modWork l (fun w => { w with commit := some r })
  | .sequence l => setSequence l (some r)

/-- The ready work of a commit's next step. -/
def commitStep : Committer → ReadyItem
  | .lock l => .lockStep l
  | .sequence l => .commitStep l

/-- The lock is released, or the commit sequence removed (R126, R127). -/
def endCommit (c : Committer) (s : State) : State :=
  match c with
  | .lock l => s.endLock l
  | .sequence l =>
    (s.setSequence l none).modUpd (fun u => { u with ready := u.ready.filter (fun i => i != .commitStep l) })

/-- The commit ends and COMMIT is answered. -/
def finishCommit (c : Committer) (r : CommitRun) (st : Status) (res : List Word) (s : State) : State :=
  (s.endCommit c).answer r.port r.tag st res

/-- The commit mark ended with DONE: the commit switch is taken, and the retire mark becomes ready; with no old
slot the commit ends at once (R125). -/
def commitDone (c : Committer) (r : CommitRun) (s : State) : State :=
  let l := committerLine c
  let old := (s.line l).current
  let s := s.commitSwitch l
  let g := (s.line l).generation
  match old with
  | none => s.finishCommit c r .ok [wordOf g]
  | some o =>
    (s.setCommitRun c { r with retiring := true, generation := g, oldSlot := some o }).addReady (commitStep c)

/-- The pending slot leaves its line after a failed commit mark (R127). -/
def commitFailed (c : Committer) (n : SlotNo) (device : Bool) (s : State) : State :=
  if device then s.badPending (committerLine c) n else s.dropPending (committerLine c) n

/-- The commit mark ends (R125, R127); its outcome acts on a SEALED slot (R113). -/
def commitMarkEnded (c : Committer) (n : SlotNo) (out : OpOutcome) (s : State) : State :=
  match s.commitRun c with
  | none => s
  | some r =>
    if (s.slot n).state = .sealed ∧ (s.line (committerLine c)).pending = some n then
      if out = .done then s.commitDone c r
      else (s.commitFailed c n (out == .deviceFail)).finishCommit c r .programFail []
    else s

/-- The old slot's reclaim hold is cleared (R126). -/
def releaseHold (n : Option SlotNo) (s : State) : State :=
  match n with
  | none => s
  | some n => s.modSlot n (fun x => { x with reclaimHold := false })

/-- The retire mark ends, whatever its outcome (R126). -/
def retireMarkEnded (c : Committer) (s : State) : State :=
  match s.commitRun c with
  | none => s
  | some r => (s.releaseHold r.oldSlot).finishCommit c r .ok [wordOf r.generation]

/-! ### OFFLINE (R131) -/

/-- The waiting request that OFFLINE took ends first, as its own step states (R131, log 13); that of a lock that ended
meanwhile has been withdrawn with the lock (log 58). -/
def loseRequest (i : ReadyItem) (s : State) : State :=
  match i with
  | .entry n k u =>
    match s.readyEntry n k u with
    | none => s
    | some e =>
      match k with
      | .data => s.dataEnded e.line n u .lost
      | .list => s.listEnded e.line n u .lost
  | .lockStep l =>
    match (s.line l).lock, s.work l with
    | some k, some w =>
      match w.phase, w.sealStep, w.commit with
      | .marking, _, _ => s.stageMarkEnded l k.slot .lost
      | .sealing, some .verify, _ => s.verifyEnded l k.slot [] .lost
      | .sealing, some .mark, _ => s.sealMarkEnded l k.slot .lost
      | .committing, _, some r =>
        if r.retiring then s.retireMarkEnded (.lock l) else s.commitMarkEnded (.lock l) k.slot .lost
      | _, _, _ => s
    | _, _ => s
  | .commitStep l =>
    match s.sequence l, (s.line l).pending with
    | some r, some n =>
      if r.retiring then s.retireMarkEnded (.sequence l) else s.commitMarkEnded (.sequence l) n .lost
    | some r, none => if r.retiring then s.retireMarkEnded (.sequence l) else s
    | none, _ => s

/-- What OFFLINE does to a line's lock, whatever its phase (R131). -/
def offlineLock (l : LineNo) (s : State) : State :=
  match (s.line l).lock, s.work l with
  | some k, some w =>
    match w.phase, w.commit with
    | .marking, _ => (s.loseLock l .channel false).answerTo w.command .programFail []
    | .opened, _ => s.loseLock l .channel false
    | .sealing, _ => (s.loseLock l .channel false).answerTo w.command .programFail []
    | .sealed, _ => s.loseLock l .channel false
    | .committing, some r =>
      if r.retiring then
        ((s.releaseHold r.oldSlot).loseLock l .channel false).answer r.port r.tag .ok [wordOf r.generation]
      else ((s.dropPending l k.slot).loseLock l .channel false).answer r.port r.tag .programFail []
    | .committing, none => s.loseLock l .channel false
  | _, _ => s

/-- What OFFLINE does to a line's commit sequence (R131). -/
def offlineSequence (l : LineNo) (s : State) : State :=
  match s.sequence l with
  | none => s
  | some r =>
    if r.retiring then s.retireMarkEnded (.sequence l)
    else
      match (s.line l).pending with
      | none => s.finishCommit (.sequence l) r .programFail []
      | some n => (s.dropPending l n).finishCommit (.sequence l) r .programFail []

/-- Some lines in turn, each line's lock before its commit sequence; R131 does not state the order (DESIGN CHOICE,
log 45). -/
def offlineLines : List LineNo → State → State
  | [], s => s
  | l :: ls, s => offlineLines ls ((s.offlineLock l).offlineSequence l)

/-- The update writer takes the entry to OFFLINE as one claim (R131); the lines end from L0 to L7 (log 45). It is taken
while the channel is OFFLINE, at the latest with its return (`takeOffline`; DESIGN CHOICE, log 52), so no lock or commit
begun after the return is lost by it. -/
def offlineUpdate (s : State) : State :=
  let lost := s.upd.lost
  let s := s.modUpd (fun u => { u with lost := none, toldOffline := false })
  let s := match lost with
    | none => s
    | some i => s.loseRequest i
  offlineLines allLines s

/-! ### The update commands -/

/-- A LOCK_UPDATE's name: its two words' eight bytes (section 11.2). -/
def nameArg (w0 w1 : Word) : Option Name := parseName (wordBytes w0 ++ wordBytes w1)

/-- A LOCK_UPDATE's length: a multiple of 256 from 256 to the largest image (R114). -/
def lengthFits (s : State) (n : Nat) : Bool := n % 256 == 0 && decide (256 ≤ n) && decide (n ≤ s.largestImage)

/-- The version is not greater than the line's current version (R5). -/
def versionOld (s : State) (l : LineNo) (v : Word) : Bool :=
  match (s.line l).version with
  | none => false
  | some c => decide (v.toNat ≤ c.toNat)

/-- An accepted LOCK_UPDATE takes its slot and creates the lock and its working record (R12, R115). -/
def takeLock (p : Port) (t : CmdTag) (l : LineNo) (name : Name) (version : Word) (length : Nat) (n : SlotNo)
    (s : State) : State :=
  let s := s.modSlot n (fun _ =>
    { Slot.reset with
      state := .staging, line := some l, name := some name, version := some version, length := some length })
  let s := s.modLine l (fun r => { r with lock := some { holder := p, slot := n, idle := none } })
  (s.setWork l (some
    { phase := .marking, staged := List.replicate (length / 256) false, sealStep := none, cursor := none,
      checks := [], image := 0, wanted := 0, listNext := 0, lossPending := false, command := some (p, t),
      commit := none })).addReady (.lockStep l)

/-- LOCK_UPDATE settled (R114, R115). -/
def lockBody (p : Port) (t : CmdTag) (line name0 name1 version length : Word) (s : State) : State :=
  if s.portHeld p then s.answer p t .portHeld []
  else
    match lineArg line, nameArg name0 name1 with
    | some l, some name =>
      if s.lengthFits length.toNat = false then s.answer p t .badArgument []
      else if (s.line l).lock.isSome ∨ (s.lockOf p).isSome then s.answer p t .locked []
      else if (s.line l).pending.isSome then s.answer p t .pendingExists []
      else if s.versionOld l version then s.answer p t .versionOld []
      else if s.offline then s.answer p t .channelDown []
      else
        match s.emptySlot with
        | none => s.answer p t .noSlot []
        | some n => (s.takeLock p t l name version length.toNat n).settle
    | _, _ => s.answer p t .badArgument []

/-- An accepted STAGE (R117). -/
def acceptStage (p : Port) (t : CmdTag) (l : LineNo) (n : SlotNo) (u : Nat) (data : List Word) (s : State) :
    State :=
  ((s.modWork l (fun w => { w with staged := w.staged.set u true })).enqueueProgram
    { line := l, slot := n, kind := .data, unit := u, data := wordsBytes data, owner := some (p, t),
      programming := false }).startIdle l

/-- STAGE settled (R116, R117). -/
def stageBody (p : Port) (t : CmdTag) (offset : Word) (data : List Word) (s : State) : State :=
  if s.portHeld p then s.answer p t .portHeld []
  else
    match s.lockOf p with
    | none => s.answer p t .noLock []
    | some l =>
      match (s.line l).lock, s.work l with
      | some k, some w =>
        match w.phase with
        | .marking => s.answer p t .busy []
        | .sealing => s.answer p t .badState []
        | .sealed => s.answer p t .badState []
        | .committing => s.answer p t .badState []
        | .opened =>
          if offset.toNat % 256 ≠ 0 ∨ s.imageLength k.slot ≤ offset.toNat then s.answer p t .badArgument []
          else if w.staged[offset.toNat / 256]? = some true then s.answer p t .alreadyStaged []
          else if 8 ≤ s.upd.queue.length ∨ 4 ≤ s.share k.slot then s.answer p t .busy []
          else (s.acceptStage p t l k.slot (offset.toNat / 256) data).settle
      | _, _ => s.answer p t .noLock []

/-- An accepted SEAL: step DRAIN, the idle timer stopped; DRAIN may end at once (R120, R121). -/
def acceptSeal (p : Port) (t : CmdTag) (l : LineNo) (n : SlotNo) (check : Word) (w : LockWork) (s : State) :
    State :=
  ((s.setWork l (some { w with phase := .sealing, sealStep := some .drain, wanted := check,
                               command := some (p, t) })).stopIdle l).drainEnd l n

/-- SEAL settled (R120). -/
def sealBody (p : Port) (t : CmdTag) (check : Word) (s : State) : State :=
  if s.portHeld p then s.answer p t .portHeld []
  else
    match s.lockOf p with
    | none => s.answer p t .noLock []
    | some l =>
      match (s.line l).lock, s.work l with
      | some k, some w =>
        match w.phase with
        | .marking => s.answer p t .busy []
        | .sealing => s.answer p t .busy []
        | .committing => s.answer p t .busy []
        | .sealed => s.answer p t .badState []
        | .opened =>
          if w.staged.all id = false then (s.startIdle l).answer p t .incomplete []
          else (s.acceptSeal p t l k.slot check w).settle
      | _, _ => s.answer p t .noLock []

/-- A new commit: its mark is still to end. -/
def newCommit (p : Port) (t : CmdTag) : CommitRun :=
  { port := p, tag := t, retiring := false, generation := 0, oldSlot := none }

/-- COMMIT's last cases, once the lock's cases have passed: GEN_EXHAUSTED, CHANNEL_DOWN, or accepted (R124). -/
def commitOr (p : Port) (t : CmdTag) (l : LineNo) (accepted : State → State) (s : State) : State :=
  if (s.line l).generation = 65535 then s.answer p t .genExhausted []
  else if s.offline then s.answer p t .channelDown []
  else (accepted s).settle

/-- COMMIT accepted from the holder of a SEALED lock (R124). -/
def commitLocked (p : Port) (t : CmdTag) (l : LineNo) (s : State) : State :=
  ((s.modWork l (fun w => { w with phase := .committing, commit := some (newCommit p t) })).stopIdle l).addReady
    (.lockStep l)

/-- COMMIT accepted on a holderless pending slot: a commit sequence is created (R124). -/
def commitHolderless (p : Port) (t : CmdTag) (l : LineNo) (s : State) : State :=
  (s.setSequence l (some (newCommit p t))).addReady (.commitStep l)

/-- COMMIT settled (R124). -/
def commitBody (p : Port) (t : CmdTag) (line : Word) (s : State) : State :=
  if s.portHeld p then s.answer p t .portHeld []
  else
    match lineArg line with
    | none => s.answer p t .badArgument []
    | some l =>
      match (s.line l).lock with
      | some k =>
        if k.holder ≠ p then s.answer p t .noLock []
        else
          match (s.work l).map LockWork.phase with
          | some .opened => s.answer p t .noPending []
          | some .sealed => s.commitOr p t l (commitLocked p t l)
          | _ => s.answer p t .busy []
      | none =>
        if (s.sequence l).isSome then s.answer p t .busy []
        else if (s.line l).pending = none then s.answer p t .noPending []
        else s.commitOr p t l (commitHolderless p t l)

/-- An accepted ABORT_UPDATE (R128). -/
def abortSlot (p : Port) (t : CmdTag) (l : LineNo) (n : SlotNo) (s : State) : State :=
  let s := if (s.slot n).state = .staging then s.toDirty n else s.dropPending l n
  (((s.endLock l).log
    { kind := .updateAborted, port := some p, slot := some n, line := some l,
      detail := packWord AbortReason.abort p.val 0 0 }).answer p t .ok [wordOf n.val]).settle

/-- ABORT_UPDATE settled (R128). -/
def abortBody (p : Port) (t : CmdTag) (line : Word) (s : State) : State :=
  if s.portHeld p then s.answer p t .portHeld []
  else
    match lineArg line with
    | none => s.answer p t .badArgument []
    | some l =>
      match (s.line l).lock with
      | some k =>
        if k.holder ≠ p then s.answer p t .noLock []
        else
          match (s.work l).map LockWork.phase with
          | some .opened => s.abortSlot p t l k.slot
          | some .sealed => s.abortSlot p t l k.slot
          | _ => s.answer p t .busy []
      | none =>
        if (s.sequence l).isSome then s.answer p t .busy []
        else
          match (s.line l).pending with
          | none => s.answer p t .noPending []
          | some n => s.abortSlot p t l n

/-- The update writer takes the restart of a port's master: the lock is lost, or the loss waits for the end of
its SEAL or COMMIT (R129, R130). The lock is the one the port holds when the restart is taken, a lock taken since the
restart too (DESIGN CHOICE, log 55). A LOCK_UPDATE so lost in MARKING ends here, with the lock, and its tag becomes FREE,
though its stage mark may still wait or run: R145 has it run on to its end and no rule says when it ends (DESIGN CHOICE,
log 60; the status, log 27). -/
def restartLoss (p : Port) (s : State) : State :=
  match s.lockOf p with
  | none => s
  | some l =>
    match s.work l with
    | none => s
    | some w =>
      match w.phase with
      | .sealing => s.setWork l (some { w with lossPending := true })
      | .committing => s.setWork l (some { w with lossPending := true })
      | .marking => (s.loseLock l .reset false).answerTo w.command .noLock []
      | .opened => s.loseLock l .reset false
      | .sealed => s.loseLock l .reset false

/-- The end of the running operation, when it is of the update writer: the device's effect, the channel's part,
PROGRAM_FAIL for a failure, and the requester's own end; which of PROGRAM_FAIL and LOCK_LOST one claim appends first
is not stated (DESIGN CHOICE, log 46). -/
def endUpdateOp (o : Operation) (pass : Bool) (f : OpOutcome → State → State) (s : State) : State :=
  let out := answered pass
  (f out ((s.deviceEffect (deviceAnswer pass) o).endOp.logProgramFail o out)).settle

end State

/-- LOCK_UPDATE (R114, R115). -/
def execLockUpdate (p : Port) (q : Seq) (t : CmdTag) (line name0 name1 version length : Word) (s : State) :
    Host.Outcome State Fault Refusal :=
  .next (s.whenLive
    (State.simpleCommand p q t .lockUpdate (State.lockBody p t line name0 name1 version length)))

/-- STAGE (R116, R117); one whose data is not 64 words carries a wrong argument count (R163, log 29). -/
def execStage (p : Port) (q : Seq) (t : CmdTag) (offset : Word) (data : List Word) (s : State) :
    Host.Outcome State Fault Refusal :=
  .next (s.whenLive
    (State.command p q t .stage (data.length == 64) none (State.stageBody p t offset data)))

/-- SEAL (R120 to R123). -/
def execSeal (p : Port) (q : Seq) (t : CmdTag) (check : Word) (s : State) : Host.Outcome State Fault Refusal :=
  .next (s.whenLive (State.simpleCommand p q t .seal (State.sealBody p t check)))

/-- COMMIT (R124). -/
def execCommit (p : Port) (q : Seq) (t : CmdTag) (line : Word) (s : State) :
    Host.Outcome State Fault Refusal :=
  .next (s.whenLive (State.simpleCommand p q t .commit (State.commitBody p t line)))

/-- ABORT_UPDATE (R128). -/
def execAbortUpdate (p : Port) (q : Seq) (t : CmdTag) (line : Word) (s : State) :
    Host.Outcome State Fault Refusal :=
  .next (s.whenLive (State.simpleCommand p q t .abortUpdate (State.abortBody p t line)))

/-- STAGE_MARK_END (R115). -/
def execStageMarkEnd (pass : Bool) (s : State) : Host.Outcome State Fault Refusal :=
  .next (s.whenLive (fun s =>
    match s.chan.op with
    | none => s
    | some o =>
      match o.work, o.slot with
      | .stageMark l, some n => s.endUpdateOp o pass (State.stageMarkEnded l n)
      | _, _ => s))

/-- DATA_PROGRAM_END (R117, R118). -/
def execDataProgramEnd (pass : Bool) (s : State) : Host.Outcome State Fault Refusal :=
  .next (s.whenLive (fun s =>
    match s.chan.op with
    | none => s
    | some o =>
      match o.work, o.slot with
      | .dataProgram l u, some n => s.endUpdateOp o pass (State.dataEnded l n u)
      | _, _ => s))

/-- VERIFY_READ_END (R121, R122). -/
def execVerifyReadEnd (errors : ReadErrors) (s : State) : Host.Outcome State Fault Refusal :=
  .next (s.whenLive (fun s =>
    match s.chan.op with
    | none => s
    | some o =>
      match o.work, o.slot with
      | .verifyRead l, some n => s.endUpdateOp o true (State.verifyEnded l n (State.pageRead o errors s))
      | _, _ => s))

/-- LIST_PROGRAM_END (R123). -/
def execListProgramEnd (pass : Bool) (s : State) : Host.Outcome State Fault Refusal :=
  .next (s.whenLive (fun s =>
    match s.chan.op with
    | none => s
    | some o =>
      match o.work, o.slot with
      | .listProgram l u, some n => s.endUpdateOp o pass (State.listEnded l n u)
      | _, _ => s))

/-- SEAL_MARK_END (R123). -/
def execSealMarkEnd (pass : Bool) (s : State) : Host.Outcome State Fault Refusal :=
  .next (s.whenLive (fun s =>
    match s.chan.op with
    | none => s
    | some o =>
      match o.work, o.slot with
      | .sealMark l, some n => s.endUpdateOp o pass (State.sealMarkEnded l n)
      | _, _ => s))

/-- COMMIT_MARK_END (R125, R127). -/
def execCommitMarkEnd (pass : Bool) (s : State) : Host.Outcome State Fault Refusal :=
  .next (s.whenLive (fun s =>
    match s.chan.op with
    | none => s
    | some o =>
      match o.work, o.slot with
      | .commitMark c, some n => s.endUpdateOp o pass (State.commitMarkEnded c n)
      | _, _ => s))

/-- RETIRE_MARK_END (R126). -/
def execRetireMarkEnd (pass : Bool) (s : State) : Host.Outcome State Fault Refusal :=
  .next (s.whenLive (fun s =>
    match s.chan.op with
    | none => s
    | some o =>
      match o.work, o.slot with
      | .retireMark c, some _ => s.endUpdateOp o pass (fun _ => State.retireMarkEnded c)
      | _, _ => s))

/-- OFFLINE_UPDATE_LOSS (R131). -/
def execOfflineUpdateLoss (s : State) : Host.Outcome State Fault Refusal :=
  .next (s.whenLive (fun s => if s.upd.toldOffline then s.offlineUpdate.settle else s))

/-- RESTART_LOCK_LOSS: the update writer takes a restart it has been told of (R143 step 8). -/
def execRestartLockLoss (p : Port) (s : State) : Host.Outcome State Fault Refusal :=
  .next (s.whenLive (fun s =>
    if (s.port p).dropLock = 0 then s
    else ((s.modPort p (fun r => { r with dropLock := r.dropLock - 1 })).restartLoss p).settle))

/-- IDLE_TIMEOUT: the idle timer of a line's lock expires and the lock is lost with the reason IDLE (R119,
R129). -/
def execIdleTimeout (line : LineNo) (s : State) : Host.Outcome State Fault Refusal :=
  .next (s.whenLive (fun s =>
    match (s.line line).lock.bind (·.idle) with
    | none => s
    | some d => ((s.advance d).loseLock line .idle false).settle))

end Sys2Proof.Machine
end

