-- ==== Sys2Proof/Machine/ChannelEvents.lean ====
section
/-!
DEFINITION. The events of the flash channel (spec/05): suspension and its answers, timeouts, device resets,
OFFLINE and the ways out of it; and CHANNEL_RESET (R105).
-/

namespace Sys2Proof.Machine

/-- The value of a CHANNEL_STATE notice (section 11.2). -/
def ChannelNotice.offline : Nat := 1
def ChannelNotice.online : Nat := 2

/-- The wait before a recovery reset: 1 s (R172). -/
def Timeout.recoveryWait : Nat := 1000000

namespace State

/-! ### Outcomes reported to requesters (R99, R163) -/

/-- A fill's read failed through the channel (R59). -/
def fillTimedOut (f : FrameNo) (s : State) : State :=
  match s.fillOf f with
  | none => s
  | some e => s.fillFailed e

/-- An update writer's operation ended through the channel: PROGRAM_FAIL, and then the requester's own end (R113,
log 46). -/
def updateTimedOut (o : Operation) (out : OpOutcome) (f : SlotNo → OpOutcome → State → State) (s : State) : State :=
  match o.slot with
  | none => s
  | some n => f n out (s.logProgramFail o out)

/-- TIMEOUT or LOST reported for an operation to its requester (R99). -/
def report (o : Operation) (out : OpOutcome) (s : State) : State :=
  match o.work with
  | .fill f => s.fillTimedOut f
  | .stageMark l => s.updateTimedOut o out (stageMarkEnded l)
  | .dataProgram l u => s.updateTimedOut o out (fun n => dataEnded l n u)
  | .verifyRead l => s.updateTimedOut o out (fun n => verifyEnded l n [])
  | .listProgram l u => s.updateTimedOut o out (fun n => listEnded l n u)
  | .sealMark l => s.updateTimedOut o out (sealMarkEnded l)
  | .commitMark c => s.updateTimedOut o out (commitMarkEnded c)
  | .retireMark c => s.updateTimedOut o out (fun _ _ => retireMarkEnded c)
  | .configErase _ => s.configEraseEnded out
  | .configProgram _ => s.configProgramEnded out
  | .eraseMark => s.eraseMarkEnded out
  | .reclaimErase b => s.reclaimEraseEnded b out
  | .deviceReset _ => s
  | .configRead _ => s.retryRead o.work
  | .headerRead _ => s.retryRead o.work
  | .listRead _ => s.retryRead o.work

/-! ### OFFLINE (R103) -/

/-- The flash page a CHANNEL_TIMEOUT names: the page, or the first page of the block; none for a reset. -/
def timeoutPage (o : Operation) : Option Nat :=
  match o.work with
  | .deviceReset _ => none
  | _ => some (o.addr / 4096)

/-- CHANNEL_TIMEOUT with the operation kind, the page and the count (R99, R100, R105, R172). -/
def logTimeout (o : Operation) (s : State) : State :=
  s.log { kind := .channelTimeout, page := timeoutPage o, detail := packWord o.work.kindCode s.chan.timeouts 0 0 }

/-- The update writer's request that waits is LOST (R103 step 2, log 13): none when the operation that timed out
was its own. Each entry to OFFLINE sets it anew. A second entry before OFFLINE_UPDATE_LOSS of the first, a point the
spec leaves open, merges nothing: the first entry has been taken with the channel's return (`takeOffline`; DESIGN
CHOICE, log 52), so the request set here is one presented since. -/
def updateLost (own : Bool) : State → State :=
  modUpd (fun u => { u with lost := if own then none else u.ready.head?, toldOffline := true })

/-- The reclaimer is told: its target goes back to DIRTY and it is idle (R109). -/
def reclaimOffline (s : State) : State :=
  match s.reclaim with
  | none => s
  | some j => s.reclaimFailed j

/-- The start-up controller is told: its waiting read becomes its retry, and it waits 1 s (R172). -/
def startOffline (s : State) : State :=
  if s.started then s
  else
    s.modStart (fun t =>
      { t with retry := if t.request.isSome then t.request else t.retry, request := none,
               wait := some Timeout.recoveryWait })

/-- Whether an operation is one of the update writer's. -/
def ofUpdate (w : Work) : Bool :=
  match w with
  | .stageMark _ => true
  | .dataProgram _ _ => true
  | .verifyRead _ => true
  | .listProgram _ _ => true
  | .sealMark _ => true
  | .commitMark _ => true
  | .retireMark _ => true
  | _ => false

/-- The channel enters OFFLINE (R103). The fill engine and the update writer act in their own steps (R59,
R131). -/
def enterOffline (o : Operation) (s : State) : State :=
  let s := s.log { kind := .channelOffline, detail := wordOf o.work.kindCode }
  let s := s.modChan (fun c => { c with state := .offline, op := none, suspended := none, aging := 0 })
  let s := ((s.updateLost (ofUpdate o.work)).modFill (fun q => { q with toldOffline := true })).failConfig false
  (s.reclaimOffline.startOffline).handAll
    { kind := .channelState, subject := none, value := wordOf ChannelNotice.offline } s.supervisors

/-- A DEVICE_RESET runs, for a cause. -/
def issueReset (c : ResetCause) (s : State) : State := (s.modChan (fun x => { x with state := .busy })).runOp (resetOp c)

/-- The count rises by 1 (R101). -/
def countTimeout : State → State := modChan (fun c => { c with timeouts := c.timeouts + 1 })

/-- An operation other than a DEVICE_RESET has timed out (R99). -/
def timedOut (o : Operation) (s : State) : State :=
  let held := s.chan.suspended
  let s := s.countTimeout.logTimeout o
  let s := (s.deviceEffect .timedOut o).modChan (fun c => { c with op := none, suspended := none })
  let s := s.report o .timeout
  let s := match held with
    | none => s
    | some h => (s.deviceEffect .timedOut h).report h .lost
  (if s.chan.timeouts < 3 then s.issueReset .timeout else s.enterOffline o).settle

/-- A DEVICE_RESET of a start or of a timeout has timed out (R100, R172). -/
def resetTimedOut (o : Operation) (c : ResetCause) (s : State) : State :=
  let s := s.countTimeout.logTimeout o
  (if s.chan.timeouts < 3 then s.issueReset c else s.enterOffline o).settle

/-- The fill engine takes the entry to OFFLINE: every QUEUED entry fails, DEMAND and PRELOAD before PREFETCH, and the
room is handed out (R59). The channel being OFFLINE, every segment of the frame-wait queue presented again hits or ends
by its lookup, and every open preload completes (R84, R64). -/
def offlineFills (s : State) : State :=
  ((State.failFills (s.fill.demand ++ s.fill.ahead) s).modFill (fun q => { q with toldOffline := false })).handOut

/-- What an entry to OFFLINE still has untaken is taken: by the fill engine (R59), then by the update writer (R131),
which R103 leaves without an order. No segment waits across the OFFLINE period (R84), so this comes at the latest with
the channel's return (DESIGN CHOICE, logs 44 and 52). -/
def takeOffline (s : State) : State :=
  let s := if s.fill.toldOffline then s.offlineFills else s
  if s.upd.toldOffline then s.offlineUpdate else s

/-- The channel leaves OFFLINE: IDLE with the count 0, CHANNEL_ONLINE logged and CHANNEL_STATE handed out (R105,
R172). An entry to OFFLINE not yet taken is taken first, while the channel is still OFFLINE (logs 44 and 52). -/
def goOnline (by' : Option Port) (s : State) : State :=
  ((s.takeOffline.modChan (fun c => { c with state := .idle, op := none, timeouts := 0 })).log
    { kind := .channelOnline, port := by' }).handAll
    { kind := .channelState, subject := none, value := wordOf ChannelNotice.online } s.supervisors

/-- No operation runs on the device any more; the channel stays as it is. -/
def clearOp : State → State := modChan (fun c => { c with op := none })

/-- CHANNEL_RESET settled (R105); a QUARANTINED port is answered PORT_HELD (R150, log 15). -/
def channelResetBody (p : Port) (t : CmdTag) (s : State) : State :=
  if (s.port p).sup.state = .quarantined then s.answer p t .portHeld []
  else if s.offline = false then s.answer p t .badState []
  else if s.chan.op.isSome then s.answer p t .busy []
  else s.runOp (resetOp (.command p t))

/-! ### Suspension (R94) -/

/-- The device answers that the erase is suspended: the waiting class 1 request is granted at once (R94). -/
def eraseSuspended (o : Operation) (e : EraseRecord) (s : State) : State :=
  let held := { o with erase := some { e with phase := .suspended, suspensions := e.suspensions + 1, reads := 0 } }
  let s := s.modChan (fun c => { c with state := .eraseSuspended, op := none, suspended := some held })
  match s.class1 with
  | some f => s.grantFill f
  | none => s.resume

/-- An erase ends with DONE (R94, R89). -/
def eraseDone (o : Operation) (s : State) : State :=
  let s := (s.deviceEffect .done o).endOp
  (match o.work with
   | .reclaimErase b => s.reclaimEraseEnded b .done
   | .configErase _ => s.configEraseEnded .done
   | _ => s).settle

end State

/-- ERASE_SUSPEND: the run since resume reaches 1 ms while a class 1 request waits (R94). -/
def execEraseSuspend (s : State) : Host.Outcome State Fault Refusal :=
  .next (s.whenLive (fun s =>
    match s.chan.op.bind (·.erase) with
    | none => s
    | some e =>
      if e.phase = .running ∧ e.suspensions < 8 ∧ s.class1.isSome then
        (s.advance (Timeout.eraseRun - e.run)).suspend
      else s))

/-- SUSPEND_ANSWER (R94, R95). -/
def execSuspendAnswer (suspended : Bool) (s : State) : Host.Outcome State Fault Refusal :=
  .next (s.whenLive (fun s =>
    match s.chan.op with
    | none => s
    | some o =>
      match o.erase with
      | none => s
      | some e =>
        if e.phase = .suspending then (if suspended then s.eraseSuspended o e else s.eraseDone o) else s))

/-- SUSPEND_ACK_TIMEOUT: a timeout of the erase (R94, R98). -/
def execSuspendAckTimeout (s : State) : Host.Outcome State Fault Refusal :=
  .next (s.whenLive (fun s =>
    match s.chan.op with
    | none => s
    | some o =>
      match o.erase with
      | none => s
      | some e => if e.phase = .suspending then (s.advance e.ackLeft).timedOut o else s))

/-- OPERATION_TIMEOUT (R98, R99). -/
def execOperationTimeout (s : State) : Host.Outcome State Fault Refusal :=
  .next (s.whenLive (fun s =>
    match s.chan.op with
    | none => s
    | some o =>
      match o.work with
      | .deviceReset _ => s
      | _ => (s.advance o.left).timedOut o))

/-- OFFLINE_FILL_FAIL: the fill engine takes the entry to OFFLINE (R59, R84). The channel back, nothing is left to
take (DESIGN CHOICE, log 44). -/
def execOfflineFillFail (s : State) : Host.Outcome State Fault Refusal :=
  .next (s.whenLive (fun s => if s.fill.toldOffline then s.offlineFills.settle else s))

/-- DEVICE_RESET_READY: the reset of a timeout or of the start completes; the count stays (R100, R172). -/
def execDeviceResetReady (s : State) : Host.Outcome State Fault Refusal :=
  .next (s.whenLive (fun s =>
    match s.chan.op.map Operation.work with
    | some (.deviceReset .timeout) =>
      ((s.modChan (fun c => { c with op := none, state := .idle })).resumeStart).settle
    | some (.deviceReset .startUp) =>
      ((s.modChan (fun c => { c with op := none, state := .idle })).resumeStart).settle
    | _ => s))

/-- DEVICE_RESET_TIMEOUT (R100, R105, R172). -/
def execDeviceResetTimeout (s : State) : Host.Outcome State Fault Refusal :=
  .next (s.whenLive (fun s =>
    match s.chan.op with
    | none => s
    | some o =>
      match o.work with
      | .deviceReset .timeout => (s.advance o.left).resetTimedOut o .timeout
      | .deviceReset .startUp => (s.advance o.left).resetTimedOut o .startUp
      | .deviceReset (.command p t) =>
        (((s.advance o.left).clearOp).logTimeout o).answer p t .channelDown []
      | .deviceReset .recovery =>
        (((s.advance o.left).clearOp).logTimeout o).modStart (fun t => { t with wait := some Timeout.recoveryWait })
      | _ => s))

/-- CHANNEL_RESET (R105). -/
def execChannelReset (p : Port) (q : Seq) (t : CmdTag) (s : State) : Host.Outcome State Fault Refusal :=
  .next (s.whenLive (State.simpleCommand p q t .channelReset (State.channelResetBody p t)))

/-- CHANNEL_RESET_COMPLETE (R105). -/
def execChannelResetComplete (s : State) : Host.Outcome State Fault Refusal :=
  .next (s.whenLive (fun s =>
    match s.chan.op.map Operation.work with
    | some (.deviceReset (.command p t)) => ((s.goOnline (some p)).answer p t .ok []).settle
    | _ => s))

/-- RECOVERY_RESET: the controller has waited its 1 s and asks for a reset (R172). -/
def execRecoveryReset (s : State) : Host.Outcome State Fault Refusal :=
  .next (s.whenLive (fun s =>
    match s.start.wait with
    | none => s
    | some d =>
      if s.offline ∧ s.chan.op = none then
        ((s.advance d).modStart (fun t => { t with wait := none })).runOp (State.resetOp .recovery)
      else s))

/-- RECOVERY_RESET_COMPLETE: the channel is IDLE, and the controller presents its retry or its next step
(R172). -/
def execRecoveryResetComplete (s : State) : Host.Outcome State Fault Refusal :=
  .next (s.whenLive (fun s =>
    match s.chan.op.map Operation.work with
    | some (.deviceReset .recovery) => ((s.goOnline none).resumeStart).settle
    | _ => s))

end Sys2Proof.Machine
end

