-- ==== Sys2Proof/Machine/Packets.lean ====
section
/-!
DEFINITION. Link packets as bytes (section 11.2): a received packet read into its command (R188, R189), and a
packet of the hub laid out for the link.
-/

namespace Sys2Proof.Machine

/-- A sequence number field: 0 to 7; a larger value is taken modulo 8 (log 17). -/
def seqOf (b : Byte) : Seq := ⟨b.toNat % 8, Nat.mod_lt _ (by decide)⟩

/-- The byte at an offset of a packet; 0 past its end. -/
def byteAt (l : List Byte) (i : Nat) : Byte := l.getD i 0

/-- A CMD's argument words. -/
def argWords : Nat → List Byte → List Word
  | 0, _ => []
  | n + 1, b => wordOf (leNat (b.take 4)) :: argWords n (b.drop 4)

/-- A MALFORMED packet's command: its kind, and its sequence number where its kind is sequenced (R162). -/
def malformedOf (p : Port) (kind : Byte) (q : Seq) : Instr :=
  .malformed p kind (if sequencedKind kind then q else 0)

/-- The command of a CMD packet, by its opcode and its argument words (R163, opcodes of section 11.2). -/
def cmdInstr (p : Port) (q : Seq) (t : CmdTag) (opcode : Byte) (args : List Word) : Instr :=
  match opcode.toNat, args with
  | 0x01, [w, b, z, l, o] => .bind p q t w b z l o
  | 0x02, [w] => .unbind p q t w
  | 0x03, [l] => .rebind p q t l
  | 0x04, [a, n] => .touch p q t a n
  | 0x05, [k] => .service p q t k
  | 0x10, [l, n0, n1, v, n] => .lockUpdate p q t l n0 n1 v n
  | 0x12, [c] => .seal p q t c
  | 0x13, [l] => .commit p q t l
  | 0x14, [l] => .abortUpdate p q t l
  | 0x20, [l] => .statusLine p q t l
  | 0x21, [n] => .statusSlot p q t n
  | 0x22, [x] => .statusPort p q t x
  | 0x30, [x] => .resetPort p q t x
  | 0x31, [x] => .releasePort p q t x
  | 0x32, [] => .channelReset p q t
  | 0x33, [f, n] => .readEvents p q t f n
  | 0x35, [] => .restartHub p q t
  | 0x11, o :: data => if data.length = 64 then .stage p q t o data
    else .unknownOpcode p q t opcode (byteOf args.length)
  | 0x34, r => if r.length = 49 then .writeConfig p q t r
    else .unknownOpcode p q t opcode (byteOf args.length)
  | _, _ => .unknownOpcode p q t opcode (byteOf args.length)

/-- A packet whose link check and lengths hold, read by its kind; `body` is its payload (R189). A CMD whose argument
count fits its length is not malformed, whatever the count; one above 68 is no command's, so it is BAD_ARGUMENT
(log 49). -/
def kindInstr (p : Port) (kind : Byte) (q : Seq) (body : List Byte) : Instr :=
  let bad := malformedOf p kind q
  match kind.toNat with
  | 0x01 => if body.length = 4 then .train p (byteAt body 0) (byteAt body 1) ((byteAt body 2).getLsbD 0) else bad
  | 0x02 => if body.length = 0 then .ack p q else bad
  | 0x03 => if body.length = 0 then .nak p q else bad
  | 0x10 =>
    if h : body.length = 8 ∧ (byteAt body 0).toNat < 8 then
      .read p q ⟨(byteAt body 0).toNat, h.2⟩ (BitVec.ofNat 24 (field body 1 3)) (byteAt body 4)
    else bad
  | 0x20 =>
    let n := (byteAt body 2).toNat
    if h : body.length = 4 + 4 * n ∧ (byteAt body 0).toNat < 2 then
      cmdInstr p q ⟨(byteAt body 0).toNat, h.2⟩ (byteAt body 1) (argWords n (body.drop 4))
    else bad
  | _ => bad

/-- The command a packet from a master's link is: PACKET_CHECK_FAILED when its link check does not hold (R188; a packet
too short to hold one among them, log 17), MALFORMED when its layout does not (R189). -/
def packetCommand (p : Port) (b : List Byte) : Instr :=
  let n := b.length - 2
  if b.length < 6 ∨ linkCheck (b.take n) ≠ BitVec.ofNat 16 (field b n 2) then
    .packetCheckFailed ⟨p, byteAt b 0⟩
  else
    let body := (b.take n).drop 4
    if body.length ≠ field b 2 2 then malformedOf p (byteAt b 0) (seqOf (byteAt b 1))
    else kindInstr p (byteAt b 0) (seqOf (byteAt b 1)) body

/-! ### Packets of the hub -/

/-- A packet closed by its link check: kind, sequence, payload length, payload (section 11.2). -/
def packetOf (kind : Nat) (q : Nat) (body : List Byte) : List Byte :=
  let l := [byteOf kind, byteOf q] ++ leBytes 2 body.length ++ body
  l ++ leBytes 2 (linkCheck l).toNat

/-- The kind and the payload of a sequenced packet of the hub (section 11.2). -/
def bodyBytes : Body → Nat × List Byte
  | .readReply t st d => (0x11, [byteOf t.val, byteOf st.code, byteOf (d.length / 4), 0] ++ d)
  | .cmdReply t st r => (0x21, [byteOf t.val, byteOf st.code, byteOf r.length, 0] ++ wordsBytes r)
  | .notice n => (0x30, [byteOf n.kind.code, byteOf (optByte n.subject), 0, 0] ++ wordBytes n.value)

/-- The bytes of a packet on a port's link; the hub's link version is 1 (section 8.2). -/
def packetBytes (p : Port) : Packet → List Byte
  | .train acked => packetOf 0x01 0 [1, byteOf p.val, if acked then 1 else 0, 0]
  | .ack q => packetOf 0x02 q.val []
  | .nak q => packetOf 0x03 q.val []
  | .sequenced q b => packetOf (bodyBytes b).1 q.val (bodyBytes b).2

end Sys2Proof.Machine
end

