-- ==== Sys2Proof/Machine/Power.lean ====
section
/-!
DEFINITION. The two starts and the loss of power (R170, R171, R176).
-/

namespace Sys2Proof.Machine

/-- COLD_START: power is applied, or the hub reset input is released (R170). Of power applied while the input is asserted
R170 does not say which governs: the start begins, with the input not asserted (DESIGN CHOICE, log 59). -/
def execColdStart (s : State) : Host.Outcome State Fault Refusal := .next (s.beginStart .cold)

/-- HUB_RESET_INPUT_ASSERTED: every reset output is asserted and nothing is taken until the release (R170, log 9). Without
power the assertion is not held (DESIGN CHOICE, log 59). -/
def execHubResetInputAsserted (s : State) : Host.Outcome State Fault Refusal :=
  .next
    (if s.powered then
      { s with
        resetInput := true,
        ports := tmap (fun r => { r with sup := Supervision.reset }) s.ports }
     else s)

/-- HUB_RESTART: the transmission of an accepted RESTART_HUB's reply ends and the hub restart begins (R171). -/
def execHubRestart (s : State) : Host.Outcome State Fault Refusal :=
  .next (s.whenLive (fun s => if s.hubRestart = .none then s else s.beginStart .restart))

/-- LOSS_OF_POWER: the running operation is cut and everything but the flash is lost; only a cold start follows
(R176, log 9). -/
def execLossOfPower (s : State) : Host.Outcome State Fault Refusal :=
  .next
    (let s := (s.abandonOps .powerLost).afterStart .cold
     { s with powered := false, chan := Channel.reset })

end Sys2Proof.Machine
end

