-- ==== Sys2Proof/Machine/Dispatch.lean ====
section
/-! DEFINITION. The meaning of every command: one arm per constructor of Instr, each a call of its own meaning. -/

namespace Sys2Proof.Machine

def exec (i : Instr) (s : State) : Host.Outcome State Fault Refusal :=
  match i with
  | .coldStart => Sys2Proof.Machine.execColdStart s
  | .hubResetInputAsserted => Sys2Proof.Machine.execHubResetInputAsserted s
  | .hubRestart => Sys2Proof.Machine.execHubRestart s
  | .train p version portNumber acked => Sys2Proof.Machine.execTrain p version portNumber acked s
  | .ack p q => Sys2Proof.Machine.execAck p q s
  | .nak p q => Sys2Proof.Machine.execNak p q s
  | .packetCheckFailed p => Sys2Proof.Machine.execPacketCheckFailed p s
  | .malformed p kind q => Sys2Proof.Machine.execMalformed p kind q s
  | .read p q tag addr count => Sys2Proof.Machine.execRead p q tag addr count s
  | .bind p q tag window base size line offset => Sys2Proof.Machine.execBind p q tag window base size line offset s
  | .unbind p q tag window => Sys2Proof.Machine.execUnbind p q tag window s
  | .rebind p q tag line => Sys2Proof.Machine.execRebind p q tag line s
  | .touch p q tag addr count => Sys2Proof.Machine.execTouch p q tag addr count s
  | .service p q tag token => Sys2Proof.Machine.execService p q tag token s
  | .lockUpdate p q tag line name0 name1 version length => Sys2Proof.Machine.execLockUpdate p q tag line name0 name1 version length s
  | .stage p q tag offset data => Sys2Proof.Machine.execStage p q tag offset data s
  | .seal p q tag check => Sys2Proof.Machine.execSeal p q tag check s
  | .commit p q tag line => Sys2Proof.Machine.execCommit p q tag line s
  | .abortUpdate p q tag line => Sys2Proof.Machine.execAbortUpdate p q tag line s
  | .statusLine p q tag line => Sys2Proof.Machine.execStatusLine p q tag line s
  | .statusSlot p q tag slot => Sys2Proof.Machine.execStatusSlot p q tag slot s
  | .statusPort p q tag pt => Sys2Proof.Machine.execStatusPort p q tag pt s
  | .resetPort p q tag pt => Sys2Proof.Machine.execResetPort p q tag pt s
  | .releasePort p q tag pt => Sys2Proof.Machine.execReleasePort p q tag pt s
  | .channelReset p q tag => Sys2Proof.Machine.execChannelReset p q tag s
  | .readEvents p q tag start count => Sys2Proof.Machine.execReadEvents p q tag start count s
  | .writeConfig p q tag record => Sys2Proof.Machine.execWriteConfig p q tag record s
  | .restartHub p q tag => Sys2Proof.Machine.execRestartHub p q tag s
  | .unknownOpcode p q tag opcode argCount => Sys2Proof.Machine.execUnknownOpcode p q tag opcode argCount s
  | .linkSend p => Sys2Proof.Machine.execLinkSend p s
  | .trainPeriod p => Sys2Proof.Machine.execTrainPeriod p s
  | .trainingTimeout p => Sys2Proof.Machine.execTrainingTimeout p s
  | .acknowledgementTimeout p => Sys2Proof.Machine.execAcknowledgementTimeout p s
  | .segmentLookup p tag part => Sys2Proof.Machine.execSegmentLookup p tag part s
  | .copyComplete p tag part => Sys2Proof.Machine.execCopyComplete p tag part s
  | .fillReadEnd errors => Sys2Proof.Machine.execFillReadEnd errors s
  | .eraseSuspend => Sys2Proof.Machine.execEraseSuspend s
  | .suspendAnswer suspended => Sys2Proof.Machine.execSuspendAnswer suspended s
  | .suspendAckTimeout => Sys2Proof.Machine.execSuspendAckTimeout s
  | .operationTimeout => Sys2Proof.Machine.execOperationTimeout s
  | .offlineFillFail => Sys2Proof.Machine.execOfflineFillFail s
  | .offlineUpdateLoss => Sys2Proof.Machine.execOfflineUpdateLoss s
  | .deviceResetReady => Sys2Proof.Machine.execDeviceResetReady s
  | .deviceResetTimeout => Sys2Proof.Machine.execDeviceResetTimeout s
  | .channelResetComplete => Sys2Proof.Machine.execChannelResetComplete s
  | .recoveryReset => Sys2Proof.Machine.execRecoveryReset s
  | .recoveryResetComplete => Sys2Proof.Machine.execRecoveryResetComplete s
  | .stageMarkEnd pass => Sys2Proof.Machine.execStageMarkEnd pass s
  | .dataProgramEnd pass => Sys2Proof.Machine.execDataProgramEnd pass s
  | .verifyReadEnd errors => Sys2Proof.Machine.execVerifyReadEnd errors s
  | .listProgramEnd pass => Sys2Proof.Machine.execListProgramEnd pass s
  | .sealMarkEnd pass => Sys2Proof.Machine.execSealMarkEnd pass s
  | .commitMarkEnd pass => Sys2Proof.Machine.execCommitMarkEnd pass s
  | .retireMarkEnd pass => Sys2Proof.Machine.execRetireMarkEnd pass s
  | .eraseMarkEnd pass => Sys2Proof.Machine.execEraseMarkEnd pass s
  | .reclaimEraseEnd pass => Sys2Proof.Machine.execReclaimEraseEnd pass s
  | .configEraseEnd pass => Sys2Proof.Machine.execConfigEraseEnd pass s
  | .configProgramEnd pass => Sys2Proof.Machine.execConfigProgramEnd pass s
  | .configReadEnd errors => Sys2Proof.Machine.execConfigReadEnd errors s
  | .headerReadEnd errors => Sys2Proof.Machine.execHeaderReadEnd errors s
  | .listReadEnd errors => Sys2Proof.Machine.execListReadEnd errors s
  | .bootWindowsBind p => Sys2Proof.Machine.execBootWindowsBind p s
  | .bootWindowsReport p => Sys2Proof.Machine.execBootWindowsReport p s
  | .preloadComplete p => Sys2Proof.Machine.execPreloadComplete p s
  | .bootTimeout p => Sys2Proof.Machine.execBootTimeout p s
  | .deadlineExpiry p => Sys2Proof.Machine.execDeadlineExpiry p s
  | .graceExpiry p => Sys2Proof.Machine.execGraceExpiry p s
  | .resetHoldExpiry p => Sys2Proof.Machine.execResetHoldExpiry p s
  | .restartUnbind p => Sys2Proof.Machine.execRestartUnbind p s
  | .restartEndReads p => Sys2Proof.Machine.execRestartEndReads p s
  | .restartClearNotices p => Sys2Proof.Machine.execRestartClearNotices p s
  | .restartLockLoss p => Sys2Proof.Machine.execRestartLockLoss p s
  | .preloadCancel p => Sys2Proof.Machine.execPreloadCancel p s
  | .idleTimeout line => Sys2Proof.Machine.execIdleTimeout line s
  | .lossOfPower => Sys2Proof.Machine.execLossOfPower s

end Sys2Proof.Machine
end

