-- ==== Sys2Proof/Machine/Step.lean ====
section
/-!
DEFINITION. One step: the command at the front of the queue of waiting commands is taken and run with the
queue's rest; on an empty queue one microsecond passes (log 1).
-/

namespace Sys2Proof.Machine

/-- One step of the hub. -/
def step (s : State) : Host.Outcome State Fault Refusal :=
  match s.pending with
  | [] => .next (s.advance 1)
  | c :: rest => exec c { s with pending := rest }

/-- A command put at the front of the queue. -/
def State.push (c : Instr) (s : State) : State := { s with pending := c :: s.pending }

/-- The command that a table word spells, put at the front of the queue; the state as it is where the word
spells none. -/
def State.withFetchWord (s : State) (nbits w : Nat) : State :=
  match decodeTableWord nbits w with
  | none => s
  | some c => s.push c

end Sys2Proof.Machine
end

