-- ==== Sys2Proof/Safety.lean ====
section
/-!
DEFINITION. What is safe to rely on of a run: the block never stops, and the relations that the spec states hold
between two claims.
-/

namespace Sys2Proof.Machine

namespace State

/-- A port's reset line is asserted exactly in OFF, HELD, PRELOADING and QUARANTINED (R134). -/
def lineAgrees (u : Supervision) : Prop :=
  u.lineAsserted = true ↔ u.state = .off ∨ u.state = .held ∨ u.state = .preloading ∨ u.state = .quarantined

/-- Every port's reset line agrees with its state (R134). -/
def LinesAgree (s : State) : Prop := ∀ p, lineAgrees (s.port p).sup

/-- The event record holds at most 64 entries, with consecutive sequences that end just below the counter
(R186). -/
def EventsInOrder (s : State) : Prop :=
  s.events.entries.length ≤ 64 ∧
    ∀ i (h : i < s.events.entries.length),
      (s.events.entries[i]'h).seq = s.events.next - BitVec.ofNat 32 (s.events.entries.length - i)

/-- Every retransmit buffer holds at most 4 packets (R152). -/
def BuffersFit (s : State) : Prop := ∀ p, (s.port p).link.buffer.length ≤ 4

/-- The flash is in its canonical form (log 4). -/
def FlashCanonical (s : State) : Prop := Memory.wf s.flash

/-! ### What may follow a change within its step -/

/-- A fill-queue entry but for its progress. -/
def unread (e : FillEntry) : FillEntry := { e with reading := false }

/-- A program queue entry but for its progress. -/
def unrun (e : ProgEntry) : ProgEntry := { e with programming := false }

/-- The reclaimer has picked a slot: the lowest-numbered DIRTY one whose reclaim hold is clear went to ERASING,
its fields cleared, and is the target at its last block in step MARK (R20, R106). -/
def Picked (u t : State) : Prop :=
  ∃ n, u.reclaim = none ∧ u.offline = false ∧ u.started = true ∧ u.dirtySlot = some n ∧
    t.slots = tset u.slots n { u.slot n with state := .erasing, line := none, name := none, version := none,
                                             length := none, generation := none } ∧
    t.reclaim = some { target := n, cursor := u.slotBlocks - 1, erasing := false }

/-- The frame of `settle`, which ends a step that changes something: from u, once LIST units have taken free places of
the program queue (R123), the reclaimer has picked a slot (R106), and the channel has granted a waiting request or
suspended the running erase (R91, R94), t keeps what stands here. What t takes instead, `ChannelGrantsInOrder` and
`CheckListsAndSealsEnd` state. -/
structure Follows (u t : State) : Prop where
  /-- Only these six parts can change. -/
  rest : t = { u with slots := t.slots, fill := t.fill, chan := t.chan, upd := t.upd, reclaim := t.reclaim,
                      start := t.start }
  /-- Slots and the reclaimer change only by a pick. -/
  picks : (t.slots = u.slots ∧ t.reclaim = u.reclaim) ∨ Picked u t
  /-- The fill engine changes only in the progress of its entries. -/
  fillRest : t.fill = { u.fill with demand := t.fill.demand, ahead := t.fill.ahead }
  demand : t.fill.demand.map unread = u.fill.demand.map unread
  ahead : t.fill.ahead.map unread = u.fill.ahead.map unread
  /-- Of the update writer, LIST entries are added and the progress of entries and of placing them changes. -/
  updRest : t.upd = { u.upd with work := t.upd.work, queue := t.upd.queue, ready := t.upd.ready,
                                 listing := t.upd.listing }
  works : ∀ l, ∃ k, t.work l = (u.work l).map (fun w => { w with listNext := k })
  queue : ∃ new : List ProgEntry, (∀ e ∈ new, e.kind = .list ∧ e.owner = none) ∧
    t.upd.queue.map unrun = u.upd.queue.map unrun ++ new.map unrun
  /-- The channel stays OFFLINE, or not; the count of timeouts and the held erase stay. -/
  offline : t.chan.state = .offline ↔ u.chan.state = .offline
  timeouts : t.chan.timeouts = u.chan.timeouts
  held : t.chan.suspended = u.chan.suspended
  /-- A running operation other than an erase goes on, and nothing is granted beside it; an OFFLINE channel and
  one whose erase is suspended are left as they are. -/
  busy : (u.chan.state = .busy ∧ u.chan.op.bind (·.erase) = none) ∨ u.chan.state = .offline ∨
    u.chan.state = .eraseSuspended → t.chan = u.chan
  /-- The start-up controller changes only in the request before the channel. -/
  startRest : t.start = { u.start with request := t.start.request }

/-! ### A sequenced packet taken, a command answered -/

/-- The hub runs and no dropped RESTART_HUB reply is about to restart it (R170, R171). -/
def Running (s : State) : Prop := s.live = true ∧ s.hubRestart ≠ .dropped

/-- Port p's link takes the sequenced packet numbered q: the hub runs, the link is UP, and q is the receive
sequence (R156). -/
def Takes (s : State) (p : Port) (q : Seq) : Prop :=
  s.live = true ∧ s.linkUp p = true ∧ (s.port p).link.recvSeq = q

/-- The packet numbered q has been taken: the receive sequence has advanced and its ACK is owed (R156). -/
def taken (p : Port) (q : Seq) (s : State) : State :=
  s.modPort p (fun r => { r with link := { r.link with recvSeq := r.link.recvSeq + 1, owed := some (.ack q) } })

/-- A CMD taken and accepted: besides, its tag is OPEN with the command recorded (R163). -/
def opened (p : Port) (q : Seq) (t : CmdTag) (c : Option Command) (s : State) : State :=
  s.modPort p (fun r =>
    { r with link := { r.link with recvSeq := r.link.recvSeq + 1, owed := some (.ack q) },
             cmdTags := tset r.cmdTags t { CmdTagRecord.reset with state := .opened, command := c } })

/-- A command has been answered: its tag is READY with the status and the result words, ready from now (R164). -/
def replied (p : Port) (t : CmdTag) (st : Status) (res : List Word) (s : State) : State :=
  s.modPort p (fun r =>
    { r with cmdTags := tset r.cmdTags t
               { tget r.cmdTags t with state := .ready, status := some st, result := res, args := [],
                                       readyAt := some r.nextReady },
             nextReady := r.nextReady + 1 })

/-- A CMD is taken, accepted and handed to the block that owns it: its tag is FREE, start-up is complete, and the
port holds the right the command needs (R163). -/
def Dispatched (s : State) (p : Port) (q : Seq) (t : CmdTag) (c : Command) : Prop :=
  s.Takes p q ∧ (s.cmdTag p t).state = .free ∧ s.started = true ∧ s.hasRight p c.right = true

/-- A new sequenced packet has been put on the link: it has the send sequence, which advances; it stands at the tail
of the retransmit buffer; and the acknowledgement timer runs (R157). `source` names the notice entry it carries. -/
def sent (p : Port) (b : Body) (source : Option Nat) (s : State) : State :=
  s.modPort p (fun r =>
    { r with wire := r.wire ++ [.sequenced r.link.sendSeq b],
             link := { r.link with sendSeq := r.link.sendSeq + 1,
                                   buffer := r.link.buffer ++ [{ seq := r.link.sendSeq, body := b, source := source }],
                                   ackTimer := some (r.link.ackTimer.getD 100) } })

/-- What R163 needs of a CMD packet: its port, its number, its tag, the command its opcode names, whether the
number of its argument words is the command's, and, of a status command, the argument that is kept while the
command is held during start-up (R181). -/
structure CmdHeader where
  port    : Port
  seq     : Seq
  tag     : CmdTag
  command : Option Command
  counted : Bool
  held    : Option Word

/-- The header of a CMD packet. -/
def cmdHeader : Instr → Option CmdHeader
  | .bind p q t _ _ _ _ _ => some ⟨p, q, t, some .bind, true, none⟩
  | .unbind p q t _ => some ⟨p, q, t, some .unbind, true, none⟩
  | .rebind p q t _ => some ⟨p, q, t, some .rebind, true, none⟩
  | .touch p q t _ _ => some ⟨p, q, t, some .touch, true, none⟩
  | .service p q t _ => some ⟨p, q, t, some .service, true, none⟩
  | .lockUpdate p q t _ _ _ _ _ => some ⟨p, q, t, some .lockUpdate, true, none⟩
  | .stage p q t _ data => some ⟨p, q, t, some .stage, data.length == 64, none⟩
  | .seal p q t _ => some ⟨p, q, t, some .seal, true, none⟩
  | .commit p q t _ => some ⟨p, q, t, some .commit, true, none⟩
  | .abortUpdate p q t _ => some ⟨p, q, t, some .abortUpdate, true, none⟩
  | .statusLine p q t l => some ⟨p, q, t, some .statusLine, true, some l⟩
  | .statusSlot p q t n => some ⟨p, q, t, some .statusSlot, true, some n⟩
  | .statusPort p q t x => some ⟨p, q, t, some .statusPort, true, some x⟩
  | .resetPort p q t _ => some ⟨p, q, t, some .resetPort, true, none⟩
  | .releasePort p q t _ => some ⟨p, q, t, some .releasePort, true, none⟩
  | .channelReset p q t => some ⟨p, q, t, some .channelReset, true, none⟩
  | .readEvents p q t _ _ => some ⟨p, q, t, some .readEvents, true, none⟩
  | .writeConfig p q t record => some ⟨p, q, t, some .writeConfig, record.length == 49, none⟩
  | .restartHub p q t => some ⟨p, q, t, some .restartHub, true, none⟩
  | .unknownOpcode p q t opcode _ => some ⟨p, q, t, commandOf opcode, false, none⟩
  | _ => none

/-- The port is HELD, PRELOADING or QUARANTINED. -/
def Held (s : State) (p : Port) : Prop :=
  (s.port p).sup.state = .held ∨ (s.port p).sup.state = .preloading ∨ (s.port p).sup.state = .quarantined

/-- The commands that a HELD, PRELOADING or QUARANTINED port is refused with PORT_HELD (R29, R31, R32, R62, R114, R116,
R120, R124, R128, R149, R150, R171, R175, R187). -/
def heldCommand : Command → Bool
  | .service => false
  | .statusLine => false
  | .statusSlot => false
  | .statusPort => false
  | .channelReset => false
  | _ => true

/-- The commands that the binding unit takes as items of their port: BIND, UNBIND, REBIND and TOUCH (R28, R62). -/
def windowCommand : Command → Bool
  | .bind => true
  | .unbind => true
  | .rebind => true
  | .touch => true
  | _ => false

/-- The port and the number of a sequenced packet whose link check holds (R156). -/
def sequencedPacket : Instr → Option (Port × Seq)
  | .read p q _ _ _ => some (p, q)
  | .malformed p kind q => if sequencedKind kind then some (p, q) else none
  | c => (cmdHeader c).map (fun h => (h.port, h.seq))

end State

end Sys2Proof.Machine
end

