-- ==== Sys2Proof/Certificates/Slice0/Obligations.lean ====
section
/-!
DEFINITION. The statements for the provers. Each says in its docstring which rules of spec/ it is drawn from, and
names the log entry where it says something the model chose. Where a step ends with `settle`, the statement gives the state
that `settle` is applied to; what `settle` does, `ChannelGrantsInOrder` states, and `StartsTakeAfterStartValues` where a
RESTART_HUB reply was dropped.
-/

open Sys2Proof Sys2Proof.Machine

/-! ### The machine -/

/-- A step takes the command at the front of the queue and runs it on the state with the queue's rest. -/
def Obligations.StepRunsFrontCommand : Prop :=
  ∀ (c : Instr) (s : State) (rest : List Instr),
    (s.pending = c :: rest → step s = exec c { s with pending := rest }) ∧ step (s.push c) = exec c s

/-- On an empty queue one microsecond passes (log 1): every running timer counts down by 1 and stops at 0, the
erase time of a running erase counts up, that of a held erase stands still, and nothing else changes. `advance d` is
`d` microseconds passing so. -/
def Obligations.EmptyQueuePassesOneMicrosecond : Prop :=
  (∀ s : State, s.pending = [] → ∃ t, step s = .next t ∧
     t = { s with clock := s.clock + 1, ports := t.ports, lines := t.lines,
                  chan := { s.chan with op := s.chan.op.map (fun o =>
                    { o with left := o.left - 1,
                             erase := o.erase.map (fun e =>
                               { e with eraseTime := e.eraseTime + 1, run := e.run + 1,
                                        ackLeft := if e.phase = .suspending then e.ackLeft - 1 else e.ackLeft }) }) },
                  start := { s.start with wait := s.start.wait.map (· - 1) } } ∧
     (∀ p, t.port p =
       { s.port p with
         link := { (s.port p).link with ackTimer := (s.port p).link.ackTimer.map (· - 1),
                                        trainTimer := (s.port p).link.trainTimer.map (· - 1) },
         sup := { (s.port p).sup with
                  timer := match (s.port p).sup.timer with
                    | .stopped => .stopped
                    | .resetHold n => .resetHold (n - 1)
                    | .bootTimeout n => .bootTimeout (n - 1)
                    | .deadline n => .deadline (n - 1)
                    | .grace n => .grace (n - 1) } }) ∧
     (∀ l, t.line l =
       { s.line l with lock := (s.line l).lock.map (fun k => { k with idle := k.idle.map (· - 1) }) })) ∧
  (∀ (d : Nat) (s : State), s.advance 0 = s ∧ s.advance (d + 1) = (s.advance d).advance 1)

/-- Every command is answered with a next state; and a hub without power, or with its reset input asserted, takes
nothing but the commands of the supply and of the reset input (R170, log 9, log 33). -/
def Obligations.EveryCommandCompletes : Prop :=
  (∀ (c : Instr) (s : State), ∃ t, exec c s = .next t) ∧
  (∀ (c : Instr) (s : State), s.live = false → c ≠ .coldStart → c ≠ .hubResetInputAsserted → c ≠ .lossOfPower →
    exec c s = .next s)

/-- The reset state holds the values the spec's tables give after a start: R26 (lines and slots), R27 and R42
(windows), R44 and R46 (frames), R53, R60 and R63 (fill engine), R65 to R67 (reads), R86 (channel count), R110 to
R112 (update writer), R133 (supervision), R152 (links), R161 (command tags), R165 (notices), R170 (start-up
controller) and R186 (event record). The DEVICE_RESET of R170 runs already (log 7). -/
def Obligations.ResetIsAfterColdStart : Prop :=
  let s := State.reset
  (∀ l, s.line l = { state := .empty, name := none, current := none, pending := none, generation := 0,
                     version := none, lock := none }) ∧
  (∀ n, (s.slot n).checkList = none ∧ (s.slot n).windowPins = 0 ∧ (s.slot n).segmentPins = 0 ∧
    (s.slot n).fillPins = 0) ∧
  (∀ f, (s.frame f).state = .free ∧ (s.frame f).page = none ∧ (s.frame f).slot = none ∧
    (s.frame f).waiters = [] ∧ (s.frame f).uses = 0) ∧ s.age = [] ∧
  s.fill.demand = [] ∧ s.fill.ahead = [] ∧ s.fill.badPages = [] ∧ s.fill.lastServed = 3 ∧
  s.segments = [] ∧ s.frameWait = [] ∧
  s.chan.timeouts = 0 ∧ s.chan.suspended = none ∧ s.chan.aging = 0 ∧
  s.chan.op.map Operation.work = some (.deviceReset .startUp) ∧
  (∀ l, s.work l = none ∧ s.sequence l = none) ∧ s.upd.queue = [] ∧ s.upd.ready = [] ∧ s.reclaim = none ∧
  s.cfgw.write = none ∧
  (∀ p, (s.port p).sup = { state := .held, lineAsserted := true, timer := .stopped, token := none,
                           lastToken := none, history := [], bootRequest := 0, lastCause := none } ∧
    (s.port p).link.state = .down ∧ (s.port p).link.sendSeq = 0 ∧ (s.port p).link.recvSeq = 0 ∧
    (s.port p).link.buffer = [] ∧ (s.port p).link.retransmissions = 0 ∧ (s.port p).link.ackTimer = none ∧
    (s.port p).link.trainTimer = none ∧ (s.port p).link.owed = none ∧
    (s.port p).notices = [] ∧ (s.port p).lost = 0 ∧ (s.port p).preload = none ∧
    (∀ w, s.window p w = none) ∧ (∀ t, (s.readTag p t).state = .free) ∧ (∀ t, (s.cmdTag p t).state = .free)) ∧
  s.start.phase = .reset ∧ s.start.kind = .cold ∧ s.events.entries = [] ∧ s.events.next = 1 ∧ s.pending = []

/-! ### Starts and power (spec/09) -/

/-- COLD_START (R170, R42, R186): every block takes its after-start values and the event record is cleared; the flash
stays but for what the operations cut off on the device, the running one and then a held erase, left there (log 5,
`FlashOperationsTakeEffect`; with none it stays whole, log 54). The clock, the free values drawn, the packets already
sent and the commands that wait are the model's own and stay (log 25, log 40). HUB_RESTART (R171, R186): once the reply
of an accepted RESTART_HUB has been sent, every block takes its after-start values as at a cold start, and the event
record keeps its entries and its sequence counter. A reply dropped unsent begins the restart at the end of the step that
dropped it (log 14). With no RESTART_HUB accepted nothing happens (log 3). HUB_RESET_INPUT_ASSERTED and LOSS_OF_POWER
(R170, R176, log 9): while the reset input is asserted every reset output is asserted; without power the flash is kept,
changed by no more than what the operations cut off on the device left, and of the rest only what is the model's own, as
at a cold start; every other part has its after-start value, the channel with no operation; and from then on the hub
takes nothing until COLD_START. An assertion without power is not held, and a COLD_START finds the input released (log
59). -/
def Obligations.StartsTakeAfterStartValues : Prop :=
  ((∀ s : State,
     exec .coldStart s = .next
       { State.reset with
         clock := s.clock, draws := (s.abandonOps .abandoned).draws, flash := (s.abandonOps .abandoned).flash,
         pending := s.pending, ports := tmap (fun r => { PortRecord.reset with wire := r.wire }) s.ports }) ∧
   (∀ (h : DeviceEnd) (s : State),
     (s.chan.op = none → s.chan.suspended = none → s.abandonOps h = s) ∧
     (∀ o, s.chan.op = some o → s.chan.suspended = none → s.abandonOps h = s.deviceEffect h o) ∧
     (∀ e, s.chan.op = none → s.chan.suspended = some e → s.abandonOps h = s.deviceEffect h e) ∧
     (∀ o e, s.chan.op = some o → s.chan.suspended = some e →
       s.abandonOps h = (s.deviceEffect h o).deviceEffect h e))) ∧
  ((∀ s : State, s.live = true → s.hubRestart ≠ .none →
     exec .hubRestart s = .next
       { State.reset with
         clock := s.clock, draws := (s.abandonOps .abandoned).draws, flash := (s.abandonOps .abandoned).flash,
         pending := s.pending, ports := tmap (fun r => { PortRecord.reset with wire := r.wire }) s.ports,
         start := { StartUp.reset with kind := .restart }, events := s.events }) ∧
   (∀ s : State, s.hubRestart = .dropped →
     s.settle =
       { State.reset with
         clock := s.clock, draws := (s.abandonOps .abandoned).draws, flash := (s.abandonOps .abandoned).flash,
         pending := s.pending, ports := tmap (fun r => { PortRecord.reset with wire := r.wire }) s.ports,
         start := { StartUp.reset with kind := .restart }, events := s.events }) ∧
   (∀ s : State, s.hubRestart = .none → exec .hubRestart s = .next s)) ∧
  ((∀ s : State, s.powered = true → ∃ t, exec .hubResetInputAsserted s = .next t ∧
     t = { s with resetInput := true, ports := t.ports } ∧ t.live = false ∧
     ∀ p, t.port p = { s.port p with
       sup := { state := .held, lineAsserted := true, timer := .stopped, token := none, lastToken := none,
                history := [], bootRequest := 0, lastCause := none } }) ∧
   (∀ s : State, s.powered = false → exec .hubResetInputAsserted s = .next s) ∧
   (∀ s : State,
     exec .lossOfPower s = .next
       { State.reset with
         powered := false, clock := s.clock, draws := (s.abandonOps .powerLost).draws,
         flash := (s.abandonOps .powerLost).flash, pending := s.pending,
         ports := tmap (fun r => { PortRecord.reset with wire := r.wire }) s.ports,
         chan := { state := .idle, op := none, suspended := none, timeouts := 0, aging := 0 } }) ∧
   (∀ s t : State, exec .lossOfPower s = .next t → t.live = false) ∧
   (∀ s t : State, exec .coldStart s = .next t → t.live = true))

/-! ### Port links (spec/08) -/

/-- Outside UP a link takes TRAINs, and leaves TRAINING at the training timer's expiry (R154, log 2): a matching TRAIN
with its flag clear is answered with the flag set and starts the timer at 10 ms in TRAINING; one with its flag set is
answered so too and the link enters UP; one that does not match is answered with the flag clear, and the link is DOWN.
So two sides that start from DOWN bring the link up in three TRAINs. -/
def Obligations.TrainingOutsideUp : Prop :=
  (∀ (p : Port) (version port : Byte) (acked : Bool) (s : State), s.live = true → s.portOff p = false →
    ((s.port p).link.state = .down ∨ (s.port p).link.state = .training) →
    exec (.train p version port acked) s = .next
      (if version = 1 ∧ port.toNat = p.val then
        (if acked then
          (s.modPort p (fun r =>
            { r with wire := r.wire ++ [.train true],
                     link := { state := .up, sendSeq := 0, recvSeq := 0, buffer := [], retransmissions := 0,
                               ackTimer := none, trainTimer := none, owed := none } })).log
            { kind := .linkUp, port := some p }
        else
          s.modPort p (fun r =>
            { r with wire := r.wire ++ [.train true],
                     link := { r.link with state := .training, trainTimer := some 10000 } }))
      else
        s.modPort p (fun r =>
          { r with wire := r.wire ++ [.train false], link := { r.link with state := .down, trainTimer := none } }))) ∧
  (∀ (p : Port) (d : Nat) (s : State), s.live = true → (s.port p).link.state = .training →
    (s.port p).link.trainTimer = some d →
    exec (.trainingTimeout p) s = .next
      ((s.advance d).modPort p (fun r => { r with link := { r.link with state := .down, trainTimer := none } }))) ∧
  (∀ (p : Port) (s t : State), s.live = true → s.portOff p = false → (s.port p).link.state = .down →
    exec (.train p 1 (BitVec.ofNat 8 p.val) false) s = .next t →
    ∃ u, exec (.train p 1 (BitVec.ofNat 8 p.val) true) t = .next u ∧ (u.port p).link.state = .up)

/-- In UP a matching TRAIN with its flag set is disregarded; any other takes the link DOWN with the reason RETRAIN
(as stated below) and is then taken as in DOWN (R155). An OFF port discards every TRAIN (R169). The link leaves UP
for DOWN (R159, R80, R168): the buffer is emptied, the owed answer cleared and the timers stopped; OPEN tags become
DISCARD, READY tags FREE with their replies dropped, FREE and DISCARD tags stay; the segment entries of the READY
tags leave, with one segment unpin each, tag by tag (`endReads`; `SegmentsFinish` says what dropping a request does,
`UnpinsReleaseRetiredSlots` what an unpin does), and every other segment stays; a SENT notice whose packet was in the
buffer waits again in its place; LINK_DOWN is logged with its reason. Windows, the supervision record, the other
ports, the lines, the update writer, the channel and the flash are left as they are. A dropped reply of an accepted
RESTART_HUB is remembered, and the hub restart begins at the end of the step (`settle`; R171, log 14). -/
def Obligations.RetrainAndLinkDown : Prop :=
  ((∀ (p : Port) (version port : Byte) (acked : Bool) (s : State), s.live = true → s.portOff p = false →
     (s.port p).link.state = .up →
     (version = 1 ∧ port.toNat = p.val ∧ acked = true → exec (.train p version port acked) s = .next s) ∧
     (version = 1 ∧ port.toNat = p.val ∧ acked = false →
       exec (.train p version port acked) s = .next ((s.linkDown p .retrain).modPort p (fun r =>
           { r with wire := r.wire ++ [.train true],
                    link := { r.link with state := .training, trainTimer := some 10000 } })).settle) ∧
     (¬ (version = 1 ∧ port.toNat = p.val) →
       exec (.train p version port acked) s = .next ((s.linkDown p .retrain).modPort p (fun r =>
           { r with wire := r.wire ++ [.train false],
                    link := { r.link with state := .down, trainTimer := none } })).settle)) ∧
   (∀ (p : Port) (version port : Byte) (acked : Bool) (s : State), s.portOff p = true →
     exec (.train p version port acked) s = .next s)) ∧
  (∀ (p : Port) (why : DownReason) (s : State),
     let t := s.linkDown p why
     let r := s.port p
     (t.port p).link = { r.link with state := .down, buffer := [], owed := none, ackTimer := none,
                                     trainTimer := none } ∧
     (t.port p).notices = r.notices.map (fun e =>
       if r.link.buffer.any (fun b => b.source == some e.readyAt) then { e with sent := false } else e) ∧
     (∀ x, t.readTag p x =
       match (s.readTag p x).state with
       | .opened => { s.readTag p x with state := .discard }
       | .ready => ReadTagRecord.reset
       | .free => s.readTag p x
       | .discard => s.readTag p x) ∧
     (∀ x, t.cmdTag p x =
       match (s.cmdTag p x).state with
       | .opened => { s.cmdTag p x with state := .discard }
       | .ready => CmdTagRecord.reset
       | .free => s.cmdTag p x
       | .discard => s.cmdTag p x) ∧
     t.port p = { r with link := (t.port p).link, notices := (t.port p).notices, readTags := (t.port p).readTags,
                         cmdTags := (t.port p).cmdTags } ∧
     (∀ x, x ≠ p → t.port x = s.port x) ∧
     t.events = (s.log { kind := .linkDown, port := some p, detail := wordOf why.code }).events ∧
     t.segments = s.segments.filter (fun g => !(g.id.port == p && (s.readTag p g.id.tag).state == .ready)) ∧
     (let e := s.endReads p
      t.slots = e.slots ∧ t.frames = e.frames ∧ t.age = e.age ∧ t.fill = e.fill) ∧
     (t.hubRestart = if ∃ x, (s.cmdTag p x).state = .ready ∧ (s.cmdTag p x).command = some .restartHub ∧
         (s.cmdTag p x).status = some .ok then .dropped else s.hubRestart) ∧
     t = { s with hubRestart := t.hubRestart, ports := t.ports, slots := t.slots, segments := t.segments,
                  frames := t.frames, age := t.age, fill := t.fill, events := t.events }) ∧
  (∀ (p : Port) (s : State),
     s.endReads p = ([0, 1, 2, 3, 4, 5, 6, 7] : List ReadTag).foldl (fun x t =>
       match (x.readTag p t).state with
       | .opened => x.modPort p (fun r =>
           { r with readTags := tset r.readTags t { tget r.readTags t with state := .discard } })
       | .ready => x.dropRequest p t
       | .free => x
       | .discard => x) s)

/-- A link that is not UP sends a TRAIN every 1 ms: flag clear in DOWN, set in TRAINING (R153); an OFF port and an
UP link send none (R153, R169). The command marks the end of a period, whose time it does not pass: no timer of it is
stated (log 47). -/
def Obligations.TrainPeriodSendsTrain : Prop :=
  ∀ (p : Port) (s : State), s.live = true →
    exec (.trainPeriod p) s = .next
      (if s.portOff p then s
      else
        match (s.port p).link.state with
        | .down => s.modPort p (fun r => { r with wire := r.wire ++ [.train false] })
        | .training => s.modPort p (fun r => { r with wire := r.wire ++ [.train true] })
        | .up => s)

/-- A packet that an UP link does not take (R155, R156, R157): an ACK or a NAK whose check fails is only discarded; a
TRAIN whose check fails does not match (section 8.2), so the link goes DOWN with the reason RETRAIN
(`RetrainAndLinkDown`, with what a dropped RESTART_HUB reply then does, log 14) and a TRAIN with the flag clear is sent;
any other packet whose check fails owes a NAK of the receive sequence, its kind being that of its kind byte as received
(log 16); a repeat, numbered r - 1 to r - 4, owes an ACK of r - 1; one after a gap, numbered r + 1 to r + 3, owes a NAK
of r. Each replaces the answer owed before, and nothing else changes. On a link that is not UP they are discarded
without an answer (R153). -/
def Obligations.PacketsNotTaken : Prop :=
  (∀ (p : Port) (kind : Byte) (s : State), s.live = true → s.linkUp p = true →
    (kind = 0x02 ∨ kind = 0x03 → exec (.packetCheckFailed ⟨p, kind⟩) s = .next s) ∧
    (kind = 0x01 →
      exec (.packetCheckFailed ⟨p, kind⟩) s = .next ((s.linkDown p .retrain).modPort p (fun r =>
          { r with wire := r.wire ++ [.train false],
                   link := { r.link with state := .down, trainTimer := none } })).settle) ∧
    (kind ≠ 0x01 → kind ≠ 0x02 → kind ≠ 0x03 → exec (.packetCheckFailed ⟨p, kind⟩) s = .next
      (s.modPort p (fun r => { r with link := { r.link with owed := some (.nak r.link.recvSeq) } })))) ∧
  (∀ (c : Instr) (p : Port) (q : Seq) (s : State), State.sequencedPacket c = some (p, q) → s.live = true →
    s.linkUp p = true →
    let r := (s.port p).link.recvSeq
    (q = r - 1 ∨ q = r - 2 ∨ q = r - 3 ∨ q = r - 4 →
      exec c s = .next (s.modPort p (fun x => { x with link := { x.link with owed := some (.ack (r - 1)) } }))) ∧
    (q = r + 1 ∨ q = r + 2 ∨ q = r + 3 →
      exec c s = .next (s.modPort p (fun x => { x with link := { x.link with owed := some (.nak r) } })))) ∧
  (∀ (p : Port) (kind : Byte) (s : State), s.linkUp p = false → exec (.packetCheckFailed ⟨p, kind⟩) s = .next s) ∧
  (∀ (c : Instr) (p : Port) (q : Seq) (s : State), State.sequencedPacket c = some (p, q) → s.linkUp p = false →
    exec c s = .next s)

/-- ACK and NAK (R157): an ACK of a packet in the buffer removes every packet up to and including it, and the
retransmission count returns to 0; the timer restarts at 100 µs if packets remain, else it stops. A NAK of the send
sequence empties the buffer. Any other number is discarded. The place of a number is that of the first packet in the
buffer that carries it; a number no packet carries has none. What a removal does to the notice it carried is
`AcknowledgedNoticeLeaves`. -/
def Obligations.AcknowledgementsRemovePackets : Prop :=
  (∀ (p : Port) (q : Seq) (s : State),
    let buffer := (s.port p).link.buffer
    (∀ i, s.placeOf p q = some i ↔
      (∃ b, buffer[i]? = some b ∧ b.seq = q) ∧ ∀ j, j < i → ∀ c, buffer[j]? = some c → c.seq ≠ q) ∧
    (s.placeOf p q = none ↔ ∀ b ∈ buffer, b.seq ≠ q)) ∧
  (∀ (p : Port) (q : Seq) (i : Nat) (s : State), s.live = true → s.linkUp p = true → s.placeOf p q = some i →
    let k := (s.port p).link
    exec (.ack p q) s = .next
      ((State.acknowledged p (k.buffer.take (i + 1)) (s.modPort p (fun r =>
        { r with link := { r.link with buffer := k.buffer.drop (i + 1), retransmissions := 0 } }))).modPort p (fun r =>
          { r with link := { r.link with
                             ackTimer := if k.buffer.drop (i + 1) = [] then none else some 100 } }))) ∧
  (∀ (p : Port) (q : Seq) (s : State), s.live = true → s.linkUp p = true → s.placeOf p q = none →
    let k := (s.port p).link
    exec (.ack p q) s = .next s ∧
    (q ≠ k.sendSeq → exec (.nak p q) s = .next s) ∧
    (q = k.sendSeq → k.buffer ≠ [] →
      exec (.nak p q) s = .next
        ((State.acknowledged p k.buffer (s.modPort p (fun r =>
          { r with link := { r.link with buffer := [], retransmissions := 0 } }))).modPort p (fun r =>
            { r with link := { r.link with ackTimer := none } })))) ∧
  (∀ (p : Port) (q : Seq) (s : State), s.linkUp p = false → exec (.ack p q) s = .next s ∧ exec (.nak p q) s = .next s)

/-- A retransmission (R158, R157), at the acknowledgement timer's expiry (log 2) or at a NAK of a packet in the
buffer: with the count below 8 the packets are put on the link again, oldest first, the count rises by 1 and the timer
restarts at 100 µs; with the count at 8 none is made, and the link goes DOWN with the reason RETRANSMIT
(`RetrainAndLinkDown`); a RESTART_HUB reply so dropped begins the hub restart at the end of the step (R171, log 14). -/
def Obligations.RetransmissionOrLinkDown : Prop :=
  (∀ (p : Port) (s : State) (d : Nat), s.live = true → (s.port p).link.state = .up →
    (s.port p).link.ackTimer = some d →
    let k := (s.port p).link
    (k.retransmissions < 8 →
      exec (.acknowledgementTimeout p) s = .next
        ((s.advance d).modPort p (fun r =>
          { r with wire := r.wire ++ k.buffer.map (fun b => .sequenced b.seq b.body),
                   link := { r.link with retransmissions := k.retransmissions + 1, ackTimer := some 100 } }))) ∧
    (8 ≤ k.retransmissions →
      exec (.acknowledgementTimeout p) s = .next ((s.advance d).linkDown p .retransmit).settle)) ∧
  (∀ (p : Port) (q : Seq) (i : Nat) (s : State), s.live = true → s.linkUp p = true → s.placeOf p q = some i →
    let k := (s.port p).link
    let u := State.acknowledged p (k.buffer.take i) (s.modPort p (fun r =>
      { r with link := { r.link with buffer := k.buffer.drop i,
                                     retransmissions := if i = 0 then k.retransmissions else 0 } }))
    (0 < i ∨ k.retransmissions < 8 →
      exec (.nak p q) s = .next
        (u.modPort p (fun r =>
          { r with wire := r.wire ++ (k.buffer.drop i).map (fun b => .sequenced b.seq b.body),
                   link := { r.link with retransmissions := (if i = 0 then k.retransmissions else 0) + 1,
                                         ackTimer := some 100 } }))) ∧
    (i = 0 → 8 ≤ k.retransmissions →
      exec (.nak p q) s = .next (u.linkDown p .retransmit).settle))

/-- LINK_SEND on an UP link (R160, R157, R78, R164, R167): an owed ACK or NAK goes first, whatever the buffer holds;
else, with fewer than 4 packets in the buffer, the item that became ready earliest among the READY read tags, the
READY command tags (but for those held at a restart, log 22) and the oldest WAITING notice. A reply's tag becomes FREE
and, for a read, its segments leave with their pins; a notice's entry becomes SENT. The reply of an accepted
RESTART_HUB is then on its way (R171). There is nothing to send exactly when no read tag is READY, no command tag is
READY but those held, and no notice is WAITING: none is passed over. With nothing to send, or a full buffer, nothing
changes. (A READY tag has its readiness in every run; 0 stands for it elsewhere, log 32.) -/
def Obligations.LinkSendOrder : Prop :=
  (∀ (p : Port) (s : State) (a : Owed), s.live = true → s.linkUp p = true → (s.port p).link.owed = some a →
    exec (.linkSend p) s = .next
      (s.modPort p (fun r =>
        { r with wire := r.wire ++ [match a with | .ack q => .ack q | .nak q => .nak q],
                 link := { r.link with owed := none } }))) ∧
  (∀ (p : Port) (s : State), s.live = true → s.linkUp p = true → (s.port p).link.owed = none →
    (4 ≤ (s.port p).link.buffer.length ∨ s.nextOutgoing p = none → exec (.linkSend p) s = .next s) ∧
    ((s.port p).link.buffer.length < 4 →
      (∀ t n, s.nextOutgoing p = some (.readReply t n) →
        exec (.linkSend p) s = .next ((s.sent p (.readReply t ((s.readTag p t).status.getD .ok)
          (if (s.readTag p t).status.getD .ok = .ok then (s.readTag p t).lower ++ (s.readTag p t).upper else []))
          none).dropRequest p t).settle) ∧
      (∀ t n, s.nextOutgoing p = some (.cmdReply t n) →
        let u := (s.sent p (.cmdReply t ((s.cmdTag p t).status.getD .ok) (s.cmdTag p t).result) none).modPort p
          (fun r => { r with cmdTags := tset r.cmdTags t CmdTagRecord.reset })
        exec (.linkSend p) s = .next
          (if (s.cmdTag p t).command = some .restartHub ∧ (s.cmdTag p t).status = some .ok then
            { u with hubRestart := .sending } else u)) ∧
      (∀ e, s.nextOutgoing p = some (.notice e) →
        exec (.linkSend p) s = .next
          ((s.sent p (.notice e.notice) (some e.readyAt)).modPort p (fun r =>
            { r with notices := r.notices.map (fun x => if x.readyAt = e.readyAt then { x with sent := true } else x) }))))) ∧
  (∀ (p : Port) (s : State) (x : Outgoing), s.nextOutgoing p = some x →
    (∀ t, (s.readTag p t).state = .ready → x.ready ≤ (s.readTag p t).readyAt.getD 0) ∧
    (∀ t, (s.cmdTag p t).state = .ready → (s.cmdTag p t).restartHeld = false →
      x.ready ≤ (s.cmdTag p t).readyAt.getD 0) ∧
    (∀ e, (s.port p).notices.find? (fun y => !y.sent) = some e → x.ready ≤ e.readyAt) ∧
    (match x with
     | .readReply t n => (s.readTag p t).state = .ready ∧ n = (s.readTag p t).readyAt.getD 0
     | .cmdReply t n => (s.cmdTag p t).state = .ready ∧ (s.cmdTag p t).restartHeld = false ∧
         n = (s.cmdTag p t).readyAt.getD 0
     | .notice e => (s.port p).notices.find? (fun y => !y.sent) = some e)) ∧
  (∀ (p : Port) (s : State), s.nextOutgoing p = none ↔
    (∀ t, (s.readTag p t).state ≠ .ready) ∧
    (∀ t, (s.cmdTag p t).state = .ready → (s.cmdTag p t).restartHeld = true) ∧
    (∀ e ∈ (s.port p).notices, e.sent = true)) ∧
  (∀ (p : Port) (s : State), s.linkUp p = false → exec (.linkSend p) s = .next s)

/-- A notice handed to a port's link (R165, R166): a NEW_GENERATION with one WAITING one of its line in the queue
replaces that one's value, in its place; any other is discarded for an OFF port, placed at the tail while the queue
holds fewer than 8 entries, and counted lost, up to 255, when it holds 8. STATUS_PORT reports the queue's length and
the lost count, and after a start the queue is empty and the count 0. -/
def Obligations.NoticeQueueTakesNotices : Prop :=
  (∀ (p : Port) (n : Notice) (s : State) (l r : List NoticeEntry) (e : NoticeEntry),
    n.kind = .newGeneration → (s.port p).notices = l ++ e :: r →
    (e.sent = false ∧ e.notice.kind = .newGeneration ∧ e.notice.subject = n.subject) →
    (∀ x ∈ l ++ r, x.sent = true ∨ x.notice.kind ≠ .newGeneration ∨ x.notice.subject ≠ n.subject) →
    s.hand p n = s.modPort p (fun x =>
      { x with notices := l ++ { e with notice := { e.notice with value := n.value } } :: r })) ∧
  (∀ (p : Port) (n : Notice) (s : State),
    (n.kind ≠ .newGeneration ∨ ∀ x ∈ (s.port p).notices,
      x.sent = true ∨ x.notice.kind ≠ .newGeneration ∨ x.notice.subject ≠ n.subject) →
    (s.portOff p = true → s.hand p n = s) ∧
    (s.portOff p = false → (s.port p).notices.length < 8 →
      s.hand p n = s.modPort p (fun x =>
        { x with notices := x.notices ++ [{ notice := n, sent := false, readyAt := x.nextReady }],
                 nextReady := x.nextReady + 1 })) ∧
    (s.portOff p = false → 8 ≤ (s.port p).notices.length →
      s.hand p n = s.modPort p (fun x => { x with lost := min 255 (x.lost + 1) }))) ∧
  (∀ (p : Port) (s : State), (s.portWords p)[18]? =
    some (packWord (s.port p).notices.length (s.port p).lost 0 0)) ∧
  (∀ (k : StartKind) (p : Port) (s : State),
    ((s.beginStart k).port p).notices = [] ∧ ((s.beginStart k).port p).lost = 0)

/-- A packet removed from the buffer by ACK or NAK (R167, R168): the notice entry it carried leaves the queue, and, if
notices have been lost, a NOTICES_LOST entry with the count takes the freed place at the tail and the count returns to
0. A packet that carried no notice, or one whose entry is gone, frees no place. Where R168 has left two WAITING
NEW_GENERATION entries of a line, the next one handed is merged into the older (log 18). -/
def Obligations.AcknowledgedNoticeLeaves : Prop :=
  (∀ (p : Port) (n : Notice) (s : State) (l r : List NoticeEntry) (e : NoticeEntry),
    n.kind = .newGeneration → (s.port p).notices = l ++ e :: r →
    (e.sent = false ∧ e.notice.kind = .newGeneration ∧ e.notice.subject = n.subject) →
    (∀ x ∈ l, x.sent = true ∨ x.notice.kind ≠ .newGeneration ∨ x.notice.subject ≠ n.subject) →
    s.hand p n = s.modPort p (fun x =>
      { x with notices := l ++ { e with notice := { e.notice with value := n.value } } :: r })) ∧
  ∀ (p : Port) (b : Buffered) (bs : List Buffered) (s : State),
    State.acknowledged p [] s = s ∧
    State.acknowledged p (b :: bs) s = State.acknowledged p bs (State.acknowledged p [b] s) ∧
    (b.source = none → State.acknowledged p [b] s = s) ∧
    (∀ n, b.source = some n →
      ((∀ e ∈ (s.port p).notices, e.readyAt ≠ n) → State.acknowledged p [b] s = s) ∧
      ((∃ e ∈ (s.port p).notices, e.readyAt = n) → (s.port p).lost = 0 →
        State.acknowledged p [b] s = s.modPort p (fun r =>
          { r with notices := r.notices.filter (fun e => e.readyAt != n) })) ∧
      ((∃ e ∈ (s.port p).notices, e.readyAt = n) → 0 < (s.port p).lost →
        State.acknowledged p [b] s = s.modPort p (fun r =>
          { r with notices := r.notices.filter (fun e => e.readyAt != n) ++
                     [{ notice := { kind := .noticesLost, subject := none, value := wordOf r.lost }, sent := false,
                        readyAt := r.nextReady }],
                   lost := 0, nextReady := r.nextReady + 1 })))

/-- Protocol errors (R162): a CMD or READ whose tag is not FREE, and a MALFORMED packet. The packet is dropped, a
PROTOCOL_ERROR notice is handed to the port and PROTOCOL_ERROR is logged, both with the error kind, the packet kind
and, for REUSED_TAG, the tag. A sequenced packet has been taken first; an unsequenced one leaves the sequence and the
owed answer, and is discarded without an answer on a link that is not UP. -/
def Obligations.ProtocolErrorsAreReported : Prop :=
  (∀ (c : Instr) (h : State.CmdHeader) (s : State), State.cmdHeader c = some h → s.Takes h.port h.seq →
    (s.cmdTag h.port h.tag).state ≠ .free →
    let v := packWord 1 0x20 h.tag.val 0
    exec c s = .next (((s.taken h.port h.seq).hand h.port { kind := .protocolError, subject := none, value := v }).log
      { kind := .protocolError, port := some h.port, detail := v })) ∧
  (∀ (p : Port) (q : Seq) (t : ReadTag) (a : BitVec 24) (n : Byte) (s : State), s.Takes p q →
    (s.readTag p t).state ≠ .free →
    let v := packWord 1 0x10 t.val 0
    exec (.read p q t a n) s = .next (((s.taken p q).hand p { kind := .protocolError, subject := none, value := v }).log
      { kind := .protocolError, port := some p, detail := v })) ∧
  (∀ (p : Port) (kind : Byte) (q : Seq) (s : State),
    let v := packWord 2 kind.toNat 0xFF 0
    (kind ∈ [0x10#8, 0x11#8, 0x20#8, 0x21#8, 0x30#8] → s.Takes p q →
      exec (.malformed p kind q) s = .next
        (((s.taken p q).hand p { kind := .protocolError, subject := none, value := v }).log
          { kind := .protocolError, port := some p, detail := v })) ∧
    (kind ∉ [0x10#8, 0x11#8, 0x20#8, 0x21#8, 0x30#8] →
      (s.live = true → s.linkUp p = true → exec (.malformed p kind q) s = .next
        ((s.hand p { kind := .protocolError, subject := none, value := v }).log
          { kind := .protocolError, port := some p, detail := v })) ∧
      (s.linkUp p = false → exec (.malformed p kind q) s = .next s)))

/-- Dispatch of an accepted CMD (R163, R181): BAD_ARGUMENT when its opcode names no command or its number of words is
not the command's (UNKNOWN_OPCODE among them); during start-up PORT_HELD, but a status command stays OPEN with its
argument; NO_RIGHT when the port lacks the command's right, and for STATUS_PORT of another port without the SUPERVISE
right. The tag is READY with the status and no result words. An owning block answers a command (R164): an OPEN tag
becomes READY with the status and the result words; of a DISCARD tag the reply is dropped and the tag becomes FREE.
-/
def Obligations.DispatchAnswersFirst : Prop :=
  ((∀ (c : Instr) (h : State.CmdHeader) (s : State), State.cmdHeader c = some h → s.Takes h.port h.seq →
     (s.cmdTag h.port h.tag).state = .free →
     let o := s.opened h.port h.seq h.tag h.command
     (h.counted = false → exec c s = .next (o.replied h.port h.tag .badArgument [])) ∧
     (h.counted = true → s.started = false → h.held = none → exec c s = .next (o.replied h.port h.tag .portHeld [])) ∧
     (∀ a, h.counted = true → s.started = false → h.held = some a →
       exec c s = .next (s.modPort h.port (fun r =>
         { r with link := { r.link with recvSeq := r.link.recvSeq + 1, owed := some (.ack h.seq) },
                  cmdTags := tset r.cmdTags h.tag
                    { CmdTagRecord.reset with state := .opened, command := h.command, args := [a] } }))) ∧
     (∀ k, h.counted = true → s.started = true → h.command = some k → s.hasRight h.port k.right = false →
       exec c s = .next (o.replied h.port h.tag .noRight []))) ∧
   (∀ (p : Port) (q : Seq) (t : CmdTag) (x : Port) (s : State), s.Dispatched p q t .statusPort → x ≠ p →
     (s.portCfg p).supervise = false →
     exec (.statusPort p q t (wordOf x.val)) s = .next ((s.opened p q t (some .statusPort)).replied p t .noRight [])) ∧
   (∀ (p : Port) (s : State) (k : Command),
     s.hasRight p k.right =
       match k with
       | .bind | .unbind | .rebind | .touch => (s.portCfg p).fetch
       | .lockUpdate | .stage | .seal | .commit | .abortUpdate => (s.portCfg p).update
       | .resetPort | .releasePort | .channelReset | .readEvents | .writeConfig | .restartHub => (s.portCfg p).supervise
       | .service | .statusLine | .statusSlot | .statusPort => true)) ∧
  (∀ (p : Port) (t : CmdTag) (st : Status) (res : List Word) (s : State),
     ((s.cmdTag p t).state = .opened → s.answer p t st res = s.replied p t st res) ∧
     ((s.cmdTag p t).state = .discard →
       s.answer p t st res = s.modPort p (fun r => { r with cmdTags := tset r.cmdTags t CmdTagRecord.reset })) ∧
     State.answerTo none st res s = s ∧ State.answerTo (some (p, t)) st res s = s.answer p t st res)

/-! ### Windows (spec/02) and pins (spec/01) -/

/-- A port that is HELD, PRELOADING or QUARANTINED is answered PORT_HELD by every command with that refusal (R29,
R31, R32, R62, R114, R116, R120, R124, R128, R149, R150, R171, R175, R187), and nothing else changes; before a BIND,
UNBIND, REBIND or TOUCH the unbinding item of a restart that waits is taken (R41, log 51). -/
def Obligations.HeldPortsAreRefused : Prop :=
  ∀ (c : Instr) (h : State.CmdHeader) (k : Command) (s : State), State.cmdHeader c = some h → h.command = some k →
    h.counted = true → s.Dispatched h.port h.seq h.tag k → s.Held h.port → State.heldCommand k = true →
    (State.windowCommand k = false ∨ .unbindAll ∉ (s.port h.port).bindItems →
      exec c s = .next ((s.opened h.port h.seq h.tag (some k)).replied h.port h.tag .portHeld [])) ∧
    (State.windowCommand k = true → .unbindAll ∈ (s.port h.port).bindItems →
      exec c s = .next
        (((s.takeUnbinds h.port).opened h.port h.seq h.tag (some k)).replied h.port h.tag .portHeld []).settle)

/-- Unpins (R11) and what a slot's entry to DIRTY does (R19, R52, R60): one is taken from the part named; when that
leaves the slot RETIRED with no pin, the slot is DIRTY, its check list is dropped, its frames are FREE and out of the
age order, and its bad-page entries are gone; every other slot, frame and entry stays. -/
def Obligations.UnpinsReleaseRetiredSlots : Prop :=
  (∀ (n : SlotNo) (s : State),
    (s.toDirty n).slots = tset s.slots n { s.slot n with state := .dirty, checkList := none } ∧
    (∀ f, (s.toDirty n).frame f = if (s.frame f).slot = some n then Frame.reset else s.frame f) ∧
    (s.toDirty n).age = s.age.filter (fun f => (s.frame f).slot != some n) ∧
    (s.toDirty n).fill = { s.fill with badPages := s.fill.badPages.filter (fun b => b.slot != n) } ∧
    s.toDirty n = { s with slots := (s.toDirty n).slots, frames := (s.toDirty n).frames, age := (s.toDirty n).age,
                           fill := (s.toDirty n).fill }) ∧
  (∀ (n : SlotNo) (s : State),
    let w := s.modSlot n (fun r => { r with windowPins := r.windowPins - 1 })
    let g := s.modSlot n (fun r => { r with segmentPins := r.segmentPins - 1 })
    let f := s.modSlot n (fun r => { r with fillPins := r.fillPins - 1 })
    s.windowUnpin n = (if (w.slot n).state = .retired ∧
      (w.slot n).windowPins + (w.slot n).segmentPins + (w.slot n).fillPins = 0 then w.toDirty n else w) ∧
    s.segmentUnpin n = (if (g.slot n).state = .retired ∧
      (g.slot n).windowPins + (g.slot n).segmentPins + (g.slot n).fillPins = 0 then g.toDirty n else g) ∧
    s.fillUnpin n = (if (f.slot n).state = .retired ∧
      (f.slot n).windowPins + (f.slot n).segmentPins + (f.slot n).fillPins = 0 then f.toDirty n else f))

/-- The checks made before a window is bound, in order, from step 2 of R29 on, and the binding (R10, R30): BAD_ARGUMENT
for the base, the size, the line or the image offset; BUSY; OVERLAP; NO_LINE or DAMAGED; else the line's current slot
gains a window pin and the window holds that slot and the line's generation. -/
def Obligations.WindowChecksInOrder : Prop :=
  ∀ (p : Port) (w : WindowNo) (base size line offset : Nat) (boot : Bool) (s : State),
    let fits := base < 16777216 ∧ (∃ k, 12 ≤ k ∧ k ≤ 22 ∧ size = 2 ^ k) ∧ size ∣ base ∧ line < 8 ∧ 4096 ∣ offset ∧
      offset < s.largestImage
    let meets := ∃ x b, s.window p x = some b ∧ base < b.base + b.size ∧ b.base < base + size
    (¬ fits → s.bindTo p w base size line offset boot = .error .badArgument) ∧
    (fits → s.window p w ≠ none → s.bindTo p w base size line offset boot = .error .busy) ∧
    (fits → s.window p w = none → meets → s.bindTo p w base size line offset boot = .error .overlap) ∧
    (∀ l : LineNo, fits → line = l.val → s.window p w = none → ¬ meets →
      ((s.line l).state = .empty → s.bindTo p w base size line offset boot = .error .noLine) ∧
      ((s.line l).state = .damaged → s.bindTo p w base size line offset boot = .error .damaged) ∧
      (∀ n, (s.line l).state = .active → (s.line l).current = some n →
        s.bindTo p w base size line offset boot = .ok (n, (s.line l).generation,
          (s.modSlot n (fun r => { r with windowPins := r.windowPins + 1 })).modPort p (fun r =>
            { r with windows := tset r.windows w (some
              { base := base, size := size, line := l, offset := offset, slot := n,
                generation := (s.line l).generation, boot := boot }) }))))

/-- BIND and UNBIND (R29, R30, R31): a window number past 3 is BAD_ARGUMENT; BIND is answered as `WindowChecksInOrder`
gives it, with the bound slot and generation; UNBIND of an UNBOUND window is BAD_STATE, and of a BOUND one returns its
window pin, makes it UNBOUND and carries its slot and generation. While an unbinding item of a restart waits, the
command acts as `BindItemsAreTaken` says. -/
def Obligations.BindAndUnbind : Prop :=
  (∀ (p : Port) (q : Seq) (t : CmdTag) (window base size line offset : Word) (s : State), s.Dispatched p q t .bind →
    ¬ s.Held p → .unbindAll ∉ (s.port p).bindItems →
    let o := s.opened p q t (some .bind)
    (4 ≤ window.toNat → exec (.bind p q t window base size line offset) s = .next (o.replied p t .badArgument [])) ∧
    (∀ w : WindowNo, window.toNat = w.val →
      (∀ e, o.bindTo p w base.toNat size.toNat line.toNat offset.toNat false = .error e →
        exec (.bind p q t window base size line offset) s = .next (o.replied p t e [])) ∧
      (∀ n g u, o.bindTo p w base.toNat size.toNat line.toNat offset.toNat false = .ok (n, g, u) →
        exec (.bind p q t window base size line offset) s = .next (u.replied p t .ok [wordOf n.val, wordOf g])))) ∧
  (∀ (p : Port) (q : Seq) (t : CmdTag) (window : Word) (s : State), s.Dispatched p q t .unbind → ¬ s.Held p →
    .unbindAll ∉ (s.port p).bindItems →
    let o := s.opened p q t (some .unbind)
    (4 ≤ window.toNat → exec (.unbind p q t window) s = .next (o.replied p t .badArgument [])) ∧
    (∀ w : WindowNo, window.toNat = w.val → s.window p w = none →
      exec (.unbind p q t window) s = .next (o.replied p t .badState [])) ∧
    (∀ (w : WindowNo) b, window.toNat = w.val → s.window p w = some b →
      exec (.unbind p q t window) s = .next
        (((o.windowUnpin b.slot).modPort p (fun r => { r with windows := tset r.windows w none })).replied p t .ok
          [wordOf b.slot.val, wordOf b.generation]).settle))

/-- REBIND (R32, R10): an argument past 8 is BAD_ARGUMENT; else the BOUND windows of the line, or all for 8, are taken
from W0 to W3; one whose slot's generation is below its line's moves to the line's current slot and generation, its
pin with it, and the others stay; the reply carries the number moved. While an unbinding item of a restart waits, the
command acts as `BindItemsAreTaken` says. -/
def Obligations.RebindMovesStaleWindows : Prop :=
  (∀ (p : Port) (q : Seq) (t : CmdTag) (line : Word) (s : State), s.Dispatched p q t .rebind → ¬ s.Held p →
    .unbindAll ∉ (s.port p).bindItems →
    let o := s.opened p q t (some .rebind)
    (8 < line.toNat → exec (.rebind p q t line) s = .next (o.replied p t .badArgument [])) ∧
    (∀ l : Option LineNo, (line.toNat = match l with | none => 8 | some l => l.val) →
      let r := o.rebindAll p l [0, 1, 2, 3]
      exec (.rebind p q t line) s = .next (r.2.replied p t .ok [wordOf r.1]).settle)) ∧
  (∀ (p : Port) (l : Option LineNo) (w : WindowNo) (ws : List WindowNo) (s : State),
    s.rebindAll p l [] = (0, s) ∧
    (∀ b c, s.window p w = some b → (l = none ∨ l = some b.line) → (s.line b.line).current = some c →
      (s.slot b.slot).generation.getD 0 < (s.line b.line).generation →
      let u := ((s.modSlot c (fun r => { r with windowPins := r.windowPins + 1 })).windowUnpin b.slot).modPort p
        (fun r => { r with windows := tset r.windows w
                             (some { b with slot := c, generation := (s.line b.line).generation }) })
      s.rebindAll p l (w :: ws) = ((u.rebindAll p l ws).1 + 1, (u.rebindAll p l ws).2)) ∧
    (s.window p w = none → s.rebindAll p l (w :: ws) = s.rebindAll p l ws) ∧
    (∀ b, s.window p w = some b → (l ≠ none ∧ l ≠ some b.line) ∨
        (s.line b.line).generation ≤ (s.slot b.slot).generation.getD 0 →
      s.rebindAll p l (w :: ws) = s.rebindAll p l ws))

/-- TOUCH (R62): BAD_ARGUMENT for a count outside 1 to 8, an address not below 16 MiB or one in no BOUND window;
CHANNEL_DOWN while the channel is OFFLINE; else the pages from the address's data page on, up to the count, the window's
last page and the image's last page, in ascending order and each once, are queued ahead (`PagesQueuedAhead`), and the
reply carries the number queued. While an unbinding item of a restart waits, the command acts as `BindItemsAreTaken`
says. -/
def Obligations.TouchQueuesPages : Prop :=
  (∀ (p : Port) (q : Seq) (t : CmdTag) (addr count : Word) (s : State), s.Dispatched p q t .touch → ¬ s.Held p →
    .unbindAll ∉ (s.port p).bindItems →
    let o := s.opened p q t (some .touch)
    (count.toNat = 0 ∨ 8 < count.toNat ∨ 16777216 ≤ addr.toNat →
      exec (.touch p q t addr count) s = .next (o.replied p t .badArgument [])) ∧
    ((∀ w b, s.window p w = some b → addr.toNat < b.base ∨ b.base + b.size ≤ addr.toNat) →
      exec (.touch p q t addr count) s = .next (o.replied p t .badArgument [])) ∧
    (∀ w b, 1 ≤ count.toNat → count.toNat ≤ 8 → addr.toNat < 16777216 → s.windowAt p addr.toNat = some (w, b) →
      (s.offline = true → exec (.touch p q t addr count) s = .next (o.replied p t .channelDown [])) ∧
      (s.offline = false →
        let r := State.queueAhead b.slot (s.touchPages b addr.toNat count.toNat) o
        exec (.touch p q t addr count) s = .next (r.2.replied p t .ok [wordOf r.1]).settle))) ∧
  (∀ (p : Port) (a : Nat) (s : State),
    (∀ w b, s.windowAt p a = some (w, b) → s.window p w = some b ∧ b.base ≤ a ∧ a < b.base + b.size) ∧
    (s.windowAt p a = none ↔ ∀ w b, s.window p w = some b → a < b.base ∨ b.base + b.size ≤ a)) ∧
  (∀ (b : Binding) (a count : Nat) (s : State),
    let first := (b.offset + (a - b.base)) / 4096
    let past := min (first + count) (min ((b.offset + b.size - 1) / 4096 + 1) (s.dataPages b.slot))
    s.touchPages b a count = List.range' first (past - first) ∧
    (∀ i, i ∈ s.touchPages b a count ↔
      first ≤ i ∧ i < first + count ∧ i ≤ (b.offset + b.size - 1) / 4096 ∧ i < s.dataPages b.slot))

/-- Pages queued ahead, for prefetch and TOUCH (R61, R62, R53, R50): a resident or bad page is passed over; a page that
would leave fewer than 8 of the 16 places free ends the queueing; any other gets a PREFETCH entry at the tail of the
second FIFO, with a fill pin on its slot and the frame taken for it FILLING with the page and the slot. -/
def Obligations.PagesQueuedAhead : Prop :=
  ∀ (n : SlotNo) (i : Nat) (is : List Nat) (s : State),
    State.queueAhead n [] s = (0, s) ∧
    ((s.resident (s.dataPage n i)).isSome = true ∨ s.isBad (s.dataPage n i) = true →
      State.queueAhead n (i :: is) s = State.queueAhead n is s) ∧
    ((s.resident (s.dataPage n i)).isSome = false → s.isBad (s.dataPage n i) = false →
      (8 < s.fill.demand.length + s.fill.ahead.length + 1 → State.queueAhead n (i :: is) s = (0, s)) ∧
      (∀ f, s.fill.demand.length + s.fill.ahead.length + 1 ≤ 8 →
        ((s.slot n).state = .current ∨ (s.slot n).state = .retired) → s.victim = some f →
        let u : State :=
          { s with
            slots := tset s.slots n { s.slot n with fillPins := (s.slot n).fillPins + 1 },
            frames := tset s.frames f { state := .filling, page := some (s.dataPage n i), slot := some n, waiters := [],
                                        uses := 0, served := [], data := [] },
            age := s.age.filter (fun g => g != f),
            fill := { s.fill with ahead := s.fill.ahead ++
              [{ frame := f, page := s.dataPage n i, slot := n, cls := .prefetch, retry := false, port := none,
                 reading := false }] } }
        State.queueAhead n (i :: is) s = ((State.queueAhead n is u).1 + 1, (State.queueAhead n is u).2)))

/-- BOOT_WINDOWS_BIND and BOOT_WINDOWS_REPORT (R39, R40, R136, R63): an item whose count is the present one, on a
PRELOADING port, binds the configured windows in order with the boot flag set, logs each one skipped with its reason
(its line as absent where the configured one is above 7, log 24), and reports those bound under the count; any other
item binds nothing. A report with the present count on a PRELOADING port opens the preload; any other is disregarded.
The unbinding of a restarted port (R41, R31): every BOUND window, from W0 to W3, returns its window pin and becomes
UNBOUND. RESTART_UNBIND takes the first unbinding item, a boot-window item of before the restart standing before it or
not (R28); with none waiting it does nothing (log 3). A BIND, UNBIND, REBIND or TOUCH handed while one waits is
taken after it, in one step (R41, log 51): what it leaves is what it leaves once the unbinding items have been taken. -/
def Obligations.BindItemsAreTaken : Prop :=
  ((∀ (p : Port) (count : Nat) (rest : List BindItem) (s : State), s.live = true →
     (s.port p).bindItems = .boot count :: rest →
     let u := s.modPort p (fun r => { r with bindItems := rest })
     ((s.port p).sup.state = .preloading → (s.port p).sup.bootRequest = count →
       let r := u.bindBoot p [0, 1, 2, 3] (s.portCfg p).bootWindows
       exec (.bootWindowsBind p) s = .next (r.2.modPort p (fun x =>
         { x with reports := x.reports ++ [{ count := count, bound := r.1 }] }))) ∧
     ((s.port p).sup.state ≠ .preloading ∨ (s.port p).sup.bootRequest ≠ count →
       exec (.bootWindowsBind p) s = .next (u.modPort p (fun x =>
         { x with reports := x.reports ++ [{ count := count, bound := [] }] })))) ∧
   (∀ (p : Port) (w : WindowNo) (ws : List WindowNo) (b : BootWindow) (bs : List BootWindow) (s : State),
     s.bindBoot p ws [] = ([], s) ∧
     (∀ e, s.bindTo p w b.base b.size b.line b.offset true = .error e →
       s.bindBoot p (w :: ws) (b :: bs) =
         (s.log { kind := .bootWindowSkipped, port := some p,
                  line := if h : b.line < 8 then some ⟨b.line, h⟩ else none,
                  detail := packWord w.val e.code 0 0 }).bindBoot p ws bs) ∧
     (∀ n g u, s.bindTo p w b.base b.size b.line b.offset true = .ok (n, g, u) →
       s.bindBoot p (w :: ws) (b :: bs) = (w :: (u.bindBoot p ws bs).1, (u.bindBoot p ws bs).2))) ∧
   (∀ (p : Port) (x : BootReport) (rest : List BootReport) (s : State), s.live = true → (s.port p).reports = x :: rest →
     let u := s.modPort p (fun r => { r with reports := rest })
     ((s.port p).sup.state = .preloading → (s.port p).sup.bootRequest = x.count →
       exec (.bootWindowsReport p) s = .next (u.openPreload p).settle) ∧
     ((s.port p).sup.state ≠ .preloading ∨ (s.port p).sup.bootRequest ≠ x.count →
       exec (.bootWindowsReport p) s = .next u))) ∧
  ((∀ (p : Port) (s : State), s.live = true → .unbindAll ∈ (s.port p).bindItems →
     let u := (s.modPort p (fun r => { r with bindItems := r.bindItems.erase .unbindAll })).unbindAll p [0, 1, 2, 3]
     (∀ w, u.window p w = none) ∧ (∀ x, x ≠ p → u.port x = s.port x) ∧
     exec (.restartUnbind p) s = .next u.settle) ∧
   (∀ (p : Port) (w : WindowNo) (ws : List WindowNo) (s : State),
     s.unbindAll p [] = s ∧
     (s.window p w = none → s.unbindAll p (w :: ws) = s.unbindAll p ws) ∧
     (∀ b, s.window p w = some b →
       s.unbindAll p (w :: ws) =
         ((s.windowUnpin b.slot).modPort p (fun r => { r with windows := tset r.windows w none })).unbindAll p ws)) ∧
   (∀ (p : Port) (s : State), .unbindAll ∉ (s.port p).bindItems → exec (.restartUnbind p) s = .next s)) ∧
  ((∀ (p : Port) (s : State),
     s.takeUnbinds p =
       (s.modPort p (fun r => { r with bindItems := r.bindItems.filter (fun i => i != .unbindAll) })).unbindAll p
         [0, 1, 2, 3] ∧
     (∀ w, (s.takeUnbinds p).window p w = none) ∧ .unbindAll ∉ ((s.takeUnbinds p).port p).bindItems ∧
     (∀ x, x ≠ p → (s.takeUnbinds p).port x = s.port x)) ∧
   (∀ (c : Instr) (h : State.CmdHeader) (k : Command) (s : State), State.cmdHeader c = some h → h.command = some k →
     h.counted = true → s.Dispatched h.port h.seq h.tag k → State.windowCommand k = true →
     .unbindAll ∈ (s.port h.port).bindItems →
     ∃ t, exec c (s.takeUnbinds h.port) = .next t ∧ exec c s = .next t.settle))

/-! ### Reads and fills (spec/03, spec/04) -/

/-- Translation (R34, R35, R36, R2): no BOUND window of the port holds the address: NO_WINDOW; the request runs past
its window: OUT_OF_WINDOW; it runs past the length of the window's slot: OUT_OF_IMAGE; else the window's slot and the
image offset. Byte x of an image lies in page 32 + slot × pages per slot + 2 + x div 4096. -/
def Obligations.TranslationOfReads : Prop :=
  (∀ (p : Port) (a n : Nat) (s : State),
    ((∀ w b, s.window p w = some b → a < b.base ∨ b.base + b.size ≤ a) → s.translate p a n = .error .noWindow) ∧
    (∀ w b, s.window p w = some b → b.base ≤ a → a < b.base + b.size →
      (∀ x c, s.window p x = some c → c.base ≤ a → a < c.base + c.size → x = w) →
      let d := a - b.base
      let length := (s.slot b.slot).length.getD 0
      (b.size < d + n → s.translate p a n = .error .outOfWindow) ∧
      (d + n ≤ b.size → length < b.offset + d + n → s.translate p a n = .error .outOfImage) ∧
      (d + n ≤ b.size → b.offset + d + n ≤ length → s.translate p a n = .ok (b.slot, b.offset + d)))) ∧
  (∀ (n : SlotNo) (i : Nat) (s : State), s.cfg.slotExp ≠ 0 →
    s.slotBase n = 128 * 1024 + n.val * 2 ^ s.cfg.slotExp ∧
    s.dataPage n i = 32 + n.val * (2 ^ s.cfg.slotExp / 4096) + 2 + i)

/-- READ against a FREE tag (R68 to R71): the tag becomes OPEN; a HELD, PRELOADING or QUARANTINED port is answered
PORT_HELD, a bad form BAD_REQUEST, a refused translation its refusal, all READY at once and without a pin; else one
segment for each page, in LOOKUP, with a segment pin on the slot for each. An unbinding item of a restart that waits is
taken before the translation, which then ends with NO_WINDOW (R41, log 51). -/
def Obligations.ReadsAreAccepted : Prop :=
  ∀ (p : Port) (q : Seq) (t : ReadTag) (addr : BitVec 24) (count : Byte) (s : State), s.Takes p q →
    (s.readTag p t).state = .free →
    let a := addr.toNat
    let n := 4 * count.toNat
    let rec' : ReadTagRecord :=
      { ReadTagRecord.reset with state := .opened, addr := some addr,
                                 count := if 1 ≤ count.toNat ∧ count.toNat ≤ 64 then some count.toNat else none }
    let acceptedIn (y : State) (r : ReadTagRecord) (ready : Nat) := y.modPort p (fun x =>
      { x with link := { x.link with recvSeq := x.link.recvSeq + 1, owed := some (.ack q) },
               readTags := tset x.readTags t r, nextReady := x.nextReady + ready })
    let accepted := acceptedIn s
    let endedIn (y : State) (st : Status) :=
      acceptedIn y { rec' with state := .ready, status := some st, readyAt := some (s.port p).nextReady } 1
    let ended := endedIn s
    (s.Held p → exec (.read p q t addr count) s = .next (ended .portHeld)) ∧
    (¬ s.Held p → a % 4 ≠ 0 ∨ count.toNat = 0 ∨ 64 < count.toNat →
      exec (.read p q t addr count) s = .next (ended .badRequest)) ∧
    (¬ s.Held p → a % 4 = 0 → 1 ≤ count.toNat → count.toNat ≤ 64 → .unbindAll ∈ (s.port p).bindItems →
      exec (.read p q t addr count) s = .next (endedIn (s.takeUnbinds p) .noWindow).settle) ∧
    (¬ s.Held p → a % 4 = 0 → 1 ≤ count.toNat → count.toNat ≤ 64 → .unbindAll ∉ (s.port p).bindItems →
      (∀ e, s.translate p a n = .error e → exec (.read p q t addr count) s = .next (ended e)) ∧
      (∀ k x, s.translate p a n = .ok (k, x) → ((s.slot k).state = .current ∨ (s.slot k).state = .retired) →
        let pg := s.dataPage k (x / 4096)
        (x % 4096 + n ≤ 4096 →
          exec (.read p q t addr count) s = .next
            { accepted { rec' with openSegs := 1 } 0 with
              slots := tset s.slots k { s.slot k with segmentPins := (s.slot k).segmentPins + 1 },
              segments := s.segments ++
                [{ id := ⟨p, t, .lower⟩, slot := k, page := pg, first := x % 4096, length := n, place := .lookup,
                   outcome := none }] }) ∧
        (4096 < x % 4096 + n →
          exec (.read p q t addr count) s = .next
            { accepted { rec' with openSegs := 2 } 0 with
              slots := tset s.slots k { s.slot k with segmentPins := (s.slot k).segmentPins + 2 },
              segments := s.segments ++
                [{ id := ⟨p, t, .lower⟩, slot := k, page := pg, first := x % 4096, length := 4096 - x % 4096,
                   place := .lookup, outcome := none },
                 { id := ⟨p, t, .upper⟩, slot := k, page := pg + 1, first := 0, length := x % 4096 + n - 4096,
                   place := .lookup, outcome := none }] })))

/-- A lookup (R47 to R50, R72): hit, join, bad page, channel down, allocate, or no room, in this order of cases. An
allocation queues a DEMAND entry with a fill pin and a frame, and considers prefetch for the port (`PagesQueuedAhead`).
The frame is the lowest-numbered FREE one, else the one nearest the back of the age order whose use count is 0.
A page is resident in the frame, FILLING or VALID, that holds it, and bad when an entry of the bad-page list names it.
SEGMENT_LOOKUP presents a segment in LOOKUP, an upper one after its lower one's lookup has been taken. -/
def Obligations.LookupCasesInOrder : Prop :=
  (∀ (id : SegId) (g : Segment) (s : State), s.segment id = some g →
    let place (x : Place) := s.segments.map (fun y => if y.id = id then { y with place := x } else y)
    (∀ f, s.resident g.page = some f → (s.frame f).state = .valid →
      s.lookup id = { s with frames := tset s.frames f { s.frame f with uses := (s.frame f).uses + 1 },
                             age := f :: s.age.filter (fun x => x != f), segments := place .copying }) ∧
    (∀ f, s.resident g.page = some f → (s.frame f).state ≠ .valid →
      s.lookup id = { s with frames := tset s.frames f { s.frame f with waiters := (s.frame f).waiters ++ [id] },
                             segments := place .waiting }) ∧
    (s.resident g.page = none →
      (s.isBad g.page = true → s.lookup id = s.finishSegment id .checkFail) ∧
      (s.isBad g.page = false → s.offline = true → s.lookup id = s.finishSegment id .channelFault) ∧
      (s.isBad g.page = false → s.offline = false → 16 ≤ s.fill.demand.length + s.fill.ahead.length →
        s.lookup id = { s with segments := place .frameWait, frameWait := s.frameWait ++ [id] }) ∧
      (∀ f, s.isBad g.page = false → s.offline = false → s.fill.demand.length + s.fill.ahead.length < 16 →
        ((s.slot g.slot).state = .current ∨ (s.slot g.slot).state = .retired) → s.victim = some f →
        s.lookup id =
          (State.queueAhead g.slot
            (((List.range (s.portCfg id.port).prefetchDepth).map (fun k => s.dataIndex g.slot g.page + 1 + k)).filter
              (fun j => j < s.dataPages g.slot))
            { s with
              slots := tset s.slots g.slot { s.slot g.slot with fillPins := (s.slot g.slot).fillPins + 1 },
              frames := tset s.frames f { state := .filling, page := some g.page, slot := some g.slot,
                                          waiters := [id], uses := 0, served := [], data := [] },
              age := s.age.filter (fun x => x != f),
              fill := { s.fill with demand := s.fill.demand ++
                [{ frame := f, page := g.page, slot := g.slot, cls := .demand, retry := false, port := none,
                   reading := false }] },
              segments := place .waiting }).2))) ∧
  (∀ (s : State),
    (∀ f, s.victim = some f →
      ((s.frame f).state = .free ∧ ∀ x, x < f → (s.frame x).state ≠ .free) ∨
      ((∀ x, (s.frame x).state ≠ .free) ∧ (s.frame f).uses = 0 ∧
        ∃ newer older, s.age = newer ++ f :: older ∧ ∀ x ∈ older, (s.frame x).uses ≠ 0)) ∧
    (s.victim = none → (∀ x, (s.frame x).state ≠ .free) ∧ ∀ x ∈ s.age, (s.frame x).uses ≠ 0) ∧
    (∀ pg,
      (∀ f, s.resident pg = some f ↔ ((s.frame f).page = some pg ∧ (s.frame f).state ≠ .free) ∧
        ∀ x, x < f → (s.frame x).page = some pg → (s.frame x).state = .free) ∧
      (s.resident pg = none ↔ ∀ x, (s.frame x).page = some pg → (s.frame x).state = .free) ∧
      (s.isBad pg = true ↔ ∃ b ∈ s.fill.badPages, b.page = pg) ∧
      (s.isBad pg = false ↔ ∀ b ∈ s.fill.badPages, b.page ≠ pg))) ∧
  (∀ (p : Port) (t : ReadTag) (part : Part) (g : Segment) (s : State), s.live = true →
    s.segment ⟨p, t, part⟩ = some g → g.place = .lookup →
    (part = .lower ∨ ∀ l, s.segment ⟨p, t, .lower⟩ = some l → l.place ≠ .lookup) →
    exec (.segmentLookup p t part) s = .next (s.lookup ⟨p, t, part⟩).settle)

/-- A segment finishes (R72, R77, R80): it is DONE with its outcome and its tag's segments open fall by one. At 0 an
OPEN tag becomes READY with the outcome of the lower-addressed segment that did not finish with OK, else OK; a DISCARD
request ends without a reply: its entries leave with one segment unpin each and its tag becomes FREE. -/
def Obligations.SegmentsFinish : Prop :=
  (∀ (id : SegId) (o : Status) (s : State),
    let u := ({ s with segments := s.segments.map (fun g =>
        if g.id = id then { g with place := .done, outcome := some o } else g) } : State).modPort id.port (fun r =>
      { r with readTags := tset r.readTags id.tag
                 { tget r.readTags id.tag with openSegs := (tget r.readTags id.tag).openSegs - 1 } })
    let outcome (x : Part) := ((u.segment ⟨id.port, id.tag, x⟩).bind (·.outcome)).getD .ok
    (1 < (s.readTag id.port id.tag).openSegs → s.finishSegment id o = u) ∧
    ((s.readTag id.port id.tag).openSegs ≤ 1 → (s.readTag id.port id.tag).state = .opened →
      s.finishSegment id o = u.modPort id.port (fun r =>
        { r with readTags := tset r.readTags id.tag
                   { tget r.readTags id.tag with
                     state := .ready,
                     status := some (if outcome .lower = .ok then outcome .upper else outcome .lower),
                     readyAt := some r.nextReady },
                 nextReady := r.nextReady + 1 })) ∧
    ((s.readTag id.port id.tag).openSegs ≤ 1 → (s.readTag id.port id.tag).state = .discard →
      s.finishSegment id o = u.dropRequest id.port id.tag)) ∧
  (∀ (p : Port) (t : ReadTag) (s : State),
    s.dropRequest p t =
      (State.unpinSegments (s.segments.filter (fun g => g.id.port == p && g.id.tag == t))
        { s with segments := s.segments.filter (fun g => !(g.id.port == p && g.id.tag == t)) }).modPort p (fun r =>
          { r with readTags := tset r.readTags t ReadTagRecord.reset })) ∧
  (∀ (g : Segment) (gs : List Segment) (s : State), State.unpinSegments [] s = s ∧
    State.unpinSegments (g :: gs) s = State.unpinSegments gs (s.segmentUnpin g.slot))

/-- COPY_COMPLETE of a COPYING segment (R75, R48): its bytes, from its first byte on in the VALID frame of its page,
are placed in its tag's reply buffer, a lower segment's before an upper one's; the frame's use count falls by one; and
the segment finishes with OK (`SegmentsFinish`). The waiters that a verified fill serves complete in waiter list order,
so that their tags become READY in that order (R56, R160): a completion ahead of an earlier one of them does not occur
and changes nothing (log 50). -/
def Obligations.CopiesComplete : Prop :=
  ∀ (p : Port) (t : ReadTag) (part : Part) (g : Segment) (f : FrameNo) (s : State), s.live = true →
    s.segment ⟨p, t, part⟩ = some g → g.place = .copying → s.resident g.page = some f →
    (⟨p, t, part⟩ ∉ (s.frame f).served ∨ (s.frame f).served.head? = some ⟨p, t, part⟩ →
      let bytes := ((s.frame f).data.drop g.first).take g.length
      let u := ({ s with frames := tset s.frames f { s.frame f with
          uses := (s.frame f).uses - 1, served := (s.frame f).served.filter (fun x => x != ⟨p, t, part⟩) } }
          : State).modPort p (fun r =>
        { r with readTags := tset r.readTags t (match part with
          | .lower => { tget r.readTags t with lower := bytes }
          | .upper => { tget r.readTags t with upper := bytes }) })
      exec (.copyComplete p t part) s = .next (u.finishSegment ⟨p, t, part⟩ .ok).settle) ∧
    (∀ first rest, (s.frame f).served = first :: rest → first ≠ ⟨p, t, part⟩ → ⟨p, t, part⟩ ∈ rest →
      exec (.copyComplete p t part) s = .next s)

/-- The end of a fill's page read (R54, R56, R57, R58, R53, R64): the computed page check equals the check list's
entry: the frame is VALID, in front of the age order, and its waiters copy, in waiter list order (log 50); it differs
at attempt 2: the page is recorded bad (or BAD_LIST_FULL logged at 32 entries), the waiters end with CHECK_FAIL and
PAGE_BAD is logged; at attempt 1 a PREFETCH entry without waiters is dropped, and any other goes back to the head of
the first FIFO as attempt 2, a PREFETCH one as DEMAND; both log CHECK_RETRY, with the class the entry then has (log
39). An entry that ends leaves its FIFO with its fill unpin, is counted for its preload, and its room is handed out
(`PreloadsOpenAndClose` says how). -/
def Obligations.FillsEndByTheirCheck : Prop :=
  (∀ (e : FillEntry) (d : List Byte) (s : State),
    let c := crc32 d
    let entry := (s.slot e.slot).checkList.bind (fun l => l[e.page - (s.slotPage e.slot + 2)]?)
    let f := s.frame e.frame
    (entry = some c →
      s.fillEnd e d =
        (({ s with
            frames := tset s.frames e.frame { f with state := .valid, waiters := [], served := f.waiters, data := d,
                                                     uses := f.uses + f.waiters.length },
            age := e.frame :: s.age.filter (fun x => x != e.frame),
            segments := s.segments.map (fun g => if g.id ∈ f.waiters then { g with place := .copying } else g) }
            : State).removeFill e).handOut) ∧
    (entry ≠ some c → e.retry = true →
      s.fillEnd e d =
        ((((State.finishAll .checkFail f.waiters
          (if s.fill.badPages.length < 32 then
            { s with fill := { s.fill with badPages := s.fill.badPages ++
              [{ page := e.page, slot := e.slot, check := c }] } }
          else s.log { kind := .badListFull, slot := some e.slot, page := some e.page })).modFrame e.frame
            (fun _ => Frame.reset)).removeFill e).log
          { kind := .pageBad, slot := some e.slot, page := some e.page, detail := c }).handOut) ∧
    (entry ≠ some c → e.retry = false → e.cls = .prefetch → f.waiters = [] →
      s.fillEnd e d =
        (((s.modFrame e.frame (fun _ => Frame.reset)).removeFill e).log
          { kind := .checkRetry, slot := some e.slot, page := some e.page, code0 := 2, code1 := 1,
            detail := c }).handOut) ∧
    (entry ≠ some c → e.retry = false → e.cls ≠ .prefetch ∨ f.waiters ≠ [] →
      let cls := if e.cls = .prefetch then FillClass.demand else e.cls
      s.fillEnd e d =
        ({ s with fill := { s.fill with
            demand := { e with cls := cls, retry := true, reading := false } ::
              s.fill.demand.filter (fun x => x.frame != e.frame),
            ahead := s.fill.ahead.filter (fun x => x.frame != e.frame) } } : State).log
          { kind := .checkRetry, slot := some e.slot, page := some e.page, code0 := byteOf cls.code, detail := c })) ∧
  (∀ (e : FillEntry) (s : State),
    let u : State := { s with fill := { s.fill with demand := s.fill.demand.filter (fun x => x.frame != e.frame),
                                                    ahead := s.fill.ahead.filter (fun x => x.frame != e.frame) } }
    s.removeFill e = State.fillUnpin e.slot (match e.port with
      | none => u
      | some p => u.modPort p (fun r =>
          { r with preload := r.preload.map (fun l => { l with entries := l.entries - 1 }) })))

/-- FILL_READ_END (R54, R89, R96): the channel's count of timeouts returns to 0 and the fill ends by its check
(`FillsEndByTheirCheck`). Outside a suspension the channel is IDLE again; within one the read is counted, and after 4
reads, or with no class 1 request waiting, the held erase runs again with its run since resume at 0, else the waiting
class 1 request is granted. That the fill engine reacts to the read first, and the class 1 request that waits is the one
it then presents, a retried entry or one of the room handed out among them, is the model's reading (log 11, DEDUCED). -/
def Obligations.FillReadsEnd : Prop :=
  ∀ (o : Operation) (f : FrameNo) (e : FillEntry) (errors : ReadErrors) (s : State), s.live = true →
    s.chan.op = some o → o.work = .fill f → s.fillOf f = some e →
    let d := withErrors (Memory.page s.flash (o.addr / 4096)) errors
    (s.chan.state ≠ .eraseSuspended →
      exec (.fillReadEnd errors) s = .next (State.fillEnd e d
          { s with chan := { s.chan with op := none, timeouts := 0,
                                         state := if s.chan.state = .busy then .idle else s.chan.state } }).settle) ∧
    (∀ h x, s.chan.state = .eraseSuspended → s.chan.suspended = some h → h.erase = some x →
      let z := State.fillEnd e d { s with chan := { s.chan with op := none, timeouts := 0 } }
      let w := { z with chan := { s.chan with
        op := none, timeouts := 0, suspended := some { h with erase := some { x with reads := x.reads + 1 } } } }
      (4 ≤ x.reads + 1 ∨ w.class1 = none →
        exec (.fillReadEnd errors) s = .next (State.settle
          { w with chan := { w.chan with
            state := .busy, suspended := none,
            op := some { h with erase := some { x with reads := x.reads + 1, phase := .running, run := 0 } } } })) ∧
      (∀ y, x.reads + 1 < 4 → w.class1 = some y →
        let mark (e : FillEntry) := if e.frame = y.frame then { e with reading := true } else e
        exec (.fillReadEnd errors) s = .next (State.settle
          { w with
            fill := { w.fill with demand := w.fill.demand.map mark, ahead := w.fill.ahead.map mark },
            chan := { w.chan with
              op := some { work := .fill y.frame, slot := some y.slot, addr := 4096 * y.page, data := [], left := 1000,
                           erase := none } } })))

/-- A fill that fails through the channel (R59, R64): its waiters end with CHANNEL_FAULT, its frame is FREE and its
entry leaves with its fill unpin, its room handed out; the page is not recorded. OFFLINE_FILL_FAIL fails every entry
so, the first FIFO before the second, and the room is handed out (R84); where the channel returns first, it is taken
with the return (`ChannelResets`, log 44). RESTART_END_READS ends the
reads of a restarted port (R82, R80): OPEN tags become DISCARD; READY tags become FREE, and their segment entries
leave, with one segment unpin each, tag by tag (`endReads`; `SegmentsFinish` says what dropping a request does); every
other segment and every other part stays. PRELOAD_CANCEL closes its preload without a report and clears the port of
its PRELOAD entries (R64). Each of the three with nothing to take changes nothing (log 3). -/
def Obligations.FillsFailAndPreloadsCancel : Prop :=
  (∀ (e : FillEntry) (s : State),
    s.fillFailed e =
      (((State.finishAll .channelFault (s.frame e.frame).waiters s).modFrame e.frame (fun _ => Frame.reset)).removeFill
        e).handOut) ∧
  (∀ (s : State), s.live = true → s.fill.toldOffline = true →
    exec .offlineFillFail s = .next
      (((s.fill.demand ++ s.fill.ahead).foldl (fun x e => x.fillFailed e) s).modFill (fun q =>
        { q with toldOffline := false })).handOut.settle) ∧
  (∀ (p : Port) (s : State), s.live = true → (s.port p).endReads ≠ 0 →
    let u := State.endReads p (s.modPort p (fun r => { r with endReads := r.endReads - 1 }))
    exec (.restartEndReads p) s = .next u.settle ∧
      (∀ x, u.readTag p x =
        match (s.readTag p x).state with
        | .opened => { s.readTag p x with state := .discard }
        | .ready => ReadTagRecord.reset
        | .free => s.readTag p x
        | .discard => s.readTag p x) ∧
      u.port p = { s.port p with endReads := (s.port p).endReads - 1, readTags := (u.port p).readTags } ∧
      (∀ x, x ≠ p → u.port x = s.port x) ∧
      u.segments = s.segments.filter (fun g => !(g.id.port == p && (s.readTag p g.id.tag).state == .ready)) ∧
      u = { s with ports := u.ports, slots := u.slots, segments := u.segments, frames := u.frames, age := u.age,
                   fill := u.fill }) ∧
  (∀ (p : Port) (s : State),
    s.endReads p = ([0, 1, 2, 3, 4, 5, 6, 7] : List ReadTag).foldl (fun x t =>
      match (x.readTag p t).state with
      | .opened => x.modPort p (fun r =>
          { r with readTags := tset r.readTags t { tget r.readTags t with state := .discard } })
      | .ready => x.dropRequest p t
      | .free => x
      | .discard => x) s) ∧
  (∀ (p : Port) (s : State), s.live = true → (s.port p).cancelLoads ≠ 0 →
    let clear := fun (e : FillEntry) => if e.port = some p then { e with port := none } else e
    exec (.preloadCancel p) s = .next
      (({ s with fill := { s.fill with demand := s.fill.demand.map clear, ahead := s.fill.ahead.map clear } }
        : State).modPort p (fun r => { r with preload := none, cancelLoads := r.cancelLoads - 1 }))) ∧
  (∀ (p : Port) (s : State),
    (s.fill.toldOffline = false → exec .offlineFillFail s = .next s) ∧
    ((s.port p).endReads = 0 → exec (.restartEndReads p) s = .next s) ∧
    ((s.port p).cancelLoads = 0 → exec (.preloadCancel p) s = .next s))

/-- The opening of a preload (R63, R64): a cancellation still to be taken is taken first (log 23), and an earlier
record still open is closed as a cancelled one (log 57); complete at once when the preload count is 0, when W0 is not
BOUND with its boot flag, or when no page is left to cover; else the record covers the first N data pages from the one
that holds W0's image offset, no further than W0's last page and the image's last page, and takes pages by the
hand-out of room (log 30). The hand-out (R55, R73): while a place of the fill queue is free the head of the frame-wait
queue is presented again; only when that queue is empty and a place still free do the preloads take a page each in
turn, from the port after the one last served; in the end every preload past its last page with no entry left is
closed and reported. Nothing stays behind that had room: a segment waits, and a preload has a page left on a channel
that is not OFFLINE, only while the fill queue is full. A turn passes over resident and listed pages, every page while
the channel is OFFLINE, and a page whose fill pin is refused (log 43). -/
def Obligations.PreloadsOpenAndClose : Prop :=
  (∀ (p : Port) (s : State), (s.port p).cancelLoads = 0 → (s.port p).preload = none →
    let done := s.modPort p (fun r => { r with preload := none, completions := r.completions + 1 })
    ((s.portCfg p).preloadCount = 0 ∨ (∀ b, s.window p 0 = some b → b.boot = false) → s.openPreload p = done) ∧
    (∀ b, (s.portCfg p).preloadCount ≠ 0 → s.window p 0 = some b → b.boot = true →
      let first := b.offset / 4096
      let last := min (first + (s.portCfg p).preloadCount)
        (min ((b.offset + b.size - 1) / 4096 + 1) (s.dataPages b.slot))
      (last ≤ first → s.openPreload p = done) ∧
      (first < last → s.openPreload p = (s.modPort p (fun r =>
        { r with preload := some { slot := b.slot, cursor := first, last := last - 1, entries := 0 } })).handOut))) ∧
  (∀ (p : Port) (s : State), (s.port p).cancelLoads ≠ 0 ∨ (s.port p).preload ≠ none →
    let clear := fun (e : FillEntry) => if e.port = some p then { e with port := none } else e
    s.openPreload p = State.openPreload p
      (({ s with fill := { s.fill with demand := s.fill.demand.map clear, ahead := s.fill.ahead.map clear } }
        : State).modPort p (fun r => { r with preload := none, cancelLoads := 0 }))) ∧
  (∀ s : State, s.handOut = State.allPorts.foldl (fun x p => x.closePreload p)
    (State.preloadRounds 32 (State.represent s.frameWait.length s))) ∧
  (∀ (k : Nat) (s : State),
    let full := 16 ≤ s.fill.demand.length + s.fill.ahead.length
    (s.frameWait = [] ∨ full → State.represent k s = s) ∧
    (∀ id rest, s.frameWait = id :: rest → ¬ full →
      State.represent (k + 1) s = State.represent k (State.lookup id
        { s with frameWait := rest,
                 segments := s.segments.map (fun g => if g.id = id then { g with place := .lookup } else g) }))) ∧
  (∀ (k : Nat) (s : State),
    let full := 16 ≤ s.fill.demand.length + s.fill.ahead.length
    let left (p : Port) : Bool := (s.port p).preload.elim false (fun l => decide (l.cursor ≤ l.last))
    let last := s.fill.lastServed
    let turn := [last + 1, last + 2, last + 3, last].find? left
    (s.offline = true ∨ (s.frameWait = [] ∧ ¬ full) →
      (∀ p l, turn = some p → (s.port p).preload = some l →
        State.preloadRounds (k + 1) s = State.preloadRounds k (State.preloadTurn (l.last + 1 - l.cursor) p s)) ∧
      (turn = none → State.preloadRounds (k + 1) s = s)) ∧
    (s.offline = false → s.frameWait ≠ [] ∨ full → State.preloadRounds k s = s)) ∧
  (∀ s : State,
    let t := s.handOut
    let full := 16 ≤ t.fill.demand.length + t.fill.ahead.length
    (t.frameWait ≠ [] → full) ∧
    (∀ p l, (t.port p).preload = some l → l.cursor ≤ l.last → t.offline = false ∧ full)) ∧
  (∀ (p : Port) (l : Preload) (s : State), (s.port p).preload = some l →
    (l.last < l.cursor → l.entries = 0 →
      s.closePreload p = s.modPort p (fun r => { r with preload := none, completions := r.completions + 1 })) ∧
    (l.cursor ≤ l.last ∨ l.entries ≠ 0 → s.closePreload p = s)) ∧
  (∀ (p : Port) (l : Preload) (k : Nat) (s : State), (s.port p).preload = some l → l.cursor ≤ l.last →
    let pg := s.dataPage l.slot l.cursor
    let u := s.modPort p (fun r => { r with preload := some { l with cursor := l.cursor + 1 } })
    ((s.resident pg).isSome = true ∨ s.isBad pg = true ∨ s.offline = true ∨
        ((s.slot l.slot).state ≠ .current ∧ (s.slot l.slot).state ≠ .retired) →
      State.preloadTurn (k + 1) p s = State.preloadTurn k p u) ∧
    (∀ f, (s.resident pg).isSome = false → s.isBad pg = false → s.offline = false →
      ((s.slot l.slot).state = .current ∨ (s.slot l.slot).state = .retired) → s.victim = some f →
      State.preloadTurn (k + 1) p s =
        ({ s with
          slots := tset s.slots l.slot { s.slot l.slot with fillPins := (s.slot l.slot).fillPins + 1 },
          frames := tset s.frames f { state := .filling, page := some pg, slot := some l.slot, waiters := [], uses := 0,
                                      served := [], data := [] },
          age := s.age.filter (fun g => g != f),
          fill := { s.fill with lastServed := p, demand := s.fill.demand ++
            [{ frame := f, page := pg, slot := l.slot, cls := .preload, retry := false, port := some p,
               reading := false }] } } : State).modPort p (fun r =>
            { r with preload := some { l with cursor := l.cursor + 1, entries := l.entries + 1 } })))


/-! ### Update commands (spec/06) -/

/-- LOCK_UPDATE of a port that is not held (R114, R115, R12, R5, R24): BAD_ARGUMENT for the line, the name or the
length; LOCKED; PENDING_EXISTS; VERSION_OLD; CHANNEL_DOWN; NO_SLOT; else the lowest-numbered EMPTY slot is STAGING
with the line, name, version and length, the line's lock record names the port and the slot with the idle timer
stopped, and the working record is in phase MARKING with every unit unmarked and the stage mark ready. -/
def Obligations.LockUpdateChecksInOrder : Prop :=
  ∀ (p : Port) (q : Seq) (t : CmdTag) (line name0 name1 version length : Word) (s : State),
    s.Dispatched p q t .lockUpdate → ¬ s.Held p →
    let o := s.opened p q t (some .lockUpdate)
    let answered (st : Status) :=
      exec (.lockUpdate p q t line name0 name1 version length) s = .next (o.replied p t st [])
    let named (x : Name) := 1 ≤ x.length ∧ x.length ≤ 8 ∧ (∀ b ∈ x, 0x20 ≤ b.toNat ∧ b.toNat ≤ 0x7E) ∧
      wordBytes name0 ++ wordBytes name1 = x ++ List.replicate (8 - x.length) 0
    let sized := 256 ∣ length.toNat ∧ 256 ≤ length.toNat ∧ length.toNat ≤ s.largestImage
    (8 ≤ line.toNat ∨ (∀ x, ¬ named x) ∨ ¬ sized → answered .badArgument) ∧
    (∀ (l : LineNo) (x : Name), line.toNat = l.val → named x → sized →
      let locked := (s.line l).lock ≠ none ∨ ∃ m k, (s.line m).lock = some k ∧ k.holder = p
      let old := ∃ v, (s.line l).version = some v ∧ version.toNat ≤ v.toNat
      (locked → answered .locked) ∧
      (¬ locked → (s.line l).pending ≠ none → answered .pendingExists) ∧
      (¬ locked → (s.line l).pending = none → old → answered .versionOld) ∧
      (¬ locked → (s.line l).pending = none → ¬ old → s.offline = true → answered .channelDown) ∧
      (¬ locked → (s.line l).pending = none → ¬ old → s.offline = false →
        ((∀ n : SlotNo, n.val < s.cfg.slotCount → (s.slot n).state ≠ .empty) → answered .noSlot) ∧
        (∀ n : SlotNo, n.val < s.cfg.slotCount → (s.slot n).state = .empty →
          (∀ m, m < n → (s.slot m).state ≠ .empty) →
          exec (.lockUpdate p q t line name0 name1 version length) s = .next (State.settle
              { o with
                slots := tset s.slots n
                  { state := .staging, line := some l, name := some x, version := some version,
                    length := some length.toNat, generation := none, windowPins := 0, segmentPins := 0, fillPins := 0,
                    checkList := none, reclaimHold := false },
                lines := tset s.lines l { s.line l with lock := some { holder := p, slot := n, idle := none } },
                upd := { s.upd with
                  work := tset s.upd.work l (some
                    { phase := .marking, staged := List.replicate (length.toNat / 256) false, sealStep := none,
                      cursor := none, checks := [], image := 0, wanted := 0, listNext := 0, lossPending := false,
                      command := some (p, t), commit := none }),
                  ready := s.upd.ready ++ [.lockStep l] } }))))

/-- STAGE and SEAL of a port that is not held (R116, R117, R119, R120, R121). STAGE: NO_LOCK, BUSY in MARKING, BAD_STATE
from SEALING on, BAD_ARGUMENT for the offset, ALREADY_STAGED, BUSY with 8 entries in the queue or 4 of the lock; else
the unit is marked, its entry stands at the tail of the program queue, and the idle timer starts again. SEAL: NO_LOCK,
BUSY, BAD_STATE in SEALED, INCOMPLETE, with the idle timer started again, while a unit is unmarked; else the phase is
SEALING, the idle timer stopped, and the step DRAIN, or VERIFY at page 0 at once with no entry of the lock left. -/
def Obligations.StagesAndSealsInOrder : Prop :=
  (∀ (p : Port) (q : Seq) (t : CmdTag) (offset : Word) (data : List Word) (s : State), s.Dispatched p q t .stage →
    ¬ s.Held p → data.length = 64 →
    let o := s.opened p q t (some .stage)
    let answered (st : Status) := exec (.stage p q t offset data) s = .next (o.replied p t st [])
    ((∀ l k, (s.line l).lock = some k → k.holder ≠ p) → answered .noLock) ∧
    (∀ l k w, s.lockOf p = some l → (s.line l).lock = some k → s.work l = some w →
      let fits := 256 ∣ offset.toNat ∧ offset.toNat < (s.slot k.slot).length.getD 0
      let unit := offset.toNat / 256
      let mine := (s.upd.queue.filter (fun e => e.slot == k.slot)).length
      (w.phase = .marking → answered .busy) ∧
      (w.phase = .sealing ∨ w.phase = .sealed ∨ w.phase = .committing → answered .badState) ∧
      (w.phase = .opened → ¬ fits → answered .badArgument) ∧
      (w.phase = .opened → fits → w.staged[unit]? = some true → answered .alreadyStaged) ∧
      (w.phase = .opened → fits → w.staged[unit]? ≠ some true → 8 ≤ s.upd.queue.length ∨ 4 ≤ mine → answered .busy) ∧
      (w.phase = .opened → fits → w.staged[unit]? ≠ some true → s.upd.queue.length < 8 → mine < 4 →
        exec (.stage p q t offset data) s = .next (State.settle
            { o with
              lines := tset s.lines l
                { s.line l with lock := some { k with idle := some (s.cfg.idleTimeout * 1000000) } },
              upd := { s.upd with
                work := tset s.upd.work l (some { w with staged := w.staged.set unit true }),
                queue := s.upd.queue ++
                  [{ line := l, slot := k.slot, kind := .data, unit := unit, data := wordsBytes data,
                     owner := some (p, t), programming := false }],
                ready := s.upd.ready ++ [.entry k.slot .data unit] } })))) ∧
  (∀ (p : Port) (q : Seq) (t : CmdTag) (check : Word) (s : State), s.Dispatched p q t .seal → ¬ s.Held p →
    let o := s.opened p q t (some .seal)
    let answered (st : Status) := exec (.seal p q t check) s = .next (o.replied p t st [])
    ((∀ l k, (s.line l).lock = some k → k.holder ≠ p) → answered .noLock) ∧
    (∀ l k w, s.lockOf p = some l → (s.line l).lock = some k → s.work l = some w →
      let mine := (s.upd.queue.filter (fun e => e.slot == k.slot)).length
      let sealing : LockWork := { w with phase := .sealing, wanted := check, command := some (p, t) }
      let stopped := tset s.lines l { s.line l with lock := some { k with idle := none } }
      (w.phase = .marking ∨ w.phase = .sealing ∨ w.phase = .committing → answered .busy) ∧
      (w.phase = .sealed → answered .badState) ∧
      (w.phase = .opened → false ∈ w.staged →
        exec (.seal p q t check) s = .next (({ o with lines := tset s.lines l { s.line l with
          lock := some { k with idle := some (s.cfg.idleTimeout * 1000000) } } } : State).replied p t .incomplete [])) ∧
      (w.phase = .opened → false ∉ w.staged → 0 < mine →
        exec (.seal p q t check) s = .next (State.settle
          { o with lines := stopped,
                   upd := { s.upd with
                     work := tset s.upd.work l (some { sealing with sealStep := some .drain }) } })) ∧
      (w.phase = .opened → false ∉ w.staged → mine = 0 →
        exec (.seal p q t check) s = .next (State.settle
          { o with lines := stopped,
                   upd := { s.upd with
                     work := tset s.upd.work l (some { sealing with
                       sealStep := some .verify, cursor := some 0, checks := [], image := imageStart }),
                     ready := s.upd.ready ++ [.lockStep l] } })))) ∧
  (∀ (p : Port) (l : LineNo) (s : State), s.lockOf p = some l → ∃ k, (s.line l).lock = some k ∧ k.holder = p)

/-- COMMIT and ABORT_UPDATE of a port that is not held (R124, R128, R14, R18). A refused one changes nothing; an
accepted COMMIT enters COMMITTING, or creates a commit sequence for a holderless pending slot, with the commit mark
ready; an accepted ABORT_UPDATE sends the STAGING slot, or the line's pending one, to DIRTY, ends the lock, logs
UPDATE_ABORTED with the reason ABORT and the port (log 36), and is answered OK with the slot. -/
def Obligations.CommitsAndAbortsInOrder : Prop :=
  (∀ (p : Port) (q : Seq) (t : CmdTag) (line : Word) (s : State), s.Dispatched p q t .commit → ¬ s.Held p →
    let o := s.opened p q t (some .commit)
    let answered (st : Status) := exec (.commit p q t line) s = .next (o.replied p t st [])
    let run : CommitRun := { port := p, tag := t, retiring := false, generation := 0, oldSlot := none }
    (8 ≤ line.toNat → answered .badArgument) ∧
    (∀ l : LineNo, line.toNat = l.val →
      let gated (accepted : State) :=
        ((s.line l).generation = 65535 → answered .genExhausted) ∧
        ((s.line l).generation ≠ 65535 → s.offline = true → answered .channelDown) ∧
        ((s.line l).generation ≠ 65535 → s.offline = false →
          exec (.commit p q t line) s = .next accepted.settle)
      (∀ k, (s.line l).lock = some k → k.holder ≠ p → answered .noLock) ∧
      (∀ k w, (s.line l).lock = some k → k.holder = p → s.work l = some w →
        (w.phase = .marking ∨ w.phase = .sealing ∨ w.phase = .committing → answered .busy) ∧
        (w.phase = .opened → answered .noPending) ∧
        (w.phase = .sealed → gated
          { o with lines := tset s.lines l { s.line l with lock := some { k with idle := none } },
                   upd := { s.upd with
                     work := tset s.upd.work l (some { w with phase := .committing, commit := some run }),
                     ready := s.upd.ready ++ [.lockStep l] } })) ∧
      ((s.line l).lock = none →
        (s.sequence l ≠ none → answered .busy) ∧
        (s.sequence l = none → (s.line l).pending = none → answered .noPending) ∧
        (s.sequence l = none → (s.line l).pending ≠ none → gated
          { o with upd := { s.upd with sequences := tset s.upd.sequences l (some run),
                                       ready := s.upd.ready ++ [.commitStep l] } })))) ∧
  (∀ (p : Port) (q : Seq) (t : CmdTag) (line : Word) (s : State), s.Dispatched p q t .abortUpdate → ¬ s.Held p →
    let o := s.opened p q t (some .abortUpdate)
    let answered (st : Status) := exec (.abortUpdate p q t line) s = .next (o.replied p t st [])
    (8 ≤ line.toNat → answered .badArgument) ∧
    (∀ l : LineNo, line.toNat = l.val →
      let aborted (n : SlotNo) :=
        let x := if (s.slot n).state = .staging then o.toDirty n
          else ({ o with lines := tset s.lines l { s.line l with pending := none } } : State).toDirty n
        exec (.abortUpdate p q t line) s = .next (((x.endLock l).log
            { kind := .updateAborted, port := some p, slot := some n, line := some l,
              detail := packWord 2 p.val 0 0 }).answer p t .ok [wordOf n.val]).settle
      (∀ k, (s.line l).lock = some k → k.holder ≠ p → answered .noLock) ∧
      (∀ k w, (s.line l).lock = some k → k.holder = p → s.work l = some w →
        (w.phase = .marking ∨ w.phase = .sealing ∨ w.phase = .committing → answered .busy) ∧
        (w.phase = .opened ∨ w.phase = .sealed → aborted k.slot)) ∧
      ((s.line l).lock = none →
        (s.sequence l ≠ none → answered .busy) ∧
        (s.sequence l = none → (s.line l).pending = none → answered .noPending) ∧
        (∀ n, s.sequence l = none → (s.line l).pending = some n → aborted n))))

/-- The end of a lock and its loss (R129, R130, R119, R14, R15, R25). The lock record and the working record are removed
and the QUEUED entries of its slot discarded, each STAGE answered NO_LOCK, and its request reported LOST withdrawn (log
58); at a loss a STAGING slot goes to DIRTY, or to BAD after a device failure, any other stays, LOCK_LOST is logged, and
the holder is sent UPDATE_LOST but for the reason RESET. IDLE_TIMEOUT loses a lock whose idle timer runs, with the
reason IDLE, when the time left has passed (log 2), and does nothing with no timer running (log 3); a restart loses the
lock the port holds when the restart is taken, one taken since too (log 55), with the reason RESET, but waits with a
SEAL or a COMMIT that runs, and answers a LOCK_UPDATE in MARKING NO_LOCK at once (logs 27 and 60). OFFLINE_UPDATE_LOSS
(R131, R103, log 13): once told of the entry to OFFLINE, and not before (log 3), the update writer ends the waiting
request reported LOST as its own step states, and then, line by line from L0 to L7 (log 45), every lock is lost with the
reason CHANNEL and every commit sequence ends (where the channel returns first, with the return, log 52): a LOCK_UPDATE
in MARKING and a SEAL are answered PROGRAM_FAIL; a COMMIT before its switch is answered PROGRAM_FAIL with the slot
DIRTY, one past it OK. -/
def Obligations.LocksAreLost : Prop :=
  ((∀ (l : LineNo) (s : State),
     ((s.line l).lock = none → s.endLock l = s) ∧
     (∀ k, (s.line l).lock = some k →
       s.endLock l =
         (s.upd.queue.filter (fun e => e.slot == k.slot && !e.programming)).foldl
           (fun x e => match e.owner with
             | none => x
             | some (p, t) => x.answer p t .noLock [])
           { s with
             lines := tset s.lines l { s.line l with lock := none },
             upd := { s.upd with
               work := tset s.upd.work l none,
               queue := s.upd.queue.filter (fun e => !(e.slot == k.slot && !e.programming)),
               ready := s.upd.ready.filter (fun i => match i with
                 | .entry n _ _ => n != k.slot
                 | .lockStep m => m != l
                 | .commitStep _ => true),
               listing := s.upd.listing.filter (fun m => m != l),
               lost := s.upd.lost.filter (fun i => match i with
                 | .entry n _ _ => n != k.slot
                 | .lockStep m => m != l
                 | .commitStep _ => true) } })) ∧
   (∀ (l : LineNo) (k : Lock) (why : LossReason) (device : Bool) (s : State), (s.line l).lock = some k →
     let a := if (s.slot k.slot).state = .staging then
         (if device then
           ({ s with slots := tset s.slots k.slot { s.slot k.slot with
                state := .bad, line := none, name := none, version := none, length := none, generation := none,
                checkList := none } } : State)
          else s.toDirty k.slot)
       else s
     let b := (a.endLock l).log
       { kind := .lockLost, port := some k.holder, slot := some k.slot, line := some l, detail := wordOf why.code }
     (why = .reset → s.loseLock l why device = b) ∧
     (why ≠ .reset → s.loseLock l why device =
       b.hand k.holder { kind := .updateLost, subject := some l.val, value := wordOf why.code })) ∧
   (∀ (l : LineNo) (s : State), s.live = true →
     (∀ k d, (s.line l).lock = some k → k.idle = some d →
       exec (.idleTimeout l) s = .next ((s.advance d).loseLock l .idle false).settle) ∧
     ((∀ k, (s.line l).lock = some k → k.idle = none) → exec (.idleTimeout l) s = .next s)) ∧
   (∀ (p : Port) (s : State), s.live = true → (s.port p).dropLock ≠ 0 →
     let x := s.modPort p (fun r => { r with dropLock := r.dropLock - 1 })
     ((∀ l k, (s.line l).lock = some k → k.holder ≠ p) →
       exec (.restartLockLoss p) s = .next x.settle) ∧
     (∀ l w, s.lockOf p = some l → s.work l = some w →
       (w.phase = .sealing ∨ w.phase = .committing →
         exec (.restartLockLoss p) s = .next (State.settle
           { x with upd := { s.upd with
             work := tset s.upd.work l (some { w with lossPending := true }) } })) ∧
       (w.phase = .opened ∨ w.phase = .sealed →
         exec (.restartLockLoss p) s = .next (x.loseLock l .reset false).settle) ∧
       (∀ c z, w.phase = .marking → w.command = some (c, z) →
         exec (.restartLockLoss p) s = .next ((x.loseLock l .reset false).answer c z .noLock []).settle)))) ∧
  ((∀ (s : State), s.live = true →
     (s.upd.toldOffline = false → exec .offlineUpdateLoss s = .next s) ∧
     (s.upd.toldOffline = true →
       let a : State := { s with upd := { s.upd with lost := none, toldOffline := false } }
       let b := match s.upd.lost with
         | none => a
         | some i => a.loseRequest i
       exec .offlineUpdateLoss s = .next
         (State.allLines.foldl (fun x l => (x.offlineLock l).offlineSequence l) b).settle)) ∧
   (∀ (l : LineNo) (s : State),
     ((s.line l).lock = none → s.offlineLock l = s) ∧
     (∀ k w, (s.line l).lock = some k → s.work l = some w →
       (w.phase = .opened ∨ w.phase = .sealed → s.offlineLock l = s.loseLock l .channel false) ∧
       (w.phase = .marking ∨ w.phase = .sealing →
         s.offlineLock l = (s.loseLock l .channel false).answerTo w.command .programFail []) ∧
       (∀ r, w.phase = .committing → w.commit = some r → r.retiring = false →
         s.offlineLock l = ((s.dropPending l k.slot).loseLock l .channel false).answer r.port r.tag .programFail []) ∧
       (∀ r o, w.phase = .committing → w.commit = some r → r.retiring = true → r.oldSlot = some o →
         s.offlineLock l = (({ s with slots := tset s.slots o { s.slot o with reclaimHold := false } } : State).loseLock l
           .channel false).answer r.port r.tag .ok [wordOf r.generation])) ∧
     (s.sequence l = none → s.offlineSequence l = s) ∧
     (∀ r n, s.sequence l = some r → r.retiring = false → (s.line l).pending = some n →
       s.offlineSequence l = (State.endCommit (.sequence l) (s.dropPending l n)).answer r.port r.tag .programFail []) ∧
     (∀ r, s.sequence l = some r → r.retiring = true → s.offlineSequence l = s.retireMarkEnded (.sequence l)) ∧
     (∀ n, s.dropPending l n =
       ({ s with lines := tset s.lines l { s.line l with pending := none } } : State).toDirty n)) ∧
   (∀ (l : LineNo) (k : Lock) (w : LockWork) (s : State), (s.line l).lock = some k → s.work l = some w →
     (w.phase = .marking → s.loseRequest (.lockStep l) = s.stageMarkEnded l k.slot .lost) ∧
     (w.phase = .sealing → w.sealStep = some .verify →
       s.loseRequest (.lockStep l) = s.verifyEnded l k.slot [] .lost) ∧
     (w.phase = .sealing → w.sealStep = some .mark → s.loseRequest (.lockStep l) = s.sealMarkEnded l k.slot .lost) ∧
     (∀ r, w.phase = .committing → w.commit = some r → s.loseRequest (.lockStep l) =
       if r.retiring then s.retireMarkEnded (.lock l) else s.commitMarkEnded (.lock l) k.slot .lost)) ∧
   (∀ (n : SlotNo) (k : ProgKind) (u : Nat) (e : ProgEntry) (s : State),
     s.upd.queue.find? (fun e => e.slot == n && e.kind == k && e.unit == u) = some e →
     s.loseRequest (.entry n k u) =
       match k with
       | .data => s.dataEnded e.line n u .lost
       | .list => s.listEnded e.line n u .lost))

/-! ### The ends of flash operations (spec/05, spec/06) -/

/-- The flash through an operation (R88, R99, R107, R108, R176): a read or a reset changes nothing; a program answered
DONE can only turn ones into zeros, in the bytes it writes; an erase answered DONE leaves its 64 KiB block all ones. A
cut program or erase leaves free bytes (log 5) where it worked and nothing changed elsewhere, and a cut program turns
no zero into a one. A header record whose mark a loss of power cut is present and fails its check or its trailing-erased
test (R190), the stage record under a cut erase mark too (log 56); one whose program failed at the device is present and
invalid (R177). A configuration copy fails its check once its erase has ended or was cut, and where a start or a loss of
power cut its program (R176). The erase mark, written, leaves a header page that is neither blank nor holds a valid
stage record (R108), and a cut erase of the slot's first block leaves it so (R107, R178, log 5). -/
def Obligations.FlashOperationsTakeEffect : Prop :=
  ∀ (o : Operation) (h : DeviceEnd) (s : State), Memory.wf s.flash →
    let t := s.deviceEffect h o
    t = { s with flash := t.flash, draws := t.draws } ∧ Memory.wf t.flash ∧
    (o.work.flashUse = .nothing → t = s) ∧
    (o.work.flashUse = .programs → h = .done → t.draws = s.draws ∧ ∀ a, Memory.read t.flash a =
      if o.addr ≤ a ∧ a < o.addr + o.data.length then Memory.read s.flash a &&& o.data.getD (a - o.addr) 0
      else Memory.read s.flash a) ∧
    (o.work.flashUse = .erases → h = .done → t.draws = s.draws ∧ ∀ a, Memory.read t.flash a =
      if a / 65536 = o.addr / 65536 then 0xFF else Memory.read s.flash a) ∧
    (o.work.flashUse = .programs → h ≠ .done → t.draws = s.draws + 1 ∧ ∀ a,
      (a < o.addr ∨ o.addr + o.work.reach ≤ a → Memory.read t.flash a = Memory.read s.flash a) ∧
      Memory.read s.flash a &&& Memory.read t.flash a = Memory.read t.flash a) ∧
    (∀ k, o.work.headerRecord = some k → o.addr % 4096 = (if o.work = .eraseMark then 255 else 256 * k) →
      let page := Memory.page t.flash (o.addr / 4096)
      let record : Byte × Nat := match k with | 0 => (0x01, 24) | 1 => (0x02, 16) | 2 => (0x03, 8) | _ => (0x04, 8)
      (h = .powerLost → erased (headerUnit page k) = false ∧
        recordHolds record.1 record.2 (headerUnit page k) = false) ∧
      (h = .failed → o.work ≠ .eraseMark → recordInvalid s.largestImage page k = true)) ∧
    (o.work.flashUse = .erases → h ≠ .done → 65536 ∣ o.addr → t.draws = s.draws + 1 ∧
      ∀ a, a < o.addr ∨ o.addr + 65536 ≤ a → Memory.read t.flash a = Memory.read s.flash a) ∧
    (∀ c, o.work = .configErase c → readCopy (Memory.page t.flash (o.addr / 4096)) = none) ∧
    (∀ c, o.work = .configProgram c → 4096 ∣ o.addr → h = .abandoned ∨ h = .powerLost →
      readCopy (Memory.page t.flash (o.addr / 4096)) = none) ∧
    (let unusable (m : List Host.Cell) : Prop :=
       erased (Memory.page m (o.addr / 4096)) = false ∧
         readStage s.largestImage (Memory.page m (o.addr / 4096)) = none
     (o.work = .eraseMark → h = .done → o.addr % 4096 = 255 → o.data = [0] → unusable t.flash) ∧
     (∀ b n, o.work = .reclaimErase b → o.slot = some n → o.addr = s.slotBase n → 4096 ∣ o.addr → h ≠ .done →
       unusable s.flash → unusable t.flash))

/-- What each requester asks of the channel (R90, R98, R111, R112, R115, R121, R123, R125, R126, R107, R108, R176, R174,
R177, R180): the operation, its flash address (bytes; page p is at 4096 × p), the bytes it programs, and its timeout in
microseconds. -/
def Obligations.RequestsCarryTheirTargets : Prop :=
  ∀ s : State,
    let programs (w : Work) (n : Option SlotNo) (a : Nat) (d : List Byte) : Operation :=
      { work := w, slot := n, addr := a, data := d, left := 5000, erase := none }
    let reads (w : Work) (n : Option SlotNo) (a : Nat) : Operation :=
      { work := w, slot := n, addr := a, data := [], left := 1000, erase := none }
    let erases (w : Work) (n : Option SlotNo) (b : Nat) : Operation :=
      { work := w, slot := n, addr := 65536 * b, data := [], left := 3000000,
        erase := some { block := b, eraseTime := 0, run := 0, suspensions := 0, reads := 0, phase := .running,
                        ackLeft := 0 } }
    (∀ e : ProgEntry, e.kind = .data →
      s.entryOp e = programs (.dataProgram e.line e.unit) (some e.slot) (s.slotBase e.slot + 8192 + 256 * e.unit) e.data) ∧
    (∀ e : ProgEntry, e.kind = .list →
      s.entryOp e = programs (.listProgram e.line e.unit) (some e.slot) (s.slotBase e.slot + 4096 + 256 * e.unit) e.data) ∧
    (∀ n k u e, s.upd.queue.find? (fun e => e.slot == n && e.kind == k && e.unit == u) = some e →
      s.readyOp (.entry n k u) = some (s.entryOp e)) ∧
    (∀ l k w, (s.line l).lock = some k → s.work l = some w →
      let r := s.slot k.slot
      (w.phase = .marking → s.readyOp (.lockStep l) = some (programs (.stageMark l) (some k.slot) (s.slotBase k.slot)
        (stageBytes l (r.name.getD []) (r.version.getD 0) (r.length.getD 0)))) ∧
      (∀ c, w.phase = .sealing → w.sealStep = some .verify → w.cursor = some c →
        s.readyOp (.lockStep l) = some (reads (.verifyRead l) (some k.slot) (4096 * s.dataPage k.slot c))) ∧
      (w.phase = .sealing → w.sealStep = some .mark →
        s.readyOp (.lockStep l) = some (programs (.sealMark l) (some k.slot) (s.slotBase k.slot + 256)
          (sealBytes w.wanted (crc32 (wordsBytes w.checks))))) ∧
      (∀ x n, w.phase = .committing → w.commit = some x → x.retiring = false → (s.line l).pending = some n →
        s.readyOp (.lockStep l) = some (programs (.commitMark (.lock l)) (some n) (s.slotBase n + 512)
          (commitBytes ((s.line l).generation + 1)))) ∧
      (∀ x n, w.phase = .committing → w.commit = some x → x.retiring = true → x.oldSlot = some n →
        s.readyOp (.lockStep l) = some (programs (.retireMark (.lock l)) (some n) (s.slotBase n + 768)
          (retireBytes x.generation)))) ∧
    (∀ l x n, s.sequence l = some x → x.retiring = false → (s.line l).pending = some n →
      s.readyOp (.commitStep l) = some (programs (.commitMark (.sequence l)) (some n) (s.slotBase n + 512)
        (commitBytes ((s.line l).generation + 1)))) ∧
    (∀ l x n, s.sequence l = some x → x.retiring = true → x.oldSlot = some n →
      s.readyOp (.commitStep l) = some (programs (.retireMark (.sequence l)) (some n) (s.slotBase n + 768)
        (retireBytes x.generation))) ∧
    (s.cfgw.write = none → s.configRequest = none) ∧
    (∀ w, s.cfgw.write = some w →
      let b := match w.copy with | .a => 0 | .b => 1
      s.configRequest = some (if w.programming then programs (.configProgram w.copy) none (65536 * b) w.record
        else erases (.configErase w.copy) none b)) ∧
    (s.reclaim = none → s.reclaimRequest = none) ∧
    (∀ j, s.reclaim = some j →
      let b := 2 + j.target.val * (s.slotSize / 65536) + j.cursor
      s.reclaimRequest = some (if j.erasing then erases (.reclaimErase b) (some j.target) b
        else programs .eraseMark (some j.target) (s.slotBase j.target + 255) [0])) ∧
    s.startOp (.configRead .a) = reads (.configRead .a) none 0 ∧
    s.startOp (.configRead .b) = reads (.configRead .b) none 65536 ∧
    (∀ n, s.startOp (.headerRead n) = reads (.headerRead n) (some n) (4096 * s.slotPage n)) ∧
    (∀ n, s.startOp (.listRead n) = reads (.listRead n) (some n) (4096 * (s.slotPage n + 1))) ∧
    (∀ c, State.resetOp c =
      { work := .deviceReset c, slot := none, addr := 0, data := [], left := 10000, erase := none })

/-- The end of an operation of the update writer that the device answers (R89, R101, R102, R113): the device has had
its effect, the count of timeouts is 0, the channel is IDLE, a DEVICE_FAIL is logged as PROGRAM_FAIL with the slot,
the flash page and the step, before what the requester's own end logs (log 46), and the requester takes the outcome
(`StageMarksAndProgramsEnd`, `VerifyReadsEnd`, `CheckListsAndSealsEnd`, `CommitsEnd`). An end that the running
operation is not changes nothing (log 3). -/
def Obligations.UpdateOperationsEnd : Prop :=
  (∀ (o : Operation) (n : SlotNo) (s : State), s.live = true → s.chan.op = some o →
    o.slot = some n →
    let outcome (pass : Bool) : OpOutcome := if pass then .done else .deviceFail
    let ended (pass : Bool) : State :=
      let d := s.deviceEffect (if pass then .done else .failed) o
      let e : State := { d with chan := { s.chan with op := none, timeouts := 0,
                                                      state := if s.chan.state = .busy then .idle else s.chan.state } }
      if pass then e
      else e.log { kind := .programFail, slot := some n, page := some (o.addr / 4096),
                   detail := packWord o.work.stepCode 0 0 0 }
    (∀ l pass, o.work = .stageMark l →
      exec (.stageMarkEnd pass) s = .next ((ended pass).stageMarkEnded l n (outcome pass)).settle) ∧
    (∀ l k pass, o.work = .dataProgram l k →
      exec (.dataProgramEnd pass) s = .next ((ended pass).dataEnded l n k (outcome pass)).settle) ∧
    (∀ l errors, o.work = .verifyRead l →
      exec (.verifyReadEnd errors) s = .next
        ((ended true).verifyEnded l n (withErrors (Memory.page s.flash (o.addr / 4096)) errors) .done).settle) ∧
    (∀ l k pass, o.work = .listProgram l k →
      exec (.listProgramEnd pass) s = .next ((ended pass).listEnded l n k (outcome pass)).settle) ∧
    (∀ l pass, o.work = .sealMark l →
      exec (.sealMarkEnd pass) s = .next ((ended pass).sealMarkEnded l n (outcome pass)).settle) ∧
    (∀ c pass, o.work = .commitMark c →
      exec (.commitMarkEnd pass) s = .next ((ended pass).commitMarkEnded c n (outcome pass)).settle) ∧
    (∀ c pass, o.work = .retireMark c →
      exec (.retireMarkEnd pass) s = .next ((ended pass).retireMarkEnded c).settle)) ∧
  (∀ (s : State) (pass : Bool) (errors : ReadErrors),
    ((∀ o l, s.chan.op = some o → o.work ≠ .stageMark l) → exec (.stageMarkEnd pass) s = .next s) ∧
    ((∀ o l k, s.chan.op = some o → o.work ≠ .dataProgram l k) → exec (.dataProgramEnd pass) s = .next s) ∧
    ((∀ o l, s.chan.op = some o → o.work ≠ .verifyRead l) → exec (.verifyReadEnd errors) s = .next s) ∧
    ((∀ o l k, s.chan.op = some o → o.work ≠ .listProgram l k) → exec (.listProgramEnd pass) s = .next s) ∧
    ((∀ o l, s.chan.op = some o → o.work ≠ .sealMark l) → exec (.sealMarkEnd pass) s = .next s) ∧
    ((∀ o c, s.chan.op = some o → o.work ≠ .commitMark c) → exec (.commitMarkEnd pass) s = .next s) ∧
    ((∀ o c, s.chan.op = some o → o.work ≠ .retireMark c) → exec (.retireMarkEnd pass) s = .next s))

/-- The outcomes of the stage mark and of a DATA program (R115, R117, R118, R113, R121, R130). They act while the line's
lock holds the slot and the slot is STAGING; else the outcome is disregarded, and a STAGE is answered NO_LOCK. The stage
mark's DONE opens the lock, starts its idle timer and answers OK with the slot; its failure sends the slot to BAD or
DIRTY, ends the lock and answers PROGRAM_FAIL. A DATA entry's DONE answers its STAGE OK and may end DRAIN; its failure
answers PROGRAM_FAIL and loses the lock, with the reason RESET where a loss waits with a SEAL in DRAIN or VERIFY, else
with the failure's own (log 21), answering a SEAL in progress PROGRAM_FAIL. -/
def Obligations.StageMarksAndProgramsEnd : Prop :=
  (∀ (l : LineNo) (n : SlotNo) (k : Nat) (out : OpOutcome) (s : State),
    (¬ ∃ x w, (s.line l).lock = some x ∧ x.slot = n ∧ (s.slot n).state = .staging ∧ s.work l = some w) →
    let owner := (s.upd.queue.find? (fun e => e.slot == n && e.kind == .data && e.unit == k)).bind (·.owner)
    s.stageMarkEnded l n out = s ∧
    s.dataEnded l n k out = State.answerTo owner .noLock []
      { s with upd := { s.upd with queue := s.upd.queue.filter (fun e => !(e.slot == n && e.kind == .data && e.unit == k)) } }) ∧
  (∀ (l : LineNo) (x : Lock) (w : LockWork) (k : Nat) (s : State), (s.line l).lock = some x →
    (s.slot x.slot).state = .staging → s.work l = some w →
    let n := x.slot
    let bad : State := { s with slots := tset s.slots n { s.slot n with
      state := .bad, line := none, name := none, version := none, length := none, generation := none,
      checkList := none } }
    let owner := (s.upd.queue.find? (fun e => e.slot == n && e.kind == .data && e.unit == k)).bind (·.owner)
    let left : State :=
      { s with upd := { s.upd with queue := s.upd.queue.filter (fun e => !(e.slot == n && e.kind == .data && e.unit == k)) } }
    s.stageMarkEnded l n .done = State.answerTo w.command .ok [wordOf n.val]
      { s with lines := tset s.lines l { s.line l with
                 lock := some { x with idle := some (s.cfg.idleTimeout * 1000000) } },
               upd := { s.upd with work := tset s.upd.work l (some { w with phase := .opened, command := none }) } } ∧
    s.stageMarkEnded l n .deviceFail = (bad.endLock l).answerTo w.command .programFail [] ∧
    s.stageMarkEnded l n .timeout = ((s.toDirty n).endLock l).answerTo w.command .programFail [] ∧
    s.stageMarkEnded l n .lost = ((s.toDirty n).endLock l).answerTo w.command .programFail [] ∧
    s.dataEnded l n k .done = (left.answerTo owner .ok []).drainEnd l n ∧
    s.dataEnded l n k .deviceFail = (left.answerTo owner .programFail []).failLock l true ∧
    s.dataEnded l n k .timeout = (left.answerTo owner .programFail []).failLock l false ∧
    s.dataEnded l n k .lost = (left.answerTo owner .programFail []).failLock l false) ∧
  (∀ (l : LineNo) (w : LockWork) (n : SlotNo) (device : Bool) (s : State), s.work l = some w →
    s.failLock l device =
      (s.loseLock l (if w.lossPending ∧ (w.sealStep = some .drain ∨ w.sealStep = some .verify) then .reset
        else if device then .program else .channel) device).answerTo w.command .programFail [] ∧
    (w.sealStep = some .drain → (∀ e ∈ s.upd.queue, e.slot ≠ n) →
      s.drainEnd l n =
        { s with upd := { s.upd with
          work := tset s.upd.work l (some { w with sealStep := some .verify, cursor := some 0, checks := [],
                                                   image := imageStart }),
          ready := s.upd.ready ++ [.lockStep l] } }) ∧
    (w.sealStep ≠ some .drain ∨ (∃ e ∈ s.upd.queue, e.slot = n) → s.drainEnd l n = s))

/-- The outcomes of a verify read (R121, R122, R130, R113, R188). Of a page read with DONE the page check is recorded
and the image check carried forward over its bytes below the length; before the last data page the next read becomes
ready. After it a pending loss acts, the SEAL answered NO_LOCK when the checks agree and CHECK_MISMATCH when not;
else, when they agree, LIST begins, and when not, the slot goes to DIRTY, the lock ends, UPDATE_ABORTED is logged with
MISMATCH and the SEAL is answered CHECK_MISMATCH. Any other outcome fails the lock. A running image check carried over
bytes in parts ends with the check of the whole. -/
def Obligations.VerifyReadsEnd : Prop :=
  (∀ (l : LineNo) (n : SlotNo) (d : List Byte) (out : OpOutcome) (s : State),
    (¬ ∃ x w, (s.line l).lock = some x ∧ x.slot = n ∧ (s.slot n).state = .staging ∧ s.work l = some w) →
    s.verifyEnded l n d out = s) ∧
  (∀ (l : LineNo) (x : Lock) (w : LockWork) (c : Nat) (d : List Byte) (s : State), (s.line l).lock = some x →
    (s.slot x.slot).state = .staging → s.work l = some w → w.cursor = some c →
    let n := x.slot
    let length := (s.slot n).length.getD 0
    let z : LockWork := { w with checks := w.checks ++ [crc32 d], cursor := some (c + 1),
                                 image := imageCarry w.image (d.take (length - 4096 * c)) }
    let agree := imageEnd z.image = w.wanted
    (∀ out, out ≠ .done → s.verifyEnded l n d out = s.failLock l (out == .deviceFail)) ∧
    (4096 * (c + 1) < length → s.verifyEnded l n d .done =
      { s with upd := { s.upd with work := tset s.upd.work l (some z), ready := s.upd.ready ++ [.lockStep l] } }) ∧
    (length ≤ 4096 * (c + 1) → w.lossPending = true → s.verifyEnded l n d .done =
      (s.loseLock l .reset false).answerTo w.command (if agree then .noLock else .checkMismatch) []) ∧
    (length ≤ 4096 * (c + 1) → w.lossPending = false → agree → s.verifyEnded l n d .done =
      { s with upd := { s.upd with
        work := tset s.upd.work l (some { z with sealStep := some .list, cursor := none, listNext := 0 }),
        listing := s.upd.listing ++ [l] } }) ∧
    (length ≤ 4096 * (c + 1) → w.lossPending = false → ¬ agree → s.verifyEnded l n d .done =
      (((s.toDirty n).endLock l).log
        { kind := .updateAborted, slot := some n, line := some l, detail := wordOf 1 }).answerTo
        w.command .checkMismatch [])) ∧
  (∀ (c : Word) (a b : List Byte), imageCarry (imageCarry c a) b = imageCarry c (a ++ b) ∧
    imageEnd (imageCarry imageStart a) = crc32 a)

/-- The check list and the seal (R123, R130, R13, R111, R113). While the program queue holds fewer than 8 entries, the
SEAL that began LIST first among those whose lock holds fewer than 4 places its next unit: 64 of the check list's
entries, the rest of the unit erased. After every unit has ended the seal mark becomes ready. Its DONE makes the slot
SEALED with its check list stored and the line's pending slot, the lock SEALED with its idle timer started, and answers
OK with the slot; a pending loss then acts. A failure loses the lock. -/
def Obligations.CheckListsAndSealsEnd : Prop :=
  (∀ (l : LineNo) (n : SlotNo) (k : Nat) (out : OpOutcome) (s : State),
    (¬ ∃ x w, (s.line l).lock = some x ∧ x.slot = n ∧ (s.slot n).state = .staging ∧ s.work l = some w) →
    s.sealMarkEnded l n out = s ∧
    s.listEnded l n k out =
      { s with upd := { s.upd with queue := s.upd.queue.filter (fun e => !(e.slot == n && e.kind == .list && e.unit == k)) } }) ∧
  (∀ (l : LineNo) (x : Lock) (w : LockWork) (k : Nat) (s : State), (s.line l).lock = some x →
    (s.slot x.slot).state = .staging → s.work l = some w →
    let n := x.slot
    let left : State :=
      { s with upd := { s.upd with queue := s.upd.queue.filter (fun e => !(e.slot == n && e.kind == .list && e.unit == k)) } }
    (∀ out, out ≠ .done → s.listEnded l n k out = left.failLock l (out == .deviceFail) ∧
      s.sealMarkEnded l n out = s.failLock l (out == .deviceFail)) ∧
    (w.sealStep = some .list → (∀ e ∈ left.upd.queue, e.slot ≠ n) → (w.checks.length + 63) / 64 ≤ w.listNext →
      s.listEnded l n k .done =
        { left with upd := { left.upd with work := tset s.upd.work l (some { w with sealStep := some .mark }),
                                           ready := s.upd.ready ++ [.lockStep l] } }) ∧
    (w.sealStep ≠ some .list ∨ (∃ e ∈ left.upd.queue, e.slot = n) ∨ w.listNext < (w.checks.length + 63) / 64 →
      s.listEnded l n k .done = left) ∧
    (let done : State := State.answerTo w.command .ok [wordOf n.val]
        { s with
          slots := tset s.slots n { s.slot n with state := .sealed, checkList := some w.checks },
          lines := tset s.lines l { s.line l with
            pending := some n, lock := some { x with idle := some (s.cfg.idleTimeout * 1000000) } },
          upd := { s.upd with work := tset s.upd.work l (some
            { w with phase := .sealed, sealStep := none, checks := [], image := 0, wanted := 0, listNext := 0,
                     command := none, lossPending := false }) } }
     s.sealMarkEnded l n .done = if w.lossPending then done.loseLock l .reset false else done)) ∧
  (∀ (k : Nat) (s : State),
    s.placeLists 0 = s ∧ (8 ≤ s.upd.queue.length → s.placeLists (k + 1) = s) ∧
    (s.upd.queue.length < 8 →
      let room := fun l => match (s.line l).lock with
        | none => false
        | some x => decide ((s.upd.queue.filter (fun e => e.slot == x.slot)).length < 4)
      (s.upd.listing.find? room = none → s.placeLists (k + 1) = s) ∧
      (∀ l x w, s.upd.listing.find? room = some l → (s.line l).lock = some x → s.work l = some w →
        s.placeLists (k + 1) = State.placeLists k
          { s with upd := { s.upd with
            work := tset s.upd.work l (some { w with listNext := w.listNext + 1 }),
            queue := s.upd.queue ++
              [{ line := l, slot := x.slot, kind := .list, unit := w.listNext,
                 data := (wordsBytes ((w.checks.drop (64 * w.listNext)).take 64) ++ List.replicate 256 0xFF).take 256,
                 owner := none, programming := false }],
            ready := s.upd.ready ++ [.entry x.slot .list w.listNext],
            listing := if (w.checks.length + 63) / 64 ≤ w.listNext + 1 then s.upd.listing.filter (fun m => m != l)
              else s.upd.listing } })))

/-- The outcomes of the commit mark and of the retire mark, and the commit switch (R16, R125, R126, R127, R113, R166).
The commit mark's DONE takes the switch: the pending slot is CURRENT at the next generation and gives the line its
name and version, the old slot goes to RETIRED or DIRTY with its reclaim hold set, each port with a BOUND window on
the line is handed NEW_GENERATION, and COMMIT is logged (log 37); the retire mark is then ready, or, with no old slot,
the commit ends with OK. Its failure sends the pending slot to BAD or DIRTY and answers PROGRAM_FAIL. The retire
mark's end, whatever its outcome, clears the hold and ends the commit with OK and the generation. -/
def Obligations.CommitsEnd : Prop :=
  (∀ (l : LineNo) (n : SlotNo) (s : State), (s.line l).pending = some n → (s.line l).current ≠ some n →
    let g := (s.line l).generation + 1
    let told := State.allPorts.filter (fun p => (s.port p).windows.toList.any (fun w => match w with
      | none => false
      | some b => b.line == l))
    let a : State :=
      { s with
        slots := tset s.slots n { s.slot n with state := .current, generation := some g },
        lines := tset s.lines l { s.line l with
          state := .active, name := (s.slot n).name, current := some n, pending := none, generation := g,
          version := (s.slot n).version } }
    let gone := match (s.line l).current with
      | none => a
      | some o =>
        let b : State := { a with slots := tset a.slots o { s.slot o with reclaimHold := true } }
        if 0 < (s.slot o).windowPins + (s.slot o).segmentPins + (s.slot o).fillPins then
          { b with slots := tset b.slots o { b.slot o with state := .retired } }
        else b.toDirty o
    s.commitSwitch l =
      (told.foldl (fun x p => x.hand p { kind := .newGeneration, subject := some l.val, value := wordOf g }) gone).log
        { kind := .commit, slot := some n, line := some l, code0 := byteOf g, code1 := byteOf (g / 256),
          detail := (s.slot n).version.getD 0 }) ∧
  (∀ (l : LineNo) (n : SlotNo) (c : Committer) (r : CommitRun) (out : OpOutcome) (s : State),
    (c = .lock l ∧ (∃ w, s.work l = some w ∧ w.commit = some r)) ∨ (c = .sequence l ∧ s.sequence l = some r) →
    let ended (x : State) : State := match c with
      | .lock _ => x.endLock l
      | .sequence _ => { x with upd := { x.upd with sequences := tset x.upd.sequences l none,
                                                    ready := x.upd.ready.filter (fun i => i != .commitStep l) } }
    ((s.slot n).state ≠ .sealed ∨ (s.line l).pending ≠ some n → s.commitMarkEnded c n out = s) ∧
    ((s.slot n).state = .sealed → (s.line l).pending = some n →
      let gone : State := { s with lines := tset s.lines l { s.line l with pending := none } }
      (out = .deviceFail → s.commitMarkEnded c n out =
        (ended { gone with slots := tset s.slots n { s.slot n with
          state := .bad, line := none, name := none, version := none, length := none, generation := none,
          checkList := none } }).answer r.port r.tag .programFail []) ∧
      (out = .timeout ∨ out = .lost → s.commitMarkEnded c n out =
        (ended (gone.toDirty n)).answer r.port r.tag .programFail []) ∧
      (out = .done → (s.line l).current = none → s.commitMarkEnded c n out =
        (ended (s.commitSwitch l)).answer r.port r.tag .ok [wordOf ((s.commitSwitch l).line l).generation]) ∧
      (∀ o, out = .done → (s.line l).current = some o →
        let x := s.commitSwitch l
        let z : CommitRun := { r with retiring := true, generation := (x.line l).generation, oldSlot := some o }
        s.commitMarkEnded c n out =
          match c with
          | .lock _ => { x with upd := { x.upd with
              work := tset x.upd.work l ((x.work l).map (fun w => { w with commit := some z })),
              ready := x.upd.ready ++ [.lockStep l] } }
          | .sequence _ => { x with upd := { x.upd with
              sequences := tset x.upd.sequences l (some z), ready := x.upd.ready ++ [.commitStep l] } })) ∧
    (s.retireMarkEnded c =
      (ended (match r.oldSlot with
        | none => s
        | some o => { s with slots := tset s.slots o { s.slot o with reclaimHold := false } })).answer
        r.port r.tag .ok [wordOf r.generation]))


/-! ### The flash channel (spec/05) -/

/-- What ends a step (R90, R91, R92, R93, R94, R54, R106, R20): a dropped RESTART_HUB reply restarts the hub (log 14);
else LIST units take free places (`CheckListsAndSealsEnd`), after the steps of locks that became ready in the same
change (log 53), the reclaimer picks, within the same step (log 28), and the channel acts, after them (log 11). IDLE,
it grants the aged update writer; else the lowest class among requests other than erases; else the configuration
writer's erase, then the reclaimer's. Running an erase, it suspends it when a class 1 request waits, fewer than 8
suspensions are used and it has run 1 ms. Otherwise it does nothing. `Follows` says
what stays through all of it. -/
def Obligations.ChannelGrantsInOrder : Prop :=
  (∀ s : State, s.hubRestart ≠ .dropped → s.settle = ((s.placeLists 8).pick).kick ∧ State.Follows s s.settle) ∧
  (∀ s : State,
    (s.reclaim ≠ none ∨ s.offline = true ∨ s.started = false ∨
      (∀ n, (s.slot n).state ≠ .dirty ∨ (s.slot n).reclaimHold = true) → s.pick = s) ∧
    (∀ n, s.reclaim = none → s.offline = false → s.started = true →
      (s.slot n).state = .dirty → (s.slot n).reclaimHold = false →
      (∀ m, m < n → (s.slot m).state ≠ .dirty ∨ (s.slot m).reclaimHold = true) →
      s.pick = { s with
        slots := tset s.slots n { s.slot n with state := .erasing, line := none, name := none, version := none,
                                                length := none, generation := none },
        reclaim := some { target := n, cursor := s.slotSize / 65536 - 1, erasing := false } })) ∧
  (∀ s : State,
    s.class1 = s.fill.demand.find? (fun e => !e.reading) ∧
    s.class4 = (if s.class1 ≠ none then none else s.fill.ahead.find? (fun e => !e.reading)) ∧
    s.updateRequest = s.upd.ready.head?) ∧
  (∀ s : State, s.chan.state = .idle →
    let busy (o : Operation) (aging : Nat) : Channel :=
      { s.chan with state := .busy, op := some o, aging := aging }
    let mark (e : FillEntry) (x : FillEntry) := if x.frame = e.frame then { x with reading := true } else x
    let fills (e : FillEntry) (aging : Nat) : State :=
      { s with
        fill := { s.fill with demand := s.fill.demand.map (mark e), ahead := s.fill.ahead.map (mark e) },
        chan := busy { work := .fill e.frame, slot := some e.slot, addr := 4096 * e.page, data := [], left := 1000,
                       erase := none } aging }
    (∀ i o, s.updateRequest = some i → s.readyOp i = some o → s.chan.aging = 8 ∨ s.class1 = none →
      s.kick = { s with
        upd := { s.upd with
          ready := s.upd.ready.drop 1,
          queue := match i with
            | .entry n k u => s.upd.queue.map (fun e =>
                if e.slot = n ∧ e.kind = k ∧ e.unit = u then { e with programming := true } else e)
            | _ => s.upd.queue },
        chan := busy o 0 }) ∧
    (∀ e, s.class1 = some e → s.updateRequest = none → s.kick = fills e 0) ∧
    (∀ e i, s.class1 = some e → s.updateRequest = some i → s.chan.aging < 8 → s.kick = fills e (s.chan.aging + 1)) ∧
    (s.class1 = none → s.updateRequest = none →
      (∀ o, s.configRequest = some o → o.erase = none → s.kick = { s with chan := busy o 0 }) ∧
      ((∀ o, s.configRequest = some o → o.erase ≠ none) →
        (∀ e, s.class4 = some e → s.kick = fills e 0) ∧
        (s.class4 = none →
          (∀ o, s.reclaimRequest = some o → o.erase = none → s.kick = { s with chan := busy o 0 }) ∧
          ((∀ o, s.reclaimRequest = some o → o.erase ≠ none) →
            (∀ w, s.start.request = some w →
              s.kick = { s with start := { s.start with request := none }, chan := busy (s.startOp w) 0 }) ∧
            (s.start.request = none →
              (∀ o, s.configRequest = some o → s.kick = { s with chan := busy o 0 }) ∧
              (∀ o, s.configRequest = none → s.reclaimRequest = some o → s.kick = { s with chan := busy o 0 }) ∧
              (s.configRequest = none → s.reclaimRequest = none → s.kick = s))))))) ∧
  (∀ s : State,
    (s.chan.state = .offline ∨ s.chan.state = .eraseSuspended → s.kick = s) ∧
    (s.chan.state = .busy → (∀ o, s.chan.op = some o → o.erase = none) → s.kick = s) ∧
    (∀ o e, s.chan.state = .busy → s.chan.op = some o → o.erase = some e →
      (e.phase = .running ∧ e.suspensions < 8 ∧ 1000 ≤ e.run ∧ s.class1 ≠ none →
        s.kick = { s with chan := { s.chan with
          op := some { o with erase := some { e with phase := .suspending, ackLeft := 100 } } } }) ∧
      (e.phase ≠ .running ∨ 8 ≤ e.suspensions ∨ e.run < 1000 ∨ s.class1 = none → s.kick = s)))

/-- ERASE_SUSPEND and SUSPEND_ANSWER (R94, R95, R96, R97). With a class 1 request waiting and fewer than 8 suspensions
used, the suspend is issued once the run since resume is 1 ms (log 2), and its acknowledgement has 100 µs. Suspended:
the erase is held with one more suspension used and no read made, and the waiting class 1 request is granted. Erase
complete: the erase ends with DONE. Either with nothing to act on changes nothing (log 3). -/
def Obligations.ErasesSuspend : Prop :=
  ∀ (s : State), s.live = true →
    (∀ o e, s.chan.op = some o → o.erase = some e → e.phase = .running → e.suspensions < 8 → s.class1 ≠ none →
      let x := s.advance (1000 - e.run)
      exec .eraseSuspend s = .next { x with chan := { x.chan with op := x.chan.op.map (fun o =>
        { o with erase := o.erase.map (fun e => { e with phase := .suspending, ackLeft := 100 }) }) } }) ∧
    ((∀ o e, s.chan.op = some o → o.erase = some e → e.phase ≠ .running ∨ 8 ≤ e.suspensions) ∨ s.class1 = none →
      exec .eraseSuspend s = .next s) ∧
    (∀ o e, s.chan.op = some o → o.erase = some e → e.phase = .suspending →
      let held : EraseRecord := { e with suspensions := e.suspensions + 1, reads := 0 }
      (∀ f, s.class1 = some f →
        let mark (x : FillEntry) := if x.frame = f.frame then { x with reading := true } else x
        exec (.suspendAnswer true) s = .next
          { s with
            fill := { s.fill with demand := s.fill.demand.map mark, ahead := s.fill.ahead.map mark },
            chan := { s.chan with
              state := .eraseSuspended, suspended := some { o with erase := some { held with phase := .suspended } },
              op := some { work := .fill f.frame, slot := some f.slot, addr := 4096 * f.page, data := [], left := 1000,
                           erase := none } } }) ∧
      (s.class1 = none →
        exec (.suspendAnswer true) s = .next
          { s with chan := { s.chan with
              state := .busy, suspended := none,
              op := some { o with erase := some { held with phase := .running, run := 0 } } } }) ∧
      (let d := s.deviceEffect .done o
        let x : State := { d with chan := { s.chan with
          op := none, timeouts := 0, state := if s.chan.state = .busy then .idle else s.chan.state } }
        (∀ b, o.work = .reclaimErase b → exec (.suspendAnswer false) s = .next (x.reclaimEraseEnded b .done).settle) ∧
        (∀ c, o.work = .configErase c → exec (.suspendAnswer false) s = .next (x.configEraseEnded .done).settle))) ∧
    (∀ answer, (∀ o e, s.chan.op = some o → o.erase = some e → e.phase ≠ .suspending) →
      exec (.suspendAnswer answer) s = .next s)

/-- Timeouts (R98, R99, R100, R101, R103, R59, R113, log 2, log 12, log 46). When the time left has passed, the count
rises, CHANNEL_TIMEOUT is logged with the kind, the page and the count, the operation's requester hears TIMEOUT and a
held erase's LOST; below 3 a DEVICE_RESET runs, else the channel goes OFFLINE: CHANNEL_OFFLINE is logged, no operation
runs, the requesters are told, the update writer that its one request before the channel is LOST unless the operation
that timed out was its own (log 13), and the ports with the SUPERVISE right are handed CHANNEL_STATE. A suspend that
is not acknowledged is a timeout of the erase. A reset that completes leaves the count and the channel IDLE. -/
def Obligations.TimeoutsResetOrGoOffline : Prop :=
  (∀ (o : Operation) (s : State),
    let count := s.chan.timeouts + 1
    let page := match o.work with
      | .deviceReset _ => none
      | _ => some (o.addr / 4096)
    let a := ({ s with chan := { s.chan with timeouts := count } } : State).log
      { kind := .channelTimeout, page := page, detail := packWord o.work.kindCode count 0 0 }
    let d := a.deviceEffect .timedOut o
    let b := State.report o .timeout { d with chan := { d.chan with op := none, suspended := none } }
    let z := match s.chan.suspended with
      | none => b
      | some h => State.report h .lost (b.deviceEffect .timedOut h)
    (count < 3 → s.timedOut o = ({ z with chan := { z.chan with state := .busy, op := some (State.resetOp .timeout) } }
      : State).settle) ∧
    (3 ≤ count → s.timedOut o = (z.enterOffline o).settle) ∧
    (∀ c, count < 3 → s.resetTimedOut o c = ({ a with chan := { a.chan with
      state := .busy, op := some (State.resetOp c) } } : State).settle) ∧
    (∀ c, 3 ≤ count → s.resetTimedOut o c = (a.enterOffline o).settle)) ∧
  (∀ (o : Operation) (s : State), s.live = true → s.chan.op = some o →
    ((∀ c, o.work ≠ .deviceReset c) → exec .operationTimeout s = .next ((s.advance o.left).timedOut o)) ∧
    (∀ e, o.erase = some e → e.phase = .suspending →
      exec .suspendAckTimeout s = .next ((s.advance e.ackLeft).timedOut o)) ∧
    (o.work = .deviceReset .timeout ∨ o.work = .deviceReset .startUp →
      exec .deviceResetReady s = .next
        (State.resumeStart { s with chan := { s.chan with op := none, state := .idle } }).settle ∧
      (∀ c, o.work = .deviceReset c →
        exec .deviceResetTimeout s = .next ((s.advance o.left).resetTimedOut o c)))) ∧
  (∀ (o : Operation) (out : OpOutcome) (s : State), out = .timeout ∨ out = .lost →
    let y := if out = .timeout then
        s.log { kind := .programFail, slot := o.slot, page := some (o.addr / 4096),
                detail := packWord o.work.stepCode 1 0 0 }
      else s
    (∀ f e, o.work = .fill f → s.fillOf f = some e → State.report o out s = s.fillFailed e) ∧
    (∀ l n, o.work = .stageMark l → o.slot = some n → State.report o out s = y.stageMarkEnded l n out) ∧
    (∀ l k n, o.work = .dataProgram l k → o.slot = some n → State.report o out s = y.dataEnded l n k out) ∧
    (∀ l n, o.work = .verifyRead l → o.slot = some n → State.report o out s = y.verifyEnded l n [] out) ∧
    (∀ l k n, o.work = .listProgram l k → o.slot = some n → State.report o out s = y.listEnded l n k out) ∧
    (∀ l n, o.work = .sealMark l → o.slot = some n → State.report o out s = y.sealMarkEnded l n out) ∧
    (∀ c n, o.work = .commitMark c → o.slot = some n → State.report o out s = y.commitMarkEnded c n out) ∧
    (∀ c n, o.work = .retireMark c → o.slot = some n → State.report o out s = y.retireMarkEnded c) ∧
    (∀ c, o.work = .configErase c ∨ o.work = .configProgram c → State.report o out s = s.failConfig false) ∧
    (o.work = .eraseMark → State.report o out s = s.eraseMarkEnded out) ∧
    (∀ b, o.work = .reclaimErase b → State.report o out s = s.reclaimEraseEnded b out) ∧
    ((∃ c, o.work = .configRead c) ∨ (∃ n, o.work = .headerRead n ∨ o.work = .listRead n) →
      State.report o out s = { s with start := { s.start with retry := some o.work } })) ∧
  (∀ (o : Operation) (s : State),
    let own := match o.work with
      | .stageMark _ | .dataProgram _ _ | .verifyRead _ | .listProgram _ _ | .sealMark _ | .commitMark _
      | .retireMark _ => true
      | _ => false
    let a := s.log { kind := .channelOffline, detail := wordOf o.work.kindCode }
    let b := State.failConfig false { a with
      chan := { s.chan with state := .offline, op := none, suspended := none, aging := 0 },
      upd := { s.upd with lost := if own then none else s.upd.ready.head?, toldOffline := true },
      fill := { s.fill with toldOffline := true } }
    let c := match s.reclaim with
      | none => b
      | some j => { b.toDirty j.target with reclaim := none }
    let d : State := if s.started then c
      else { c with start := { s.start with
        retry := if s.start.request.isSome then s.start.request else s.start.retry, request := none,
        wait := some 1000000 } }
    s.enterOffline o =
      (State.allPorts.filter (fun p => s.started && (s.portCfg p).supervise)).foldl
        (fun x p => x.hand p { kind := .channelState, subject := none, value := wordOf 1 }) d)

/-- The ways out of OFFLINE (R105, R172, R150, log 2, log 15). CHANNEL_RESET: PORT_HELD on a QUARANTINED port; BAD_STATE
on a channel that is not OFFLINE; BUSY while a reset runs; else a DEVICE_RESET runs and the channel stays OFFLINE. Its
completion takes first what the entry to OFFLINE has left untaken, at the fill engine and then at the update writer
(model's choices, logs 44 and 52), makes the channel IDLE with the count 0, logs CHANNEL_ONLINE, hands CHANNEL_STATE out
and answers OK; its timeout logs CHANNEL_TIMEOUT and answers CHANNEL_DOWN. During start-up the controller waits its
time, asks for the recovery reset, and goes on when it completes; when it times out it waits 1 s again. RECOVERY_RESET
with no wait, on a channel that is not OFFLINE, or while a reset runs changes nothing (log 3). -/
def Obligations.ChannelResets : Prop :=
  (∀ (p : Port) (q : Seq) (t : CmdTag) (s : State), s.Dispatched p q t .channelReset →
    let o := s.opened p q t (some .channelReset)
    let answered (st : Status) := exec (.channelReset p q t) s = .next (o.replied p t st [])
    ((s.port p).sup.state = .quarantined → answered .portHeld) ∧
    ((s.port p).sup.state ≠ .quarantined → s.chan.state ≠ .offline → answered .badState) ∧
    ((s.port p).sup.state ≠ .quarantined → s.chan.state = .offline → s.chan.op ≠ none → answered .busy) ∧
    ((s.port p).sup.state ≠ .quarantined → s.chan.state = .offline → s.chan.op = none →
      exec (.channelReset p q t) s = .next
        { o with chan := { s.chan with
            op := some { work := .deviceReset (.command p t), slot := none, addr := 0, data := [], left := 10000,
                         erase := none } } })) ∧
  (∀ (o : Operation) (s : State), s.live = true → s.chan.op = some o →
    let f : State := if s.fill.toldOffline = true then
        (((s.fill.demand ++ s.fill.ahead).foldl (fun x e => x.fillFailed e) s).modFill (fun q =>
          { q with toldOffline := false })).handOut
      else s
    let a : State := { f with upd := { f.upd with lost := none, toldOffline := false } }
    let b := match f.upd.lost with
      | none => a
      | some i => a.loseRequest i
    let g : State := if f.upd.toldOffline = true then
        State.allLines.foldl (fun x l => (x.offlineLock l).offlineSequence l) b
      else f
    let online (by' : Option Port) : State :=
      (State.allPorts.filter (fun p => s.started && (s.portCfg p).supervise)).foldl
        (fun x p => x.hand p { kind := .channelState, subject := none, value := wordOf 2 })
        (({ g with chan := { g.chan with state := .idle, op := none, timeouts := 0 } } : State).log
          { kind := .channelOnline, port := by' })
    let failed : State :=
      let x := s.advance o.left
      ({ x with chan := { x.chan with op := none } } : State).log
        { kind := .channelTimeout, page := none, detail := packWord 4 s.chan.timeouts 0 0 }
    (∀ p t, o.work = .deviceReset (.command p t) →
      exec .channelResetComplete s = .next ((online (some p)).answer p t .ok []).settle ∧
      exec .deviceResetTimeout s = .next (failed.answer p t .channelDown [])) ∧
    (o.work = .deviceReset .recovery →
      exec .recoveryResetComplete s = .next (online none).resumeStart.settle ∧
      exec .deviceResetTimeout s = .next { failed with start := { failed.start with wait := some 1000000 } })) ∧
  (∀ (d : Nat) (s : State), s.live = true → s.start.wait = some d → s.chan.state = .offline → s.chan.op = none →
    let x := s.advance d
    exec .recoveryReset s = .next
      { x with
        start := { x.start with wait := none },
        chan := { x.chan with
          op := some { work := .deviceReset .recovery, slot := none, addr := 0, data := [], left := 10000,
                       erase := none } } }) ∧
  (∀ (s : State), s.start.wait = none ∨ s.chan.state ≠ .offline ∨ s.chan.op ≠ none → exec .recoveryReset s = .next s)

/-! ### The reclaimer (spec/05) and the configuration writer (spec/09) -/

/-- The ends of the reclaimer's operations (R107, R108, R109, R20, R102). ERASE_MARK_END and RECLAIM_ERASE_END give
the device's effect and the outcome to the reclaimer. The erase mark's DONE turns to erasing; a block's DONE moves the
cursor down, and at cursor 0 the slot is EMPTY and the reclaimer idle; DEVICE_FAIL sends the slot to BAD with
ERASE_FAIL logged for the block's first page; TIMEOUT and LOST send it back to DIRTY. An end that the running
operation is not changes nothing (log 3). -/
def Obligations.ReclaimerStepsEnd : Prop :=
  (∀ (o : Operation) (s : State), s.live = true → s.chan.op = some o →
    let outcome (pass : Bool) : OpOutcome := if pass then .done else .deviceFail
    let ended (pass : Bool) : State :=
      let d := s.deviceEffect (if pass then .done else .failed) o
      { d with chan := { s.chan with op := none, timeouts := 0,
                                     state := if s.chan.state = .busy then .idle else s.chan.state } }
    (∀ pass, o.work = .eraseMark →
      exec (.eraseMarkEnd pass) s = .next ((ended pass).eraseMarkEnded (outcome pass)).settle) ∧
    (∀ b pass, o.work = .reclaimErase b →
      exec (.reclaimEraseEnd pass) s = .next ((ended pass).reclaimEraseEnded b (outcome pass)).settle)) ∧
  (∀ (s : State) (pass : Bool),
    ((∀ o, s.chan.op = some o → o.work ≠ .eraseMark) → exec (.eraseMarkEnd pass) s = .next s) ∧
    ((∀ o b, s.chan.op = some o → o.work ≠ .reclaimErase b) → exec (.reclaimEraseEnd pass) s = .next s)) ∧
  (∀ (j : ReclaimJob) (b : Nat) (s : State), s.reclaim = some j →
    let n := j.target
    let bad (block : Nat) : State :=
      let x := ({ s with slots := tset s.slots n { s.slot n with
        state := .bad, line := none, name := none, version := none, length := none, generation := none,
        checkList := none } } : State).log { kind := .eraseFail, slot := some n, page := some (16 * block) }
      { x with reclaim := none }
    let dirty : State := { s.toDirty n with reclaim := none }
    s.eraseMarkEnded .done = { s with reclaim := some { j with erasing := true } } ∧
    s.eraseMarkEnded .deviceFail = bad (2 + n.val * (s.slotSize / 65536)) ∧
    s.eraseMarkEnded .timeout = dirty ∧ s.eraseMarkEnded .lost = dirty ∧
    (0 < j.cursor → s.reclaimEraseEnded b .done = { s with reclaim := some { j with cursor := j.cursor - 1 } }) ∧
    (j.cursor = 0 → s.reclaimEraseEnded b .done = { s with slots := tset s.slots n Slot.reset, reclaim := none }) ∧
    s.reclaimEraseEnded b .deviceFail = bad b ∧
    s.reclaimEraseEnded b .timeout = dirty ∧ s.reclaimEraseEnded b .lost = dirty)

/-- WRITE_CONFIG of a port that is not held (R175, R173): BUSY; BAD_ARGUMENT for a record outside the ranges; BAD_STATE
when the higher VALID sequence is 4294967295; CHANNEL_DOWN; else the target copy is INVALID and its write begins with
the erase, under the sequence one above the higher VALID one. The target is the INVALID copy, A before B, or the VALID
one of the lower sequence, B when they are equal. A record, bytes 4 to 199 of a copy, is within the ranges exactly when
every field holds a value of its encoding and every byte shown as zero is zero (R173, R191): the sizes, the slot count
that fits the flash, the idle timeout, and each of the four port records, enabled or not, with its boot windows below
the boot window count. A valid record gives the values it encodes. -/
def Obligations.ConfigurationWritesBegin : Prop :=
  (∀ (p : Port) (q : Seq) (t : CmdTag) (record : List Word) (s : State), s.Dispatched p q t .writeConfig →
    ¬ s.Held p → record.length = 49 →
    let o := s.opened p q t (some .writeConfig)
    let answered (st : Status) := exec (.writeConfig p q t record) s = .next (o.replied p t st [])
    let valid := parseConfig (wordsBytes record) ≠ none
    let higher : Nat :=
      match s.cfgw.copyA, s.cfgw.copyB with
      | .valid a, .valid b => max a b
      | .valid a, .invalid => a
      | .invalid, .valid b => b
      | .invalid, .invalid => 0
    let target : Copy :=
      match s.cfgw.copyA, s.cfgw.copyB with
      | .valid a, .valid b => if a < b then .a else .b
      | .valid _, .invalid => .b
      | .invalid, .valid _ => .a
      | .invalid, .invalid => .a
    (s.cfgw.write ≠ none → answered .busy) ∧
    (s.cfgw.write = none → ¬ valid → answered .badArgument) ∧
    (s.cfgw.write = none → valid → higher = 4294967295 → answered .badState) ∧
    (s.cfgw.write = none → valid → higher ≠ 4294967295 → s.chan.state = .offline → answered .channelDown) ∧
    (s.cfgw.write = none → valid → higher ≠ 4294967295 → s.chan.state ≠ .offline →
      exec (.writeConfig p q t record) s = .next (State.settle
        { o with cfgw :=
          { copyA := if target = .a then .invalid else s.cfgw.copyA,
            copyB := if target = .b then .invalid else s.cfgw.copyB,
            write := some { copy := target, programming := false, sequence := higher + 1,
                            record := configBytes (higher + 1) (wordsBytes record), port := p, tag := t } } }))) ∧
  (∀ b : List Byte,
    let byte (k : Nat) : Nat := (b.getD k 0).toNat
    let half (k : Nat) : Nat := byte k + 256 * byte (k + 1)
    let base (k : Nat) : Nat := half k + 65536 * byte (k + 2)
    let windowOk (k : Nat) : Prop :=
      12 ≤ byte (k + 3) ∧ byte (k + 3) ≤ 22 ∧ base k % 2 ^ byte (k + 3) = 0 ∧
        4096 * half (k + 4) < 2 ^ byte 1 - 8192 ∧ byte (k + 7) = 0
    let portOk (k : Nat) : Prop :=
      byte k < 32 ∧ 1 ≤ byte (k + 1) ∧ 1 ≤ byte (k + 2) ∧ byte (k + 2) ≤ 15 ∧ byte (k + 3) ≤ 4 ∧
        1 ≤ half (k + 4) ∧ half (k + 4) ≤ 1000 ∧ half (k + 6) ≤ half (k + 4) ∧
        10 ≤ half (k + 8) ∧ half (k + 8) ≤ 60000 ∧ 1 ≤ half (k + 10) ∧ half (k + 10) ≤ 600 ∧
        byte (k + 12) ≤ 64 ∧ byte (k + 13) ≤ 4 ∧ byte (k + 14) = 0 ∧ byte (k + 15) = 0 ∧
        (∀ i, i < byte (k + 3) → windowOk (k + 16 + 8 * i))
    let valid : Prop :=
      b.length = 196 ∧ 20 ≤ byte 0 ∧ byte 0 ≤ 26 ∧ 18 ≤ byte 1 ∧ byte 1 ≤ 22 ∧ 1 ≤ byte 2 ∧ byte 2 ≤ 16 ∧
        byte 2 ≤ (2 ^ byte 0 - 131072) / 2 ^ byte 1 ∧ 1 ≤ byte 3 ∧ byte 3 ≤ 60 ∧
        portOk 4 ∧ portOk 52 ∧ portOk 100 ∧ portOk 148
    let window (k : Nat) : BootWindow :=
      { base := base k, size := 2 ^ byte (k + 3), offset := half (k + 4) * 4096, line := byte (k + 6) }
    let port (k : Nat) : PortConfig :=
      { enabled := (byte k).testBit 0, supervised := (byte k).testBit 1, fetch := (byte k).testBit 2,
        update := (byte k).testBit 3, supervise := (byte k).testBit 4, resetHold := byte (k + 1),
        restartLimit := byte (k + 2), heartbeat := half (k + 4) * 10, grace := half (k + 6) * 10,
        bootTimeout := half (k + 8), restartWindow := half (k + 10), preloadCount := byte (k + 12),
        prefetchDepth := byte (k + 13),
        bootWindows := (List.range (byte (k + 3))).map (fun i => window (k + 16 + 8 * i)) }
    (valid → parseConfig b = some
      { flashExp := byte 0, slotExp := byte 1, slotCount := byte 2, idleTimeout := byte 3,
        ports := ⟨#[port 4, port 52, port 100, port 148], rfl⟩ }) ∧
    (¬ valid → parseConfig b = none))

/-- The ends of a configuration write's operations (R176, R102). The erase's DONE turns to the program; the program's
DONE makes the target VALID with the sequence and answers OK with the copy and the sequence; any failure logs
PROGRAM_FAIL with the first page of the target's block and the step, and answers PROGRAM_FAIL. An end that the running
operation is not changes nothing (log 3). -/
def Obligations.ConfigurationWritesEnd : Prop :=
  (∀ (o : Operation) (c : Copy) (pass : Bool) (s : State), s.live = true →
    s.chan.op = some o →
    let outcome : OpOutcome := if pass then .done else .deviceFail
    let ended : State :=
      let d := s.deviceEffect (if pass then .done else .failed) o
      { d with chan := { s.chan with op := none, timeouts := 0,
                                     state := if s.chan.state = .busy then .idle else s.chan.state } }
    (o.work = .configErase c → exec (.configEraseEnd pass) s = .next (ended.configEraseEnded outcome).settle) ∧
    (o.work = .configProgram c → exec (.configProgramEnd pass) s = .next (ended.configProgramEnded outcome).settle)) ∧
  (∀ (s : State) (pass : Bool),
    ((∀ o c, s.chan.op = some o → o.work ≠ .configErase c) → exec (.configEraseEnd pass) s = .next s) ∧
    ((∀ o c, s.chan.op = some o → o.work ≠ .configProgram c) → exec (.configProgramEnd pass) s = .next s)) ∧
  (∀ (w : ConfigWrite) (s : State), s.cfgw.write = some w →
    let failed (device : Bool) : State :=
      (({ s with cfgw := { s.cfgw with write := none } } : State).log
        { kind := .programFail, page := some (match w.copy with | .a => 0 | .b => 16),
          detail := packWord (if w.programming then 8 else 7) (if device then 0 else 1) 0 0 }).answer
        w.port w.tag .programFail []
    s.configEraseEnded .done = { s with cfgw := { s.cfgw with write := some { w with programming := true } } } ∧
    s.configProgramEnded .done = State.answer w.port w.tag .ok
      [wordOf (match w.copy with | .a => 0 | .b => 1), wordOf w.sequence]
      { s with cfgw :=
        { copyA := if w.copy = .a then .valid w.sequence else s.cfgw.copyA,
          copyB := if w.copy = .b then .valid w.sequence else s.cfgw.copyB, write := none } } ∧
    s.configEraseEnded .deviceFail = failed true ∧ s.configProgramEnded .deviceFail = failed true ∧
    s.configEraseEnded .timeout = failed false ∧ s.configProgramEnded .timeout = failed false ∧
    s.configEraseEnded .lost = failed false ∧ s.configProgramEnded .lost = failed false) ∧
  (∀ (device : Bool) (s : State),
    (s.cfgw.write = none → s.failConfig device = s) ∧
    (s.cfgw.write ≠ none → s.failConfig device = s.configProgramEnded (if device then .deviceFail else .timeout)))

/-- What the hub writes reads back (R173, R177, R190, R191): a configuration copy holds its sequence and its record; the
stage, seal, commit and retire records of a header page hold what they were given; the erase mark at byte 255 makes any
page's stage record fail its test (R108). And nothing else reads back: a copy is valid only with the check over its
bytes 0 to 199, a sequence from 1 and a record within the ranges; a header record only with its kind byte, its record
check, an erased rest of its unit and the values of R177, the stage record's name printable and padded with zeros. The
bytes a record's layout shows as zero are not among the tests of R190. Present and invalid is a unit that is not erased
and reads as none. -/
def Obligations.RecordsReadBack : Prop :=
  (∀ (n : Nat) (body rest : List Byte) (c : ConfigRecord), 1 ≤ n → n ≤ 4294967295 → parseConfig body = some c →
    readCopy (configBytes n body ++ rest) = some (n, c)) ∧
  (∀ (l : LineNo) (name : Name) (version : Word) (length largest : Nat) (page : List Byte),
    1 ≤ name.length → name.length ≤ 8 → (∀ b ∈ name, 0x20 ≤ b.toNat ∧ b.toNat ≤ 0x7E) →
    length % 256 = 0 → 256 ≤ length → length ≤ largest → length < 4294967296 →
    headerUnit page 0 = stageBytes l name version length ++ List.replicate 232 0xFF →
    readStage largest page = some { line := l, name := name, version := version, length := length }) ∧
  (∀ (image check : Word) (page : List Byte),
    headerUnit page 1 = sealBytes image check ++ List.replicate 240 0xFF → readSeal page = some (image, check)) ∧
  (∀ (g : Nat) (page : List Byte), 1 ≤ g → g ≤ 65535 →
    headerUnit page 2 = commitBytes g ++ List.replicate 248 0xFF → readCommit page = some g) ∧
  (∀ (g : Nat) (page : List Byte), 2 ≤ g → g ≤ 65535 →
    headerUnit page 3 = retireBytes g ++ List.replicate 248 0xFF → readRetire page = some g) ∧
  (∀ (largest : Nat) (page : List Byte), page[255]? = some 0 → readStage largest page = none) ∧
  (∀ (n largest : Nat) (c : ConfigRecord) (page : List Byte), page.length = 4096 →
    let checked (body : List Byte) := body ++ wordBytes (crc32 body)
    let unit (k : Nat) := (page.drop (256 * k)).take 256
    let rest (size : Nat) : List Byte := List.replicate (256 - size) 0xFF
    let blank (k : Nat) : Prop := ∀ x ∈ unit k, x = 0xFF
    (readCopy page = some (n, c) ↔ ∃ body tail, page = checked (leBytes 4 n ++ body) ++ tail ∧
      1 ≤ n ∧ n ≤ 4294967295 ∧ parseConfig body = some c) ∧
    (∀ r, readStage largest page = some r ↔
      1 ≤ r.name.length ∧ r.name.length ≤ 8 ∧ (∀ x ∈ r.name, 0x20 ≤ x.toNat ∧ x.toNat ≤ 0x7E) ∧
        r.length % 256 = 0 ∧ 256 ≤ r.length ∧ r.length ≤ largest ∧ r.length < 4294967296 ∧
        ∃ x y, unit 0 = checked ([0x01, byteOf r.line.val, x, y] ++
          (r.name ++ List.replicate (8 - r.name.length) 0) ++ wordBytes r.version ++ leBytes 4 r.length) ++ rest 24) ∧
    (∀ image check, readSeal page = some (image, check) ↔
      ∃ x y z, unit 1 = checked ([0x02, x, y, z] ++ wordBytes image ++ wordBytes check) ++ rest 16) ∧
    (∀ g, readCommit page = some g ↔
      1 ≤ g ∧ g ≤ 65535 ∧ ∃ x, unit 2 = checked ([0x03, x] ++ leBytes 2 g) ++ rest 8) ∧
    (∀ g, readRetire page = some g ↔
      2 ≤ g ∧ g ≤ 65535 ∧ ∃ x, unit 3 = checked ([0x04, x] ++ leBytes 2 g) ++ rest 8) ∧
    (recordInvalid largest page 0 = true ↔ ¬ blank 0 ∧ readStage largest page = none) ∧
    (recordInvalid largest page 1 = true ↔ ¬ blank 1 ∧ readSeal page = none) ∧
    (recordInvalid largest page 2 = true ↔ ¬ blank 2 ∧ readCommit page = none) ∧
    (recordInvalid largest page 3 = true ↔ ¬ blank 3 ∧ readRetire page = none)) ∧
  (∀ (kind : Byte) (size : Nat) (u : List Byte), u.length = 256 → 5 ≤ size → size ≤ 256 →
    (recordHolds kind size u = true ↔
      ∃ body, body.length + 4 = size ∧ body.head? = some kind ∧
        u = body ++ wordBytes (crc32 body) ++ List.replicate (256 - size) 0xFF))

/-! ### Start-up (spec/09) -/

/-- The reads of a start (R172, R174, R177, R180, log 7, log 10). The reset's end presents the read of copy A, copy
A's end that of copy B; copy B's end chooses the configuration, the higher sequence of two valid copies, A when they
are equal, the valid one of one, the defaults with CONFIG_FALLBACK logged of none (P1 to P3 without rights, log 48);
the scan then reads each slot's header in turn, and after the last the candidates are resolved
(`CandidatesAreResolved`). A check list that agrees with its seal record is held; of one that does not, a CURRENT slot
has LINE_DAMAGED logged, and any other is DIRTY with RECOVERY logged. What follows a read is `settle`
(`ChannelGrantsInOrder`). A read that the running operation is not changes nothing (log 3). -/
def Obligations.StartUpReads : Prop :=
  (∀ (o : Operation) (errors : ReadErrors) (s : State), s.live = true → s.chan.op = some o →
    let d := withErrors (Memory.page s.flash (o.addr / 4096)) errors
    let e : State := { s with chan := { s.chan with op := none, timeouts := 0,
                                                    state := if s.chan.state = .busy then .idle else s.chan.state } }
    (o.work = .configRead .a → exec (.configReadEnd errors) s = .next (State.settle
      { e with start := { s.start with copyA := readCopy d, request := some (.configRead .b) } })) ∧
    (o.work = .configRead .b → exec (.configReadEnd errors) s = .next (State.settle
      (State.chooseConfig { e with start := { s.start with copyB := readCopy d } }))) ∧
    (∀ n, o.work = .headerRead n → exec (.headerReadEnd errors) s = .next (State.settle
      (let x : State := { e with start := { s.start with scan := s.start.scan ++ [scanEntry s.largestImage d] } }
       if n.val + 1 < s.cfg.slotCount then { x with start := { x.start with request := some (.headerRead (n + 1)) } }
       else x.resolve))) ∧
    (∀ n, o.work = .listRead n → exec (.listReadEnd errors) s = .next (State.settle (e.listRead n d)))) ∧
  (∀ (s : State) (errors : ReadErrors),
    ((∀ o c, s.chan.op = some o → o.work ≠ .configRead c) → exec (.configReadEnd errors) s = .next s) ∧
    ((∀ o n, s.chan.op = some o → o.work ≠ .headerRead n) → exec (.headerReadEnd errors) s = .next s) ∧
    ((∀ o n, s.chan.op = some o → o.work ≠ .listRead n) → exec (.listReadEnd errors) s = .next s)) ∧
  (∀ s : State,
    (s.start.phase = .reset → s.resumeStart =
      { s with start := { s.start with phase := .config, request := some (.configRead .a) } }) ∧
    (s.start.phase = .config ∨ s.start.phase = .scan ∨ s.start.phase = .lists → s.resumeStart =
      { s with start := { s.start with request := s.start.retry, retry := none } }) ∧
    (s.start.phase = .done → s.resumeStart = s)) ∧
  (∀ s : State,
    let chosen (u : CopyUsed) (c : ConfigRecord) : State :=
      { s with cfg := c, start := { s.start with copyUsed := some u, phase := .scan, scan := [],
                                                 request := some (.headerRead 0) } }
    (∀ m n x y, s.start.copyA = some (m, x) → s.start.copyB = some (n, y) →
      s.chooseConfig = if m < n then chosen .b y else chosen .a x) ∧
    (∀ m x, s.start.copyA = some (m, x) → s.start.copyB = none → s.chooseConfig = chosen .a x) ∧
    (∀ n y, s.start.copyA = none → s.start.copyB = some (n, y) → s.chooseConfig = chosen .b y) ∧
    (s.start.copyA = none → s.start.copyB = none → s.chooseConfig =
      (chosen .defaults
        { flashExp := 24, slotExp := 20, slotCount := 15, idleTimeout := 10,
          ports := tset (Vector.replicate 4 PortConfig.unchosen) 0
            { enabled := true, supervised := false, fetch := true, update := true, supervise := true, resetHold := 10,
              restartLimit := 15, heartbeat := 1000, grace := 0, bootTimeout := 10000, restartWindow := 600,
              preloadCount := 0, prefetchDepth := 2, bootWindows := [] } }).log { kind := .configFallback })) ∧
  (∀ (n : SlotNo) (d : List Byte) (x : ScanEntry) (s : State), s.start.scan[n.val]? = some x →
    let pages := ((x.stageRec.map (·.length)).getD 0 + 4095) / 4096
    let line := x.stageRec.map (·.line)
    let entered (y : ScanEntry) : State := { s with start := { s.start with scan := s.start.scan.set n.val y } }
    let agrees := ∃ image, x.sealRec = some (image, crc32 (d.take (4 * pages)))
    (agrees → s.listRead n d = (entered { x with list := some (bytesWords pages d) }).nextList) ∧
    (¬ agrees → x.cls = .current →
      s.listRead n d = (s.log { kind := .lineDamaged, slot := some n, line := line }).nextList) ∧
    (¬ agrees → x.cls ≠ .current →
      s.listRead n d = ((entered { x with cls := .dirty .listFail }).log
        { kind := .recovery, slot := some n, line := line, detail := wordOf 6 }).nextList)) ∧
  (∀ (k : Nat) (d : List Byte) (i : Nat), i < k → 4 * k ≤ d.length →
    (bytesWords k d)[i]? = some (wordOf (leNat ((d.drop (4 * i)).take 4)))) ∧
  (∀ s : State,
    (∀ n rest, s.start.toRead = n :: rest → s.nextList =
      { s with start := { s.start with toRead := rest, request := some (.listRead n) } }) ∧
    (s.start.toRead = [] → s.nextList = s.rebuild.handOver))

/-- The classes of the scan (R178, R179). A blank header page is EMPTY; one without a valid stage record DIRTY; with it
and a valid commit record a committed candidate; with it and a valid seal record a sealed candidate; else DIRTY. Of a
line's committed candidates the highest generation, then the one without a valid retire record, then the higher version,
then the lower slot, is CURRENT and each other DIRTY; a sealed candidate no newer than the line's CURRENT slot is DIRTY;
of the rest the higher version, then the lower slot, is SEALED and each other DIRTY. RECOVERY is logged for each DIRTY
slot in slot order, and the check lists of the CURRENT slots, then of the SEALED ones, are read next. -/
def Obligations.CandidatesAreResolved : Prop :=
  (∀ (largest : Nat) (page : List Byte),
    let st := readStage largest page
    scanEntry largest page =
      { stageRec := st, sealRec := readSeal page, commitRec := readCommit page, retireRec := readRetire page,
        list := none,
        cls := if ∀ b ∈ page, b = 0xFF then .empty
          else if st = none then .dirty .invalidHeader
          else if readCommit page ≠ none then .committedCandidate
          else if readSeal page ≠ none then .sealedCandidate
          else .dirty .unsealed }) ∧
  (∀ (scan : List ScanEntry) (i : Nat) (e : ScanEntry), scan[i]? = some e →
    let of (x : ScanEntry) (c : ScanClass) (l : LineNo) := x.cls = c ∧ x.stageRec.map (·.line) = some l
    let version (x : ScanEntry) : Nat := (x.stageRec.map (fun r => r.version.toNat)).getD 0
    let generation (x : ScanEntry) : Nat := x.commitRec.getD 0
    let unretired (x : ScanEntry) : Nat := if x.retireRec = none then 1 else 0
    let newer (x : ScanEntry) (j : Nat) := version x < version e ∨ version x = version e ∧ i < j
    let current (l : LineNo) (k : Nat) (c : ScanEntry) :=
      scan[k]? = some c ∧ of c .committedCandidate l ∧
        ∀ j x, scan[j]? = some x → of x .committedCandidate l → j ≠ k →
          generation x < generation c ∨ generation x = generation c ∧
            (unretired x < unretired c ∨ unretired x = unretired c ∧
              (version x < version c ∨ version x = version c ∧ k < j))
    let old (l : LineNo) (x : ScanEntry) := ∃ k c, current l k c ∧ version x ≤ version c
    (resolveScan scan).length = scan.length ∧
    (∀ l, of e .committedCandidate l →
      (current l i e → (resolveScan scan)[i]? = some { e with cls := .current }) ∧
      (¬ current l i e → (resolveScan scan)[i]? = some { e with cls := .dirty .superseded })) ∧
    (∀ l, of e .sealedCandidate l →
      (old l e → (resolveScan scan)[i]? = some { e with cls := .dirty .oldVersion }) ∧
      (¬ old l e →
        ((∀ j x, scan[j]? = some x → of x .sealedCandidate l → ¬ old l x → j ≠ i → newer x j) →
          (resolveScan scan)[i]? = some { e with cls := .sealed }) ∧
        ((∃ j x, scan[j]? = some x ∧ of x .sealedCandidate l ∧ ¬ old l x ∧ j ≠ i ∧ ¬ newer x j) →
          (resolveScan scan)[i]? = some { e with cls := .dirty .duplicateSeal }))) ∧
    (e.cls ≠ .committedCandidate → e.cls ≠ .sealedCandidate → (resolveScan scan)[i]? = some e)) ∧
  (∀ (s : State), s.start.scan.length ≤ 16 →
    let scan := resolveScan s.start.scan
    let of (c : ScanClass) : List SlotNo :=
      State.allSlots.filter (fun n => (scan[n.val]?).map (·.cls) == some c)
    let recovery (x : State) (n : SlotNo) : State :=
      match scan[n.val]? with
      | none => x
      | some e =>
        match e.cls with
        | .dirty r => x.log { kind := .recovery, slot := some n, line := e.stageRec.map (·.line), detail := wordOf r.code }
        | _ => x
    s.resolve = (State.allSlots.foldl recovery
      { s with start := { s.start with scan := scan, phase := .lists, toRead := of .current ++ of .sealed } }).nextList)

/-- The rebuild and the hand-over (R26, R180, R182, R135, R136, R169, R181, R175, log 31). The slots and lines hold what
the scan found; no lock exists and every pin count is 0. Start-up is DONE; STARTUP is logged with the kind of start and
the copy used; the configuration writer takes the state of each copy; each port that is not enabled is OFF with its link
DOWN and its notices gone, and each that is enabled is PRELOADING with its boot windows asked for; the ports are taken
from P0 to P3 (log 61), and then the held status commands are settled. -/
def Obligations.RebuildAndHandOver : Prop :=
  (∀ s : State,
    let t := s.rebuild
    let scan := s.start.scan
    t = { s with slots := t.slots, lines := t.lines } ∧
    (∀ n : SlotNo, scan[n.val]? = none → t.slot n = Slot.reset) ∧
    (∀ (n : SlotNo) e, scan[n.val]? = some e →
      let known : Slot := { Slot.reset with
        line := e.stageRec.map (·.line), name := e.stageRec.map (·.name), version := e.stageRec.map (·.version),
        length := e.stageRec.map (·.length) }
      (e.cls = .empty → t.slot n = Slot.reset) ∧
      (∀ r, e.cls = .dirty r → t.slot n = { known with state := .dirty, generation := e.commitRec }) ∧
      (e.cls = .sealed → t.slot n = { known with state := .sealed, checkList := e.list }) ∧
      (e.cls = .current →
        t.slot n = { known with state := .current, generation := e.commitRec, checkList := e.list })) ∧
    (∀ l : LineNo,
      let of (c : ScanClass) (n : SlotNo) := ∃ e, scan[n.val]? = some e ∧ e.cls = c ∧ e.stageRec.map (·.line) = some l
      (∀ n, of .sealed n → (∀ m, of .sealed m → m = n) → (t.line l).pending = some n) ∧
      ((∀ n, ¬ of .sealed n) → (t.line l).pending = none) ∧
      ((∀ n, ¬ of .current n) → t.line l = { Line.reset with pending := (t.line l).pending }) ∧
      (∀ n e, of .current n → (∀ m, of .current m → m = n) → scan[n.val]? = some e →
        t.line l =
          { state := if e.list = none then .damaged else .active, name := e.stageRec.map (·.name), current := some n,
            pending := (t.line l).pending, generation := e.commitRec.getD 0, version := e.stageRec.map (·.version),
            lock := none }))) ∧
  (∀ s : State,
    let copy (c : Option (Nat × ConfigRecord)) : CopyState :=
      match c with
      | none => .invalid
      | some (n, _) => .valid n
    let kind := match s.start.kind with | .cold => 0 | .restart => 1
    let used := match s.start.copyUsed with | none | some .a => 0 | some .b => 1 | some .defaults => 2
    let a := ({ s with start := { s.start with phase := .done },
                       cfgw := { copyA := copy s.start.copyA, copyB := copy s.start.copyB, write := none } } : State).log
      { kind := .startup, detail := packWord kind used 0 0 }
    s.handOver = State.allPorts.foldl (fun x p => (x.settleStatus p 0).settleStatus p 1)
      (State.allPorts.foldl (fun x p => x.handOverPort p) a)) ∧
  (∀ (p : Port) (s : State),
    let off (x : State) : State := x.modPort p (fun r => { r with notices := [], lost := 0, sup :=
      { r.sup with state := .off, lineAsserted := true, timer := .stopped } })
    ((s.portCfg p).enabled = true → s.handOverPort p = s.modPort p (fun r =>
      { r with sup := { r.sup with state := .preloading, lineAsserted := true, timer := .stopped,
                                   bootRequest := r.sup.bootRequest + 1 },
               bindItems := r.bindItems ++ [.boot (r.sup.bootRequest + 1)] })) ∧
    ((s.portCfg p).enabled = false → (s.port p).link.state = .up → s.handOverPort p = off (s.linkDown p .off)) ∧
    ((s.portCfg p).enabled = false → (s.port p).link.state ≠ .up → s.handOverPort p = off (s.modPort p (fun r =>
      { r with link := { r.link with state := .down, trainTimer := none } })))) ∧
  (∀ (p : Port) (t : CmdTag) (a : Word) (s : State), (s.cmdTag p t).args = [a] →
    ((s.cmdTag p t).command = some .statusLine → s.settleStatus p t = s.statusLineBody p t a) ∧
    ((s.cmdTag p t).command = some .statusSlot → s.settleStatus p t = s.statusSlotBody p t a) ∧
    ((s.cmdTag p t).command = some .statusPort → s.settleStatus p t = s.statusPortBody p t a)) ∧
  (∀ (p : Port) (t : CmdTag) (s : State), (s.cmdTag p t).args = [] → s.settleStatus p t = s)

/-! ### Supervision (spec/07) -/

/-- The heartbeat, the release and the hold (R137, R139, R140, R145, R146, R147, R150, log 2, log 22). SERVICE by the
port's state and the token: an accepted one draws a token that is not 0 and not the one it replaces, makes the port
RUNNING with the deadline at the heartbeat period and carries both; else BAD_TOKEN or NOT_SUPERVISED, and nothing else
changes. RELEASE_PORT: BAD_ARGUMENT, BAD_STATE, or a QUARANTINED port is HELD with an empty history and its hold
begun. PRELOAD_COMPLETE releases a PRELOADING master into BOOTING or FREE. RESET_HOLD_EXPIRY makes a HELD port
PRELOADING. RESTART_CLEAR_NOTICES empties the notice queue and drops the replies held at the restart. PRELOAD_COMPLETE
with no report, RESET_HOLD_EXPIRY outside a running hold and RESTART_CLEAR_NOTICES with no request change nothing (log
3). -/
def Obligations.MastersAreHeldAndReleased : Prop :=
  (∀ (p : Port) (q : Seq) (t : CmdTag) (token : Word) (s : State), s.Dispatched p q t .service →
    let o := s.opened p q t (some .service)
    let u := (s.port p).sup
    let tok := token.setWidth 16
    let beat := (s.portCfg p).heartbeat
    let answered (st : Status) := exec (.service p q t token) s = .next (o.replied p t st [])
    let accepted (old : Option (BitVec 16)) := ∃ new : BitVec 16, new ≠ 0 ∧ some new ≠ old ∧
      exec (.service p q t token) s = .next ((({ o with draws := s.draws + 1 } : State).modPort p (fun r =>
        { r with sup := { r.sup with state := .running, token := some new, timer := .deadline (beat * 1000) } })).replied
          p t .ok [wordOf new.toNat, wordOf beat])
    (u.state = .booting → tok = 0 → accepted u.lastToken) ∧
    (u.state = .booting → tok ≠ 0 → answered .badToken) ∧
    (u.state = .running ∨ u.state = .warned → u.token = some tok → accepted u.token) ∧
    (u.state = .running ∨ u.state = .warned → u.token ≠ some tok → answered .badToken) ∧
    (u.state = .free ∨ u.state = .off ∨ s.Held p → answered .notSupervised)) ∧
  (∀ (p : Port) (q : Seq) (t : CmdTag) (port : Word) (s : State), s.Dispatched p q t .releasePort → ¬ s.Held p →
    let o := s.opened p q t (some .releasePort)
    (4 ≤ port.toNat → exec (.releasePort p q t port) s = .next (o.replied p t .badArgument [])) ∧
    (∀ x : Port, port.toNat = x.val →
      ((s.port x).sup.state ≠ .quarantined → exec (.releasePort p q t port) s = .next (o.replied p t .badState [])) ∧
      ((s.port x).sup.state = .quarantined → exec (.releasePort p q t port) s = .next
        ((o.modPort x (fun r => { r with sup := { r.sup with
          state := .held, history := [], timer := .resetHold ((s.portCfg x).resetHold * 1000) } })).replied p t .ok [])))) ∧
  (∀ (p : Port) (k : Nat) (s : State), s.live = true → (s.port p).completions = k + 1 →
    let c := s.portCfg p
    exec (.preloadComplete p) s = .next (s.modPort p (fun r =>
      { r with completions := k,
               sup := if r.sup.state ≠ .preloading then r.sup
                 else if c.supervised then
                   { r.sup with state := .booting, lineAsserted := false, timer := .bootTimeout (c.bootTimeout * 1000) }
                 else { r.sup with state := .free, lineAsserted := false, timer := .stopped } }))) ∧
  (∀ (p : Port) (s : State), (s.port p).completions = 0 → exec (.preloadComplete p) s = .next s) ∧
  (∀ (p : Port) (d : Nat) (s : State), s.live = true → (s.port p).sup.state = .held →
    (s.port p).sup.timer = .resetHold d →
    exec (.resetHoldExpiry p) s = .next ((s.advance d).modPort p (fun r =>
      { r with sup := { r.sup with state := .preloading, lineAsserted := true, timer := .stopped,
                                   bootRequest := r.sup.bootRequest + 1 },
               bindItems := r.bindItems ++ [.boot (r.sup.bootRequest + 1)] }))) ∧
  (∀ (p : Port) (s : State), ((s.port p).sup.state ≠ .held ∨ ∀ d, (s.port p).sup.timer ≠ .resetHold d) →
    exec (.resetHoldExpiry p) s = .next s) ∧
  (∀ (p : Port) (k : Nat) (s : State), s.live = true → (s.port p).clearNotices = k + 1 →
    let cut (c : CmdTagRecord) : CmdTagRecord :=
      if c.restartHeld = false then c
      else match c.state with
        | .opened => { c with state := .discard }
        | .ready => CmdTagRecord.reset
        | .free => c
        | .discard => c
    let u := s.modPort p (fun r =>
      { r with clearNotices := k, notices := [], lost := 0, cmdTags := tmap cut r.cmdTags })
    let restarts := ∃ t, (s.cmdTag p t).restartHeld = true ∧ (s.cmdTag p t).state = .ready ∧
      (s.cmdTag p t).command = some .restartHub ∧ (s.cmdTag p t).status = some .ok
    (¬ restarts → exec (.restartClearNotices p) s = .next u.settle) ∧
    (restarts → exec (.restartClearNotices p) s = .next (State.settle { u with hubRestart := .dropped }))) ∧
  (∀ (p : Port) (s : State), (s.port p).clearNotices = 0 → exec (.restartClearNotices p) s = .next s)

/-- A port restart and its causes (R143, R148, R146, R138, R141, R142, R149, log 2). The entries of the history older
than the window are removed and the time is appended; past the limit the port is QUARANTINED, else HELD with its hold
begun; the line is asserted, the token becomes the last token, and the cause is recorded; each neighbour is handed its
request and the tags in use are marked; PORT_RESET is logged, with the requesting port for the cause COMMAND and an
absent field for the others (log 38), and handed to the other supervising ports, and PORT_QUARANTINED logged.
BOOT_TIMEOUT, GRACE_EXPIRY and, with grace 0, DEADLINE_EXPIRY restart the port; with a grace above 0 it is WARNED; an
expiry of a timer that does not run changes nothing (log 3). RESET_PORT: BAD_ARGUMENT; BAD_STATE for a port that is
OFF or QUARANTINED; else the port is restarted and the reply carries the state entered. -/
def Obligations.PortsAreRestarted : Prop :=
  (∀ (p : Port) (cause : RestartCause) (by' : Option Port) (s : State),
    let c := s.portCfg p
    let history :=
      (s.port p).sup.history.dropWhile (fun t => decide (c.restartWindow * 1000000 < s.clock - t)) ++ [s.clock]
    let entered : SupState := if c.restartLimit < history.length then .quarantined else .held
    let told := State.allPorts.filter (fun x =>
      s.started && (s.portCfg x).supervise && x != p && (s.port x).sup.state != .off)
    let x := s.modPort p (fun r =>
      { r with
        sup := { r.sup with
          state := entered, lineAsserted := true,
          timer := if entered = .quarantined then .stopped else .resetHold (c.resetHold * 1000),
          token := none, lastToken := if r.sup.token = none then r.sup.lastToken else r.sup.token,
          history := history, lastCause := some cause },
        cancelLoads := if r.sup.state = .preloading then r.cancelLoads + 1 else r.cancelLoads,
        bindItems := r.bindItems ++ [.unbindAll], endReads := r.endReads + 1, clearNotices := r.clearNotices + 1,
        dropLock := r.dropLock + 1,
        cmdTags := tmap (fun k => if k.state = .free then k else { k with restartHeld := true }) r.cmdTags })
    let y := x.log { kind := .portReset, port := some p,
                     detail := packWord cause.code entered.code (optByte (by'.map Fin.val)) 0 }
    let z := told.foldl (fun z t => z.hand t { kind := .portReset, subject := some p.val,
                                               value := packWord cause.code entered.code 0 0 }) y
    s.restart p cause by' =
      if entered = .quarantined then z.log { kind := .portQuarantined, port := some p } else z) ∧
  (∀ (p : Port) (d : Nat) (s : State), s.live = true →
    ((s.port p).sup.state = .booting → (s.port p).sup.timer = .bootTimeout d →
      exec (.bootTimeout p) s = .next ((s.advance d).restart p .bootTimeout none)) ∧
    ((s.port p).sup.state = .warned → (s.port p).sup.timer = .grace d →
      exec (.graceExpiry p) s = .next ((s.advance d).restart p .deadline none)) ∧
    ((s.port p).sup.state = .running → (s.port p).sup.timer = .deadline d →
      let c := s.portCfg p
      (c.grace = 0 → exec (.deadlineExpiry p) s = .next ((s.advance d).restart p .deadline none)) ∧
      (c.grace ≠ 0 → exec (.deadlineExpiry p) s = .next
        ((((s.advance d).modPort p (fun r =>
            { r with sup := { r.sup with state := .warned, timer := .grace (c.grace * 1000) } })).hand p
          { kind := .supervisionWarning, subject := some p.val, value := wordOf c.grace }).log
          { kind := .portWarned, port := some p, detail := wordOf c.heartbeat })))) ∧
  (∀ (p : Port) (s : State),
    ((s.port p).sup.state ≠ .booting ∨ (∀ d, (s.port p).sup.timer ≠ .bootTimeout d) →
      exec (.bootTimeout p) s = .next s) ∧
    ((s.port p).sup.state ≠ .warned ∨ (∀ d, (s.port p).sup.timer ≠ .grace d) → exec (.graceExpiry p) s = .next s) ∧
    ((s.port p).sup.state ≠ .running ∨ (∀ d, (s.port p).sup.timer ≠ .deadline d) →
      exec (.deadlineExpiry p) s = .next s)) ∧
  (∀ (p : Port) (q : Seq) (t : CmdTag) (port : Word) (s : State), s.Dispatched p q t .resetPort → ¬ s.Held p →
    let o := s.opened p q t (some .resetPort)
    (4 ≤ port.toNat → exec (.resetPort p q t port) s = .next (o.replied p t .badArgument [])) ∧
    (∀ x : Port, port.toNat = x.val →
      ((s.port x).sup.state = .off ∨ (s.port x).sup.state = .quarantined →
        exec (.resetPort p q t port) s = .next (o.replied p t .badState [])) ∧
      ((s.port x).sup.state ≠ .off → (s.port x).sup.state ≠ .quarantined →
        let z := o.restart x .command (some p)
        exec (.resetPort p q t port) s = .next (z.replied p t .ok [wordOf (z.port x).sup.state.code]))))

/-! ### Status queries and the event record (spec/10) -/

/-- STATUS_LINE, STATUS_SLOT, STATUS_PORT, READ_EVENTS and RESTART_HUB (R183, R184, R185, R187, R171, section 11.2,
log 19, log 20, log 42). The status commands are answered in every state of the port: BAD_ARGUMENT for a number that
names no line, slot or port, else the words of the records as they stand. READ_EVENTS refuses a count outside 1 to 8;
else it answers by the starting sequence's distance from the oldest entry. RESTART_HUB is answered OK. An append
(R186) gives the entry the counter's value, raises the counter by 1, 4294967295 wrapping to 0, and puts the entry at the
newest end; of 64 entries the oldest leaves. -/
def Obligations.QueriesAreAnswered : Prop :=
  (∀ (p : Port) (q : Seq) (t : CmdTag) (line : Word) (s : State), s.Dispatched p q t .statusLine →
    let o := s.opened p q t (some .statusLine)
    (8 ≤ line.toNat → exec (.statusLine p q t line) s = .next (o.replied p t .badArgument [])) ∧
    (∀ l : LineNo, line.toNat = l.val →
      let r := s.line l
      let idle := match r.lock with
        | none => wordOf 0xFFFFFFFF
        | some k => match k.idle with
          | none => wordOf 0xFFFFFFFE
          | some d => wordOf (d / 1000)
      let phase := match r.lock with
        | none => none
        | some _ => (s.work l).map (fun w => w.phase.code)
      exec (.statusLine p q t line) s = .next (o.replied p t .ok
        ([packWord r.state.code (optByte (r.current.map Fin.val)) (optByte (r.pending.map Fin.val))
            (optByte (r.lock.map (fun k => k.holder.val)))] ++ nameWords r.name ++
          [packWord r.generation (r.generation / 256) (optByte phase) (optByte ((s.sequence l).map (fun c => c.port.val))),
           r.version.getD (wordOf 0xFFFFFFFF), packWord (optByte (r.lock.map (fun k => k.slot.val))) 0 0 0, idle,
           0])))) ∧
  (∀ (p : Port) (q : Seq) (t : CmdTag) (slot : Word) (s : State), s.Dispatched p q t .statusSlot →
    let o := s.opened p q t (some .statusSlot)
    (16 ≤ slot.toNat ∨ s.cfg.slotCount ≤ slot.toNat →
      exec (.statusSlot p q t slot) s = .next (o.replied p t .badArgument [])) ∧
    (∀ n : SlotNo, slot.toNat = n.val → n.val < s.cfg.slotCount →
      let r := s.slot n
      let generation := r.generation.getD 0xFFFF
      let cursor := match s.reclaim with
        | none => none
        | some j => if j.target = n then some j.cursor else none
      exec (.statusSlot p q t slot) s = .next (o.replied p t .ok
        ([packWord r.state.code (optByte (r.line.map Fin.val)) (if r.checkList = none then 0 else 1)
            (if r.reclaimHold then 1 else 0)] ++ nameWords r.name ++
          [r.version.getD (wordOf 0xFFFFFFFF), (r.length.map wordOf).getD (wordOf 0xFFFFFFFF),
           packWord generation (generation / 256) (optByte cursor) 0,
           packWord r.windowPins r.segmentPins r.fillPins 0, 0])))) ∧
  (∀ (p : Port) (q : Seq) (t : CmdTag) (port : Word) (s : State), s.Dispatched p q t .statusPort →
    let o := s.opened p q t (some .statusPort)
    (4 ≤ port.toNat → exec (.statusPort p q t port) s = .next (o.replied p t .badArgument [])) ∧
    (∀ x : Port, port.toNat = x.val → x = p ∨ (s.portCfg p).supervise = true →
      exec (.statusPort p q t port) s = .next (o.replied p t .ok (o.portWords x)))) ∧
  (∀ (p : Port) (s : State),
    let r := s.port p
    let c := s.portCfg p
    let bit (b : Bool) : Nat := if b then 1 else 0
    let timer : Nat × Word := match r.sup.timer with
      | .stopped => (0xFF, wordOf 0xFFFFFFFF)
      | .resetHold d => (0, wordOf (d / 1000))
      | .bootTimeout d => (1, wordOf (d / 1000))
      | .deadline d => (2, wordOf (d / 1000))
      | .grace d => (3, wordOf (d / 1000))
    let window (b : Option Binding) : List Word := match b with
      | none => [wordOf 0xFFFFFFFF, packWord 0xFF 0xFF 0xFF 0, packWord 0xFF 0 0xFF 0xFF]
      | some b => [wordOf (b.base % 16777216 + 16777216 * Nat.log2 b.size),
                   packWord (b.offset / 4096) (b.offset / 4096 / 256) b.line.val (1 + 2 * bit b.boot),
                   packWord b.slot.val 0 b.generation (b.generation / 256)]
    let lock : Word := match s.lockOf p with
      | none => packWord 0xFF 0xFF 0xFF 0
      | some l => packWord l.val (optByte ((s.line l).lock.map (fun k => k.slot.val)))
          (optByte ((s.work l).map (fun w => w.phase.code))) (bit ((s.work l).elim false (·.lossPending)))
    s.portWords p =
      [packWord r.sup.state.code (bit r.sup.lineAsserted) timer.1 r.sup.history.length, timer.2,
       packWord (optByte (r.sup.lastCause.map RestartCause.code)) (bit c.fetch + 2 * bit c.update + 4 * bit c.supervise)
         (bit c.supervised) r.link.state.code] ++
      window (s.window p 0) ++ window (s.window p 1) ++ window (s.window p 2) ++ window (s.window p 3) ++
      [lock,
       wordOf ((s.readTag p 0).state.code + 4 * (s.readTag p 1).state.code + 16 * (s.readTag p 2).state.code +
         64 * (s.readTag p 3).state.code + 256 * (s.readTag p 4).state.code + 1024 * (s.readTag p 5).state.code +
         4096 * (s.readTag p 6).state.code + 16384 * (s.readTag p 7).state.code),
       wordOf ((s.cmdTag p 0).state.code + 4 * (s.cmdTag p 1).state.code), packWord r.notices.length r.lost 0 0, 0]) ∧
  (∀ (p : Port) (q : Seq) (t : CmdTag) (start count : Word) (s : State), s.Dispatched p q t .readEvents → ¬ s.Held p →
    let o := s.opened p q t (some .readEvents)
    let held := s.events.entries
    let k := count.toNat
    let answered (es : List Event) (gap : Nat) (next : Word) := exec (.readEvents p q t start count) s =
      .next (o.replied p t .ok ([packWord es.length gap 0 0, next] ++ es.flatMap Event.words))
    (k = 0 ∨ 8 < k → exec (.readEvents p q t start count) s = .next (o.replied p t .badArgument [])) ∧
    (1 ≤ k → k ≤ 8 →
      (held = [] → start = s.events.next → answered [] 0 start) ∧
      (held = [] → start ≠ s.events.next → answered [] 1 s.events.next) ∧
      (∀ oldest rest, held = oldest :: rest →
        let d := (start - oldest.seq).toNat
        (∀ last, d < held.length → ((held.drop d).take k).getLast? = some last →
          answered ((held.drop d).take k) 0 (last.seq + 1)) ∧
        (d = held.length → answered [] 0 start) ∧
        (∀ last, held.length < d → (held.take k).getLast? = some last → answered (held.take k) 1 (last.seq + 1))))) ∧
  (∀ (p : Port) (q : Seq) (t : CmdTag) (s : State), s.Dispatched p q t .restartHub → ¬ s.Held p →
    exec (.restartHub p q t) s = .next ((s.opened p q t (some .restartHub)).replied p t .ok [])) ∧
  (∀ (e : EventBody) (s : State),
    let entry : Event := { seq := s.events.next, body := e }
    (s.events.entries.length < 64 →
      s.log e = { s with events := { entries := s.events.entries ++ [entry], next := s.events.next + 1 } }) ∧
    (∀ oldest rest, s.events.entries = oldest :: rest → 64 ≤ s.events.entries.length →
      s.log e = { s with events := { entries := rest ++ [entry], next := s.events.next + 1 } }) ∧
    (s.events.next = 0xFFFFFFFF → (s.log e).events.next = 0))

/-! ### What every step keeps -/

/-- Every step keeps these, whatever the command: the flash is in its canonical form (log 4); every port's reset line is
asserted exactly in OFF, HELD, PRELOADING and QUARANTINED (R134); the event record holds at most 64 entries with
consecutive sequences that end just below the counter (R186); every retransmit buffer holds at most 4 packets (R152). -/
def Obligations.StepsKeepTheInvariants : Prop :=
  ∀ s t : State, step s = .next t →
    s.FlashCanonical ∧ s.LinesAgree ∧ s.EventsInOrder ∧ s.BuffersFit →
    t.FlashCanonical ∧ t.LinesAgree ∧ t.EventsInOrder ∧ t.BuffersFit

/-- The invariants of `StepsKeepTheInvariants` hold right after reset. -/
def Obligations.ResetMeetsTheInvariants : Prop :=
  State.reset.FlashCanonical ∧ State.reset.LinesAgree ∧ State.reset.EventsInOrder ∧ State.reset.BuffersFit
end

