-- ==== Sys2Proof/Laws/Tables.lean ====
section
/-!
SUPPORT. Reading a table after a write, a map or a fill.
-/

namespace Sys2Proof

theorem tget_eq_getElem {α : Type} {n : Nat} (v : Vector α n) (i : Fin n) : tget v i = v[i.val] := rfl

@[simp] theorem tget_tset_same {α : Type} {n : Nat} (v : Vector α n) (i : Fin n) (a : α) :
    tget (tset v i a) i = a := by
  simp [tget_eq_getElem, tset]

@[simp] theorem tget_tset_ne {α : Type} {n : Nat} (v : Vector α n) {i j : Fin n} (a : α) (h : j ≠ i) :
    tget (tset v i a) j = tget v j := by
  have h' : i.val ≠ j.val := fun e => h (Fin.ext e.symm)
  simp [tget_eq_getElem, tset, Vector.getElem_set_ne, h']

theorem tget_tset {α : Type} {n : Nat} (v : Vector α n) (i j : Fin n) (a : α) :
    tget (tset v i a) j = if j = i then a else tget v j := by
  by_cases h : j = i
  · subst h; simp
  · simp [h]

@[simp] theorem tget_tmap {α β : Type} {n : Nat} (f : α → β) (v : Vector α n) (i : Fin n) :
    tget (tmap f v) i = f (tget v i) := by
  simp [tget_eq_getElem, tmap]

@[simp] theorem tget_replicate {α : Type} {n : Nat} (a : α) (i : Fin n) :
    tget (Vector.replicate n a) i = a := by
  simp [tget_eq_getElem]

/-- Two tables that read alike are the same. -/
theorem table_ext {α : Type} {n : Nat} {v w : Vector α n} (h : ∀ i, tget v i = tget w i) : v = w := by
  apply Vector.ext
  intro i hi
  exact h ⟨i, hi⟩

@[simp] theorem tset_tget {α : Type} {n : Nat} (v : Vector α n) (i : Fin n) : tset v i (tget v i) = v := by
  apply table_ext
  intro j
  by_cases h : j = i
  · subst h; simp
  · simp [h]

@[simp] theorem tset_tset {α : Type} {n : Nat} (v : Vector α n) (i : Fin n) (a b : α) :
    tset (tset v i a) i b = tset v i b := by
  apply table_ext
  intro j
  by_cases h : j = i
  · subst h; simp
  · simp [h]

/-- The number a search finds passes its test. -/
theorem tfind_some {α : Type} {n : Nat} {f : α → Bool} {v : Vector α n} {i : Fin n} (h : tfind f v = some i) :
    f (tget v i) = true := by
  have := List.find?_some h
  simpa using this

/-- No entry below the number a search finds passes its test. -/
theorem tfind_first {α : Type} {n : Nat} {f : α → Bool} {v : Vector α n} {i : Fin n} (h : tfind f v = some i) :
    ∀ j, j < i → f (tget v j) = false := by
  intro j hj
  obtain ⟨_, k, hk, e, low⟩ := List.find?_eq_some_iff_getElem.mp h
  have : i.val = k := by rw [← e]; simp
  have lt : j.val < k := by rw [← this]; exact hj
  have := low j.val lt
  simpa using this

/-- A search that finds nothing: no entry passes the test. -/
theorem tfind_none {α : Type} {n : Nat} {f : α → Bool} {v : Vector α n} (h : tfind f v = none) (i : Fin n) :
    f (tget v i) = false := by
  have := (List.find?_eq_none.mp h) i (List.mem_finRange i)
  simpa using this

/-- A map leaves a table as it is when it leaves each entry as it is. -/
theorem tmap_id {α : Type} {n : Nat} {f : α → α} {v : Vector α n} (h : ∀ i, f (tget v i) = tget v i) :
    tmap f v = v := by
  apply table_ext
  intro i
  simp [h]

end Sys2Proof
end

