-- ==== Sys2Proof/Laws/State.lean ====
section
/-!
SUPPORT. One lemma per field per update of State, so that no proof unfolds a record update.
-/

namespace Sys2Proof.Machine.State

/-! ### modPort -/

@[simp] theorem modPort_powered (p : Port) (f : PortRecord → PortRecord) (s : State) : (s.modPort p f).powered = s.powered := rfl
@[simp] theorem modPort_resetInput (p : Port) (f : PortRecord → PortRecord) (s : State) : (s.modPort p f).resetInput = s.resetInput := rfl
@[simp] theorem modPort_hubRestart (p : Port) (f : PortRecord → PortRecord) (s : State) : (s.modPort p f).hubRestart = s.hubRestart := rfl
@[simp] theorem modPort_clock (p : Port) (f : PortRecord → PortRecord) (s : State) : (s.modPort p f).clock = s.clock := rfl
@[simp] theorem modPort_draws (p : Port) (f : PortRecord → PortRecord) (s : State) : (s.modPort p f).draws = s.draws := rfl
@[simp] theorem modPort_flash (p : Port) (f : PortRecord → PortRecord) (s : State) : (s.modPort p f).flash = s.flash := rfl
@[simp] theorem modPort_cfg (p : Port) (f : PortRecord → PortRecord) (s : State) : (s.modPort p f).cfg = s.cfg := rfl
@[simp] theorem modPort_lines (p : Port) (f : PortRecord → PortRecord) (s : State) : (s.modPort p f).lines = s.lines := rfl
@[simp] theorem modPort_slots (p : Port) (f : PortRecord → PortRecord) (s : State) : (s.modPort p f).slots = s.slots := rfl
@[simp] theorem modPort_ports (p : Port) (f : PortRecord → PortRecord) (s : State) : (s.modPort p f).ports = tset s.ports p (f (s.port p)) := rfl
@[simp] theorem modPort_segments (p : Port) (f : PortRecord → PortRecord) (s : State) : (s.modPort p f).segments = s.segments := rfl
@[simp] theorem modPort_frameWait (p : Port) (f : PortRecord → PortRecord) (s : State) : (s.modPort p f).frameWait = s.frameWait := rfl
@[simp] theorem modPort_frames (p : Port) (f : PortRecord → PortRecord) (s : State) : (s.modPort p f).frames = s.frames := rfl
@[simp] theorem modPort_age (p : Port) (f : PortRecord → PortRecord) (s : State) : (s.modPort p f).age = s.age := rfl
@[simp] theorem modPort_fill (p : Port) (f : PortRecord → PortRecord) (s : State) : (s.modPort p f).fill = s.fill := rfl
@[simp] theorem modPort_chan (p : Port) (f : PortRecord → PortRecord) (s : State) : (s.modPort p f).chan = s.chan := rfl
@[simp] theorem modPort_upd (p : Port) (f : PortRecord → PortRecord) (s : State) : (s.modPort p f).upd = s.upd := rfl
@[simp] theorem modPort_reclaim (p : Port) (f : PortRecord → PortRecord) (s : State) : (s.modPort p f).reclaim = s.reclaim := rfl
@[simp] theorem modPort_cfgw (p : Port) (f : PortRecord → PortRecord) (s : State) : (s.modPort p f).cfgw = s.cfgw := rfl
@[simp] theorem modPort_start (p : Port) (f : PortRecord → PortRecord) (s : State) : (s.modPort p f).start = s.start := rfl
@[simp] theorem modPort_events (p : Port) (f : PortRecord → PortRecord) (s : State) : (s.modPort p f).events = s.events := rfl
@[simp] theorem modPort_pending (p : Port) (f : PortRecord → PortRecord) (s : State) : (s.modPort p f).pending = s.pending := rfl

/-! ### modLine -/

@[simp] theorem modLine_powered (l : LineNo) (f : Line → Line) (s : State) : (s.modLine l f).powered = s.powered := rfl
@[simp] theorem modLine_resetInput (l : LineNo) (f : Line → Line) (s : State) : (s.modLine l f).resetInput = s.resetInput := rfl
@[simp] theorem modLine_hubRestart (l : LineNo) (f : Line → Line) (s : State) : (s.modLine l f).hubRestart = s.hubRestart := rfl
@[simp] theorem modLine_clock (l : LineNo) (f : Line → Line) (s : State) : (s.modLine l f).clock = s.clock := rfl
@[simp] theorem modLine_draws (l : LineNo) (f : Line → Line) (s : State) : (s.modLine l f).draws = s.draws := rfl
@[simp] theorem modLine_flash (l : LineNo) (f : Line → Line) (s : State) : (s.modLine l f).flash = s.flash := rfl
@[simp] theorem modLine_cfg (l : LineNo) (f : Line → Line) (s : State) : (s.modLine l f).cfg = s.cfg := rfl
@[simp] theorem modLine_lines (l : LineNo) (f : Line → Line) (s : State) : (s.modLine l f).lines = tset s.lines l (f (s.line l)) := rfl
@[simp] theorem modLine_slots (l : LineNo) (f : Line → Line) (s : State) : (s.modLine l f).slots = s.slots := rfl
@[simp] theorem modLine_ports (l : LineNo) (f : Line → Line) (s : State) : (s.modLine l f).ports = s.ports := rfl
@[simp] theorem modLine_segments (l : LineNo) (f : Line → Line) (s : State) : (s.modLine l f).segments = s.segments := rfl
@[simp] theorem modLine_frameWait (l : LineNo) (f : Line → Line) (s : State) : (s.modLine l f).frameWait = s.frameWait := rfl
@[simp] theorem modLine_frames (l : LineNo) (f : Line → Line) (s : State) : (s.modLine l f).frames = s.frames := rfl
@[simp] theorem modLine_age (l : LineNo) (f : Line → Line) (s : State) : (s.modLine l f).age = s.age := rfl
@[simp] theorem modLine_fill (l : LineNo) (f : Line → Line) (s : State) : (s.modLine l f).fill = s.fill := rfl
@[simp] theorem modLine_chan (l : LineNo) (f : Line → Line) (s : State) : (s.modLine l f).chan = s.chan := rfl
@[simp] theorem modLine_upd (l : LineNo) (f : Line → Line) (s : State) : (s.modLine l f).upd = s.upd := rfl
@[simp] theorem modLine_reclaim (l : LineNo) (f : Line → Line) (s : State) : (s.modLine l f).reclaim = s.reclaim := rfl
@[simp] theorem modLine_cfgw (l : LineNo) (f : Line → Line) (s : State) : (s.modLine l f).cfgw = s.cfgw := rfl
@[simp] theorem modLine_start (l : LineNo) (f : Line → Line) (s : State) : (s.modLine l f).start = s.start := rfl
@[simp] theorem modLine_events (l : LineNo) (f : Line → Line) (s : State) : (s.modLine l f).events = s.events := rfl
@[simp] theorem modLine_pending (l : LineNo) (f : Line → Line) (s : State) : (s.modLine l f).pending = s.pending := rfl

/-! ### modSlot -/

@[simp] theorem modSlot_powered (n : SlotNo) (f : Slot → Slot) (s : State) : (s.modSlot n f).powered = s.powered := rfl
@[simp] theorem modSlot_resetInput (n : SlotNo) (f : Slot → Slot) (s : State) : (s.modSlot n f).resetInput = s.resetInput := rfl
@[simp] theorem modSlot_hubRestart (n : SlotNo) (f : Slot → Slot) (s : State) : (s.modSlot n f).hubRestart = s.hubRestart := rfl
@[simp] theorem modSlot_clock (n : SlotNo) (f : Slot → Slot) (s : State) : (s.modSlot n f).clock = s.clock := rfl
@[simp] theorem modSlot_draws (n : SlotNo) (f : Slot → Slot) (s : State) : (s.modSlot n f).draws = s.draws := rfl
@[simp] theorem modSlot_flash (n : SlotNo) (f : Slot → Slot) (s : State) : (s.modSlot n f).flash = s.flash := rfl
@[simp] theorem modSlot_cfg (n : SlotNo) (f : Slot → Slot) (s : State) : (s.modSlot n f).cfg = s.cfg := rfl
@[simp] theorem modSlot_lines (n : SlotNo) (f : Slot → Slot) (s : State) : (s.modSlot n f).lines = s.lines := rfl
@[simp] theorem modSlot_slots (n : SlotNo) (f : Slot → Slot) (s : State) : (s.modSlot n f).slots = tset s.slots n (f (s.slot n)) := rfl
@[simp] theorem modSlot_ports (n : SlotNo) (f : Slot → Slot) (s : State) : (s.modSlot n f).ports = s.ports := rfl
@[simp] theorem modSlot_segments (n : SlotNo) (f : Slot → Slot) (s : State) : (s.modSlot n f).segments = s.segments := rfl
@[simp] theorem modSlot_frameWait (n : SlotNo) (f : Slot → Slot) (s : State) : (s.modSlot n f).frameWait = s.frameWait := rfl
@[simp] theorem modSlot_frames (n : SlotNo) (f : Slot → Slot) (s : State) : (s.modSlot n f).frames = s.frames := rfl
@[simp] theorem modSlot_age (n : SlotNo) (f : Slot → Slot) (s : State) : (s.modSlot n f).age = s.age := rfl
@[simp] theorem modSlot_fill (n : SlotNo) (f : Slot → Slot) (s : State) : (s.modSlot n f).fill = s.fill := rfl
@[simp] theorem modSlot_chan (n : SlotNo) (f : Slot → Slot) (s : State) : (s.modSlot n f).chan = s.chan := rfl
@[simp] theorem modSlot_upd (n : SlotNo) (f : Slot → Slot) (s : State) : (s.modSlot n f).upd = s.upd := rfl
@[simp] theorem modSlot_reclaim (n : SlotNo) (f : Slot → Slot) (s : State) : (s.modSlot n f).reclaim = s.reclaim := rfl
@[simp] theorem modSlot_cfgw (n : SlotNo) (f : Slot → Slot) (s : State) : (s.modSlot n f).cfgw = s.cfgw := rfl
@[simp] theorem modSlot_start (n : SlotNo) (f : Slot → Slot) (s : State) : (s.modSlot n f).start = s.start := rfl
@[simp] theorem modSlot_events (n : SlotNo) (f : Slot → Slot) (s : State) : (s.modSlot n f).events = s.events := rfl
@[simp] theorem modSlot_pending (n : SlotNo) (f : Slot → Slot) (s : State) : (s.modSlot n f).pending = s.pending := rfl

/-! ### modFrame -/

@[simp] theorem modFrame_powered (n : FrameNo) (f : Frame → Frame) (s : State) : (s.modFrame n f).powered = s.powered := rfl
@[simp] theorem modFrame_resetInput (n : FrameNo) (f : Frame → Frame) (s : State) : (s.modFrame n f).resetInput = s.resetInput := rfl
@[simp] theorem modFrame_hubRestart (n : FrameNo) (f : Frame → Frame) (s : State) : (s.modFrame n f).hubRestart = s.hubRestart := rfl
@[simp] theorem modFrame_clock (n : FrameNo) (f : Frame → Frame) (s : State) : (s.modFrame n f).clock = s.clock := rfl
@[simp] theorem modFrame_draws (n : FrameNo) (f : Frame → Frame) (s : State) : (s.modFrame n f).draws = s.draws := rfl
@[simp] theorem modFrame_flash (n : FrameNo) (f : Frame → Frame) (s : State) : (s.modFrame n f).flash = s.flash := rfl
@[simp] theorem modFrame_cfg (n : FrameNo) (f : Frame → Frame) (s : State) : (s.modFrame n f).cfg = s.cfg := rfl
@[simp] theorem modFrame_lines (n : FrameNo) (f : Frame → Frame) (s : State) : (s.modFrame n f).lines = s.lines := rfl
@[simp] theorem modFrame_slots (n : FrameNo) (f : Frame → Frame) (s : State) : (s.modFrame n f).slots = s.slots := rfl
@[simp] theorem modFrame_ports (n : FrameNo) (f : Frame → Frame) (s : State) : (s.modFrame n f).ports = s.ports := rfl
@[simp] theorem modFrame_segments (n : FrameNo) (f : Frame → Frame) (s : State) : (s.modFrame n f).segments = s.segments := rfl
@[simp] theorem modFrame_frameWait (n : FrameNo) (f : Frame → Frame) (s : State) : (s.modFrame n f).frameWait = s.frameWait := rfl
@[simp] theorem modFrame_frames (n : FrameNo) (f : Frame → Frame) (s : State) : (s.modFrame n f).frames = tset s.frames n (f (s.frame n)) := rfl
@[simp] theorem modFrame_age (n : FrameNo) (f : Frame → Frame) (s : State) : (s.modFrame n f).age = s.age := rfl
@[simp] theorem modFrame_fill (n : FrameNo) (f : Frame → Frame) (s : State) : (s.modFrame n f).fill = s.fill := rfl
@[simp] theorem modFrame_chan (n : FrameNo) (f : Frame → Frame) (s : State) : (s.modFrame n f).chan = s.chan := rfl
@[simp] theorem modFrame_upd (n : FrameNo) (f : Frame → Frame) (s : State) : (s.modFrame n f).upd = s.upd := rfl
@[simp] theorem modFrame_reclaim (n : FrameNo) (f : Frame → Frame) (s : State) : (s.modFrame n f).reclaim = s.reclaim := rfl
@[simp] theorem modFrame_cfgw (n : FrameNo) (f : Frame → Frame) (s : State) : (s.modFrame n f).cfgw = s.cfgw := rfl
@[simp] theorem modFrame_start (n : FrameNo) (f : Frame → Frame) (s : State) : (s.modFrame n f).start = s.start := rfl
@[simp] theorem modFrame_events (n : FrameNo) (f : Frame → Frame) (s : State) : (s.modFrame n f).events = s.events := rfl
@[simp] theorem modFrame_pending (n : FrameNo) (f : Frame → Frame) (s : State) : (s.modFrame n f).pending = s.pending := rfl

/-! ### modChan -/

@[simp] theorem modChan_powered (f : Channel → Channel) (s : State) : (s.modChan f).powered = s.powered := rfl
@[simp] theorem modChan_resetInput (f : Channel → Channel) (s : State) : (s.modChan f).resetInput = s.resetInput := rfl
@[simp] theorem modChan_hubRestart (f : Channel → Channel) (s : State) : (s.modChan f).hubRestart = s.hubRestart := rfl
@[simp] theorem modChan_clock (f : Channel → Channel) (s : State) : (s.modChan f).clock = s.clock := rfl
@[simp] theorem modChan_draws (f : Channel → Channel) (s : State) : (s.modChan f).draws = s.draws := rfl
@[simp] theorem modChan_flash (f : Channel → Channel) (s : State) : (s.modChan f).flash = s.flash := rfl
@[simp] theorem modChan_cfg (f : Channel → Channel) (s : State) : (s.modChan f).cfg = s.cfg := rfl
@[simp] theorem modChan_lines (f : Channel → Channel) (s : State) : (s.modChan f).lines = s.lines := rfl
@[simp] theorem modChan_slots (f : Channel → Channel) (s : State) : (s.modChan f).slots = s.slots := rfl
@[simp] theorem modChan_ports (f : Channel → Channel) (s : State) : (s.modChan f).ports = s.ports := rfl
@[simp] theorem modChan_segments (f : Channel → Channel) (s : State) : (s.modChan f).segments = s.segments := rfl
@[simp] theorem modChan_frameWait (f : Channel → Channel) (s : State) : (s.modChan f).frameWait = s.frameWait := rfl
@[simp] theorem modChan_frames (f : Channel → Channel) (s : State) : (s.modChan f).frames = s.frames := rfl
@[simp] theorem modChan_age (f : Channel → Channel) (s : State) : (s.modChan f).age = s.age := rfl
@[simp] theorem modChan_fill (f : Channel → Channel) (s : State) : (s.modChan f).fill = s.fill := rfl
@[simp] theorem modChan_chan (f : Channel → Channel) (s : State) : (s.modChan f).chan = f s.chan := rfl
@[simp] theorem modChan_upd (f : Channel → Channel) (s : State) : (s.modChan f).upd = s.upd := rfl
@[simp] theorem modChan_reclaim (f : Channel → Channel) (s : State) : (s.modChan f).reclaim = s.reclaim := rfl
@[simp] theorem modChan_cfgw (f : Channel → Channel) (s : State) : (s.modChan f).cfgw = s.cfgw := rfl
@[simp] theorem modChan_start (f : Channel → Channel) (s : State) : (s.modChan f).start = s.start := rfl
@[simp] theorem modChan_events (f : Channel → Channel) (s : State) : (s.modChan f).events = s.events := rfl
@[simp] theorem modChan_pending (f : Channel → Channel) (s : State) : (s.modChan f).pending = s.pending := rfl

/-! ### modFill -/

@[simp] theorem modFill_powered (f : FillEngine → FillEngine) (s : State) : (s.modFill f).powered = s.powered := rfl
@[simp] theorem modFill_resetInput (f : FillEngine → FillEngine) (s : State) : (s.modFill f).resetInput = s.resetInput := rfl
@[simp] theorem modFill_hubRestart (f : FillEngine → FillEngine) (s : State) : (s.modFill f).hubRestart = s.hubRestart := rfl
@[simp] theorem modFill_clock (f : FillEngine → FillEngine) (s : State) : (s.modFill f).clock = s.clock := rfl
@[simp] theorem modFill_draws (f : FillEngine → FillEngine) (s : State) : (s.modFill f).draws = s.draws := rfl
@[simp] theorem modFill_flash (f : FillEngine → FillEngine) (s : State) : (s.modFill f).flash = s.flash := rfl
@[simp] theorem modFill_cfg (f : FillEngine → FillEngine) (s : State) : (s.modFill f).cfg = s.cfg := rfl
@[simp] theorem modFill_lines (f : FillEngine → FillEngine) (s : State) : (s.modFill f).lines = s.lines := rfl
@[simp] theorem modFill_slots (f : FillEngine → FillEngine) (s : State) : (s.modFill f).slots = s.slots := rfl
@[simp] theorem modFill_ports (f : FillEngine → FillEngine) (s : State) : (s.modFill f).ports = s.ports := rfl
@[simp] theorem modFill_segments (f : FillEngine → FillEngine) (s : State) : (s.modFill f).segments = s.segments := rfl
@[simp] theorem modFill_frameWait (f : FillEngine → FillEngine) (s : State) : (s.modFill f).frameWait = s.frameWait := rfl
@[simp] theorem modFill_frames (f : FillEngine → FillEngine) (s : State) : (s.modFill f).frames = s.frames := rfl
@[simp] theorem modFill_age (f : FillEngine → FillEngine) (s : State) : (s.modFill f).age = s.age := rfl
@[simp] theorem modFill_fill (f : FillEngine → FillEngine) (s : State) : (s.modFill f).fill = f s.fill := rfl
@[simp] theorem modFill_chan (f : FillEngine → FillEngine) (s : State) : (s.modFill f).chan = s.chan := rfl
@[simp] theorem modFill_upd (f : FillEngine → FillEngine) (s : State) : (s.modFill f).upd = s.upd := rfl
@[simp] theorem modFill_reclaim (f : FillEngine → FillEngine) (s : State) : (s.modFill f).reclaim = s.reclaim := rfl
@[simp] theorem modFill_cfgw (f : FillEngine → FillEngine) (s : State) : (s.modFill f).cfgw = s.cfgw := rfl
@[simp] theorem modFill_start (f : FillEngine → FillEngine) (s : State) : (s.modFill f).start = s.start := rfl
@[simp] theorem modFill_events (f : FillEngine → FillEngine) (s : State) : (s.modFill f).events = s.events := rfl
@[simp] theorem modFill_pending (f : FillEngine → FillEngine) (s : State) : (s.modFill f).pending = s.pending := rfl

/-! ### modUpd -/

@[simp] theorem modUpd_powered (f : UpdateWriter → UpdateWriter) (s : State) : (s.modUpd f).powered = s.powered := rfl
@[simp] theorem modUpd_resetInput (f : UpdateWriter → UpdateWriter) (s : State) : (s.modUpd f).resetInput = s.resetInput := rfl
@[simp] theorem modUpd_hubRestart (f : UpdateWriter → UpdateWriter) (s : State) : (s.modUpd f).hubRestart = s.hubRestart := rfl
@[simp] theorem modUpd_clock (f : UpdateWriter → UpdateWriter) (s : State) : (s.modUpd f).clock = s.clock := rfl
@[simp] theorem modUpd_draws (f : UpdateWriter → UpdateWriter) (s : State) : (s.modUpd f).draws = s.draws := rfl
@[simp] theorem modUpd_flash (f : UpdateWriter → UpdateWriter) (s : State) : (s.modUpd f).flash = s.flash := rfl
@[simp] theorem modUpd_cfg (f : UpdateWriter → UpdateWriter) (s : State) : (s.modUpd f).cfg = s.cfg := rfl
@[simp] theorem modUpd_lines (f : UpdateWriter → UpdateWriter) (s : State) : (s.modUpd f).lines = s.lines := rfl
@[simp] theorem modUpd_slots (f : UpdateWriter → UpdateWriter) (s : State) : (s.modUpd f).slots = s.slots := rfl
@[simp] theorem modUpd_ports (f : UpdateWriter → UpdateWriter) (s : State) : (s.modUpd f).ports = s.ports := rfl
@[simp] theorem modUpd_segments (f : UpdateWriter → UpdateWriter) (s : State) : (s.modUpd f).segments = s.segments := rfl
@[simp] theorem modUpd_frameWait (f : UpdateWriter → UpdateWriter) (s : State) : (s.modUpd f).frameWait = s.frameWait := rfl
@[simp] theorem modUpd_frames (f : UpdateWriter → UpdateWriter) (s : State) : (s.modUpd f).frames = s.frames := rfl
@[simp] theorem modUpd_age (f : UpdateWriter → UpdateWriter) (s : State) : (s.modUpd f).age = s.age := rfl
@[simp] theorem modUpd_fill (f : UpdateWriter → UpdateWriter) (s : State) : (s.modUpd f).fill = s.fill := rfl
@[simp] theorem modUpd_chan (f : UpdateWriter → UpdateWriter) (s : State) : (s.modUpd f).chan = s.chan := rfl
@[simp] theorem modUpd_upd (f : UpdateWriter → UpdateWriter) (s : State) : (s.modUpd f).upd = f s.upd := rfl
@[simp] theorem modUpd_reclaim (f : UpdateWriter → UpdateWriter) (s : State) : (s.modUpd f).reclaim = s.reclaim := rfl
@[simp] theorem modUpd_cfgw (f : UpdateWriter → UpdateWriter) (s : State) : (s.modUpd f).cfgw = s.cfgw := rfl
@[simp] theorem modUpd_start (f : UpdateWriter → UpdateWriter) (s : State) : (s.modUpd f).start = s.start := rfl
@[simp] theorem modUpd_events (f : UpdateWriter → UpdateWriter) (s : State) : (s.modUpd f).events = s.events := rfl
@[simp] theorem modUpd_pending (f : UpdateWriter → UpdateWriter) (s : State) : (s.modUpd f).pending = s.pending := rfl

/-! ### modStart -/

@[simp] theorem modStart_powered (f : StartUp → StartUp) (s : State) : (s.modStart f).powered = s.powered := rfl
@[simp] theorem modStart_resetInput (f : StartUp → StartUp) (s : State) : (s.modStart f).resetInput = s.resetInput := rfl
@[simp] theorem modStart_hubRestart (f : StartUp → StartUp) (s : State) : (s.modStart f).hubRestart = s.hubRestart := rfl
@[simp] theorem modStart_clock (f : StartUp → StartUp) (s : State) : (s.modStart f).clock = s.clock := rfl
@[simp] theorem modStart_draws (f : StartUp → StartUp) (s : State) : (s.modStart f).draws = s.draws := rfl
@[simp] theorem modStart_flash (f : StartUp → StartUp) (s : State) : (s.modStart f).flash = s.flash := rfl
@[simp] theorem modStart_cfg (f : StartUp → StartUp) (s : State) : (s.modStart f).cfg = s.cfg := rfl
@[simp] theorem modStart_lines (f : StartUp → StartUp) (s : State) : (s.modStart f).lines = s.lines := rfl
@[simp] theorem modStart_slots (f : StartUp → StartUp) (s : State) : (s.modStart f).slots = s.slots := rfl
@[simp] theorem modStart_ports (f : StartUp → StartUp) (s : State) : (s.modStart f).ports = s.ports := rfl
@[simp] theorem modStart_segments (f : StartUp → StartUp) (s : State) : (s.modStart f).segments = s.segments := rfl
@[simp] theorem modStart_frameWait (f : StartUp → StartUp) (s : State) : (s.modStart f).frameWait = s.frameWait := rfl
@[simp] theorem modStart_frames (f : StartUp → StartUp) (s : State) : (s.modStart f).frames = s.frames := rfl
@[simp] theorem modStart_age (f : StartUp → StartUp) (s : State) : (s.modStart f).age = s.age := rfl
@[simp] theorem modStart_fill (f : StartUp → StartUp) (s : State) : (s.modStart f).fill = s.fill := rfl
@[simp] theorem modStart_chan (f : StartUp → StartUp) (s : State) : (s.modStart f).chan = s.chan := rfl
@[simp] theorem modStart_upd (f : StartUp → StartUp) (s : State) : (s.modStart f).upd = s.upd := rfl
@[simp] theorem modStart_reclaim (f : StartUp → StartUp) (s : State) : (s.modStart f).reclaim = s.reclaim := rfl
@[simp] theorem modStart_cfgw (f : StartUp → StartUp) (s : State) : (s.modStart f).cfgw = s.cfgw := rfl
@[simp] theorem modStart_start (f : StartUp → StartUp) (s : State) : (s.modStart f).start = f s.start := rfl
@[simp] theorem modStart_events (f : StartUp → StartUp) (s : State) : (s.modStart f).events = s.events := rfl
@[simp] theorem modStart_pending (f : StartUp → StartUp) (s : State) : (s.modStart f).pending = s.pending := rfl

/-! ### drawn -/

@[simp] theorem drawn_powered (s : State) : s.drawn.powered = s.powered := rfl
@[simp] theorem drawn_resetInput (s : State) : s.drawn.resetInput = s.resetInput := rfl
@[simp] theorem drawn_hubRestart (s : State) : s.drawn.hubRestart = s.hubRestart := rfl
@[simp] theorem drawn_clock (s : State) : s.drawn.clock = s.clock := rfl
@[simp] theorem drawn_draws (s : State) : s.drawn.draws = s.draws + 1 := rfl
@[simp] theorem drawn_flash (s : State) : s.drawn.flash = s.flash := rfl
@[simp] theorem drawn_cfg (s : State) : s.drawn.cfg = s.cfg := rfl
@[simp] theorem drawn_lines (s : State) : s.drawn.lines = s.lines := rfl
@[simp] theorem drawn_slots (s : State) : s.drawn.slots = s.slots := rfl
@[simp] theorem drawn_ports (s : State) : s.drawn.ports = s.ports := rfl
@[simp] theorem drawn_segments (s : State) : s.drawn.segments = s.segments := rfl
@[simp] theorem drawn_frameWait (s : State) : s.drawn.frameWait = s.frameWait := rfl
@[simp] theorem drawn_frames (s : State) : s.drawn.frames = s.frames := rfl
@[simp] theorem drawn_age (s : State) : s.drawn.age = s.age := rfl
@[simp] theorem drawn_fill (s : State) : s.drawn.fill = s.fill := rfl
@[simp] theorem drawn_chan (s : State) : s.drawn.chan = s.chan := rfl
@[simp] theorem drawn_upd (s : State) : s.drawn.upd = s.upd := rfl
@[simp] theorem drawn_reclaim (s : State) : s.drawn.reclaim = s.reclaim := rfl
@[simp] theorem drawn_cfgw (s : State) : s.drawn.cfgw = s.cfgw := rfl
@[simp] theorem drawn_start (s : State) : s.drawn.start = s.start := rfl
@[simp] theorem drawn_events (s : State) : s.drawn.events = s.events := rfl
@[simp] theorem drawn_pending (s : State) : s.drawn.pending = s.pending := rfl

/-! ### log -/

@[simp] theorem log_powered (e : EventBody) (s : State) : (s.log e).powered = s.powered := rfl
@[simp] theorem log_resetInput (e : EventBody) (s : State) : (s.log e).resetInput = s.resetInput := rfl
@[simp] theorem log_hubRestart (e : EventBody) (s : State) : (s.log e).hubRestart = s.hubRestart := rfl
@[simp] theorem log_clock (e : EventBody) (s : State) : (s.log e).clock = s.clock := rfl
@[simp] theorem log_draws (e : EventBody) (s : State) : (s.log e).draws = s.draws := rfl
@[simp] theorem log_flash (e : EventBody) (s : State) : (s.log e).flash = s.flash := rfl
@[simp] theorem log_cfg (e : EventBody) (s : State) : (s.log e).cfg = s.cfg := rfl
@[simp] theorem log_lines (e : EventBody) (s : State) : (s.log e).lines = s.lines := rfl
@[simp] theorem log_slots (e : EventBody) (s : State) : (s.log e).slots = s.slots := rfl
@[simp] theorem log_ports (e : EventBody) (s : State) : (s.log e).ports = s.ports := rfl
@[simp] theorem log_segments (e : EventBody) (s : State) : (s.log e).segments = s.segments := rfl
@[simp] theorem log_frameWait (e : EventBody) (s : State) : (s.log e).frameWait = s.frameWait := rfl
@[simp] theorem log_frames (e : EventBody) (s : State) : (s.log e).frames = s.frames := rfl
@[simp] theorem log_age (e : EventBody) (s : State) : (s.log e).age = s.age := rfl
@[simp] theorem log_fill (e : EventBody) (s : State) : (s.log e).fill = s.fill := rfl
@[simp] theorem log_chan (e : EventBody) (s : State) : (s.log e).chan = s.chan := rfl
@[simp] theorem log_upd (e : EventBody) (s : State) : (s.log e).upd = s.upd := rfl
@[simp] theorem log_reclaim (e : EventBody) (s : State) : (s.log e).reclaim = s.reclaim := rfl
@[simp] theorem log_cfgw (e : EventBody) (s : State) : (s.log e).cfgw = s.cfgw := rfl
@[simp] theorem log_start (e : EventBody) (s : State) : (s.log e).start = s.start := rfl
@[simp] theorem log_pending (e : EventBody) (s : State) : (s.log e).pending = s.pending := rfl

/-! ### advance -/

@[simp] theorem advance_powered (d : Nat) (s : State) : (s.advance d).powered = s.powered := rfl
@[simp] theorem advance_resetInput (d : Nat) (s : State) : (s.advance d).resetInput = s.resetInput := rfl
@[simp] theorem advance_hubRestart (d : Nat) (s : State) : (s.advance d).hubRestart = s.hubRestart := rfl
@[simp] theorem advance_clock (d : Nat) (s : State) : (s.advance d).clock = s.clock + d := rfl
@[simp] theorem advance_draws (d : Nat) (s : State) : (s.advance d).draws = s.draws := rfl
@[simp] theorem advance_flash (d : Nat) (s : State) : (s.advance d).flash = s.flash := rfl
@[simp] theorem advance_cfg (d : Nat) (s : State) : (s.advance d).cfg = s.cfg := rfl
@[simp] theorem advance_lines (d : Nat) (s : State) : (s.advance d).lines = tmap (lineAfter d) s.lines := rfl
@[simp] theorem advance_slots (d : Nat) (s : State) : (s.advance d).slots = s.slots := rfl
@[simp] theorem advance_ports (d : Nat) (s : State) : (s.advance d).ports = tmap (portAfter d) s.ports := rfl
@[simp] theorem advance_segments (d : Nat) (s : State) : (s.advance d).segments = s.segments := rfl
@[simp] theorem advance_frameWait (d : Nat) (s : State) : (s.advance d).frameWait = s.frameWait := rfl
@[simp] theorem advance_frames (d : Nat) (s : State) : (s.advance d).frames = s.frames := rfl
@[simp] theorem advance_age (d : Nat) (s : State) : (s.advance d).age = s.age := rfl
@[simp] theorem advance_fill (d : Nat) (s : State) : (s.advance d).fill = s.fill := rfl
@[simp] theorem advance_chan (d : Nat) (s : State) : (s.advance d).chan = { s.chan with op := s.chan.op.map (operationAfter d) } := rfl
@[simp] theorem advance_upd (d : Nat) (s : State) : (s.advance d).upd = s.upd := rfl
@[simp] theorem advance_reclaim (d : Nat) (s : State) : (s.advance d).reclaim = s.reclaim := rfl
@[simp] theorem advance_cfgw (d : Nat) (s : State) : (s.advance d).cfgw = s.cfgw := rfl
@[simp] theorem advance_start (d : Nat) (s : State) : (s.advance d).start = { s.start with wait := timerAfter d s.start.wait } := rfl
@[simp] theorem advance_events (d : Nat) (s : State) : (s.advance d).events = s.events := rfl
@[simp] theorem advance_pending (d : Nat) (s : State) : (s.advance d).pending = s.pending := rfl

/-! ### Readers over updates -/

@[simp] theorem port_modPort_same (p : Port) (f : PortRecord → PortRecord) (s : State) :
    (s.modPort p f).port p = f (s.port p) := by simp [port]

theorem port_modPort (p x : Port) (f : PortRecord → PortRecord) (s : State) :
    (s.modPort p f).port x = if x = p then f (s.port p) else s.port x := by simp [port, tget_tset]

@[simp] theorem port_modPort_ne {p x : Port} (h : x ≠ p) (f : PortRecord → PortRecord) (s : State) :
    (s.modPort p f).port x = s.port x := by simp [port, h]

@[simp] theorem line_modLine_same (l : LineNo) (f : Line → Line) (s : State) :
    (s.modLine l f).line l = f (s.line l) := by simp [line]

theorem line_modLine (l x : LineNo) (f : Line → Line) (s : State) :
    (s.modLine l f).line x = if x = l then f (s.line l) else s.line x := by simp [line, tget_tset]

@[simp] theorem slot_modSlot_same (n : SlotNo) (f : Slot → Slot) (s : State) :
    (s.modSlot n f).slot n = f (s.slot n) := by simp [slot]

theorem slot_modSlot (n x : SlotNo) (f : Slot → Slot) (s : State) :
    (s.modSlot n f).slot x = if x = n then f (s.slot n) else s.slot x := by simp [slot, tget_tset]

@[simp] theorem frame_modFrame_same (n : FrameNo) (f : Frame → Frame) (s : State) :
    (s.modFrame n f).frame n = f (s.frame n) := by simp [frame]

theorem frame_modFrame (n x : FrameNo) (f : Frame → Frame) (s : State) :
    (s.modFrame n f).frame x = if x = n then f (s.frame n) else s.frame x := by simp [frame, tget_tset]

/-- Two changes of one port are one change. -/
@[simp] theorem modPort_modPort (p : Port) (f g : PortRecord → PortRecord) (s : State) :
    (s.modPort p f).modPort p g = s.modPort p (fun r => g (f r)) := by simp [modPort, port]

/-- A log leaves the record within its 64 entries (R186). -/
theorem log_length (e : EventBody) (s : State) (h : s.events.entries.length ≤ 64) :
    (s.log e).events.entries.length ≤ 64 := by
  simp only [log]
  split
  · assumption
  · simp; omega

/-- A log takes the counter's value, and the counter rises by 1 (R186). -/
theorem log_next (e : EventBody) (s : State) : (s.log e).events.next = s.events.next + 1 := rfl


/-! ### Readers a change of another table leaves alone -/

@[simp] theorem line_modPort (p : Port) (f : PortRecord → PortRecord) (s : State) (x : LineNo) : (s.modPort p f).line x = s.line x := rfl
@[simp] theorem slot_modPort (p : Port) (f : PortRecord → PortRecord) (s : State) (x : SlotNo) : (s.modPort p f).slot x = s.slot x := rfl
@[simp] theorem frame_modPort (p : Port) (f : PortRecord → PortRecord) (s : State) (x : FrameNo) : (s.modPort p f).frame x = s.frame x := rfl
@[simp] theorem portCfg_modPort (p : Port) (f : PortRecord → PortRecord) (s : State) (x : Port) : (s.modPort p f).portCfg x = s.portCfg x := rfl
@[simp] theorem work_modPort (p : Port) (f : PortRecord → PortRecord) (s : State) (x : LineNo) : (s.modPort p f).work x = s.work x := rfl
@[simp] theorem sequence_modPort (p : Port) (f : PortRecord → PortRecord) (s : State) (x : LineNo) : (s.modPort p f).sequence x = s.sequence x := rfl
@[simp] theorem port_modLine (l : LineNo) (f : Line → Line) (s : State) (x : Port) : (s.modLine l f).port x = s.port x := rfl
@[simp] theorem slot_modLine (l : LineNo) (f : Line → Line) (s : State) (x : SlotNo) : (s.modLine l f).slot x = s.slot x := rfl
@[simp] theorem frame_modLine (l : LineNo) (f : Line → Line) (s : State) (x : FrameNo) : (s.modLine l f).frame x = s.frame x := rfl
@[simp] theorem portCfg_modLine (l : LineNo) (f : Line → Line) (s : State) (x : Port) : (s.modLine l f).portCfg x = s.portCfg x := rfl
@[simp] theorem work_modLine (l : LineNo) (f : Line → Line) (s : State) (x : LineNo) : (s.modLine l f).work x = s.work x := rfl
@[simp] theorem sequence_modLine (l : LineNo) (f : Line → Line) (s : State) (x : LineNo) : (s.modLine l f).sequence x = s.sequence x := rfl
@[simp] theorem port_modSlot (n : SlotNo) (f : Slot → Slot) (s : State) (x : Port) : (s.modSlot n f).port x = s.port x := rfl
@[simp] theorem line_modSlot (n : SlotNo) (f : Slot → Slot) (s : State) (x : LineNo) : (s.modSlot n f).line x = s.line x := rfl
@[simp] theorem frame_modSlot (n : SlotNo) (f : Slot → Slot) (s : State) (x : FrameNo) : (s.modSlot n f).frame x = s.frame x := rfl
@[simp] theorem portCfg_modSlot (n : SlotNo) (f : Slot → Slot) (s : State) (x : Port) : (s.modSlot n f).portCfg x = s.portCfg x := rfl
@[simp] theorem work_modSlot (n : SlotNo) (f : Slot → Slot) (s : State) (x : LineNo) : (s.modSlot n f).work x = s.work x := rfl
@[simp] theorem sequence_modSlot (n : SlotNo) (f : Slot → Slot) (s : State) (x : LineNo) : (s.modSlot n f).sequence x = s.sequence x := rfl
@[simp] theorem port_modFrame (n : FrameNo) (f : Frame → Frame) (s : State) (x : Port) : (s.modFrame n f).port x = s.port x := rfl
@[simp] theorem line_modFrame (n : FrameNo) (f : Frame → Frame) (s : State) (x : LineNo) : (s.modFrame n f).line x = s.line x := rfl
@[simp] theorem slot_modFrame (n : FrameNo) (f : Frame → Frame) (s : State) (x : SlotNo) : (s.modFrame n f).slot x = s.slot x := rfl
@[simp] theorem portCfg_modFrame (n : FrameNo) (f : Frame → Frame) (s : State) (x : Port) : (s.modFrame n f).portCfg x = s.portCfg x := rfl
@[simp] theorem work_modFrame (n : FrameNo) (f : Frame → Frame) (s : State) (x : LineNo) : (s.modFrame n f).work x = s.work x := rfl
@[simp] theorem sequence_modFrame (n : FrameNo) (f : Frame → Frame) (s : State) (x : LineNo) : (s.modFrame n f).sequence x = s.sequence x := rfl
@[simp] theorem port_modChan (f : Channel → Channel) (s : State) (x : Port) : (s.modChan f).port x = s.port x := rfl
@[simp] theorem line_modChan (f : Channel → Channel) (s : State) (x : LineNo) : (s.modChan f).line x = s.line x := rfl
@[simp] theorem slot_modChan (f : Channel → Channel) (s : State) (x : SlotNo) : (s.modChan f).slot x = s.slot x := rfl
@[simp] theorem frame_modChan (f : Channel → Channel) (s : State) (x : FrameNo) : (s.modChan f).frame x = s.frame x := rfl
@[simp] theorem portCfg_modChan (f : Channel → Channel) (s : State) (x : Port) : (s.modChan f).portCfg x = s.portCfg x := rfl
@[simp] theorem work_modChan (f : Channel → Channel) (s : State) (x : LineNo) : (s.modChan f).work x = s.work x := rfl
@[simp] theorem sequence_modChan (f : Channel → Channel) (s : State) (x : LineNo) : (s.modChan f).sequence x = s.sequence x := rfl
@[simp] theorem port_modFill (f : FillEngine → FillEngine) (s : State) (x : Port) : (s.modFill f).port x = s.port x := rfl
@[simp] theorem line_modFill (f : FillEngine → FillEngine) (s : State) (x : LineNo) : (s.modFill f).line x = s.line x := rfl
@[simp] theorem slot_modFill (f : FillEngine → FillEngine) (s : State) (x : SlotNo) : (s.modFill f).slot x = s.slot x := rfl
@[simp] theorem frame_modFill (f : FillEngine → FillEngine) (s : State) (x : FrameNo) : (s.modFill f).frame x = s.frame x := rfl
@[simp] theorem portCfg_modFill (f : FillEngine → FillEngine) (s : State) (x : Port) : (s.modFill f).portCfg x = s.portCfg x := rfl
@[simp] theorem work_modFill (f : FillEngine → FillEngine) (s : State) (x : LineNo) : (s.modFill f).work x = s.work x := rfl
@[simp] theorem sequence_modFill (f : FillEngine → FillEngine) (s : State) (x : LineNo) : (s.modFill f).sequence x = s.sequence x := rfl
@[simp] theorem port_modUpd (f : UpdateWriter → UpdateWriter) (s : State) (x : Port) : (s.modUpd f).port x = s.port x := rfl
@[simp] theorem line_modUpd (f : UpdateWriter → UpdateWriter) (s : State) (x : LineNo) : (s.modUpd f).line x = s.line x := rfl
@[simp] theorem slot_modUpd (f : UpdateWriter → UpdateWriter) (s : State) (x : SlotNo) : (s.modUpd f).slot x = s.slot x := rfl
@[simp] theorem frame_modUpd (f : UpdateWriter → UpdateWriter) (s : State) (x : FrameNo) : (s.modUpd f).frame x = s.frame x := rfl
@[simp] theorem portCfg_modUpd (f : UpdateWriter → UpdateWriter) (s : State) (x : Port) : (s.modUpd f).portCfg x = s.portCfg x := rfl
@[simp] theorem port_modStart (f : StartUp → StartUp) (s : State) (x : Port) : (s.modStart f).port x = s.port x := rfl
@[simp] theorem line_modStart (f : StartUp → StartUp) (s : State) (x : LineNo) : (s.modStart f).line x = s.line x := rfl
@[simp] theorem slot_modStart (f : StartUp → StartUp) (s : State) (x : SlotNo) : (s.modStart f).slot x = s.slot x := rfl
@[simp] theorem frame_modStart (f : StartUp → StartUp) (s : State) (x : FrameNo) : (s.modStart f).frame x = s.frame x := rfl
@[simp] theorem portCfg_modStart (f : StartUp → StartUp) (s : State) (x : Port) : (s.modStart f).portCfg x = s.portCfg x := rfl
@[simp] theorem work_modStart (f : StartUp → StartUp) (s : State) (x : LineNo) : (s.modStart f).work x = s.work x := rfl
@[simp] theorem sequence_modStart (f : StartUp → StartUp) (s : State) (x : LineNo) : (s.modStart f).sequence x = s.sequence x := rfl
@[simp] theorem port_drawn (s : State) (x : Port) : s.drawn.port x = s.port x := rfl
@[simp] theorem line_drawn (s : State) (x : LineNo) : s.drawn.line x = s.line x := rfl
@[simp] theorem slot_drawn (s : State) (x : SlotNo) : s.drawn.slot x = s.slot x := rfl
@[simp] theorem frame_drawn (s : State) (x : FrameNo) : s.drawn.frame x = s.frame x := rfl
@[simp] theorem portCfg_drawn (s : State) (x : Port) : s.drawn.portCfg x = s.portCfg x := rfl
@[simp] theorem work_drawn (s : State) (x : LineNo) : s.drawn.work x = s.work x := rfl
@[simp] theorem sequence_drawn (s : State) (x : LineNo) : s.drawn.sequence x = s.sequence x := rfl
@[simp] theorem port_log (e : EventBody) (s : State) (x : Port) : (s.log e).port x = s.port x := rfl
@[simp] theorem line_log (e : EventBody) (s : State) (x : LineNo) : (s.log e).line x = s.line x := rfl
@[simp] theorem slot_log (e : EventBody) (s : State) (x : SlotNo) : (s.log e).slot x = s.slot x := rfl
@[simp] theorem frame_log (e : EventBody) (s : State) (x : FrameNo) : (s.log e).frame x = s.frame x := rfl
@[simp] theorem portCfg_log (e : EventBody) (s : State) (x : Port) : (s.log e).portCfg x = s.portCfg x := rfl
@[simp] theorem work_log (e : EventBody) (s : State) (x : LineNo) : (s.log e).work x = s.work x := rfl
@[simp] theorem sequence_log (e : EventBody) (s : State) (x : LineNo) : (s.log e).sequence x = s.sequence x := rfl
@[simp] theorem slot_advance (d : Nat) (s : State) (x : SlotNo) : (s.advance d).slot x = s.slot x := rfl
@[simp] theorem frame_advance (d : Nat) (s : State) (x : FrameNo) : (s.advance d).frame x = s.frame x := rfl
@[simp] theorem portCfg_advance (d : Nat) (s : State) (x : Port) : (s.advance d).portCfg x = s.portCfg x := rfl
@[simp] theorem work_advance (d : Nat) (s : State) (x : LineNo) : (s.advance d).work x = s.work x := rfl
@[simp] theorem sequence_advance (d : Nat) (s : State) (x : LineNo) : (s.advance d).sequence x = s.sequence x := rfl

@[simp] theorem started_modPort (p : Port) (f : PortRecord → PortRecord) (s : State) :
    (s.modPort p f).started = s.started := rfl

@[simp] theorem offline_modPort (p : Port) (f : PortRecord → PortRecord) (s : State) :
    (s.modPort p f).offline = s.offline := rfl

/-- A command of a hub that runs. -/
theorem whenLive_live {s : State} (h : s.live = true) (f : State → State) : s.whenLive f = f s := by
  simp [whenLive, h]

/-- A hub without power, or with its reset input asserted, takes nothing. -/
theorem whenLive_dead {s : State} (h : s.live = false) (f : State → State) : s.whenLive f = s := by
  simp [whenLive, h]

end Sys2Proof.Machine.State
end

