-- ==== Sys2Proof/Laws/Channel.lean ====
section
/-!
SUPPORT. What the end of a step does: `settle` and its three parts.
-/

namespace Sys2Proof.Machine.State

/-- Nothing need follow. -/
theorem Follows.refl (s : State) : Follows s s where
  rest := rfl
  picks := Or.inl ⟨rfl, rfl⟩
  fillRest := rfl
  demand := rfl
  ahead := rfl
  updRest := rfl
  works := fun l => ⟨((s.work l).map LockWork.listNext).getD 0, by cases s.work l <;> rfl⟩
  queue := ⟨[], by simp, by simp⟩
  offline := Iff.rfl
  timeouts := rfl
  held := rfl
  busy := fun _ => rfl
  startRest := rfl

/-! ### LIST units -/

/-- What placing LIST units can do: to the update writer alone, and never to its sequences or its count of what
OFFLINE took. -/
structure Lists (u t : State) : Prop where
  rest : t = { u with upd := t.upd }
  updRest : t.upd = { u.upd with work := t.upd.work, queue := t.upd.queue, ready := t.upd.ready,
                                 listing := t.upd.listing }
  works : ∀ l, ∃ k, t.work l = (u.work l).map (fun w => { w with listNext := k })
  queue : ∃ new : List ProgEntry, (∀ e ∈ new, e.kind = .list ∧ e.owner = none) ∧
    t.upd.queue = u.upd.queue ++ new

theorem Lists.refl (s : State) : Lists s s where
  rest := rfl
  updRest := rfl
  works := fun l => ⟨((s.work l).map LockWork.listNext).getD 0, by cases s.work l <;> rfl⟩
  queue := ⟨[], by simp, by simp⟩

theorem Lists.trans {s t u : State} (a : Lists s t) (b : Lists t u) : Lists s u where
  rest := by
    rw [b.rest, a.rest]
  updRest := by
    rw [b.updRest, a.updRest]
  works := fun l => by
    obtain ⟨k, hk⟩ := a.works l
    obtain ⟨m, hm⟩ := b.works l
    refine ⟨m, ?_⟩
    rw [hm, hk]
    cases s.work l <;> rfl
  queue := by
    obtain ⟨x, hx, ex⟩ := a.queue
    obtain ⟨y, hy, ey⟩ := b.queue
    refine ⟨x ++ y, ?_, by rw [ey, ex, List.append_assoc]⟩
    intro e he
    rcases List.mem_append.mp he with h | h
    · exact hx e h
    · exact hy e h

theorem lists_placeList (l : LineNo) (s : State) : Lists s (s.placeList l) := by
  unfold placeList
  cases hk : (s.line l).lock with
  | none => exact Lists.refl s
  | some k =>
    cases hw : s.work l with
    | none => exact Lists.refl s
    | some w =>
      have works : ∀ m, ∃ x,
          tget (tset s.upd.work l (some { w with listNext := w.listNext + 1 })) m =
            (s.work m).map (fun w => { w with listNext := x }) := by
        intro m
        by_cases e : m = l
        · subst e
          exact ⟨w.listNext + 1, by rw [tget_tset_same, hw]; rfl⟩
        · refine ⟨((s.work m).map LockWork.listNext).getD 0, ?_⟩
          rw [tget_tset_ne _ _ e]
          show s.work m = _
          cases s.work m <;> rfl
      dsimp only
      split
      · exact ⟨rfl, rfl, works, ⟨[_], by simp, rfl⟩⟩
      · exact ⟨rfl, rfl, works, ⟨[_], by simp, rfl⟩⟩

theorem lists_placeLists (n : Nat) (s : State) : Lists s (s.placeLists n) := by
  induction n generalizing s with
  | zero => exact Lists.refl s
  | succ n ih =>
    unfold placeLists
    by_cases h : s.upd.queue.length < 8
    · rw [if_pos h]
      cases s.upd.listing.find? s.mayList with
      | none => exact Lists.refl s
      | some l => exact (lists_placeList l s).trans (ih _)
    · rw [if_neg h]; exact Lists.refl s

/-! ### The pick -/

/-- The reclaimer's pick, or nothing. -/
theorem pick_cases (s : State) :
    s.pick = s ∨ ∃ n, s.reclaim = none ∧ s.offline = false ∧ s.started = true ∧ s.dirtySlot = some n ∧
      s.pick = { s.toErasing n with reclaim := some { target := n, cursor := s.slotBlocks - 1, erasing := false } } := by
  unfold pick
  by_cases h : s.mayPick = true
  · rw [if_pos h]
    have h' : (s.reclaim = none ∧ s.offline = false) ∧ s.started = true := by
      simpa [mayPick] using h
    cases hd : s.dirtySlot with
    | none => exact Or.inl rfl
    | some n => exact Or.inr ⟨n, h'.1.1, h'.1.2, h'.2, rfl, rfl⟩
  · rw [if_neg h]; exact Or.inl rfl

/-! ### The grant -/

/-- What a grant can do: to the channel, to the progress of entries, to the ready work, and to the start-up
controller's request. -/
structure Grants (u t : State) : Prop where
  rest : t = { u with fill := t.fill, chan := t.chan, upd := t.upd, start := t.start }
  fillRest : t.fill = { u.fill with demand := t.fill.demand, ahead := t.fill.ahead }
  demand : t.fill.demand.map unread = u.fill.demand.map unread
  ahead : t.fill.ahead.map unread = u.fill.ahead.map unread
  updRest : t.upd = { u.upd with queue := t.upd.queue, ready := t.upd.ready }
  queue : t.upd.queue.map unrun = u.upd.queue.map unrun
  offline : t.chan.state = .offline ↔ u.chan.state = .offline
  timeouts : t.chan.timeouts = u.chan.timeouts
  held : t.chan.suspended = u.chan.suspended
  startRest : t.start = { u.start with request := t.start.request }

theorem Grants.refl (s : State) : Grants s s :=
  ⟨rfl, rfl, rfl, rfl, rfl, rfl, Iff.rfl, rfl, rfl, rfl⟩

theorem map_unread_mark (f : FrameNo) (l : List FillEntry) :
    (l.map (fun e => if e.frame = f then { e with reading := true } else e)).map unread = l.map unread := by
  induction l with
  | nil => rfl
  | cons e l ih =>
    rw [List.map_cons, List.map_cons, ih, List.map_cons]
    congr 1
    by_cases h : e.frame = f <;> simp [h, unread]

theorem map_unrun_mark (p : ProgEntry → Prop) [DecidablePred p] (l : List ProgEntry) :
    (l.map (fun e => if p e then { e with programming := true } else e)).map unrun = l.map unrun := by
  induction l with
  | nil => rfl
  | cons e l ih =>
    rw [List.map_cons, List.map_cons, ih, List.map_cons]
    congr 1
    by_cases h : p e <;> simp [h, unrun]

theorem grants_grantOther (o : Operation) (s : State) (h : s.chan.state = .idle) : Grants s (s.grantOther o) :=
  ⟨rfl, rfl, rfl, rfl, rfl, rfl, by simp [grantOther, runOp, modChan, h], rfl, rfl, rfl⟩

theorem grants_fill (e : FillEntry) (s : State) (c : Channel)
    (ho : c.state = .offline ↔ s.chan.state = .offline) (ht : c.timeouts = s.chan.timeouts)
    (hh : c.suspended = s.chan.suspended) : Grants s (State.grantFill e { s with chan := c }) :=
  ⟨rfl, rfl, map_unread_mark _ _, map_unread_mark _ _, rfl, rfl, ho, ht, hh, rfl⟩

theorem grants_grantClass1 (e : FillEntry) (s : State) (h : s.chan.state = .idle) : Grants s (s.grantClass1 e) :=
  grants_fill e s _ (by simp [h]) rfl rfl

theorem grants_grantUpdate (i : ReadyItem) (s : State) (h : s.chan.state = .idle) : Grants s (s.grantUpdate i) := by
  unfold grantUpdate
  cases s.readyOp i with
  | none => exact ⟨rfl, rfl, rfl, rfl, rfl, rfl, Iff.rfl, rfl, rfl, rfl⟩
  | some o =>
    cases i with
    | entry n k u =>
      refine ⟨rfl, rfl, rfl, rfl, rfl, ?_, by simp [markProgramming, runOp, modChan, modUpd, h], rfl, rfl, rfl⟩
      exact map_unrun_mark (fun e => e.slot = n ∧ e.kind = k ∧ e.unit = u) s.upd.queue
    | lockStep l => exact ⟨rfl, rfl, rfl, rfl, rfl, rfl, by simp [markProgramming, runOp, modChan, modUpd, h], rfl, rfl, rfl⟩
    | commitStep l => exact ⟨rfl, rfl, rfl, rfl, rfl, rfl, by simp [markProgramming, runOp, modChan, modUpd, h], rfl, rfl, rfl⟩

theorem grants_grant (s : State) (h : s.chan.state = .idle) : Grants s s.grant := by
  unfold grant
  dsimp only
  split
  · split
    · exact grants_grantUpdate _ _ h
    · exact Grants.refl s
  · split
    · exact grants_grantClass1 _ _ h
    · split
      · exact grants_grantUpdate _ _ h
      · split
        · exact grants_grantOther _ _ h
        · split
          · exact grants_fill _ s _ (by simp [h]) rfl rfl
          · split
            · exact grants_grantOther _ _ h
            · split
              · exact ⟨rfl, rfl, rfl, rfl, rfl, rfl, by simp [grantOther, runOp, modChan, modStart, h], rfl, rfl, rfl⟩
              · split
                · exact grants_grantOther _ _ h
                · split
                  · exact grants_grantOther _ _ h
                  · exact Grants.refl s

theorem grants_suspend (s : State) : Grants s s.suspend :=
  ⟨rfl, rfl, rfl, rfl, rfl, rfl, Iff.rfl, rfl, rfl, rfl⟩

theorem grants_kick (s : State) : Grants s s.kick := by
  unfold kick
  cases h : s.chan.state with
  | idle => exact grants_grant s h
  | busy =>
    dsimp only
    cases s.chan.op.bind (·.erase) with
    | none => exact Grants.refl s
    | some e =>
      dsimp only
      by_cases m : s.maySuspend e = true
      · rw [if_pos m]; exact grants_suspend s
      · rw [if_neg m]; exact Grants.refl s
  | eraseSuspended => exact Grants.refl s
  | offline => exact Grants.refl s

/-- A channel that has nothing to grant is left as it is. -/
theorem kick_busy (s : State) (h : (s.chan.state = .busy ∧ s.chan.op.bind (·.erase) = none) ∨ s.chan.state = .offline ∨
    s.chan.state = .eraseSuspended) : s.kick = s := by
  unfold kick
  rcases h with ⟨h, e⟩ | h | h
  · rw [h, e]
  · rw [h]
  · rw [h]

/-! ### The whole -/

/-- What the end of a step can do, when no dropped RESTART_HUB reply begins a hub restart in it. -/
theorem settle_follows (s : State) (h : s.hubRestart ≠ .dropped) : Follows s s.settle := by
  unfold settle
  rw [if_neg h]
  have L := lists_placeLists 8 s
  generalize s.placeLists 8 = a at L ⊢
  have hs : a.slots = s.slots := by rw [L.rest]
  have hc : a.chan = s.chan := by rw [L.rest]
  have hr : a.reclaim = s.reclaim := by rw [L.rest]
  have hf : a.fill = s.fill := by rw [L.rest]
  have hst : a.start = s.start := by rw [L.rest]
  have hcfg : a.cfg = s.cfg := by rw [L.rest]
  have P : (∃ sl rc, a.pick = { a with slots := sl, reclaim := rc } ∧
      ((sl = s.slots ∧ rc = s.reclaim) ∨
        ∃ n, s.reclaim = none ∧ s.offline = false ∧ s.started = true ∧ s.dirtySlot = some n ∧
          sl = (s.toErasing n).slots ∧
          rc = some { target := n, cursor := s.slotBlocks - 1, erasing := false })) := by
    rcases pick_cases a with e | ⟨n, h1, h2, h3, h4, e⟩
    · exact ⟨a.slots, a.reclaim, e, Or.inl ⟨hs, hr⟩⟩
    · refine ⟨_, _, e, Or.inr ⟨n, hr ▸ h1, ?_, ?_, ?_, ?_, ?_⟩⟩
      · simpa [State.offline, hc] using h2
      · simpa [started, hst] using h3
      · simpa [dirtySlot, State.slot, hs] using h4
      · simp [toErasing, State.slot, hs]
      · simp [slotBlocks, slotSize, hcfg]
  obtain ⟨sl, rc, ep, pc⟩ := P
  have G := grants_kick a.pick
  have B := kick_busy a.pick
  generalize a.pick.kick = t at G B ⊢
  rw [ep] at G B
  refine ⟨?_, ?_, ?_, ?_, ?_, ?_, ?_, ?_, ?_, ?_, ?_, ?_, ?_⟩
  · rw [G.rest, L.rest]
  · have e1 : t.slots = sl := by rw [G.rest]
    have e2 : t.reclaim = rc := by rw [G.rest]
    rcases pc with ⟨x, y⟩ | ⟨n, h1, h2, h3, h4, h5, h6⟩
    · exact Or.inl ⟨e1.trans x, e2.trans y⟩
    · exact Or.inr ⟨n, h1, h2, h3, h4, e1.trans h5, e2.trans h6⟩
  · rw [G.fillRest]; simp [hf]
  · rw [G.demand]; simp [hf]
  · rw [G.ahead]; simp [hf]
  · have e := G.updRest
    rw [e]
    dsimp only
    rw [L.updRest]
  · intro l
    obtain ⟨k, hk⟩ := L.works l
    refine ⟨k, ?_⟩
    rw [← hk]
    show tget t.upd.work l = tget a.upd.work l
    rw [G.updRest]
  · obtain ⟨x, hx, ex⟩ := L.queue
    refine ⟨x, hx, ?_⟩
    rw [G.queue]
    show a.upd.queue.map unrun = _
    rw [ex, List.map_append]
  · rw [G.offline]; simp [hc]
  · rw [G.timeouts]; simp [hc]
  · rw [G.held]; simp [hc]
  · intro hb
    have := B (by simpa [hc] using hb)
    rw [this]; exact hc
  · rw [G.startRest]; simp [hst]

end Sys2Proof.Machine.State
end

