-- ==== Sys2Proof/Laws/Commands.lean ====
section
/-!
SUPPORT. What the taking of a packet and the answering of a command do: one lemma for each case of `sequenced`,
`command` and `answer`.
-/

namespace Sys2Proof.Machine.State

/-- A change that leaves the port's record as it is changes nothing. -/
theorem modPort_id {p : Port} {f : PortRecord → PortRecord} {s : State} (h : f (s.port p) = s.port p) :
    s.modPort p f = s := by
  unfold modPort
  rw [h]
  have : tset s.ports p (s.port p) = s.ports := by unfold port; rw [tset_tget]
  rw [this]

/-- Two changes that give the port's record alike are the same change. -/
theorem modPort_congr {p : Port} {f g : PortRecord → PortRecord} {s : State} (h : f (s.port p) = g (s.port p)) :
    s.modPort p f = s.modPort p g := by
  unfold modPort
  rw [h]

theorem accept_eq (p : Port) (q : Seq) (s : State) : s.accept p q = s.taken p q := rfl

theorem openCmd_taken (p : Port) (q : Seq) (t : CmdTag) (c : Option Command) (s : State) :
    (s.taken p q).openCmd p t c = s.opened p q t c := by
  unfold taken openCmd modCmdTag opened
  rw [modPort_modPort]

/-- How an accepted packet's command is settled (R161 to R163). -/
def settles (p : Port) (t : CmdTag) (c : Command) (counted : Bool) (held : Option Word) (body : State → State)
    (s : State) : State :=
  if (s.cmdTag p t).state ≠ .free then s.protocolError p .reusedTag PacketKind.cmd (some t.val)
  else
    let s := s.openCmd p t (some c)
    if counted = false then s.answer p t .badArgument []
    else if s.started = false then
      match held with
      | some a => s.holdArgs p t [a]
      | none => s.answer p t .portHeld []
    else if s.hasRight p c.right then body s
    else s.answer p t .noRight []

theorem command_eq (p : Port) (q : Seq) (t : CmdTag) (c : Command) (counted : Bool) (held : Option Word)
    (body : State → State) : command p q t c counted held body = sequenced p q (settles p t c counted held body) :=
  rfl

theorem simpleCommand_eq (p : Port) (q : Seq) (t : CmdTag) (c : Command) (body : State → State) :
    simpleCommand p q t c body = sequenced p q (settles p t c true none body) := rfl

theorem sequenced_takes {s : State} {p : Port} {q : Seq} (h : s.Takes p q) (f : State → State) :
    sequenced p q f s = f (s.taken p q) := by
  obtain ⟨_, h2, h3⟩ := h
  simp [sequenced, h2, h3, accept_eq]

theorem cmdTag_taken (p : Port) (q : Seq) (s : State) (t : CmdTag) : (s.taken p q).cmdTag p t = s.cmdTag p t := by
  simp [taken, cmdTag]

theorem started_taken (p : Port) (q : Seq) (s : State) : (s.taken p q).started = s.started := rfl

theorem cmdTag_opened (p : Port) (q : Seq) (t : CmdTag) (c : Option Command) (s : State) :
    (s.opened p q t c).cmdTag p t = { CmdTagRecord.reset with state := .opened, command := c } := by
  simp [opened, cmdTag]

/-! ### Reading past an accepted command -/

@[simp] theorem line_opened (p : Port) (q : Seq) (t : CmdTag) (c : Option Command) (s : State) (x : LineNo) :
    (s.opened p q t c).line x = s.line x := rfl
@[simp] theorem slot_opened (p : Port) (q : Seq) (t : CmdTag) (c : Option Command) (s : State) (x : SlotNo) :
    (s.opened p q t c).slot x = s.slot x := rfl
@[simp] theorem frame_opened (p : Port) (q : Seq) (t : CmdTag) (c : Option Command) (s : State) (x : FrameNo) :
    (s.opened p q t c).frame x = s.frame x := rfl
@[simp] theorem work_opened (p : Port) (q : Seq) (t : CmdTag) (c : Option Command) (s : State) (x : LineNo) :
    (s.opened p q t c).work x = s.work x := rfl
@[simp] theorem sequence_opened (p : Port) (q : Seq) (t : CmdTag) (c : Option Command) (s : State) (x : LineNo) :
    (s.opened p q t c).sequence x = s.sequence x := rfl
@[simp] theorem portCfg_opened (p : Port) (q : Seq) (t : CmdTag) (c : Option Command) (s : State) (x : Port) :
    (s.opened p q t c).portCfg x = s.portCfg x := rfl
@[simp] theorem opened_lines (p : Port) (q : Seq) (t : CmdTag) (c : Option Command) (s : State) : (s.opened p q t c).lines = s.lines := rfl
@[simp] theorem opened_slots (p : Port) (q : Seq) (t : CmdTag) (c : Option Command) (s : State) : (s.opened p q t c).slots = s.slots := rfl
@[simp] theorem opened_frames (p : Port) (q : Seq) (t : CmdTag) (c : Option Command) (s : State) : (s.opened p q t c).frames = s.frames := rfl
@[simp] theorem opened_age (p : Port) (q : Seq) (t : CmdTag) (c : Option Command) (s : State) : (s.opened p q t c).age = s.age := rfl
@[simp] theorem opened_segments (p : Port) (q : Seq) (t : CmdTag) (c : Option Command) (s : State) : (s.opened p q t c).segments = s.segments := rfl
@[simp] theorem opened_frameWait (p : Port) (q : Seq) (t : CmdTag) (c : Option Command) (s : State) : (s.opened p q t c).frameWait = s.frameWait := rfl
@[simp] theorem opened_fill (p : Port) (q : Seq) (t : CmdTag) (c : Option Command) (s : State) : (s.opened p q t c).fill = s.fill := rfl
@[simp] theorem opened_chan (p : Port) (q : Seq) (t : CmdTag) (c : Option Command) (s : State) : (s.opened p q t c).chan = s.chan := rfl
@[simp] theorem opened_upd (p : Port) (q : Seq) (t : CmdTag) (c : Option Command) (s : State) : (s.opened p q t c).upd = s.upd := rfl
@[simp] theorem opened_reclaim (p : Port) (q : Seq) (t : CmdTag) (c : Option Command) (s : State) : (s.opened p q t c).reclaim = s.reclaim := rfl
@[simp] theorem opened_cfgw (p : Port) (q : Seq) (t : CmdTag) (c : Option Command) (s : State) : (s.opened p q t c).cfgw = s.cfgw := rfl
@[simp] theorem opened_cfg (p : Port) (q : Seq) (t : CmdTag) (c : Option Command) (s : State) : (s.opened p q t c).cfg = s.cfg := rfl
@[simp] theorem opened_start (p : Port) (q : Seq) (t : CmdTag) (c : Option Command) (s : State) : (s.opened p q t c).start = s.start := rfl
@[simp] theorem opened_events (p : Port) (q : Seq) (t : CmdTag) (c : Option Command) (s : State) : (s.opened p q t c).events = s.events := rfl
@[simp] theorem opened_flash (p : Port) (q : Seq) (t : CmdTag) (c : Option Command) (s : State) : (s.opened p q t c).flash = s.flash := rfl
@[simp] theorem opened_clock (p : Port) (q : Seq) (t : CmdTag) (c : Option Command) (s : State) : (s.opened p q t c).clock = s.clock := rfl
@[simp] theorem opened_draws (p : Port) (q : Seq) (t : CmdTag) (c : Option Command) (s : State) : (s.opened p q t c).draws = s.draws := rfl
@[simp] theorem opened_hubRestart (p : Port) (q : Seq) (t : CmdTag) (c : Option Command) (s : State) : (s.opened p q t c).hubRestart = s.hubRestart := rfl
@[simp] theorem opened_pending (p : Port) (q : Seq) (t : CmdTag) (c : Option Command) (s : State) : (s.opened p q t c).pending = s.pending := rfl
@[simp] theorem opened_powered (p : Port) (q : Seq) (t : CmdTag) (c : Option Command) (s : State) : (s.opened p q t c).powered = s.powered := rfl
@[simp] theorem opened_resetInput (p : Port) (q : Seq) (t : CmdTag) (c : Option Command) (s : State) : (s.opened p q t c).resetInput = s.resetInput := rfl
@[simp] theorem offline_opened (p : Port) (q : Seq) (t : CmdTag) (c : Option Command) (s : State) : (s.opened p q t c).offline = s.offline := rfl
@[simp] theorem started_opened (p : Port) (q : Seq) (t : CmdTag) (c : Option Command) (s : State) : (s.opened p q t c).started = s.started := rfl

/-- Another port's record is as it was. -/
theorem port_opened_ne (p : Port) (q : Seq) (t : CmdTag) (c : Option Command) (s : State) {x : Port} (h : x ≠ p) : (s.opened p q t c).port x = s.port x := by
  simp [opened, h]

@[simp] theorem sup_opened (p : Port) (q : Seq) (t : CmdTag) (c : Option Command) (s : State) (x : Port) : ((s.opened p q t c).port x).sup = (s.port x).sup := by
  by_cases h : x = p
  · subst h; simp [opened]
  · rw [port_opened_ne _ _ _ _ _ h]

@[simp] theorem window_opened (p : Port) (q : Seq) (t : CmdTag) (c : Option Command) (s : State) (x : Port) (w : WindowNo) :
    (s.opened p q t c).window x w = s.window x w := by
  by_cases h : x = p
  · subst h; simp [opened, State.window]
  · simp only [State.window]; rw [port_opened_ne _ _ _ _ _ h]

@[simp] theorem portHeld_opened (p : Port) (q : Seq) (t : CmdTag) (c : Option Command) (s : State) (x : Port) : (s.opened p q t c).portHeld x = s.portHeld x := by
  simp [portHeld]

theorem hasRight_modPort (p : Port) (f : PortRecord → PortRecord) (s : State) (x : Port) (r : Right) :
    (s.modPort p f).hasRight x r = s.hasRight x r := by
  cases r <;> rfl

/-- A command handed to its block. -/
theorem command_dispatched {s : State} {p : Port} {q : Seq} {t : CmdTag} {c : Command} (h : s.Dispatched p q t c)
    (held : Option Word) (body : State → State) :
    command p q t c true held body s = body (s.opened p q t (some c)) := by
  obtain ⟨h1, h2, h3, h4⟩ := h
  have e1 : (s.opened p q t (some c)).started = true := h3
  have e2 : (s.opened p q t (some c)).hasRight p c.right = true := by
    unfold opened; rw [hasRight_modPort]; exact h4
  unfold command
  rw [sequenced_takes h1, cmdTag_taken]
  simp [h2, openCmd_taken, e1, e2]

/-- The answer to an OPEN tag (R164). -/
theorem answer_opened {s : State} {p : Port} {t : CmdTag} (h : (s.cmdTag p t).state = .opened) (st : Status)
    (res : List Word) : s.answer p t st res = s.replied p t st res := by
  unfold answer; rw [h]; rfl

theorem answer_of_opened (p : Port) (q : Seq) (t : CmdTag) (c : Option Command) (s : State) (st : Status)
    (res : List Word) : (s.opened p q t c).answer p t st res = (s.opened p q t c).replied p t st res :=
  answer_opened (by rw [cmdTag_opened]) _ _

/-- Every sequenced packet is taken by `sequenced` (R156). -/
theorem exec_sequenced {c : Instr} {p : Port} {q : Seq} (h : sequencedPacket c = some (p, q)) :
    ∃ f, ∀ s : State, exec c s = .next (s.whenLive (sequenced p q f)) := by
  cases c <;> simp only [sequencedPacket, cmdHeader, Option.map_some, Option.map_none, Option.some.injEq,
    Prod.mk.injEq, reduceCtorEq] at h
  case malformed a b d =>
    split at h
    · rename_i k
      simp only [Option.some.injEq, Prod.mk.injEq] at h
      obtain ⟨rfl, rfl⟩ := h
      refine ⟨fun s => s.protocolError a .malformed b.toNat none, fun s => ?_⟩
      show Host.Outcome.next (s.whenLive _) = _
      simp only [k, if_true]
    · cases h
  all_goals
    obtain ⟨rfl, rfl⟩ := h
    first
    | exact ⟨_, fun s => rfl⟩
    | exact ⟨_, fun s => congrArg (fun g => Host.Outcome.next (s.whenLive g)) (simpleCommand_eq _ _ _ _ _)⟩

theorem whenLive_takes {s : State} {p : Port} {q : Seq} (h : s.Takes p q) (f : State → State) :
    s.whenLive f = f s := whenLive_live h.1 f

end Sys2Proof.Machine.State
end

