-- ==== Sys2Proof/Laws/Memory.lean ====
section
/-!
SUPPORT. The flash memory: every operation keeps the canonical form, and what a byte reads as after each.
-/

namespace Sys2Proof.Machine

namespace Memory

/-- The memory with nothing listed is in canonical form. -/
theorem wf_nil : wf [] := by simp [wf]

/-- An address written is above every address below both it and the old entries. -/
theorem mem_write {m : List Host.Cell} {a : Nat} {v : Byte} {c : Host.Cell} (h : c ∈ write m a v) :
    c = (a, v) ∨ c ∈ m := by
  induction m with
  | nil =>
    simp only [write] at h
    split at h <;> simp_all
  | cons d m ih =>
    simp only [write] at h
    split at h
    · split at h
      · exact Or.inr h
      · simpa using h
    · split at h
      · split at h
        · exact Or.inr (List.mem_cons_of_mem _ h)
        · rcases List.mem_cons.mp h with rfl | h
          · exact Or.inl rfl
          · exact Or.inr (List.mem_cons_of_mem _ h)
      · rcases List.mem_cons.mp h with rfl | h
        · exact Or.inr List.mem_cons_self
        · rcases ih h with rfl | h
          · exact Or.inl rfl
          · exact Or.inr (List.mem_cons_of_mem _ h)

/-- A write never lists the erased value. -/
theorem ne_unlisted_write {m : List Host.Cell} {a : Nat} {v : Byte} (hm : ∀ c ∈ m, c.2 ≠ unlisted) :
    ∀ c ∈ write m a v, c.2 ≠ unlisted := by
  induction m with
  | nil => simp only [write]; split <;> simp_all
  | cons d m ih =>
    have hd := hm d List.mem_cons_self
    have ht : ∀ c ∈ m, c.2 ≠ unlisted := fun c hc => hm c (List.mem_cons_of_mem _ hc)
    simp only [write]
    intro c hc
    split at hc
    · split at hc
      · exact hm c hc
      · rcases List.mem_cons.mp hc with rfl | hc
        · assumption
        · exact hm c hc
    · split at hc
      · split at hc
        · exact ht c hc
        · rcases List.mem_cons.mp hc with rfl | hc
          · assumption
          · exact ht c hc
      · rcases List.mem_cons.mp hc with rfl | hc
        · exact hd
        · exact ih ht c hc

/-- A write keeps the canonical form. -/
theorem wf_write {m : List Host.Cell} (a : Nat) (v : Byte) (h : wf m) : wf (write m a v) := by
  refine ⟨?_, ne_unlisted_write h.2⟩
  have hp := h.1
  clear h
  induction m with
  | nil => simp only [write]; split <;> simp
  | cons d m ih =>
    rw [List.pairwise_cons] at hp
    simp only [write]
    split
    · rename_i hlt
      split
      · exact List.pairwise_cons.mpr hp
      · refine List.pairwise_cons.mpr ⟨?_, List.pairwise_cons.mpr hp⟩
        intro c hc
        rcases List.mem_cons.mp hc with rfl | hc
        · exact hlt
        · exact Nat.lt_trans hlt (hp.1 c hc)
    · split
      · rename_i _ heq
        split
        · exact hp.2
        · refine List.pairwise_cons.mpr ⟨?_, hp.2⟩
          intro c hc
          have := hp.1 c hc
          simpa [heq] using this
      · rename_i hge hne
        refine List.pairwise_cons.mpr ⟨?_, ih hp.2⟩
        intro c hc
        rcases mem_write hc with rfl | hc
        · show d.1 < a
          omega
        · exact hp.1 c hc

/-- The byte at an address below every listed one is the erased value. -/
theorem read_below {m : List Host.Cell} {a : Nat} (h : ∀ c ∈ m, a < c.1) : read m a = unlisted := by
  induction m with
  | nil => rfl
  | cons d m ih =>
    have hd := h d List.mem_cons_self
    have : d.1 ≠ a := by omega
    simp only [read, if_neg this]
    exact ih (fun c hc => h c (List.mem_cons_of_mem _ hc))

/-- A byte after a write: the value written at its address, elsewhere the byte before. -/
theorem read_write {m : List Host.Cell} (h : wf m) (a b : Nat) (v : Byte) :
    read (write m a v) b = if b = a then v else read m b := by
  have hp := h.1
  clear h
  induction m with
  | nil =>
    simp only [write]
    by_cases hv : v = unlisted
    · simp [hv, read]
    · by_cases hb : b = a
      · simp [hv, read, hb]
      · have : ¬ a = b := fun e => hb e.symm
        simp [hv, read, hb, this]
  | cons d m ih =>
    rw [List.pairwise_cons] at hp
    simp only [write]
    split
    · rename_i hlt
      have hbelow : read (d :: m) a = unlisted := by
        apply read_below
        intro c hc
        rcases List.mem_cons.mp hc with rfl | hc
        · exact hlt
        · exact Nat.lt_trans hlt (hp.1 c hc)
      by_cases hv : v = unlisted
      · by_cases hb : b = a
        · subst hb; simp [hv, hbelow]
        · simp [hv, hb]
      · by_cases hb : b = a
        · subst hb; simp [hv, read]
        · have : ¬ a = b := fun e => hb e.symm
          simp [hv, read, hb, this]
    · rename_i hge
      split
      · rename_i heq
        by_cases hv : v = unlisted
        · by_cases hb : b = a
          · have : read m a = unlisted := by
              apply read_below
              intro c hc
              have := hp.1 c hc
              omega
            subst hb
            simp [hv, this]
          · have : ¬ d.1 = b := fun e => hb (by omega)
            simp [hv, read, hb, this]
        · by_cases hb : b = a
          · subst hb; simp [hv, read]
          · have : ¬ a = b := fun e => hb e.symm
            have h2 : ¬ d.1 = b := fun e => hb (by omega)
            simp [hv, read, hb, this, h2]
      · rename_i hne
        by_cases hd : d.1 = b
        · have : b ≠ a := fun e => hne (by omega)
          simp [read, hd, this]
        · simp [read, hd, ih hp.2]

/-- Programming keeps the canonical form. -/
theorem wf_program (bs : List Byte) : ∀ (m : List Host.Cell) (a : Nat), wf m → wf (program m a bs) := by
  induction bs with
  | nil => intro m a h; exact h
  | cons b bs ih => intro m a h; exact ih _ _ (wf_write _ _ h)

/-- Writing bytes whatever was there keeps the canonical form. -/
theorem wf_fill (bs : List Byte) : ∀ (m : List Host.Cell) (a : Nat), wf m → wf (fill m a bs) := by
  induction bs with
  | nil => intro m a h; exact h
  | cons b bs ih => intro m a h; exact ih _ _ (wf_write _ _ h)

/-- Erasing a block keeps the canonical form. -/
theorem wf_eraseBlock (m : List Host.Cell) (k : Nat) (h : wf m) : wf (eraseBlock m k) :=
  ⟨h.1.filter _, fun c hc => h.2 c (List.mem_of_mem_filter hc)⟩

/-- A byte below the bytes programmed, or past them, is as it was. -/
theorem read_program_out (bs : List Byte) : ∀ (m : List Host.Cell) (a x : Nat), wf m →
    (x < a ∨ a + bs.length ≤ x) → read (program m a bs) x = read m x := by
  induction bs with
  | nil => intro m a x _ _; rfl
  | cons b bs ih =>
    intro m a x h hx
    have hlen : (b :: bs).length = bs.length + 1 := rfl
    rw [program, ih _ _ _ (wf_write _ _ h) (by omega), read_write h]
    have : x ≠ a := by omega
    simp [this]

/-- A byte programmed is the byte before with the zeros of the byte written (R88). -/
theorem read_program_in (bs : List Byte) : ∀ (m : List Host.Cell) (a i : Nat) (hi : i < bs.length), wf m →
    read (program m a bs) (a + i) = read m (a + i) &&& bs[i] := by
  induction bs with
  | nil => intro m a i hi; simp at hi
  | cons b bs ih =>
    intro m a i hi h
    cases i with
    | zero =>
      rw [program, read_program_out bs _ _ _ (wf_write _ _ h) (by omega), read_write h]
      simp
    | succ i =>
      have hi' : i < bs.length := by simpa using hi
      have e : a + (i + 1) = a + 1 + i := by omega
      rw [program, e, ih _ _ i hi' (wf_write _ _ h), read_write h]
      have : a + 1 + i ≠ a := by omega
      simp [this]

/-- A byte of an erased block reads as erased; any other as before (R88). -/
theorem read_eraseBlock (m : List Host.Cell) (k x : Nat) :
    read (eraseBlock m k) x = if x / 65536 = k then unlisted else read m x := by
  induction m with
  | nil => simp [eraseBlock, read]
  | cons c m ih =>
    have ih' : read (List.filter (fun c => c.1 / 65536 != k) m) x =
        if x / 65536 = k then unlisted else read m x := ih
    by_cases hc : c.1 / 65536 = k
    · have e : eraseBlock (c :: m) k = eraseBlock m k := by simp [eraseBlock, hc]
      rw [e, ih]
      by_cases hx : x / 65536 = k
      · simp [hx]
      · have : ¬ c.1 = x := fun e => hx (by rw [← e]; exact hc)
        simp [hx, read, this]
    · have e : eraseBlock (c :: m) k = c :: eraseBlock m k := by simp [eraseBlock, hc]
      rw [e]
      by_cases hx : c.1 = x
      · have : ¬ x / 65536 = k := by rw [← hx]; exact hc
        simp [read, hx, this]
      · simp only [read, if_neg hx]
        exact ih

/-- A byte below the bytes written whatever was there, or past them, is as it was. -/
theorem read_fill_out (bs : List Byte) : ∀ (m : List Host.Cell) (a x : Nat), wf m →
    (x < a ∨ a + bs.length ≤ x) → read (fill m a bs) x = read m x := by
  induction bs with
  | nil => intro m a x _ _; rfl
  | cons b bs ih =>
    intro m a x h hx
    have hlen : (b :: bs).length = bs.length + 1 := rfl
    rw [fill, ih _ _ _ (wf_write _ _ h) (by omega), read_write h, if_neg (by omega)]

/-- A byte written whatever was there. -/
theorem read_fill_in (bs : List Byte) : ∀ (m : List Host.Cell) (a i : Nat) (hi : i < bs.length), wf m →
    read (fill m a bs) (a + i) = bs[i] := by
  induction bs with
  | nil => intro m a i hi; simp at hi
  | cons b bs ih =>
    intro m a i hi h
    cases i with
    | zero =>
      rw [fill, read_fill_out bs _ _ _ (wf_write _ _ h) (by omega), read_write h]
      simp
    | succ i =>
      have hi' : i < bs.length := by simpa using hi
      have e : a + (i + 1) = a + 1 + i := by omega
      rw [fill, e, ih _ _ i hi' (wf_write _ _ h)]
      simp

/-- A byte of a page, read. -/
theorem getElem?_page (m : List Host.Cell) (pg i : Nat) (hi : i < 4096) :
    (page m pg)[i]? = some (read m (4096 * pg + i)) := by
  simp only [page, range, List.getElem?_map, List.getElem?_range hi, Option.map_some]

/-- A page written back in its place reads as it was. -/
theorem page_fill_page {m n : List Host.Cell} {a : Nat} (h : wf m) (place : 4096 ∣ a) :
    page (fill m a (page n (a / 4096))) (a / 4096) = page n (a / 4096) := by
  refine List.ext_getElem? (fun i => ?_)
  by_cases hi : i < 4096
  · have size : i < (page n (a / 4096)).length := by simpa [page, range] using hi
    rw [getElem?_page _ _ _ hi, Nat.mul_div_cancel' place, read_fill_in _ _ _ _ size h, List.getElem?_eq_getElem size]
  · rw [List.getElem?_eq_none (by simp [page, range]; omega), List.getElem?_eq_none (by simp [page, range]; omega)]

end Memory

/-! ### Copies that hold no configuration (R173) -/

/-- A copy whose sequence reads as 0 is invalid (R173). -/
theorem readCopy_zero {page : List Byte} (zero : ∀ i, i < 4 → page[i]? = some 0) : readCopy page = none := by
  match page with
  | [] => simpa using zero 0
  | [_] => simpa using zero 1
  | [_, _] => simpa using zero 2
  | [_, _, _] => simpa using zero 3
  | a :: b :: c :: d :: rest =>
    have ha : a = 0 := by simpa using zero 0
    have hb : b = 0 := by simpa using zero 1
    have hc : c = 0 := by simpa using zero 2
    have hd : d = 0 := by simpa using zero 3
    subst ha; subst hb; subst hc; subst hd
    have : field (0 :: 0 :: 0 :: 0 :: rest) 0 4 = 0 := by simp [field, slice, leNat]
    simp only [readCopy, this]
    rw [if_neg (by omega)]

/-- A copy whose flash size exponent reads as the erased value is invalid (R173). -/
theorem readCopy_erased {page : List Byte} (erased : page[4]? = some 0xFF) : readCopy page = none := by
  have size : 4 < page.length := (List.getElem?_eq_some_iff.mp erased).1
  have exp : field (slice page 4 196) 0 1 = 255 := by
    have : (slice page 4 196).take 1 = [0xFF] := by
      have h : (page.drop 4)[0]? = some 0xFF := by simpa using erased
      cases e : page.drop 4 with
      | nil => rw [e] at h; simp at h
      | cons x xs => rw [e] at h; simp at h; simp [slice, e, h]
    simp only [field]
    rw [show slice (slice page 4 196) 0 1 = [0xFF] from this]
    rfl
  have : parseConfig (slice page 4 196) = none := by
    unfold parseConfig
    simp only [exp]
    rw [if_neg (by omega)]
  simp only [readCopy, this, Option.map_none, ite_self]

namespace State

/-- The flash of State.reset is in canonical form. -/
theorem wf_reset : Memory.wf State.reset.flash := Memory.wf_nil

/-- A program that was cut leaves a canonical memory. -/
theorem wf_cutBytes (o : Operation) (s : State) (hs : Memory.wf s.flash) : Memory.wf (s.cutBytes o) :=
  Memory.wf_program _ _ _ hs

/-- So does one cut within its bounds. -/
theorem wf_cutProgram (h : DeviceEnd) (o : Operation) (s : State) (hs : Memory.wf s.flash) :
    Memory.wf (s.cutProgram h o) := by
  have hcut := wf_cutBytes o s hs
  unfold cutProgram
  generalize s.cutBytes o = m at hcut ⊢
  cases o.work.headerRecord with
  | some k =>
    dsimp only
    split
    · exact hcut
    · exact Memory.wf_program _ _ _ hcut
  | none =>
    dsimp only
    by_cases c : o.work.ofConfig ∧ (h = .abandoned ∨ h = .powerLost) ∧
        (readCopy (Memory.page m (o.addr / 4096))).isSome
    · rw [if_pos c]; exact Memory.wf_program _ _ _ hcut
    · rw [if_neg c]; exact hcut

/-- A cut erase leaves a canonical memory. -/
theorem wf_cutErase (o : Operation) (s : State) (hs : Memory.wf s.flash) : Memory.wf (s.cutErase o) :=
  Memory.wf_fill _ _ _ hs

/-- So does one cut within its bounds. -/
theorem wf_cutEraseBound (o : Operation) (s : State) (hs : Memory.wf s.flash) :
    Memory.wf (s.cutEraseBound o) := by
  have hcut := wf_cutErase o s hs
  unfold cutEraseBound
  generalize s.cutErase o = m at hcut ⊢
  dsimp only
  by_cases c : o.work.ofConfig = true
  · rw [if_pos c]
    by_cases d : (readCopy (Memory.page m (o.addr / 4096))).isSome = true
    · rw [if_pos d]; exact Memory.wf_eraseBlock _ _ hs
    · rw [if_neg d]; exact hcut
  · rw [if_neg c]
    cases o.slot with
    | none => exact hcut
    | some n =>
      dsimp only
      by_cases d : o.addr ≠ s.slotBase n ∨
          (erased (Memory.page m (o.addr / 4096)) = false ∧
            readStage s.largestImage (Memory.page m (o.addr / 4096)) = none)
      · rw [if_pos d]; exact hcut
      · rw [if_neg d]; exact Memory.wf_fill _ _ _ hcut

/-- What the device does with an operation keeps the flash in canonical form, however the operation ended. -/
theorem wf_deviceEffect (h : DeviceEnd) (o : Operation) (s : State) (hs : Memory.wf s.flash) :
    Memory.wf (s.deviceEffect h o).flash := by
  have hp := wf_cutProgram h o s hs
  have he := wf_cutEraseBound o s hs
  unfold deviceEffect
  cases o.work.flashUse with
  | nothing => exact hs
  | programs =>
    cases h with
    | done => exact Memory.wf_program _ _ _ hs
    | failed => exact hp
    | timedOut => exact hp
    | abandoned => exact hp
    | powerLost => exact hp
  | erases =>
    cases h with
    | done => exact Memory.wf_eraseBlock _ _ hs
    | failed => exact he
    | timedOut => exact he
    | abandoned => exact he
    | powerLost => exact he

/-! ### What a cut mark leaves of its header record (R177, R190) -/

/-- The unit of a header page is 256 bytes of the flash. -/
theorem headerUnit_page (m : List Host.Cell) (pg k : Nat) (hk : k < 16) :
    headerUnit (Memory.page m pg) k = Memory.range m (4096 * pg + 256 * k) 256 := by
  refine List.ext_getElem? (fun i => ?_)
  simp only [headerUnit, slice, Memory.page, Memory.range, List.getElem?_take, List.getElem?_drop, List.getElem?_map]
  by_cases hi : i < 256
  · rw [if_pos hi, List.getElem?_range (by omega), List.getElem?_range hi]
    simp [Nat.add_assoc]
  · rw [if_neg hi, List.getElem?_eq_none (by simp; omega)]; rfl

/-- A record whose check does not hold is invalid. -/
theorem recordInvalid_of_fails {page : List Byte} {k : Nat} (largest : Nat) (hk : k < 4) (h : recordFailsCheck page k = true) :
    recordInvalid largest page k = true := by
  simp only [recordFailsCheck, Bool.and_eq_true, Bool.not_eq_true'] at h
  obtain ⟨present, fails⟩ := h
  unfold recordInvalid
  rw [present]
  match k with
  | 0 => simp only [recordForm] at fails; simp only [readStage, fails]; split <;> simp
  | 1 => simp only [recordForm] at fails; simp only [readSeal, fails]; rfl
  | 2 => simp only [recordForm] at fails; simp only [readCommit, fails, Bool.false_eq_true, false_and]; rfl
  | 3 => simp only [recordForm] at fails; simp only [readRetire, fails, Bool.false_eq_true, false_and]; rfl

/-- A unit with a zero for its kind byte, or with a zero after the record, holds no record. -/
theorem recordFailsCheck_zero {page : List Byte} {k i : Nat} (hi : (headerUnit page k)[i]? = some 0)
    (place : i = 0 ∨ 24 ≤ i) : recordFailsCheck page k = true := by
  have mem := List.mem_of_getElem? hi
  have sizes : (recordForm k).2 ≤ 24 := by unfold recordForm; split <;> decide
  have kind : (recordForm k).1 ≠ 0 := by unfold recordForm; split <;> decide
  simp only [recordFailsCheck, Bool.and_eq_true, Bool.not_eq_true']
  refine ⟨?_, ?_⟩
  · simp only [erased, List.all_eq_false]
    exact ⟨0, mem, by decide⟩
  · rw [Bool.eq_false_iff]
    intro holds
    simp only [recordHolds, Bool.and_eq_true, beq_iff_eq] at holds
    rcases place with rfl | late
    · have := holds.1.1
      rw [List.head?_eq_getElem?, hi] at this
      exact kind (Option.some.inj this).symm
    · have rest := holds.2
      simp only [erased, List.all_eq_true] at rest
      have : (0 : Byte) ∈ (headerUnit page k).drop (recordForm k).2 := by
        refine List.mem_of_getElem? (i := i - (recordForm k).2) ?_
        rw [List.getElem?_drop, show (recordForm k).2 + (i - (recordForm k).2) = i by omega]
        exact hi
      exact absurd (rest 0 this) (by decide)

/-- What a cut mark leaves is within its bounds. -/
theorem cutProgram_mayLeave {h : DeviceEnd} {o : Operation} {k : Nat} {s : State} (hs : Memory.wf s.flash)
    (hk : o.work.headerRecord = some k) (at_ : o.addr % 4096 = if o.work = .eraseMark then 255 else 256 * k) :
    mayLeave h o.work s.largestImage (Memory.page (s.cutProgram h o) (o.addr / 4096)) k = true := by
  have small : k < 4 ∧ (o.work = .eraseMark → k = 0) := by
    revert hk; unfold Work.headerRecord; split <;> intro e <;> cases e <;> simp_all
  unfold cutProgram
  rw [hk]
  dsimp only
  split
  · assumption
  · have fails : recordFailsCheck (Memory.page (Memory.program (s.cutBytes o) o.addr [0]) (o.addr / 4096)) k = true := by
      have zero := Memory.read_program_in [0] (s.cutBytes o) o.addr 0 (by simp) (wf_cutBytes o s hs)
      by_cases e : o.work = .eraseMark
      · rw [if_pos e] at at_
        refine recordFailsCheck_zero (i := 255) ?_ (Or.inr (by omega))
        rw [headerUnit_page _ _ _ (by omega), small.2 e]
        have : 4096 * (o.addr / 4096) + 256 * 0 + 255 = o.addr := by omega
        simp [Memory.range, this] at zero ⊢
        exact zero
      · rw [if_neg e] at at_
        refine recordFailsCheck_zero (i := 0) ?_ (Or.inl rfl)
        rw [headerUnit_page _ _ _ (by omega)]
        have : 4096 * (o.addr / 4096) + 256 * k = o.addr := by omega
        simp [Memory.range, this] at zero ⊢
        exact zero
    cases h with
    | failed => exact Bool.or_eq_true _ _ ▸ Or.inr (recordInvalid_of_fails _ small.1 fails)
    | powerLost => exact fails
    | done => rfl
    | timedOut => rfl
    | abandoned => rfl

/-! ### What a cut configuration write and a cut erase leave (R107, R108, R176) -/

/-- A header page whose last byte of the stage unit is zero is neither blank nor holds a valid stage record (R108). -/
theorem header_marked {page : List Byte} (largest : Nat) (mark : page[255]? = some 0) :
    erased page = false ∧ readStage largest page = none := by
  refine ⟨?_, ?_⟩
  · simp only [erased, List.all_eq_false]
    exact ⟨0, List.mem_of_getElem? mark, by decide⟩
  · have fails := recordFailsCheck_zero (page := page) (k := 0) (i := 255)
      (by simp [headerUnit, slice, mark]) (Or.inr (by omega))
    simp only [recordFailsCheck, Bool.and_eq_true, Bool.not_eq_true'] at fails
    have f2 := fails.2
    simp only [recordForm] at f2
    simp only [readStage, f2]
    split <;> simp

/-- A program of a copy that a start or a loss of power cut leaves it invalid (R176). -/
theorem cutProgram_copy {h : DeviceEnd} {o : Operation} {c : Copy} {s : State} (hs : Memory.wf s.flash)
    (work : o.work = .configProgram c) (place : 4096 ∣ o.addr) (cut : h = .abandoned ∨ h = .powerLost) :
    readCopy (Memory.page (s.cutProgram h o) (o.addr / 4096)) = none := by
  simp only [cutProgram, work, Work.headerRecord, Work.ofConfig, cut, true_and]
  split
  · refine readCopy_zero (fun i hi => ?_)
    have size : i < (List.replicate 204 (0 : Byte)).length := by rw [List.length_replicate]; omega
    rw [Memory.getElem?_page _ _ _ (by omega), Nat.mul_div_cancel' place,
      Memory.read_program_in _ _ _ _ size (wf_cutBytes o s hs), List.getElem_replicate]
    exact congrArg some BitVec.and_zero
  · rename_i valid
    simpa using valid

/-- A cut erase of a copy leaves it invalid (R176). -/
theorem cutEraseBound_copy {o : Operation} {c : Copy} {s : State} (work : o.work = .configErase c) :
    readCopy (Memory.page (s.cutEraseBound o) (o.addr / 4096)) = none := by
  simp only [cutEraseBound, work, Work.ofConfig, if_true]
  split
  · refine readCopy_erased ?_
    rw [Memory.getElem?_page _ _ _ (by omega), Memory.read_eraseBlock, if_pos (by omega)]
    rfl
  · rename_i valid
    simpa using valid

/-- A cut erase of a slot's first block leaves its header page neither blank nor with a valid stage record, when the
page was so before (R107, R108, R178). -/
theorem cutEraseBound_header {o : Operation} {n : SlotNo} {s : State} (hs : Memory.wf s.flash)
    (work : o.work.ofConfig = false) (slot : o.slot = some n) (first : o.addr = s.slotBase n) (place : 4096 ∣ o.addr)
    (before : erased (Memory.page s.flash (o.addr / 4096)) = false ∧
      readStage s.largestImage (Memory.page s.flash (o.addr / 4096)) = none) :
    erased (Memory.page (s.cutEraseBound o) (o.addr / 4096)) = false ∧
      readStage s.largestImage (Memory.page (s.cutEraseBound o) (o.addr / 4096)) = none := by
  simp only [cutEraseBound, work, slot, Bool.false_eq_true, if_false]
  split
  · rename_i left
    exact left.resolve_left (fun f => f first)
  · rw [Memory.page_fill_page (wf_cutErase o s hs) place]
    exact before

end State

end Sys2Proof.Machine
end

