-- ==== Sys2Proof/Laws/Device.lean ====
section
/-!
SUPPORT. What the device's end of an operation can change: the flash and the count of free values drawn.
-/

namespace Sys2Proof.Machine.State

theorem deviceEffect_frame (h : DeviceEnd) (o : Operation) (s : State) :
    s.deviceEffect h o =
      { s with flash := (s.deviceEffect h o).flash, draws := (s.deviceEffect h o).draws } := by
  unfold deviceEffect
  cases o.work.flashUse <;> cases h <;> rfl

/-- A read, or a reset, changes nothing at the device. -/
theorem deviceEffect_nothing {o : Operation} (h : DeviceEnd) (s : State) (w : o.work.flashUse = .nothing) :
    s.deviceEffect h o = s := by
  unfold deviceEffect; rw [w]

/-- A program that the device answered DONE (R88). -/
theorem deviceEffect_program {o : Operation} (s : State) (w : o.work.flashUse = .programs) :
    s.deviceEffect .done o = { s with flash := Memory.program s.flash o.addr o.data } := by
  unfold deviceEffect; rw [w]

/-- An erase that the device answered DONE (R88). -/
theorem deviceEffect_erase {o : Operation} (s : State) (w : o.work.flashUse = .erases) :
    s.deviceEffect .done o = { s with flash := Memory.eraseBlock s.flash (o.addr / 65536) } := by
  unfold deviceEffect; rw [w]

theorem abandonOps_none {s : State} (h : DeviceEnd) (h1 : s.chan.op = none) (h2 : s.chan.suspended = none) :
    s.abandonOps h = s := by
  unfold abandonOps; rw [h1, h2]

theorem abandonOps_frame (h : DeviceEnd) (s : State) :
    s.abandonOps h = { s with flash := (s.abandonOps h).flash, draws := (s.abandonOps h).draws } := by
  unfold abandonOps
  cases s.chan.op with
  | none =>
    cases s.chan.suspended with
    | none => rfl
    | some o => exact deviceEffect_frame _ _ _
  | some o =>
    cases s.chan.suspended with
    | none => exact deviceEffect_frame _ _ _
    | some x =>
      dsimp only
      rw [deviceEffect_frame, deviceEffect_frame]

theorem wf_abandonOps (h : DeviceEnd) (s : State) (hs : Memory.wf s.flash) : Memory.wf (s.abandonOps h).flash := by
  unfold abandonOps
  cases s.chan.op with
  | none =>
    cases s.chan.suspended with
    | none => exact hs
    | some o => exact wf_deviceEffect _ _ _ hs
  | some o =>
    cases s.chan.suspended with
    | none => exact wf_deviceEffect _ _ _ hs
    | some x => exact wf_deviceEffect _ _ _ (wf_deviceEffect _ _ _ hs)

/-- A start, in full (R170). -/
theorem beginStart_eq (k : StartKind) (s : State) :
    s.beginStart k =
      { State.reset with
        clock := s.clock, draws := (s.abandonOps .abandoned).draws, flash := (s.abandonOps .abandoned).flash,
        pending := s.pending, ports := tmap (fun r => { PortRecord.reset with wire := r.wire }) s.ports,
        start := { StartUp.reset with kind := k },
        events := match k with
          | .cold => EventRecord.reset
          | .restart => s.events } := by
  unfold beginStart
  have e := abandonOps_frame .abandoned s
  generalize s.abandonOps .abandoned = u at e ⊢
  rw [e]
  rfl

end Sys2Proof.Machine.State
end

