-- ==== Sys2Proof/Laws/Reads.lean ====
section
/-!
SUPPORT. What returning pins, ending requests and finishing segments can change, and what they leave alone.
-/

namespace Sys2Proof.Machine.State

/-! ### Unpins -/

/-- Only slots, frames, the age order and the fill engine's bad-page list have changed. -/
structure Unpins (s t : State) : Prop where
  rest : t = { s with slots := t.slots, frames := t.frames, age := t.age, fill := t.fill }
  fill : t.fill = { s.fill with badPages := t.fill.badPages }

theorem Unpins.refl (s : State) : Unpins s s := ⟨rfl, rfl⟩

theorem Unpins.trans {s t u : State} (a : Unpins s t) (b : Unpins t u) : Unpins s u := by
  refine ⟨?_, ?_⟩
  · rw [b.rest, a.rest]
  · rw [b.fill, a.fill]

theorem unpins_toDirty (n : SlotNo) (s : State) : Unpins s (s.toDirty n) := ⟨rfl, rfl⟩

theorem unpins_afterUnpin (n : SlotNo) (s : State) : Unpins s (s.afterUnpin n) := by
  unfold afterUnpin
  split
  · exact unpins_toDirty n s
  · exact Unpins.refl s

theorem unpins_modSlot (n : SlotNo) (f : Slot → Slot) (s : State) : Unpins s (s.modSlot n f) := ⟨rfl, rfl⟩

theorem unpins_segmentUnpin (n : SlotNo) (s : State) : Unpins s (s.segmentUnpin n) :=
  (unpins_modSlot _ _ _).trans (unpins_afterUnpin _ _)

theorem unpins_windowUnpin (n : SlotNo) (s : State) : Unpins s (s.windowUnpin n) :=
  (unpins_modSlot _ _ _).trans (unpins_afterUnpin _ _)

theorem unpins_fillUnpin (n : SlotNo) (s : State) : Unpins s (s.fillUnpin n) :=
  (unpins_modSlot _ _ _).trans (unpins_afterUnpin _ _)

theorem unpins_unpinSegments (gs : List Segment) (s : State) : Unpins s (unpinSegments gs s) := by
  induction gs generalizing s with
  | nil => exact Unpins.refl s
  | cons g gs ih => exact (unpins_segmentUnpin g.slot s).trans (ih _)

/-! ### The end of a port's requests (R80) -/

/-- A request ends without a reply (R80). -/
theorem dropRequest_spec (p : Port) (t : ReadTag) (s : State) :
    ∃ u, Unpins { s with segments := s.segments.filter (fun g => !ofRequest p t g) } u ∧
      s.dropRequest p t = u.modReadTag p t (fun _ => ReadTagRecord.reset) :=
  ⟨_, unpins_unpinSegments _ _, rfl⟩

/-- What R80 makes of a read tag. -/
def endedTag (r : ReadTagRecord) : ReadTagRecord :=
  match r.state with
  | .opened => { r with state := .discard }
  | .ready => ReadTagRecord.reset
  | .free => r
  | .discard => r

theorem endedTag_twice (r : ReadTagRecord) : endedTag (endedTag r) = endedTag r := by
  unfold endedTag
  cases h : r.state <;> simp [h, ReadTagRecord.reset]

/-- Whether a segment belongs to a READY tag among some tags of a port: those entries leave by R80. -/
def ofReady (p : Port) (ts : List ReadTag) (s : State) (g : Segment) : Bool :=
  g.id.port == p && ts.contains g.id.tag && (s.readTag p g.id.tag).state == .ready

theorem filter_nobody {α : Type} {l : List α} {f : α → Bool} (h : ∀ x ∈ l, f x = false) :
    l = l.filter (fun x => !f x) := by
  symm
  rw [List.filter_eq_self]
  intro x hx
  rw [h x hx]; rfl

/-- What R80 can do to some tags of a port. -/
structure EndsRead (p : Port) (ts : List ReadTag) (s t : State) : Prop where
  rest : t = { s with ports := t.ports, slots := t.slots, segments := t.segments, frames := t.frames,
                      age := t.age, fill := t.fill }
  fill : t.fill = { s.fill with badPages := t.fill.badPages }
  ports : t.ports = tset s.ports p { s.port p with readTags := (t.port p).readTags }
  tags : ∀ x, t.readTag p x = if x ∈ ts then endedTag (s.readTag p x) else s.readTag p x
  segments : t.segments = s.segments.filter (fun g => !ofReady p ts s g)

theorem EndsRead.refl (p : Port) (s : State) : EndsRead p [] s s where
  rest := rfl
  fill := rfl
  ports := by
    show s.ports = tset s.ports p (s.port p)
    unfold port; rw [tset_tget]
  tags := fun x => by simp
  segments := filter_nobody (fun g _ => by simp [ofReady])

theorem readTag_state_ended (r : ReadTagRecord) : (endedTag r).state ≠ .ready := by
  unfold endedTag
  cases h : r.state <;> simp [h, ReadTagRecord.reset]

/-- No entry leaves for a tag that is not READY. -/
theorem filter_notReady {p : Port} {t : ReadTag} {s : State} (h : (s.readTag p t).state ≠ .ready) :
    s.segments = s.segments.filter (fun g => !ofReady p [t] s g) :=
  filter_nobody (fun g _ => by
    unfold ofReady
    by_cases e : g.id.tag = t
    · simp [e, h]
    · simp [e])

/-- The entries of a READY tag are those that leave. -/
theorem ofReady_one {p : Port} {t : ReadTag} {s : State} (h : (s.readTag p t).state = .ready) (g : Segment) :
    ofReady p [t] s g = ofRequest p t g := by
  unfold ofReady ofRequest
  by_cases e : g.id.tag = t
  · simp [e, h]
  · simp [e]

theorem endsRead_one (p : Port) (t : ReadTag) (s : State) : EndsRead p [t] s (s.endRead p t) := by
  unfold endRead
  cases h : (s.readTag p t).state with
  | free =>
    refine ⟨rfl, rfl, (EndsRead.refl p s).ports, fun x => ?_, filter_notReady (by simp [h])⟩
    by_cases e : x = t
    · subst e; simp [endedTag, h]
    · simp [e]
  | discard =>
    refine ⟨rfl, rfl, (EndsRead.refl p s).ports, fun x => ?_, filter_notReady (by simp [h])⟩
    by_cases e : x = t
    · subst e; simp [endedTag, h]
    · simp [e]
  | opened =>
    refine ⟨rfl, rfl, ?_, fun x => ?_, filter_notReady (t := t) (by rw [h]; decide)⟩
    · simp [modReadTag, modPort, port]
    · by_cases e : x = t
      · subst e; simp [endedTag, modReadTag, readTag]
        simp [readTag] at h; simp [h]
      · simp [e, modReadTag, readTag]
  | ready =>
    obtain ⟨u, hu, e⟩ := dropRequest_spec p t s
    dsimp only
    rw [e]
    have hp : u.ports = s.ports := by rw [hu.rest]
    have hpp : u.port p = s.port p := by unfold port; rw [hp]
    refine ⟨?_, ?_, ?_, fun x => ?_, ?_⟩
    · show { u with ports := _ } = _
      rw [hu.rest]; rfl
    · exact hu.fill
    · show tset u.ports p _ = _
      rw [hp, hpp]; simp [modReadTag, modPort, port, hp]
    · by_cases ex : x = t
      · subst ex; simp [endedTag, modReadTag, readTag]
        simp [readTag] at h; simp [h]
      · simp [ex, modReadTag, readTag, hpp]
    · show u.segments = _
      have : u.segments = s.segments.filter (fun g => !ofRequest p t g) := by rw [hu.rest]
      rw [this]
      simp only [ofReady_one h]

theorem EndsRead.trans {p : Port} {xs ys : List ReadTag} {s t u : State} (a : EndsRead p xs s t)
    (b : EndsRead p ys t u) : EndsRead p (xs ++ ys) s u where
  rest := by rw [b.rest, a.rest]
  fill := by rw [b.fill, a.fill]
  ports := by
    have e : t.port p = { s.port p with readTags := (t.port p).readTags } := by
      have := congrArg (fun v => tget v p) a.ports
      simpa [port] using this
    rw [b.ports, a.ports, tset_tset, e]
  tags := fun x => by
    rw [b.tags x, a.tags x]
    by_cases h1 : x ∈ xs <;> by_cases h2 : x ∈ ys <;> simp [h1, h2, endedTag_twice]
  segments := by
    rw [b.segments, a.segments, List.filter_filter]
    refine List.filter_congr (fun g _ => ?_)
    unfold ofReady
    rw [a.tags]
    by_cases h1 : g.id.tag ∈ xs <;> by_cases h2 : g.id.tag ∈ ys <;> simp [h1, h2, readTag_state_ended]

theorem endsRead_all (p : Port) (ts : List ReadTag) (s : State) : EndsRead p ts s (endReadsOf p ts s) := by
  induction ts generalizing s with
  | nil => exact EndsRead.refl p s
  | cons t ts ih => exact (endsRead_one p t s).trans (ih _)

/-- R80 for all tags of a port. -/
theorem endReads_spec (p : Port) (s : State) : EndsRead p (tall 8) s (s.endReads p) := endsRead_all p _ s

theorem mem_tall (t : ReadTag) : t ∈ tall 8 := by revert t; decide

/-- The entries of a port's READY tags leave, and every other segment stays (R80). -/
theorem segments_endReads (p : Port) (s : State) :
    (s.endReads p).segments =
      s.segments.filter (fun g => !(g.id.port == p && (s.readTag p g.id.tag).state == .ready)) := by
  rw [(endReads_spec p s).segments]
  refine List.filter_congr (fun g _ => ?_)
  simp [ofReady, mem_tall]

/-! ### What R80 does is the same beside any other content of the ports -/

theorem afterUnpin_ports (n : SlotNo) (ps : Vector PortRecord 4) (s : State) :
    ({ s with ports := ps } : State).afterUnpin n = { s.afterUnpin n with ports := ps } := by
  unfold afterUnpin
  show (if (s.slot n).state = .retired ∧ pinCount (s.slot n) = 0 then
    ({ s with ports := ps } : State).toDirty n else { s with ports := ps }) = _
  split <;> rfl

theorem segmentUnpin_ports (n : SlotNo) (ps : Vector PortRecord 4) (s : State) :
    ({ s with ports := ps } : State).segmentUnpin n = { s.segmentUnpin n with ports := ps } :=
  afterUnpin_ports n ps (s.modSlot n (fun r => { r with segmentPins := r.segmentPins - 1 }))

theorem unpinSegments_ports (gs : List Segment) (ps : Vector PortRecord 4) (s : State) :
    State.unpinSegments gs { s with ports := ps } = { State.unpinSegments gs s with ports := ps } := by
  induction gs generalizing s with
  | nil => rfl
  | cons g gs ih =>
    show State.unpinSegments gs (({ s with ports := ps } : State).segmentUnpin g.slot) = _
    rw [segmentUnpin_ports, ih]
    rfl

/-- The two states differ in no more than the ports, and agree on one port's read tags. -/
structure SameReads (p : Port) (s t : State) : Prop where
  rest : t = { s with ports := t.ports }
  tags : (t.port p).readTags = (s.port p).readTags

theorem SameReads.endRead {p : Port} {s u : State} (h : SameReads p s u) (t : ReadTag) :
    SameReads p (s.endRead p t) (u.endRead p t) := by
  have e : u.readTag p t = s.readTag p t := by unfold readTag; rw [h.tags]
  unfold State.endRead
  rw [e]
  split
  · refine ⟨?_, ?_⟩
    · rw [h.rest]; rfl
    · simp [modReadTag, h.tags]
  · have d : u.dropRequest p t = { s.dropRequest p t with ports := (u.dropRequest p t).ports } := by
      unfold dropRequest releaseRequest
      rw [h.rest]
      show (State.unpinSegments _ { { s with segments := _ } with ports := u.ports }).modReadTag p t _ = _
      rw [unpinSegments_ports]
      rfl
    refine ⟨d, ?_⟩
    obtain ⟨x, hx, ex⟩ := dropRequest_spec p t s
    obtain ⟨y, hy, ey⟩ := dropRequest_spec p t u
    have px : x.port p = s.port p := by rw [hx.rest]; rfl
    have py : y.port p = u.port p := by rw [hy.rest]; rfl
    rw [ex, ey]
    simp [modReadTag, px, py, h.tags]
  · exact h
  · exact h

/-- R80 does the same, whatever else the ports hold. -/
theorem SameReads.endReads {p : Port} {s u : State} (h : SameReads p s u) :
    SameReads p (s.endReads p) (u.endReads p) := by
  unfold State.endReads
  generalize tall 8 = ts
  induction ts generalizing s u with
  | nil => exact h
  | cons t ts ih => exact ih (h.endRead t)

end Sys2Proof.Machine.State
end

