-- ==== Sys2Proof/Laws/Links.lean ====
section
/-!
SUPPORT. What the operations of a port link do: a link going DOWN, packets put on the link again, and the removal of
packets from the retransmit buffer.
-/

namespace Sys2Proof.Machine.State

/-! ### Command tags (R159) -/

/-- What a loss of link makes of a command tag. -/
def endedCmd (r : CmdTagRecord) : CmdTagRecord :=
  match r.state with
  | .opened => { r with state := .discard }
  | .ready => CmdTagRecord.reset
  | .free => r
  | .discard => r

/-- The state with where an accepted RESTART_HUB has got replaced. -/
def withRestart (h : HubRestart) (s : State) : State := { s with hubRestart := h }

@[simp] theorem withRestart_ports (h : HubRestart) (s : State) : (s.withRestart h).ports = s.ports := rfl
@[simp] theorem port_withRestart (h : HubRestart) (s : State) (x : Port) : (s.withRestart h).port x = s.port x := rfl
@[simp] theorem withRestart_hubRestart (h : HubRestart) (s : State) : (s.withRestart h).hubRestart = h := rfl
@[simp] theorem withRestart_events (h : HubRestart) (s : State) : (s.withRestart h).events = s.events := rfl
@[simp] theorem withRestart_segments (h : HubRestart) (s : State) : (s.withRestart h).segments = s.segments := rfl
@[simp] theorem cmdTag_withRestart (h : HubRestart) (s : State) (p : Port) (x : CmdTag) :
    (s.withRestart h).cmdTag p x = s.cmdTag p x := rfl

/-- One command tag at a loss of link: only it, and whether a hub restart begins, can change. -/
theorem endCmd_eq (p : Port) (t : CmdTag) (s : State) :
    s.endCmd p t =
      (s.modCmdTag p t endedCmd).withRestart
        (if (s.cmdTag p t).state = .ready ∧ restartReply (s.cmdTag p t) = true then .dropped else s.hubRestart) := by
  unfold withRestart
  have same : endedCmd (s.cmdTag p t) = s.cmdTag p t → s = s.modCmdTag p t endedCmd := by
    intro e
    refine (modPort_id (p := p) ?_).symm
    have : tget (s.port p).cmdTags t = s.cmdTag p t := rfl
    rw [this, e, ← this, tset_tget]
  unfold endCmd
  cases h : (s.cmdTag p t).state with
  | opened =>
    have : endedCmd (s.cmdTag p t) = { s.cmdTag p t with state := .discard } := by simp [endedCmd, h]
    have e : tget (s.port p).cmdTags t = s.cmdTag p t := rfl
    simp only [modCmdTag, modPort, e, this]
    simp
  | ready =>
    have : endedCmd (s.cmdTag p t) = CmdTagRecord.reset := by simp [endedCmd, h]
    have e : tget (s.port p).cmdTags t = s.cmdTag p t := rfl
    simp only [dropCmdReply, modCmdTag, modPort, e, this, true_and]
    split <;> rfl
  | free =>
    have := same (by simp [endedCmd, h])
    simp only [reduceCtorEq, false_and, if_false]
    exact this
  | discard =>
    have := same (by simp [endedCmd, h])
    simp only [reduceCtorEq, false_and, if_false]
    exact this

/-! ### Packets -/

theorem putAll_eq (p : Port) (bs : List Buffered) (s : State) :
    putAll p bs s =
      s.modPort p (fun r => { r with wire := r.wire ++ bs.map (fun b => .sequenced b.seq b.body) }) := by
  induction bs generalizing s with
  | nil => exact (modPort_id (by simp)).symm
  | cons b bs ih =>
    rw [putAll, ih]
    simp [put, modPort_modPort]

/-- The removal of packets touches the port's notice queue alone. -/
structure Leaves (p : Port) (s t : State) : Prop where
  rest : t = { s with ports := t.ports }
  ports : t.ports = tset s.ports p { s.port p with notices := (t.port p).notices, lost := (t.port p).lost,
                                                   nextReady := (t.port p).nextReady }

theorem Leaves.refl (p : Port) (s : State) : Leaves p s s :=
  ⟨rfl, by show s.ports = tset s.ports p (s.port p); unfold port; rw [tset_tget]⟩

theorem Leaves.port_eq {p : Port} {s t : State} (a : Leaves p s t) :
    t.port p = { s.port p with notices := (t.port p).notices, lost := (t.port p).lost,
                               nextReady := (t.port p).nextReady } := by
  have := congrArg (fun v => tget v p) a.ports
  simpa [port] using this

theorem Leaves.trans {p : Port} {s t u : State} (a : Leaves p s t) (b : Leaves p t u) : Leaves p s u := by
  refine ⟨by rw [b.rest, a.rest], ?_⟩
  rw [b.ports, a.ports, tset_tset, a.port_eq]

theorem leaves_leaveQueue (p : Port) (x : Option Nat) (s : State) : Leaves p s (s.leaveQueue p x) := by
  unfold leaveQueue
  cases x with
  | none => exact Leaves.refl p s
  | some n =>
    dsimp only
    split
    · unfold reportLost
      dsimp only
      split
      · exact ⟨rfl, by simp [modPort, port]⟩
      · refine ⟨by simp [modPort], by simp [modPort, port]⟩
    · exact Leaves.refl p s

theorem leaves_acknowledged (p : Port) (bs : List Buffered) (s : State) : Leaves p s (acknowledged p bs s) := by
  induction bs generalizing s with
  | nil => exact Leaves.refl p s
  | cons b bs ih => exact (leaves_leaveQueue p b.source s).trans (ih _)

theorem link_acknowledged (p : Port) (bs : List Buffered) (s : State) :
    ((acknowledged p bs s).port p).link = (s.port p).link := by
  rw [(leaves_acknowledged p bs s).port_eq]

end Sys2Proof.Machine.State
end

