-- ==== Sys2Proof/Laws/Shadow.lean ====
section
/-!
SUPPORT. What the operations of the read engine, the shadow store and the fill engine can change: one lemma for each,
all of one form.
-/

namespace Sys2Proof.Machine.State

/-! ### The event record -/

/-- An event appended to a record (R186). -/
def logTo (r : EventRecord) (e : EventBody) : EventRecord :=
  let all : List Event := r.entries ++ [{ seq := r.next, body := e }]
  { entries := if all.length ≤ 64 then all else all.drop 1, next := r.next + 1 }

theorem log_eq (e : EventBody) (s : State) : s.log e = { s with events := logTo s.events e } := rfl

/-- Only appends have been made to the event record. -/
def Appended (a b : EventRecord) : Prop := ∃ es : List EventBody, b = es.foldl logTo a

theorem Appended.refl (a : EventRecord) : Appended a a := ⟨[], rfl⟩

theorem Appended.trans {a b c : EventRecord} (x : Appended a b) (y : Appended b c) : Appended a c := by
  obtain ⟨e, rfl⟩ := x
  obtain ⟨f, rfl⟩ := y
  exact ⟨e ++ f, by rw [List.foldl_append]⟩

theorem Appended.one (a : EventRecord) (e : EventBody) : Appended a (logTo a e) := ⟨[e], rfl⟩

/-! ### The form -/

/-- Only what serves reads has changed: slots, segments, the frame-wait queue, frames, the age order, the fill engine, the
event record by appends, and of each port its read tags, its readiness count, its preload, its completion reports and
the cancellations taken. -/
structure Serves (s t : State) : Prop where
  rest : t = { s with ports := t.ports, slots := t.slots, segments := t.segments, frameWait := t.frameWait,
                      frames := t.frames, age := t.age, fill := t.fill, events := t.events }
  ports : ∀ p, t.port p =
    { s.port p with readTags := (t.port p).readTags, nextReady := (t.port p).nextReady, preload := (t.port p).preload,
                    completions := (t.port p).completions, cancelLoads := (t.port p).cancelLoads }
  events : Appended s.events t.events

theorem Serves.refl (s : State) : Serves s s := ⟨rfl, fun _ => rfl, Appended.refl _⟩

theorem Serves.trans {s t u : State} (a : Serves s t) (b : Serves t u) : Serves s u := by
  refine ⟨?_, fun p => ?_, a.events.trans b.events⟩
  · rw [b.rest, a.rest]
  · rw [b.ports p, a.ports p]

theorem Unpins.serves {s t : State} (a : Unpins s t) : Serves s t := by
  refine ⟨?_, fun p => ?_, ?_⟩
  · rw [a.rest]
  · rw [a.rest]; rfl
  · rw [a.rest]; exact Appended.refl _

theorem serves_log (e : EventBody) (s : State) : Serves s (s.log e) := ⟨rfl, fun _ => rfl, Appended.one _ _⟩
theorem serves_modSlot (n : SlotNo) (f : Slot → Slot) (s : State) : Serves s (s.modSlot n f) :=
  ⟨rfl, fun _ => rfl, Appended.refl _⟩
theorem serves_modFrame (n : FrameNo) (f : Frame → Frame) (s : State) : Serves s (s.modFrame n f) :=
  ⟨rfl, fun _ => rfl, Appended.refl _⟩
theorem serves_modFill (f : FillEngine → FillEngine) (s : State) : Serves s (s.modFill f) :=
  ⟨rfl, fun _ => rfl, Appended.refl _⟩
theorem serves_modSegment (i : SegId) (f : Segment → Segment) (s : State) : Serves s (s.modSegment i f) :=
  ⟨rfl, fun _ => rfl, Appended.refl _⟩
theorem serves_age (a : List FrameNo) (s : State) : Serves s { s with age := a } := ⟨rfl, fun _ => rfl, Appended.refl _⟩
theorem serves_segments (a : List Segment) (s : State) : Serves s { s with segments := a } :=
  ⟨rfl, fun _ => rfl, Appended.refl _⟩
theorem serves_frameWait (a : List SegId) (s : State) : Serves s { s with frameWait := a } :=
  ⟨rfl, fun _ => rfl, Appended.refl _⟩

/-- A change of one port's record within the form. -/
theorem serves_modPort (p : Port) (f : PortRecord → PortRecord) (s : State)
    (h : f (s.port p) = { s.port p with readTags := (f (s.port p)).readTags, nextReady := (f (s.port p)).nextReady,
                                        preload := (f (s.port p)).preload, completions := (f (s.port p)).completions,
                                        cancelLoads := (f (s.port p)).cancelLoads }) :
    Serves s (s.modPort p f) := by
  refine ⟨rfl, fun x => ?_, Appended.refl _⟩
  by_cases e : x = p
  · subst e
    rw [port_modPort_same]
    exact h
  · simp [e]

theorem serves_modReadTag (p : Port) (t : ReadTag) (f : ReadTagRecord → ReadTagRecord) (s : State) :
    Serves s (s.modReadTag p t f) := serves_modPort _ _ _ rfl

theorem serves_readReady (p : Port) (t : ReadTag) (st : Status) (s : State) : Serves s (s.readReady p t st) :=
  serves_modPort _ _ _ rfl

/-! ### The read engine -/

theorem serves_segmentUnpin (n : SlotNo) (s : State) : Serves s (s.segmentUnpin n) := (unpins_segmentUnpin n s).serves
theorem serves_fillUnpin (n : SlotNo) (s : State) : Serves s (s.fillUnpin n) := (unpins_fillUnpin n s).serves

theorem serves_dropRequest (p : Port) (t : ReadTag) (s : State) : Serves s (s.dropRequest p t) :=
  ((serves_segments _ s).trans (unpins_unpinSegments _ _).serves).trans (serves_modReadTag _ _ _ _)

theorem serves_endRequest (p : Port) (t : ReadTag) (s : State) : Serves s (s.endRequest p t) := by
  unfold endRequest
  split
  · exact serves_readReady _ _ _ _
  · exact serves_dropRequest _ _ _
  · exact Serves.refl s
  · exact Serves.refl s

theorem serves_finishSegment (id : SegId) (o : Status) (s : State) : Serves s (s.finishSegment id o) := by
  unfold finishSegment
  dsimp only
  split
  · exact ((serves_modSegment _ _ _).trans (serves_modReadTag _ _ _ _)).trans (serves_endRequest _ _ _)
  · exact (serves_modSegment _ _ _).trans (serves_modReadTag _ _ _ _)

theorem serves_finishAll (o : Status) (ids : List SegId) (s : State) : Serves s (finishAll o ids s) := by
  induction ids generalizing s with
  | nil => exact Serves.refl s
  | cons i ids ih => exact (serves_finishSegment _ _ _).trans (ih _)

theorem serves_endRead (p : Port) (t : ReadTag) (s : State) : Serves s (s.endRead p t) := by
  unfold endRead
  split
  · exact serves_modReadTag _ _ _ _
  · exact serves_dropRequest _ _ _
  · exact Serves.refl s
  · exact Serves.refl s

theorem serves_endReads (p : Port) (s : State) : Serves s (s.endReads p) := by
  unfold endReads
  generalize tall 8 = ts
  induction ts generalizing s with
  | nil => exact Serves.refl s
  | cons t ts ih => exact (serves_endRead _ _ _).trans (ih _)

/-! ### The shadow store and the fill engine -/

theorem serves_queueFill {n : SlotNo} {pg : Nat} {c : FillClass} {p : Option Port} {s : State} {f : FrameNo} {t : State}
    (h : s.queueFill n pg c p = some (f, t)) : Serves s t := by
  unfold queueFill at h
  unfold fillPin at h
  split at h
  · rename_i u g hu hv
    split at hu
    · cases hu; cases h
      exact ((serves_modSlot _ _ _).trans ((serves_modFrame _ _ _).trans (serves_age _ _))).trans (serves_modFill _ _)
    · cases hu
  · cases h

theorem serves_queueAhead (n : SlotNo) (is : List Nat) (s : State) : Serves s (queueAhead n is s).2 := by
  induction is generalizing s with
  | nil => exact Serves.refl s
  | cons i is ih =>
    unfold queueAhead
    dsimp only
    split
    · exact ih s
    · split
      · exact Serves.refl s
      · split
        · exact Serves.refl s
        · rename_i h
          exact (serves_queueFill h).trans (ih _)

theorem serves_prefetchAfter (p : Port) (n : SlotNo) (i : Nat) (s : State) : Serves s (s.prefetchAfter p n i) :=
  serves_queueAhead _ _ _

theorem serves_lookup (id : SegId) (s : State) : Serves s (s.lookup id) := by
  unfold lookup
  split
  · exact Serves.refl s
  · split
    · split
      · exact ((serves_modFrame _ _ _).trans (serves_age _ _)).trans (serves_modSegment _ _ _)
      · exact (serves_modFrame _ _ _).trans (serves_modSegment _ _ _)
    · split
      · exact serves_finishSegment _ _ _
      · split
        · exact serves_finishSegment _ _ _
        · split
          · split
            · exact Serves.refl s
            · rename_i h
              exact (((serves_queueFill h).trans (serves_modFrame _ _ _)).trans (serves_modSegment _ _ _)).trans
                (serves_prefetchAfter _ _ _ _)
          · exact (serves_modSegment _ _ _).trans (serves_frameWait _ _)

theorem serves_represent (k : Nat) (s : State) : Serves s (represent k s) := by
  induction k generalizing s with
  | zero => exact Serves.refl s
  | succ k ih =>
    unfold represent
    split
    · exact Serves.refl s
    · split
      · exact (((serves_frameWait _ _).trans (serves_modSegment _ _ _)).trans (serves_lookup _ _)).trans (ih _)
      · exact Serves.refl s

theorem serves_preloadTurn (k : Nat) (p : Port) (s : State) : Serves s (preloadTurn k p s) := by
  induction k generalizing s with
  | zero => exact Serves.refl s
  | succ k ih =>
    unfold preloadTurn
    split
    · exact Serves.refl s
    · split
      · exact Serves.refl s
      · dsimp only
        split
        · exact (serves_modPort _ _ _ rfl).trans (ih _)
        · split
          · exact (serves_modPort _ _ _ rfl).trans (ih _)
          · rename_i h
            exact ((serves_modPort _ _ _ rfl).trans (serves_queueFill h)).trans
              ((serves_modPort _ _ _ rfl).trans (serves_modFill _ _))

theorem serves_preloadRounds (k : Nat) (s : State) : Serves s (preloadRounds k s) := by
  induction k generalizing s with
  | zero => exact Serves.refl s
  | succ k ih =>
    unfold preloadRounds
    split
    · split
      · exact Serves.refl s
      · exact (serves_preloadTurn _ _ _).trans (ih _)
    · exact Serves.refl s

theorem serves_closePreload (p : Port) (s : State) : Serves s (s.closePreload p) := by
  unfold closePreload
  split
  · exact Serves.refl s
  · split
    · exact serves_modPort _ _ _ rfl
    · exact Serves.refl s

theorem serves_closePreloads (ps : List Port) (s : State) : Serves s (closePreloads ps s) := by
  induction ps generalizing s with
  | nil => exact Serves.refl s
  | cons p ps ih => exact (serves_closePreload _ _).trans (ih _)

theorem serves_handOut (s : State) : Serves s s.handOut :=
  ((serves_represent _ _).trans (serves_preloadRounds _ _)).trans (serves_closePreloads _ _)

theorem serves_cancelPreload (p : Port) (s : State) : Serves s (s.cancelPreload p) := by
  unfold cancelPreload
  exact (serves_modPort p (fun r => { r with preload := none }) s rfl).trans (serves_modFill _ _)

theorem serves_takeCancels (p : Port) (s : State) : Serves s (s.takeCancels p) := by
  unfold takeCancels
  split
  · exact Serves.refl s
  · exact (serves_cancelPreload _ _).trans (serves_modPort _ _ _ rfl)

theorem serves_openPreload (p : Port) (s : State) : Serves s (s.openPreload p) := by
  unfold openPreload
  dsimp only
  split
  · exact (serves_takeCancels _ _).trans (serves_modPort _ _ _ rfl)
  · split
    · exact (serves_takeCancels _ _).trans (serves_modPort _ _ _ rfl)
    · exact ((serves_takeCancels _ _).trans (serves_modPort _ _ _ rfl)).trans (serves_handOut _)

theorem serves_removeFill (e : FillEntry) (s : State) : Serves s (s.removeFill e) := by
  have c : ∀ u : State, Serves u (u.countPreload e) := by
    intro u
    unfold countPreload
    split
    · exact Serves.refl _
    · exact serves_modPort _ _ _ rfl
  have q : Serves s (s.unqueueFill e.frame) := serves_modFill _ _
  exact (q.trans (c _)).trans (serves_fillUnpin _ _)

theorem serves_serveWaiters (f : FrameNo) (ids : List SegId) (s : State) : Serves s (serveWaiters f ids s) := by
  induction ids generalizing s with
  | nil => exact Serves.refl s
  | cons i ids ih => exact ((serves_modFrame _ _ _).trans (serves_modSegment _ _ _)).trans (ih _)

theorem serves_fillVerified (e : FillEntry) (d : List Byte) (s : State) : Serves s (s.fillVerified e d) :=
  ((((serves_modFrame _ _ _).trans (serves_age _ _)).trans (serves_serveWaiters _ _ _)).trans
    (serves_removeFill _ _)).trans (serves_handOut _)

theorem serves_fillRetried (e : FillEntry) (c : Word) (s : State) : Serves s (s.fillRetried e c) :=
  ((serves_modFill _ _).trans (serves_modFill _ _)).trans (serves_log _ _)

theorem serves_fillDropped (e : FillEntry) (c : Word) (s : State) : Serves s (s.fillDropped e c) :=
  (((serves_modFrame _ _ _).trans (serves_removeFill _ _)).trans (serves_log _ _)).trans (serves_handOut _)

theorem serves_recordBad (e : FillEntry) (c : Word) (s : State) : Serves s (s.recordBad e c) := by
  unfold recordBad
  split
  · exact serves_modFill _ _
  · exact serves_log _ _

theorem serves_fillBad (e : FillEntry) (c : Word) (s : State) : Serves s (s.fillBad e c) :=
  (((((serves_recordBad _ _ _).trans (serves_finishAll _ _ _)).trans (serves_modFrame _ _ _)).trans
    (serves_removeFill _ _)).trans (serves_log _ _)).trans (serves_handOut _)

theorem serves_fillFailed (e : FillEntry) (s : State) : Serves s (s.fillFailed e) :=
  (((serves_finishAll _ _ _).trans (serves_modFrame _ _ _)).trans (serves_removeFill _ _)).trans (serves_handOut _)

/-- The end of a fill (R56 to R58). -/
theorem serves_fillEnd (e : FillEntry) (d : List Byte) (s : State) : Serves s (s.fillEnd e d) := by
  unfold fillEnd
  dsimp only
  split
  · exact serves_fillVerified _ _ _
  · split
    · exact serves_fillBad _ _ _
    · split
      · exact serves_fillDropped _ _ _
      · exact serves_fillRetried _ _ _

theorem serves_failFills (es : List FillEntry) (s : State) : Serves s (failFills es s) := by
  induction es generalizing s with
  | nil => exact Serves.refl s
  | cons e es ih => exact (serves_fillFailed _ _).trans (ih _)

/-! ### The frame that an allocation takes (R50) -/

/-- The frame taken is the lowest-numbered FREE one, or with none FREE the idle one nearest the back of the age
order. -/
theorem victim_spec {s : State} {f : FrameNo} (h : s.victim = some f) :
    ((s.frame f).state = .free ∧ ∀ x, x < f → (s.frame x).state ≠ .free) ∨
      ((∀ x, (s.frame x).state ≠ .free) ∧ (s.frame f).uses = 0 ∧
        ∃ newer older, s.age = newer ++ f :: older ∧ ∀ x ∈ older, (s.frame x).uses ≠ 0) := by
  unfold victim at h
  split at h
  · rename_i x hx
    cases h
    refine Or.inl ⟨by simpa [frame] using tfind_some hx, fun y hy => ?_⟩
    simpa [frame] using tfind_first hx y hy
  · rename_i hn
    obtain ⟨idle, before, after, e, busy⟩ := List.find?_eq_some_iff_append.mp h
    refine Or.inr ⟨fun x => by simpa [frame] using tfind_none hn x, by simpa using idle,
      after.reverse, before.reverse, ?_, fun x hx => ?_⟩
    · have := congrArg List.reverse e
      simpa using this
    · simpa using busy x (by simpa using hx)

/-- There is none only when no frame is FREE and none of the age order is idle. -/
theorem victim_none {s : State} (h : s.victim = none) :
    (∀ x, (s.frame x).state ≠ .free) ∧ ∀ x ∈ s.age, (s.frame x).uses ≠ 0 := by
  unfold victim at h
  split at h
  · cases h
  · rename_i hn
    refine ⟨fun x => by simpa [frame] using tfind_none hn x, fun x hx => ?_⟩
    simpa using (List.find?_eq_none.mp h) x (by simpa using hx)

/-! ### The hand-out of room (R55): what it leaves waiting -/

theorem queueFill_spec {n : SlotNo} {pg : Nat} {c : FillClass} {p : Option Port} {s : State} {f : FrameNo} {t : State}
    (h : s.queueFill n pg c p = some (f, t)) :
    t.fillCount = s.fillCount + 1 ∧ t.frameWait = s.frameWait ∧ t.ports = s.ports ∧ t.chan = s.chan := by
  unfold queueFill fillPin at h
  split at h
  · rename_i u g hu hv
    split at hu
    · cases hu; cases h
      refine ⟨?_, rfl, rfl, rfl⟩
      unfold fillCount enqueueFill modFill
      dsimp only
      by_cases hc : c = .prefetch <;> simp [hc, allocate, modFrame, modSlot] <;> omega
    · cases hu
  · cases h

theorem queueAhead_frameWait (n : SlotNo) (is : List Nat) (s : State) : (queueAhead n is s).2.frameWait = s.frameWait := by
  induction is generalizing s with
  | nil => rfl
  | cons i is ih =>
    unfold queueAhead
    dsimp only
    split
    · exact ih s
    · split
      · rfl
      · split
        · rfl
        · rename_i h
          exact (ih _).trans (queueFill_spec h).2.1

theorem unpins_frameWait {s t : State} (h : Unpins s t) : t.frameWait = s.frameWait := by rw [h.rest]

theorem finishSegment_frameWait (id : SegId) (o : Status) (s : State) :
    (s.finishSegment id o).frameWait = s.frameWait := by
  have d : ∀ (p : Port) (t : ReadTag) (u : State), (u.dropRequest p t).frameWait = u.frameWait :=
    fun p t u => by
      obtain ⟨v, h, e⟩ := dropRequest_spec p t u
      rw [e]
      show v.frameWait = _
      exact (unpins_frameWait h).trans rfl
  unfold finishSegment
  dsimp only
  split
  · unfold endRequest
    split
    · rfl
    · rw [d]; rfl
    · rfl
    · rfl
  · rfl

/-- With a place free in the fill queue a lookup leaves no segment waiting for a frame. -/
theorem lookup_frameWait {id : SegId} {s : State} (h : s.fillCount < 16) : (s.lookup id).frameWait = s.frameWait := by
  unfold lookup
  split
  · rfl
  · split
    · split <;> rfl
    · split
      · exact finishSegment_frameWait _ _ _
      · split
        · exact finishSegment_frameWait _ _ _
        · split
          · rfl
          · rename_i e
            exact (queueAhead_frameWait _ _ _).trans (queueFill_spec e).2.1

/-- The frame-wait queue ends empty, or the fill queue full. -/
theorem represent_spec (k : Nat) (s : State) (h : s.frameWait.length ≤ k) :
    (represent k s).frameWait = [] ∨ 16 ≤ (represent k s).fillCount := by
  induction k generalizing s with
  | zero => exact Or.inl (List.eq_nil_of_length_eq_zero (by simpa [represent] using h))
  | succ k ih =>
    unfold represent
    split
    · rename_i e; exact Or.inl e
    · rename_i id rest e
      split
      · rename_i room
        refine ih _ ?_
        rw [lookup_frameWait (by exact room)]
        rw [e] at h
        simpa [modSegment] using h
      · exact Or.inr (by omega)

/-- What a preload's turn can do: its port's preload has no page left and nothing was queued, or, on a channel that is
not OFFLINE, one entry was queued. -/
structure Turned (p : Port) (s t : State) : Prop where
  frameWait : t.frameWait = s.frameWait
  chan : t.chan = s.chan
  others : ∀ q, q ≠ p → t.pagesLeft q = s.pagesLeft q
  mine : (t.pagesLeft p = 0 ∧ t.fillCount = s.fillCount) ∨ (s.offline = false ∧ t.fillCount = s.fillCount + 1)

/-- A preload moved to another page. -/
theorem pagesLeft_setPreload (p q : Port) (x : Option Preload) (s : State) :
    (s.modPort p (fun r => { r with preload := x })).pagesLeft q =
      if q = p then (match x with | none => 0 | some l => l.last + 1 - l.cursor) else s.pagesLeft q := by
  unfold pagesLeft
  by_cases h : q = p
  · subst h; cases x <;> simp
  · simp [h]

theorem Turned.after {p : Port} {s u t : State} (h : Turned p u t) (hf : u.frameWait = s.frameWait) (hc : u.chan = s.chan)
    (ho : ∀ q, q ≠ p → u.pagesLeft q = s.pagesLeft q) (hn : u.fillCount = s.fillCount) : Turned p s t where
  frameWait := h.frameWait.trans hf
  chan := h.chan.trans hc
  others := fun q hq => (h.others q hq).trans (ho q hq)
  mine := by
    have : u.offline = s.offline := by unfold offline; rw [hc]
    rw [← hn, ← this]
    exact h.mine

theorem preloadTurn_spec (k : Nat) (p : Port) (s : State) (h : s.pagesLeft p ≤ k) : Turned p s (preloadTurn k p s) := by
  induction k generalizing s with
  | zero => exact ⟨rfl, rfl, fun _ _ => rfl, Or.inl ⟨Nat.le_zero.mp h, rfl⟩⟩
  | succ k ih =>
    unfold preloadTurn
    split
    · rename_i e
      exact ⟨rfl, rfl, fun _ _ => rfl, Or.inl ⟨by unfold pagesLeft; rw [e], rfl⟩⟩
    · rename_i l e
      split
      · exact ⟨rfl, rfl, fun _ _ => rfl, Or.inl ⟨by unfold pagesLeft; rw [e]; dsimp only; omega, rfl⟩⟩
      · dsimp only
        have le : l.last + 1 - l.cursor ≤ k + 1 := by unfold pagesLeft at h; rw [e] at h; exact h
        have moved : ∀ (x : Preload), ∀ q, q ≠ p →
            (s.modPort p (fun r => { r with preload := some x })).pagesLeft q = s.pagesLeft q := by
          intro x q hq; rw [pagesLeft_setPreload, if_neg hq]
        have rest : Turned p s (preloadTurn k p
            (s.modPort p (fun r => { r with preload := some { l with cursor := l.cursor + 1 } }))) :=
          (ih _ (by rw [pagesLeft_setPreload, if_pos rfl]; dsimp only; omega)).after rfl rfl (moved _) rfl
        split
        · exact rest
        · rename_i on
          split
          · exact rest
          · rename_i f u eq
            obtain ⟨c, w, po, ch⟩ := queueFill_spec eq
            have keep : ∀ q, u.pagesLeft q =
                (s.modPort p (fun r => { r with preload := some { l with cursor := l.cursor + 1 } })).pagesLeft q := by
              intro q; unfold pagesLeft port; rw [po]
            refine ⟨w, ch, fun q hq => ?_, Or.inr ⟨by simp at on; exact on.2, ?_⟩⟩
            · refine Eq.trans ?_ ((keep q).trans (moved _ q hq))
              exact (pagesLeft_setPreload p q
                (some { l with cursor := l.cursor + 1, entries := l.entries + 1 }) u).trans (if_neg hq)
            · exact c

/-- 1 for a port whose preload has a page left. -/
def waits (s : State) (p : Port) : Nat := if s.pagesLeft p = 0 then 0 else 1

/-- How many ports' preloads have a page left. -/
def waiting (s : State) : Nat := s.waits 0 + s.waits 1 + s.waits 2 + s.waits 3

theorem mem_turns (s : State) (p : Port) : p ∈ s.turns := by
  unfold turns
  generalize s.fill.lastServed = l
  revert l p; decide

theorem find_turns_none {s : State} (h : s.turns.find? s.preloadLeft = none) (p : Port) : s.pagesLeft p = 0 := by
  have := (List.find?_eq_none.mp h) p (mem_turns s p)
  simpa [preloadLeft] using this

/-- A turn queues an entry or uses up a preload. -/
theorem waiting_turned {p : Port} {s t : State} (h : Turned p s t) (hp : s.pagesLeft p ≠ 0) :
    t.waiting ≤ s.waiting ∧ (t.pagesLeft p = 0 → t.waiting < s.waiting) := by
  have w : ∀ q, q ≠ p → t.waits q = s.waits q := fun q hq => by unfold waits; rw [h.others q hq]
  have a : s.waits p = 1 := by unfold waits; rw [if_neg hp]
  have b : t.waits p ≤ 1 := by unfold waits; split <;> omega
  have c : t.pagesLeft p = 0 → t.waits p = 0 := fun e => by unfold waits; rw [if_pos e]
  unfold waiting
  have hq : p = 0 ∨ p = 1 ∨ p = 2 ∨ p = 3 := by clear w a b c hp h; revert p; decide
  rcases hq with rfl | rfl | rfl | rfl
  · rw [w 1 (by decide), w 2 (by decide), w 3 (by decide)]; omega
  · rw [w 0 (by decide), w 2 (by decide), w 3 (by decide)]; omega
  · rw [w 0 (by decide), w 1 (by decide), w 3 (by decide)]; omega
  · rw [w 0 (by decide), w 1 (by decide), w 2 (by decide)]; omega

/-- The rounds end with no preload waiting, or with no room for one, or behind the frame-wait queue; they leave the
frame-wait queue and the channel as they were, and take no entry out of the fill queue. -/
theorem preloadRounds_spec (k : Nat) (s : State)
    (h : (if s.offline then 0 else 16 - s.fillCount) + s.waiting ≤ k) :
    let t := preloadRounds k s
    t.frameWait = s.frameWait ∧ t.chan = s.chan ∧ s.fillCount ≤ t.fillCount ∧
      ((∀ p, t.pagesLeft p = 0) ∨ (s.offline = false ∧ (s.frameWait ≠ [] ∨ 16 ≤ t.fillCount))) := by
  induction k generalizing s with
  | zero =>
    refine ⟨rfl, rfl, Nat.le_refl _, Or.inl (fun p => ?_)⟩
    have z : s.waits 0 + s.waits 1 + s.waits 2 + s.waits 3 = 0 := by
      have : s.waiting = 0 := by omega
      exact this
    have hq : p = 0 ∨ p = 1 ∨ p = 2 ∨ p = 3 := by clear z h; revert p; decide
    have e : s.waits p = 0 := by rcases hq with rfl | rfl | rfl | rfl <;> omega
    show s.pagesLeft p = 0
    unfold waits at e
    by_contra c
    rw [if_neg c] at e
    omega
  | succ k ih =>
    unfold preloadRounds
    split
    · rename_i go
      split
      · rename_i none'
        exact ⟨rfl, rfl, Nat.le_refl _, Or.inl (fun p => find_turns_none none' p)⟩
      · rename_i p hp
        have pl : s.pagesLeft p ≠ 0 := by
          have := List.find?_some hp
          simpa [preloadLeft] using this
        have T := preloadTurn_spec (s.pagesLeft p) p s (Nat.le_refl _)
        obtain ⟨w1, w2⟩ := waiting_turned T pl
        generalize preloadTurn (s.pagesLeft p) p s = u at T w1 w2 ⊢
        have off : u.offline = s.offline := by unfold offline; rw [T.chan]
        have fuel : (if u.offline then 0 else 16 - u.fillCount) + u.waiting ≤ k := by
          rw [off]
          rcases T.mine with ⟨a, b⟩ | ⟨a, b⟩
          · have := w2 a
            rw [b]; omega
          · have room : s.fillCount < 16 := by simp [a] at go; exact go.2
            rw [a] at h ⊢
            simp only [Bool.false_eq_true, if_false] at h ⊢
            omega
        obtain ⟨a, b, c, d⟩ := ih u fuel
        refine ⟨a.trans T.frameWait, b.trans T.chan, ?_, ?_⟩
        · rcases T.mine with ⟨_, e⟩ | ⟨_, e⟩ <;> omega
        · rw [← off, ← T.frameWait]; exact d
    · rename_i stop
      refine ⟨rfl, rfl, Nat.le_refl _, Or.inr ?_⟩
      simp only [Bool.or_eq_true, Bool.and_eq_true, decide_eq_true_eq, not_or, not_and, Bool.not_eq_true] at stop
      refine ⟨stop.1, ?_⟩
      by_cases e : s.frameWait = []
      · exact Or.inr (by have := stop.2 (by simp [e]); omega)
      · exact Or.inl e

theorem waiting_le (s : State) : s.waiting ≤ 4 := by
  have : ∀ p, s.waits p ≤ 1 := fun p => by unfold waits; split <;> omega
  have a := this 0
  have b := this 1
  have c := this 2
  have d := this 3
  unfold waiting
  omega

/-- Closing what is complete leaves the queues, the channel and every preload with a page left as they were. -/
theorem closePreload_spec (p : Port) (s : State) :
    (s.closePreload p).frameWait = s.frameWait ∧ (s.closePreload p).chan = s.chan ∧
      (s.closePreload p).fillCount = s.fillCount ∧ ∀ q, (s.closePreload p).pagesLeft q = s.pagesLeft q := by
  unfold closePreload
  split
  · exact ⟨rfl, rfl, rfl, fun _ => rfl⟩
  · rename_i l e
    split
    · rename_i done
      refine ⟨rfl, rfl, rfl, fun q => ?_⟩
      have : (s.modPort p (fun r => { r with preload := none, completions := r.completions + 1 })).pagesLeft q =
          if q = p then 0 else s.pagesLeft q := by
        unfold pagesLeft
        by_cases h : q = p
        · subst h; simp
        · simp [h]
      rw [this]
      split
      · rename_i h
        subst h
        unfold pagesLeft
        rw [e]; dsimp only; omega
      · rfl
    · exact ⟨rfl, rfl, rfl, fun _ => rfl⟩

theorem closePreloads_spec (ps : List Port) (s : State) :
    (closePreloads ps s).frameWait = s.frameWait ∧ (closePreloads ps s).chan = s.chan ∧
      (closePreloads ps s).fillCount = s.fillCount ∧ ∀ q, (closePreloads ps s).pagesLeft q = s.pagesLeft q := by
  induction ps generalizing s with
  | nil => exact ⟨rfl, rfl, rfl, fun _ => rfl⟩
  | cons p ps ih =>
    obtain ⟨a, b, c, d⟩ := closePreload_spec p s
    obtain ⟨e, f, g, h⟩ := ih (s.closePreload p)
    exact ⟨e.trans a, f.trans b, g.trans c, fun q => (h q).trans (d q)⟩

/-- Nothing stays behind that had room (R55): after a hand-out a segment waits for a frame, and a preload has a page
left on a channel that is not OFFLINE, only while the fill queue is full; on an OFFLINE channel no preload has one. -/
theorem handOut_spec (s : State) :
    (s.handOut.frameWait ≠ [] → 16 ≤ s.handOut.fillCount) ∧
      ∀ p, s.handOut.pagesLeft p ≠ 0 → s.handOut.offline = false ∧ 16 ≤ s.handOut.fillCount := by
  unfold handOut
  have A := represent_spec s.frameWait.length s (Nat.le_refl _)
  generalize represent s.frameWait.length s = u at A ⊢
  obtain ⟨b1, b2, b3, b4⟩ := preloadRounds_spec 32 u (by have := waiting_le u; split <;> omega)
  generalize preloadRounds 32 u = v at b1 b2 b3 b4 ⊢
  obtain ⟨c1, c2, c3, c4⟩ := closePreloads_spec allPorts v
  have off : (closePreloads allPorts v).offline = u.offline := by unfold offline; rw [c2, b2]
  rw [c1, c3, off, b1]
  have full : u.frameWait ≠ [] → 16 ≤ v.fillCount := fun e => by
    rcases A with a | a
    · exact absurd a e
    · omega
  refine ⟨full, fun p hp => ?_⟩
  rw [c4] at hp
  rcases b4 with b | ⟨b, b⟩
  · exact absurd (b p) hp
  · rename_i on
    exact ⟨on, b.elim full id⟩

end Sys2Proof.Machine.State
end

