-- ==== Sys2Proof/Laws/Frame.lean ====
section
/-!
SUPPORT. What almost every operation of the hub leaves: the flash, the events already held, the agreement of each reset
line with its port's state, and the retransmit buffers. One lemma for each operation, all of one form.
-/

namespace Sys2Proof.Machine.State

/-- The flash is as it was, events have only been appended, every reset line that agreed with its state still does, and
no retransmit buffer has grown. -/
structure Keeps (s t : State) : Prop where
  flash : t.flash = s.flash
  events : Appended s.events t.events
  sup : ∀ p, lineAgrees (s.port p).sup → lineAgrees (t.port p).sup
  buffers : ∀ p, (t.port p).link.buffer.length ≤ (s.port p).link.buffer.length

/-- Besides, no RESTART_HUB reply has been dropped or sent, and the hub runs as it did. -/
structure Flows (s t : State) : Prop extends Keeps s t where
  hub : t.hubRestart = s.hubRestart
  live : t.live = s.live

/-- Besides, the channel is as it was. -/
structure Tends (s t : State) : Prop extends Flows s t where
  chan : t.chan = s.chan

theorem Keeps.refl (s : State) : Keeps s s := ⟨rfl, Appended.refl _, fun _ h => h, fun _ => Nat.le_refl _⟩

theorem Keeps.trans {s t u : State} (a : Keeps s t) (b : Keeps t u) : Keeps s u :=
  ⟨b.flash.trans a.flash, a.events.trans b.events, fun p h => b.sup p (a.sup p h),
    fun p => (b.buffers p).trans (a.buffers p)⟩

theorem Flows.refl (s : State) : Flows s s := ⟨Keeps.refl s, rfl, rfl⟩

theorem Flows.trans {s t u : State} (a : Flows s t) (b : Flows t u) : Flows s u :=
  ⟨a.toKeeps.trans b.toKeeps, b.hub.trans a.hub, b.live.trans a.live⟩

theorem Tends.refl (s : State) : Tends s s := ⟨Flows.refl s, rfl⟩

theorem Tends.trans {s t u : State} (a : Tends s t) (b : Tends t u) : Tends s u :=
  ⟨a.toFlows.trans b.toFlows, b.chan.trans a.chan⟩

/-- A change that leaves the flash, the event record and the ports. -/
theorem flows_of_eq {s t : State} (hf : t.flash = s.flash) (he : t.events = s.events) (hp : t.ports = s.ports)
    (hh : t.hubRestart = s.hubRestart) (hl : t.live = s.live) : Flows s t := by
  have q : ∀ p, t.port p = s.port p := fun p => by unfold port; rw [hp]
  exact ⟨⟨hf, he ▸ Appended.refl _, fun p h => by rw [q]; exact h, fun p => by rw [q]⟩, hh, hl⟩

theorem tends_of_eq {s t : State} (hf : t.flash = s.flash) (he : t.events = s.events) (hp : t.ports = s.ports)
    (hh : t.hubRestart = s.hubRestart) (hl : t.live = s.live) (hc : t.chan = s.chan) : Tends s t :=
  ⟨flows_of_eq hf he hp hh hl, hc⟩

/-! ### The records -/

theorem tends_modLine (l : LineNo) (f : Line → Line) (s : State) : Tends s (s.modLine l f) :=
  tends_of_eq rfl rfl rfl rfl rfl rfl
theorem tends_modSlot (n : SlotNo) (f : Slot → Slot) (s : State) : Tends s (s.modSlot n f) :=
  tends_of_eq rfl rfl rfl rfl rfl rfl
theorem tends_modFrame (n : FrameNo) (f : Frame → Frame) (s : State) : Tends s (s.modFrame n f) :=
  tends_of_eq rfl rfl rfl rfl rfl rfl
theorem flows_modChan (f : Channel → Channel) (s : State) : Flows s (s.modChan f) := flows_of_eq rfl rfl rfl rfl rfl
theorem tends_modFill (f : FillEngine → FillEngine) (s : State) : Tends s (s.modFill f) :=
  tends_of_eq rfl rfl rfl rfl rfl rfl
theorem tends_modUpd (f : UpdateWriter → UpdateWriter) (s : State) : Tends s (s.modUpd f) :=
  tends_of_eq rfl rfl rfl rfl rfl rfl
theorem tends_modStart (f : StartUp → StartUp) (s : State) : Tends s (s.modStart f) := tends_of_eq rfl rfl rfl rfl rfl rfl
theorem tends_drawn (s : State) : Tends s s.drawn := tends_of_eq rfl rfl rfl rfl rfl rfl
theorem tends_log (e : EventBody) (s : State) : Tends s (s.log e) :=
  ⟨⟨⟨rfl, Appended.one _ _, fun _ h => h, fun _ => Nat.le_refl _⟩, rfl, rfl⟩, rfl⟩

/-- A change of one port's record that keeps the agreement of its line and lets its buffer not grow. -/
theorem tends_modPort {p : Port} {f : PortRecord → PortRecord} {s : State}
    (hs : lineAgrees (s.port p).sup → lineAgrees (f (s.port p)).sup)
    (hb : (f (s.port p)).link.buffer.length ≤ (s.port p).link.buffer.length) : Tends s (s.modPort p f) := by
  refine ⟨⟨⟨rfl, Appended.refl _, fun x h => ?_, fun x => ?_⟩, rfl, rfl⟩, rfl⟩
  · by_cases e : x = p
    · subst e; rw [port_modPort_same]; exact hs h
    · rw [port_modPort_ne e]; exact h
  · by_cases e : x = p
    · subst e; rw [port_modPort_same]; exact hb
    · rw [port_modPort_ne e]

/-- A change of one port's record beside its supervision record and its link. -/
theorem tends_modPort_beside {p : Port} {f : PortRecord → PortRecord} {s : State}
    (hs : (f (s.port p)).sup = (s.port p).sup) (hl : (f (s.port p)).link = (s.port p).link) :
    Tends s (s.modPort p f) := tends_modPort (fun h => by rw [hs]; exact h) (by rw [hl])

theorem tends_modCmdTag (p : Port) (t : CmdTag) (f : CmdTagRecord → CmdTagRecord) (s : State) :
    Tends s (s.modCmdTag p t f) := tends_modPort_beside rfl rfl
theorem tends_modReadTag (p : Port) (t : ReadTag) (f : ReadTagRecord → ReadTagRecord) (s : State) :
    Tends s (s.modReadTag p t f) := tends_modPort_beside rfl rfl
theorem tends_setWindow (p : Port) (w : WindowNo) (b : Option Binding) (s : State) : Tends s (s.setWindow p w b) :=
  tends_modPort_beside rfl rfl
theorem tends_put (p : Port) (x : Packet) (s : State) : Tends s (s.put p x) := tends_modPort_beside rfl rfl

/-- What serves reads tends so. -/
theorem Serves.tends {s t : State} (a : Serves s t) : Tends s t := by
  refine ⟨⟨⟨?_, a.events, fun p h => ?_, fun p => ?_⟩, ?_, ?_⟩, ?_⟩
  · rw [a.rest]
  · rw [a.ports p]; exact h
  · rw [a.ports p]
  · rw [a.rest]
  · rw [a.rest]; rfl
  · rw [a.rest]

theorem Unpins.tends {s t : State} (a : Unpins s t) : Tends s t := a.serves.tends

theorem Follows.flows {s t : State} (a : Follows s t) : Flows s t := by
  have q := a.rest
  exact flows_of_eq (by rw [q]) (by rw [q]) (by rw [q]) (by rw [q]) (by rw [q]; rfl)

/-! ### Replies and notices -/

theorem tends_answer (p : Port) (t : CmdTag) (st : Status) (res : List Word) (s : State) :
    Tends s (s.answer p t st res) := by
  unfold answer
  cases (s.cmdTag p t).state
  · exact Tends.refl s
  · exact tends_modPort_beside rfl rfl
  · exact Tends.refl s
  · exact tends_modCmdTag _ _ _ _

theorem tends_answerTo (c : Option (Port × CmdTag)) (st : Status) (res : List Word) (s : State) :
    Tends s (s.answerTo c st res) := by
  cases c with
  | none => exact Tends.refl s
  | some c => exact tends_answer _ _ _ _ _

theorem tends_hand (p : Port) (n : Notice) (s : State) : Tends s (s.hand p n) := by
  unfold hand
  dsimp only
  split
  · exact tends_modPort_beside rfl rfl
  · split
    · exact Tends.refl s
    · split
      · exact tends_modPort_beside rfl rfl
      · exact tends_modPort_beside rfl rfl

theorem tends_handAll (n : Notice) (ps : List Port) (s : State) : Tends s (handAll n ps s) := by
  induction ps generalizing s with
  | nil => exact Tends.refl s
  | cons p ps ih => exact (tends_hand p n s).trans (ih _)

theorem tends_protocolError (p : Port) (k : ErrorKind) (packet : Nat) (tag : Option Nat) (s : State) :
    Tends s (s.protocolError p k packet tag) := (tends_hand _ _ _).trans (tends_log _ _)

/-! ### The image directory -/

theorem tends_toDirty (n : SlotNo) (s : State) : Tends s (s.toDirty n) := (unpins_toDirty n s).tends
theorem tends_toBad (n : SlotNo) (s : State) : Tends s (s.toBad n) := tends_modSlot _ _ _
theorem tends_windowUnpin (n : SlotNo) (s : State) : Tends s (s.windowUnpin n) := (unpins_windowUnpin n s).tends
theorem tends_unlock (l : LineNo) (s : State) : Tends s (s.unlock l) := tends_modLine _ _ _
theorem tends_startIdle (l : LineNo) (s : State) : Tends s (s.startIdle l) := tends_modLine _ _ _
theorem tends_stopIdle (l : LineNo) (s : State) : Tends s (s.stopIdle l) := tends_modLine _ _ _
theorem tends_dropPending (l : LineNo) (n : SlotNo) (s : State) : Tends s (s.dropPending l n) :=
  (tends_modLine _ _ _).trans (tends_toDirty _ _)
theorem tends_badPending (l : LineNo) (n : SlotNo) (s : State) : Tends s (s.badPending l n) :=
  (tends_modLine _ _ _).trans (tends_toBad _ _)

theorem tends_supersede (n : SlotNo) (s : State) : Tends s (s.supersede n) := by
  unfold supersede
  dsimp only
  split
  · exact (tends_modSlot _ _ _).trans (tends_modSlot _ _ _)
  · exact (tends_modSlot _ _ _).trans (tends_toDirty _ _)

theorem tends_commitSwitch (l : LineNo) (s : State) : Tends s (s.commitSwitch l) := by
  unfold commitSwitch
  cases (s.line l).pending with
  | none => exact Tends.refl s
  | some n =>
    dsimp only
    refine Tends.trans (Tends.trans ?_ (tends_handAll _ _ _)) (tends_log _ _)
    cases (s.line l).current with
    | none => exact (tends_modSlot _ _ _).trans (tends_modLine _ _ _)
    | some o => exact ((tends_modSlot _ _ _).trans (tends_modLine _ _ _)).trans (tends_supersede _ _)

theorem bindPin_tends {l : LineNo} {s t : State} {n : SlotNo} {g : Nat} (h : s.bindPin l = .ok (n, g, t)) :
    Tends s t := by
  unfold bindPin at h
  split at h
  · injection h with h
    obtain ⟨_, _, rfl⟩ := h
    exact tends_modSlot _ _ _
  · cases h
  · cases h

theorem rebindPin_tends {l : LineNo} {m n : SlotNo} {s t : State} {g : Nat} (h : s.rebindPin l m = some (n, g, t)) :
    Tends s t := by
  unfold rebindPin at h
  split at h
  · cases h
  · split at h
    · injection h with h
      obtain ⟨_, _, rfl⟩ := h
      exact (tends_modSlot _ _ _).trans (tends_windowUnpin _ _)
    · cases h

/-! ### The update writer -/

theorem tends_setWork (l : LineNo) (w : Option LockWork) (s : State) : Tends s (s.setWork l w) := tends_modUpd _ _
theorem tends_setSequence (l : LineNo) (c : Option CommitRun) (s : State) : Tends s (s.setSequence l c) :=
  tends_modUpd _ _
theorem tends_addReady (i : ReadyItem) (s : State) : Tends s (s.addReady i) := tends_modUpd _ _
theorem tends_takeEntry (n : SlotNo) (k : ProgKind) (u : Nat) (s : State) : Tends s (s.takeEntry n k u) :=
  tends_modUpd _ _
theorem tends_enqueueProgram (e : ProgEntry) (s : State) : Tends s (s.enqueueProgram e) := tends_modUpd _ _
theorem tends_withdraw (l : LineNo) (n : SlotNo) (s : State) : Tends s (s.withdraw l n) := tends_modUpd _ _

theorem tends_modWork (l : LineNo) (f : LockWork → LockWork) (s : State) : Tends s (s.modWork l f) := by
  unfold modWork
  cases s.work l with
  | none => exact Tends.refl s
  | some w => exact tends_setWork _ _ _

theorem tends_answerEntries (st : Status) (es : List ProgEntry) (s : State) : Tends s (answerEntries st es s) := by
  induction es generalizing s with
  | nil => exact Tends.refl s
  | cons e es ih => exact (tends_answerTo _ _ _ _).trans (ih _)

theorem tends_endLock (l : LineNo) (s : State) : Tends s (s.endLock l) := by
  unfold endLock
  cases (s.line l).lock with
  | none => exact Tends.refl s
  | some k =>
    exact (tends_unlock _ _).trans ((tends_setWork _ _ _).trans ((tends_withdraw _ _ _).trans (tends_answerEntries _ _ _)))

theorem tends_leaveStaging (n : SlotNo) (d : Bool) (s : State) : Tends s (s.leaveStaging n d) := by
  unfold leaveStaging
  split
  · split
    · exact tends_toBad _ _
    · exact tends_toDirty _ _
  · exact Tends.refl s

theorem tends_loseLock (l : LineNo) (why : LossReason) (d : Bool) (s : State) : Tends s (s.loseLock l why d) := by
  unfold loseLock
  cases (s.line l).lock with
  | none => exact Tends.refl s
  | some k =>
    have a := (tends_leaveStaging k.slot d s).trans ((tends_endLock l _).trans (tends_log
      { kind := .lockLost, port := some k.holder, slot := some k.slot, line := some l, detail := wordOf why.code } _))
    dsimp only
    split
    · exact a
    · exact a.trans (tends_hand _ _ _)

theorem tends_failLock (l : LineNo) (d : Bool) (s : State) : Tends s (s.failLock l d) := by
  unfold failLock
  cases s.work l with
  | none => exact Tends.refl s
  | some w => exact (tends_loseLock _ _ _ _).trans (tends_answerTo _ _ _ _)

theorem tends_drainEnd (l : LineNo) (n : SlotNo) (s : State) : Tends s (s.drainEnd l n) := by
  unfold drainEnd
  cases s.work l with
  | none => exact Tends.refl s
  | some w =>
    dsimp only
    split
    · exact (tends_setWork _ _ _).trans (tends_addReady _ _)
    · exact Tends.refl s

theorem tends_mismatch (l : LineNo) (n : SlotNo) (c : Option (Port × CmdTag)) (s : State) :
    Tends s (s.mismatch l n c) :=
  (tends_toDirty _ _).trans ((tends_endLock _ _).trans ((tends_log _ _).trans (tends_answerTo _ _ _ _)))

theorem tends_verifyDone (l : LineNo) (n : SlotNo) (w : LockWork) (s : State) : Tends s (s.verifyDone l n w) := by
  unfold verifyDone
  dsimp only
  split
  · exact (tends_loseLock _ _ _ _).trans (tends_answerTo _ _ _ _)
  · split
    · exact (tends_setWork _ _ _).trans (tends_modUpd _ _)
    · exact tends_mismatch _ _ _ _

theorem tends_verifyPage (l : LineNo) (n : SlotNo) (d : List Byte) (w : LockWork) (s : State) :
    Tends s (s.verifyPage l n d w) := by
  unfold verifyPage
  dsimp only
  split
  · exact (tends_setWork _ _ _).trans (tends_addReady _ _)
  · exact tends_verifyDone _ _ _ _

theorem tends_listEnd (l : LineNo) (n : SlotNo) (s : State) : Tends s (s.listEnd l n) := by
  unfold listEnd
  cases s.work l with
  | none => exact Tends.refl s
  | some w =>
    dsimp only
    split
    · exact (tends_setWork _ _ _).trans (tends_addReady _ _)
    · exact Tends.refl s

theorem tends_sealDone (l : LineNo) (n : SlotNo) (w : LockWork) (s : State) : Tends s (s.sealDone l n w) := by
  unfold sealDone
  dsimp only
  have a : ∀ c, Tends s (((((s.modSlot n (fun r => { r with state := .sealed, checkList := some w.checks })).modLine l
      (fun r => { r with pending := some n })).setWork l c).startIdle l).answerTo w.command .ok [wordOf n.val]) :=
    fun c => (tends_modSlot _ _ _).trans ((tends_modLine _ _ _).trans ((tends_setWork _ _ _).trans
      ((tends_startIdle _ _).trans (tends_answerTo _ _ _ _))))
  split
  · exact (a _).trans (tends_loseLock _ _ _ _)
  · exact a _

theorem tends_stageMarkEnded (l : LineNo) (n : SlotNo) (out : OpOutcome) (s : State) :
    Tends s (s.stageMarkEnded l n out) := by
  unfold stageMarkEnded
  split
  · cases out
    · exact (tends_setWork _ _ _).trans ((tends_startIdle _ _).trans (tends_answerTo _ _ _ _))
    · exact (tends_toBad _ _).trans ((tends_endLock _ _).trans (tends_answerTo _ _ _ _))
    · exact (tends_toDirty _ _).trans ((tends_endLock _ _).trans (tends_answerTo _ _ _ _))
    · exact (tends_toDirty _ _).trans ((tends_endLock _ _).trans (tends_answerTo _ _ _ _))
  · exact Tends.refl s

theorem tends_dataEnded (l : LineNo) (n : SlotNo) (u : Nat) (out : OpOutcome) (s : State) :
    Tends s (s.dataEnded l n u out) := by
  unfold dataEnded
  dsimp only
  refine (tends_takeEntry n .data u s).trans ?_
  split
  · split
    · exact (tends_answerTo _ _ _ _).trans (tends_drainEnd _ _ _)
    · exact (tends_answerTo _ _ _ _).trans (tends_failLock _ _ _)
  · exact tends_answerTo _ _ _ _

theorem tends_verifyEnded (l : LineNo) (n : SlotNo) (d : List Byte) (out : OpOutcome) (s : State) :
    Tends s (s.verifyEnded l n d out) := by
  unfold verifyEnded
  split
  · split
    · exact tends_verifyPage _ _ _ _ _
    · exact tends_failLock _ _ _
  · exact Tends.refl s

theorem tends_listEnded (l : LineNo) (n : SlotNo) (u : Nat) (out : OpOutcome) (s : State) :
    Tends s (s.listEnded l n u out) := by
  unfold listEnded
  dsimp only
  refine (tends_takeEntry n .list u s).trans ?_
  split
  · split
    · exact tends_listEnd _ _ _
    · exact tends_failLock _ _ _
  · exact Tends.refl _

theorem tends_sealMarkEnded (l : LineNo) (n : SlotNo) (out : OpOutcome) (s : State) :
    Tends s (s.sealMarkEnded l n out) := by
  unfold sealMarkEnded
  split
  · split
    · exact tends_sealDone _ _ _ _
    · exact tends_failLock _ _ _
  · exact Tends.refl s

theorem tends_setCommitRun (c : Committer) (r : CommitRun) (s : State) : Tends s (s.setCommitRun c r) := by
  cases c
  · exact tends_modWork _ _ _
  · exact tends_setSequence _ _ _

theorem tends_endCommit (c : Committer) (s : State) : Tends s (s.endCommit c) := by
  cases c with
  | lock l => exact tends_endLock _ _
  | sequence l => unfold endCommit; exact Tends.trans (tends_setSequence l none s) (tends_modUpd _ _)

theorem tends_finishCommit (c : Committer) (r : CommitRun) (st : Status) (res : List Word) (s : State) :
    Tends s (s.finishCommit c r st res) := (tends_endCommit _ _).trans (tends_answer _ _ _ _ _)

theorem tends_commitDone (c : Committer) (r : CommitRun) (s : State) : Tends s (s.commitDone c r) := by
  unfold commitDone
  dsimp only
  split
  · exact Tends.trans (tends_commitSwitch _ s) (tends_finishCommit _ _ _ _ _)
  · exact Tends.trans (tends_commitSwitch _ s) (Tends.trans (tends_setCommitRun _ _ _) (tends_addReady _ _))

theorem tends_commitMarkEnded (c : Committer) (n : SlotNo) (out : OpOutcome) (s : State) :
    Tends s (s.commitMarkEnded c n out) := by
  unfold commitMarkEnded
  cases s.commitRun c with
  | none => exact Tends.refl s
  | some r =>
    dsimp only
    split
    · split
      · exact tends_commitDone _ _ _
      · refine Tends.trans ?_ (tends_finishCommit _ _ _ _ _)
        unfold commitFailed
        split
        · exact tends_badPending _ _ _
        · exact tends_dropPending _ _ _
    · exact Tends.refl s

theorem tends_releaseHold (n : Option SlotNo) (s : State) : Tends s (s.releaseHold n) := by
  cases n with
  | none => exact Tends.refl s
  | some n => unfold releaseHold; exact tends_modSlot _ _ _

theorem tends_retireMarkEnded (c : Committer) (s : State) : Tends s (s.retireMarkEnded c) := by
  unfold retireMarkEnded
  cases s.commitRun c with
  | none => exact Tends.refl s
  | some r => exact Tends.trans (tends_releaseHold r.oldSlot s) (tends_finishCommit _ _ _ _ _)

theorem tends_loseRequest (i : ReadyItem) (s : State) : Tends s (s.loseRequest i) := by
  unfold loseRequest
  split
  · split
    · exact Tends.refl s
    · split
      · exact tends_dataEnded _ _ _ _ _
      · exact tends_listEnded _ _ _ _ _
  · split
    · split
      · exact tends_stageMarkEnded _ _ _ _
      · exact tends_verifyEnded _ _ _ _ _
      · exact tends_sealMarkEnded _ _ _ _
      · split
        · exact tends_retireMarkEnded _ _
        · exact tends_commitMarkEnded _ _ _ _
      · exact Tends.refl s
    · exact Tends.refl s
  · split
    · split
      · exact tends_retireMarkEnded _ _
      · exact tends_commitMarkEnded _ _ _ _
    · split
      · exact tends_retireMarkEnded _ _
      · exact Tends.refl s
    · exact Tends.refl s

theorem tends_offlineLock (l : LineNo) (s : State) : Tends s (s.offlineLock l) := by
  unfold offlineLock
  split
  · split
    · exact (tends_loseLock _ _ _ _).trans (tends_answerTo _ _ _ _)
    · exact tends_loseLock _ _ _ _
    · exact (tends_loseLock _ _ _ _).trans (tends_answerTo _ _ _ _)
    · exact tends_loseLock _ _ _ _
    · split
      · exact (tends_releaseHold _ _).trans ((tends_loseLock _ _ _ _).trans (tends_answer _ _ _ _ _))
      · exact (tends_dropPending _ _ _).trans ((tends_loseLock _ _ _ _).trans (tends_answer _ _ _ _ _))
    · exact tends_loseLock _ _ _ _
  · exact Tends.refl s

theorem tends_offlineSequence (l : LineNo) (s : State) : Tends s (s.offlineSequence l) := by
  unfold offlineSequence
  split
  · exact Tends.refl s
  · split
    · exact tends_retireMarkEnded _ _
    · split
      · exact tends_finishCommit _ _ _ _ _
      · exact (tends_dropPending _ _ _).trans (tends_finishCommit _ _ _ _ _)

theorem tends_offlineLines (ls : List LineNo) (s : State) : Tends s (offlineLines ls s) := by
  induction ls generalizing s with
  | nil => exact Tends.refl s
  | cons l ls ih => exact ((tends_offlineLock l s).trans (tends_offlineSequence l _)).trans (ih _)

theorem tends_offlineUpdate (s : State) : Tends s s.offlineUpdate := by
  unfold offlineUpdate
  dsimp only
  refine (tends_modUpd (fun u => { u with lost := none, toldOffline := false }) s).trans ?_
  refine Tends.trans ?_ (tends_offlineLines _ _)
  split
  · exact Tends.refl _
  · exact tends_loseRequest _ _

theorem tends_restartLoss (p : Port) (s : State) : Tends s (s.restartLoss p) := by
  unfold restartLoss
  split
  · exact Tends.refl s
  · split
    · exact Tends.refl s
    · split
      · exact tends_setWork _ _ _
      · exact tends_setWork _ _ _
      · exact (tends_loseLock _ _ _ _).trans (tends_answerTo _ _ _ _)
      · exact tends_loseLock _ _ _ _
      · exact tends_loseLock _ _ _ _

/-! ### The reclaimer and the configuration writer -/

theorem tends_reclaimBad (j : ReclaimJob) (b : Nat) (s : State) : Tends s (s.reclaimBad j b) :=
  ((tends_toBad j.target s).trans (tends_log { kind := .eraseFail, slot := some j.target, page := some (16 * b) } _)).trans
    (tends_of_eq rfl rfl rfl rfl rfl rfl)

theorem tends_reclaimFailed (j : ReclaimJob) (s : State) : Tends s (s.reclaimFailed j) :=
  (tends_toDirty j.target s).trans (tends_of_eq rfl rfl rfl rfl rfl rfl)

theorem tends_eraseMarkEnded (out : OpOutcome) (s : State) : Tends s (s.eraseMarkEnded out) := by
  unfold eraseMarkEnded
  split
  · exact Tends.refl s
  · cases out
    · exact tends_of_eq rfl rfl rfl rfl rfl rfl
    · exact tends_reclaimBad _ _ _
    · exact tends_reclaimFailed _ _
    · exact tends_reclaimFailed _ _

theorem tends_reclaimEraseEnded (b : Nat) (out : OpOutcome) (s : State) : Tends s (s.reclaimEraseEnded b out) := by
  unfold reclaimEraseEnded
  split
  · exact Tends.refl s
  · cases out
    · dsimp only
      split
      · exact tends_of_eq rfl rfl rfl rfl rfl rfl
      · exact tends_of_eq rfl rfl rfl rfl rfl rfl
    · exact tends_reclaimBad _ _ _
    · exact tends_reclaimFailed _ _
    · exact tends_reclaimFailed _ _

theorem tends_setCopy (c : Copy) (x : CopyState) (s : State) : Tends s (s.setCopy c x) := by
  cases c <;> exact tends_of_eq rfl rfl rfl rfl rfl rfl

theorem tends_failConfig (d : Bool) (s : State) : Tends s (s.failConfig d) := by
  unfold failConfig
  split
  · exact Tends.refl s
  · dsimp only
    exact Tends.trans (Tends.trans (t := State.log _ { s with cfgw := { s.cfgw with write := none } })
      (Tends.trans (t := { s with cfgw := { s.cfgw with write := none } }) (tends_of_eq rfl rfl rfl rfl rfl rfl) (tends_log _ _))
      (Tends.refl _)) (tends_answer _ _ _ _ _)

theorem tends_configEraseEnded (out : OpOutcome) (s : State) : Tends s (s.configEraseEnded out) := by
  unfold configEraseEnded
  split
  · exact tends_of_eq rfl rfl rfl rfl rfl rfl
  · exact tends_failConfig _ _

theorem tends_configProgramEnded (out : OpOutcome) (s : State) : Tends s (s.configProgramEnded out) := by
  unfold configProgramEnded
  split
  · split
    · exact Tends.refl s
    · exact Tends.trans (Tends.trans (t := { s with cfgw := { s.cfgw with write := none } })
        (tends_of_eq rfl rfl rfl rfl rfl rfl) (tends_setCopy _ _ _)) (tends_answer _ _ _ _ _)
  · exact tends_failConfig _ _

theorem tends_acceptConfig (p : Port) (t : CmdTag) (b : List Byte) (s : State) : Tends s (s.acceptConfig p t b) := by
  unfold acceptConfig
  dsimp only
  exact (tends_setCopy _ _ _).trans (tends_of_eq rfl rfl rfl rfl rfl rfl)

/-! ### The flash channel -/

theorem flows_endOp (s : State) : Flows s s.endOp := flows_modChan _ _
theorem flows_runOp (o : Operation) (s : State) : Flows s (s.runOp o) := flows_modChan _ _

theorem flows_grantFill (e : FillEntry) (s : State) : Flows s (s.grantFill e) :=
  (tends_modFill _ _).toFlows.trans (flows_runOp _ _)

theorem flows_resume (s : State) : Flows s s.resume := flows_modChan _ _

theorem tends_logProgramFail (o : Operation) (out : OpOutcome) (s : State) : Tends s (s.logProgramFail o out) := by
  cases out
  · exact Tends.refl s
  · exact tends_log _ _
  · exact tends_log _ _
  · exact Tends.refl s

theorem tends_updateTimedOut (o : Operation) (out : OpOutcome) (f : SlotNo → OpOutcome → State → State) (s : State)
    (hf : ∀ n t, Tends t (f n out t)) : Tends s (s.updateTimedOut o out f) := by
  unfold updateTimedOut
  split
  · exact Tends.refl s
  · exact (tends_logProgramFail _ _ _).trans (hf _ _)

theorem tends_fillTimedOut (f : FrameNo) (s : State) : Tends s (s.fillTimedOut f) := by
  unfold fillTimedOut
  split
  · exact Tends.refl s
  · exact (serves_fillFailed _ _).tends

theorem tends_report (o : Operation) (out : OpOutcome) (s : State) : Tends s (s.report o out) := by
  unfold report
  split
  · exact tends_fillTimedOut _ _
  · exact tends_updateTimedOut _ _ _ _ (fun _ _ => tends_stageMarkEnded _ _ _ _)
  · exact tends_updateTimedOut _ _ _ _ (fun _ _ => tends_dataEnded _ _ _ _ _)
  · exact tends_updateTimedOut _ _ _ _ (fun _ _ => tends_verifyEnded _ _ _ _ _)
  · exact tends_updateTimedOut _ _ _ _ (fun _ _ => tends_listEnded _ _ _ _ _)
  · exact tends_updateTimedOut _ _ _ _ (fun _ _ => tends_sealMarkEnded _ _ _ _)
  · exact tends_updateTimedOut _ _ _ _ (fun _ _ => tends_commitMarkEnded _ _ _ _)
  · exact tends_updateTimedOut _ _ _ _ (fun _ _ => tends_retireMarkEnded _ _)
  · exact tends_configEraseEnded _ _
  · exact tends_configProgramEnded _ _
  · exact tends_eraseMarkEnded _ _
  · exact tends_reclaimEraseEnded _ _ _
  · exact Tends.refl s
  · exact tends_modStart _ _
  · exact tends_modStart _ _
  · exact tends_modStart _ _

theorem tends_logTimeout (o : Operation) (s : State) : Tends s (s.logTimeout o) := tends_log _ _

theorem tends_reclaimOffline (s : State) : Tends s s.reclaimOffline := by
  unfold reclaimOffline
  split
  · exact Tends.refl s
  · exact tends_reclaimFailed _ _

theorem tends_startOffline (s : State) : Tends s s.startOffline := by
  unfold startOffline
  split
  · exact Tends.refl s
  · exact tends_modStart _ _

theorem flows_enterOffline (o : Operation) (s : State) : Flows s (s.enterOffline o) := by
  unfold enterOffline
  dsimp only
  refine Flows.trans ?_ (((tends_failConfig _ _).trans (tends_reclaimOffline _)).trans
    ((tends_startOffline _).trans (tends_handAll _ _ _))).toFlows
  exact Flows.trans (Flows.trans (tends_log _ _).toFlows (flows_modChan _ _))
    ((tends_modUpd _ _).trans (tends_modFill _ _)).toFlows

theorem flows_issueReset (c : ResetCause) (s : State) : Flows s (s.issueReset c) :=
  (flows_modChan _ _).trans (flows_runOp _ _)

theorem serves_offlineFills (s : State) : Serves s s.offlineFills :=
  ((serves_failFills _ _).trans (serves_modFill _ _)).trans (serves_handOut _)

theorem tends_ite {c : Prop} [Decidable c] {s t : State} (h : Tends s t) : Tends s (if c then t else s) := by
  split
  · exact h
  · exact Tends.refl s

theorem tends_takeOffline (s : State) : Tends s s.takeOffline :=
  (tends_ite (c := s.fill.toldOffline = true) (serves_offlineFills s).tends).trans (tends_ite (tends_offlineUpdate _))

/-- The return of a channel with nothing left to take only changes the channel, logs and hands out. -/
theorem takeOffline_untold {s : State} (hf : s.fill.toldOffline = false) (hu : s.upd.toldOffline = false) :
    s.takeOffline = s := by
  simp [takeOffline, hf, hu]

theorem flows_goOnline (b : Option Port) (s : State) : Flows s (s.goOnline b) :=
  Flows.trans (Flows.trans (tends_takeOffline s).toFlows (flows_modChan _ _))
    ((tends_log _ _).trans (tends_handAll _ _ _)).toFlows

/-! ### Time -/

theorem lineAgrees_timer (u : Supervision) (t : SupTimer) : lineAgrees { u with timer := t } ↔ lineAgrees u := Iff.rfl

theorem flows_advance (d : Nat) (s : State) : Flows s (s.advance d) := by
  refine ⟨⟨rfl, Appended.refl _, fun p h => ?_, fun p => ?_⟩, rfl, rfl⟩
  · have : (s.advance d).port p = portAfter d (s.port p) := by simp [port, advance]
    rw [this]; exact h
  · have : (s.advance d).port p = portAfter d (s.port p) := by simp [port, advance]
    rw [this]; exact Nat.le_refl _

end Sys2Proof.Machine.State
end

