-- ==== Sys2Proof/Laws/Operands.lean ====
section
/-!
SUPPORT. What the checks of command operands accept, and which window an address lies in.
-/

namespace Sys2Proof.Machine.State

theorem portHeld_iff (s : State) (p : Port) : s.portHeld p = true ↔ s.Held p := by
  unfold portHeld Held
  cases (s.port p).sup.state <;> simp

theorem portHeld_false {s : State} {p : Port} (h : ¬ s.Held p) : s.portHeld p = false := by
  cases e : s.portHeld p
  · rfl
  · exact absurd ((portHeld_iff s p).mp e) h

theorem windowSizes_mem (n : Nat) : n ∈ windowSizes ↔ ∃ k, 12 ≤ k ∧ k ≤ 22 ∧ n = 2 ^ k := by
  unfold windowSizes
  simp only [List.mem_map, List.mem_range]
  constructor
  · rintro ⟨i, hi, rfl⟩
    exact ⟨12 + i, by omega, by omega, rfl⟩
  · rintro ⟨k, h1, h2, rfl⟩
    exact ⟨k - 12, by omega, by congr 1; omega⟩

/-- The line a BIND's arguments name, when they pass the checks of R29 step 2. -/
theorem bindArgs_some (s : State) (base size line offset : Nat) (l : LineNo) :
    s.bindArgs base size line offset = some l ↔
      (base < 16777216 ∧ (∃ k, 12 ≤ k ∧ k ≤ 22 ∧ size = 2 ^ k) ∧ size ∣ base ∧ line < 8 ∧ 4096 ∣ offset ∧
        offset < s.largestImage) ∧ line = l.val := by
  have m := windowSizes_mem size
  have d1 : base % size = 0 ↔ size ∣ base := (Nat.dvd_iff_mod_eq_zero ..).symm
  have d2 : offset % 4096 = 0 ↔ 4096 ∣ offset := (Nat.dvd_iff_mod_eq_zero ..).symm
  unfold bindArgs
  split
  · rename_i h
    rw [m, d1, d2] at h
    split
    · rename_i hl
      constructor
      · intro e
        cases e
        exact ⟨⟨h.1, h.2.1, h.2.2.1, hl, h.2.2.2.1, h.2.2.2.2⟩, rfl⟩
      · rintro ⟨_, e⟩
        exact congrArg some (Fin.ext e)
    · rename_i hl
      exact ⟨fun e => (by cases e), fun e => absurd e.1.2.2.2.1 hl⟩
  · rename_i h
    rw [m, d1, d2] at h
    exact ⟨fun e => (by cases e), fun e => absurd ⟨e.1.1, e.1.2.1, e.1.2.2.1, e.1.2.2.2.2.1, e.1.2.2.2.2.2⟩ h⟩

theorem bindArgs_none (s : State) (base size line offset : Nat) :
    s.bindArgs base size line offset = none ↔
      ¬ (base < 16777216 ∧ (∃ k, 12 ≤ k ∧ k ≤ 22 ∧ size = 2 ^ k) ∧ size ∣ base ∧ line < 8 ∧ 4096 ∣ offset ∧
        offset < s.largestImage) := by
  constructor
  · intro e h
    have := (bindArgs_some s base size line offset ⟨line, h.2.2.2.1⟩).mpr ⟨h, rfl⟩
    rw [e] at this; cases this
  · intro h
    cases e : s.bindArgs base size line offset with
    | none => rfl
    | some l => exact absurd ((bindArgs_some s base size line offset l).mp e).1 h

theorem mem_windows {s : State} {p : Port} {x : Option Binding} :
    x ∈ (s.port p).windows.toList ↔ ∃ w, s.window p w = x := by
  rw [Vector.mem_toList_iff, Vector.mem_iff_getElem]
  constructor
  · rintro ⟨i, hi, rfl⟩
    exact ⟨⟨i, hi⟩, rfl⟩
  · rintro ⟨w, rfl⟩
    exact ⟨w.val, w.isLt, rfl⟩

theorem overlaps_iff (s : State) (p : Port) (base size : Nat) :
    s.overlaps p base size = true ↔
      ∃ x b, s.window p x = some b ∧ base < b.base + b.size ∧ b.base < base + size := by
  unfold overlaps
  rw [List.any_eq_true]
  constructor
  · rintro ⟨x, hx, h⟩
    obtain ⟨w, rfl⟩ := mem_windows.mp hx
    cases e : s.window p w with
    | none => rw [e] at h; simp at h
    | some b => rw [e] at h; exact ⟨w, b, e, by simpa using h⟩
  · rintro ⟨w, b, e, h⟩
    exact ⟨some b, mem_windows.mpr ⟨w, e⟩, by simpa using h⟩

theorem windowAt_some {s : State} {p : Port} {a : Nat} {w : WindowNo} {b : Binding} (h : s.windowAt p a = some (w, b)) :
    s.window p w = some b ∧ b.base ≤ a ∧ a < b.base + b.size := by
  unfold windowAt at h
  split at h
  · cases h
  · rename_i x e
    have t := tfind_some e
    cases hw : s.window p x with
    | none => rw [hw] at h; cases h
    | some c =>
      rw [hw] at h
      cases h
      have : tget (s.port p).windows w = some b := hw
      rw [this] at t
      exact ⟨hw, by simpa using t⟩

theorem windowAt_none {s : State} {p : Port} {a : Nat} :
    s.windowAt p a = none ↔ ∀ w b, s.window p w = some b → a < b.base ∨ b.base + b.size ≤ a := by
  constructor
  · intro h w b hw
    unfold windowAt at h
    split at h
    · rename_i e
      have := tfind_none e w
      have hw' : tget (s.port p).windows w = some b := hw
      rw [hw'] at this
      simp only [Bool.and_eq_false_iff, decide_eq_false_iff_not] at this
      omega
    · rename_i x e
      have t := tfind_some e
      cases hx : s.window p x with
      | none =>
        have hx' : tget (s.port p).windows x = none := hx
        rw [hx'] at t; simp at t
      | some c => rw [hx] at h; cases h
  · intro h
    cases e : s.windowAt p a with
    | none => rfl
    | some x =>
      obtain ⟨w, b⟩ := x
      obtain ⟨h1, h2, h3⟩ := windowAt_some e
      have := h w b h1
      omega

theorem windowArg_some {x : Word} {w : WindowNo} (h : x.toNat = w.val) : windowArg x = some w := by
  unfold windowArg
  rw [dif_pos (by rw [h]; exact w.isLt)]
  exact congrArg some (Fin.ext h)

theorem windowArg_none {x : Word} (h : 4 ≤ x.toNat) : windowArg x = none := by
  unfold windowArg
  rw [dif_neg (by omega)]

theorem lineArg_some {x : Word} {l : LineNo} (h : x.toNat = l.val) : lineArg x = some l := by
  unfold lineArg
  rw [dif_pos (by rw [h]; exact l.isLt)]
  exact congrArg some (Fin.ext h)

theorem lineArg_none {x : Word} (h : 8 ≤ x.toNat) : lineArg x = none := by
  unfold lineArg
  rw [dif_neg (by omega)]

theorem portArg_some {x : Word} {p : Port} (h : x.toNat = p.val) : portArg x = some p := by
  unfold portArg
  rw [dif_pos (by rw [h]; exact p.isLt)]
  exact congrArg some (Fin.ext h)

theorem portArg_none {x : Word} (h : 4 ≤ x.toNat) : portArg x = none := by
  unfold portArg
  rw [dif_neg (by omega)]

/-! ### Names and locks -/

/-- A name in its field: 1 to 8 printable characters, then zeros (section 11.3). -/
theorem parseName_iff {b : List Byte} (hb : b.length = 8) (x : Name) :
    parseName b = some x ↔ (1 ≤ x.length ∧ x.length ≤ 8 ∧ (∀ c ∈ x, 0x20 ≤ c.toNat ∧ c.toNat ≤ 0x7E) ∧
      b = x ++ List.replicate (8 - x.length) 0) := by
  unfold parseName
  dsimp only
  constructor
  · intro h
    split at h
    · rename_i c
      obtain ⟨_, c2, c3, c4⟩ := c
      injection h with h
      subst h
      have hs : b = b.takeWhile (· != 0) ++ b.drop (b.takeWhile (· != 0)).length := by
        have e := List.takeWhile_append_dropWhile (p := (· != (0 : Byte))) (l := b)
        have d : b.drop (b.takeWhile (· != 0)).length = b.dropWhile (· != 0) := by
          conv => lhs; rhs; rw [← e]
          exact List.drop_left
        rw [d]; exact e.symm
      generalize b.takeWhile (· != 0) = n at *
      have hl : n.length ≤ 8 := by
        have := congrArg List.length hs
        rw [List.length_append] at this; omega
      refine ⟨?_, hl, ?_, ?_⟩
      · have : n.length ≠ 0 := by simpa using c2
        omega
      · intro c hc
        have := List.all_eq_true.mp c3 c hc
        simpa [printable] using this
      · conv => lhs; rw [hs]
        congr 1
        apply List.eq_replicate_iff.mpr
        refine ⟨by simp [hb], ?_⟩
        intro y hy
        simpa using List.all_eq_true.mp c4 y hy
    · cases h
  · rintro ⟨h1, _, h3, rfl⟩
    have ne : ∀ c ∈ x, (c != 0) = true := by
      intro c hc
      have := h3 c hc
      simp only [bne_iff_ne, ne_eq]
      rintro rfl
      simp at this
    have tw : (x ++ List.replicate (8 - x.length) (0 : Byte)).takeWhile (· != 0) = x := by
      rw [List.takeWhile_append_of_pos ne]
      simp
    rw [tw, if_pos]
    refine ⟨hb, ?_, ?_, ?_⟩
    · rintro rfl; simp at h1
    · simp only [List.all_eq_true, printable]; intro c hc; simpa using h3 c hc
    · simp

/-- A port that holds no lock. -/
theorem lockOf_none {s : State} {p : Port} : s.lockOf p = none ↔ ∀ l k, (s.line l).lock = some k → k.holder ≠ p := by
  unfold lockOf
  constructor
  · intro h l k hk e
    have := tfind_none h l
    unfold line at hk
    rw [hk] at this
    simp [e] at this
  · intro h
    cases hf : tfind (fun l : Line => match l.lock with | none => false | some k => k.holder == p) s.lines with
    | none => rfl
    | some l =>
      exfalso
      have := tfind_some hf
      split at this
      · cases this
      · rename_i k hk
        exact h l k hk (by simpa using this)

/-- The lock of the line found for a port is the port's. -/
theorem lockOf_some {s : State} {p : Port} {l : LineNo} (h : s.lockOf p = some l) :
    ∃ k, (s.line l).lock = some k ∧ k.holder = p := by
  have := tfind_some h
  split at this
  · cases this
  · rename_i k hk
    exact ⟨k, hk, by simpa using this⟩

theorem lockOf_opened (p : Port) (q : Seq) (t : CmdTag) (c : Option Command) (s : State) (x : Port) :
    (s.opened p q t c).lockOf x = s.lockOf x := rfl

end Sys2Proof.Machine.State
end

