-- ==== Sys2Proof/Laws/Windows.lean ====
section
/-!
SUPPORT. What the unbinding of a restarted port's windows can change, and that it commutes with what a packet's
acceptance changes in its port.
-/

namespace Sys2Proof.Machine.State

/-! ### The unbinding -/

/-- Some windows of a port have been unbound: their pins are returned, and everything else stays (R41, R31). -/
structure Unbound (p : Port) (ws : List WindowNo) (s t : State) : Prop where
  rest : t = { s with ports := t.ports, slots := t.slots, frames := t.frames, age := t.age, fill := t.fill }
  fill : t.fill = { s.fill with badPages := t.fill.badPages }
  others : ∀ x, x ≠ p → t.port x = s.port x
  mine : t.port p = { s.port p with windows := (t.port p).windows }
  windows : ∀ w, t.window p w = if w ∈ ws then none else s.window p w

theorem unbound_one (p : Port) (w : WindowNo) (b : Binding) (s : State) : Unbound p [w] s (s.unbindWindow p w b) := by
  have u := unpins_windowUnpin b.slot s
  have ps : ∀ x, (s.windowUnpin b.slot).port x = s.port x := fun x => by rw [u.rest]; rfl
  unfold unbindWindow
  refine ⟨?_, u.fill, fun x h => ?_, ?_, fun x => ?_⟩
  · generalize s.windowUnpin b.slot = v at u ⊢
    rw [u.rest]; rfl
  · simp [setWindow, h, ps]
  · simp [setWindow, ps]
  · by_cases h : x = w
    · subst h; simp [setWindow, window]
    · simp [setWindow, window, h, ps]

theorem Unbound.trans {p : Port} {xs ys : List WindowNo} {s t u : State} (a : Unbound p xs s t) (b : Unbound p ys t u) :
    Unbound p (xs ++ ys) s u where
  rest := by rw [b.rest, a.rest]
  fill := by rw [b.fill, a.fill]
  others := fun x h => (b.others x h).trans (a.others x h)
  mine := by rw [b.mine, a.mine]
  windows := fun w => by
    rw [b.windows w, a.windows w]
    by_cases h1 : w ∈ xs <;> by_cases h2 : w ∈ ys <;> simp [h1, h2]

theorem unbound_none {p : Port} {w : WindowNo} {s : State} (h : s.window p w = none) : Unbound p [w] s s where
  rest := rfl
  fill := rfl
  others := fun _ _ => rfl
  mine := rfl
  windows := fun x => by
    by_cases e : x = w
    · subst e; simp [h]
    · simp [e]

/-- The unbinding of some windows in turn. -/
theorem unbindAll_spec (p : Port) (ws : List WindowNo) (s : State) : Unbound p ws s (unbindAll p ws s) := by
  induction ws generalizing s with
  | nil => exact ⟨rfl, rfl, fun _ _ => rfl, rfl, fun _ => by simp [unbindAll]⟩
  | cons w ws ih =>
    unfold unbindAll
    split
    · rename_i h
      exact (unbound_none h).trans (ih s)
    · rename_i b _
      exact (unbound_one p w b s).trans (ih _)

/-- After the unbinding items have been taken no window of the port is BOUND, and none of them waits. -/
theorem takeUnbinds_spec (p : Port) (s : State) :
    (∀ w, (s.takeUnbinds p).window p w = none) ∧ (s.takeUnbinds p).unbindWaits p = false ∧
      (∀ x, x ≠ p → (s.takeUnbinds p).port x = s.port x) ∧ (s.takeUnbinds p).hubRestart = s.hubRestart ∧
      (∀ x, (s.takeUnbinds p).portHeld x = s.portHeld x) := by
  have u := unbindAll_spec p (tall 4)
    (s.modPort p (fun r => { r with bindItems := r.bindItems.filter (fun i => i != .unbindAll) }))
  refine ⟨fun w => ?_, ?_, fun x h => ?_, ?_, fun x => ?_⟩
  · exact (u.windows w).trans (if_pos (by simp [tall]))
  · unfold unbindWaits takeUnbinds
    rw [u.mine]
    simp
  · exact (u.others x h).trans (by simp [h])
  · show (unbindAll p (tall 4) _).hubRestart = _
    rw [u.rest]; rfl
  · unfold portHeld takeUnbinds
    by_cases h : x = p
    · subst h; rw [u.mine]; simp
    · rw [u.others x h]; simp [h]

/-- Beside its port's windows and items, taking the unbinding items changes only what window unpins change. -/
theorem takeUnbinds_rest (p : Port) (s : State) :
    s.takeUnbinds p = { s with ports := (s.takeUnbinds p).ports, slots := (s.takeUnbinds p).slots,
                               frames := (s.takeUnbinds p).frames, age := (s.takeUnbinds p).age,
                               fill := (s.takeUnbinds p).fill } ∧
      (s.takeUnbinds p).port p =
        { s.port p with windows := ((s.takeUnbinds p).port p).windows,
                        bindItems := (s.port p).bindItems.filter (fun i => i != .unbindAll) } := by
  have u := unbindAll_spec p (tall 4)
    (s.modPort p (fun r => { r with bindItems := r.bindItems.filter (fun i => i != .unbindAll) }))
  refine ⟨u.rest, u.mine.trans ?_⟩
  simp only [port_modPort_same]
  rfl

/-- A command that may be handed on may be handed on after the unbinding items. -/
theorem dispatched_takeUnbinds {p : Port} {q : Seq} {t : CmdTag} {c : Command} {s : State} (h : s.Dispatched p q t c) :
    (s.takeUnbinds p).Dispatched p q t c := by
  obtain ⟨r, m⟩ := takeUnbinds_rest p s
  generalize s.takeUnbinds p = u at r m
  have link : (u.port p).link = (s.port p).link := by rw [m]
  have sup : (u.port p).sup = (s.port p).sup := by rw [m]
  have tags : (u.port p).cmdTags = (s.port p).cmdTags := by rw [m]
  have own : u.live = s.live ∧ u.started = s.started ∧ u.hasRight p c.right = s.hasRight p c.right := by
    rw [r]; exact ⟨rfl, rfl, rfl⟩
  unfold Dispatched Takes linkUp portOff cmdTag
  rw [own.1, own.2.1, own.2.2, link, sup, tags]
  exact h

/-- An unbinding item waits. -/
theorem unbindWaits_iff (s : State) (p : Port) : s.unbindWaits p = true ↔ .unbindAll ∈ (s.port p).bindItems := by
  simp [unbindWaits]

theorem unbindWaits_false {s : State} {p : Port} (h : .unbindAll ∉ (s.port p).bindItems) : s.unbindWaits p = false := by
  simpa [unbindWaits] using h

theorem unbindWaits_opened (p : Port) (q : Seq) (t : CmdTag) (c : Option Command) (s : State) :
    (s.opened p q t c).unbindWaits p = s.unbindWaits p := by
  simp [unbindWaits, opened]

/-- With no unbinding item waiting, work of a port is taken at once. -/
theorem afterUnbinds_none {p : Port} {s : State} (f : State → State) (h : s.unbindWaits p = false) :
    s.afterUnbinds p f = f s := by
  unfold afterUnbinds
  rw [h]; rfl

/-- With one waiting, it is taken first. -/
theorem afterUnbinds_some {p : Port} {s : State} (f : State → State) (h : s.unbindWaits p = true) :
    s.afterUnbinds p f = (f (s.takeUnbinds p)).settle := by
  unfold afterUnbinds
  rw [if_pos h]

/-! ### The unbinding beside another change of its port -/

theorem windowUnpin_ports (n : SlotNo) (ps : Vector PortRecord 4) (s : State) :
    ({ s with ports := ps } : State).windowUnpin n = { s.windowUnpin n with ports := ps } :=
  afterUnpin_ports n ps (s.modSlot n (fun r => { r with windowPins := r.windowPins - 1 }))

theorem windowUnpin_modPort (n : SlotNo) (p : Port) (f : PortRecord → PortRecord) (s : State) :
    (s.modPort p f).windowUnpin n = (s.windowUnpin n).modPort p f := by
  have e : (s.windowUnpin n).ports = s.ports := by rw [(unpins_windowUnpin n s).rest]
  show ({ s with ports := _ } : State).windowUnpin n = _
  rw [windowUnpin_ports]
  simp only [modPort, port, e]

/-- A change of a port's record that neither reads nor writes its windows and its binding items. -/
def LeavesWindows (f : PortRecord → PortRecord) : Prop :=
  ∀ r ws is, f { r with windows := ws, bindItems := is } = { f r with windows := ws, bindItems := is }

theorem LeavesWindows.windows {f : PortRecord → PortRecord} (h : LeavesWindows f) (r : PortRecord) :
    (f r).windows = r.windows := by
  have e : (f { r with windows := r.windows, bindItems := r.bindItems }).windows = r.windows := by rw [h]
  exact e

theorem LeavesWindows.bindItems {f : PortRecord → PortRecord} (h : LeavesWindows f) (r : PortRecord) :
    (f r).bindItems = r.bindItems := by
  have e : (f { r with windows := r.windows, bindItems := r.bindItems }).bindItems = r.bindItems := by rw [h]
  exact e

theorem unbindAll_modPort {f : PortRecord → PortRecord} (h : LeavesWindows f) (p : Port) (ws : List WindowNo) (s : State) :
    unbindAll p ws (s.modPort p f) = (unbindAll p ws s).modPort p f := by
  induction ws generalizing s with
  | nil => rfl
  | cons w ws ih =>
    have e : (s.modPort p f).window p w = s.window p w := by simp [window, h.windows]
    unfold unbindAll
    rw [e]
    split
    · exact ih s
    · rename_i b _
      rw [← ih]
      congr 1
      unfold unbindWindow
      rw [windowUnpin_modPort]
      unfold setWindow
      rw [modPort_modPort, modPort_modPort]
      refine modPort_congr ?_
      generalize (s.windowUnpin b.slot).port p = r
      refine Eq.trans ?_ (h r (tset r.windows w none) r.bindItems).symm
      rw [← h.bindItems r, h.windows]

/-- Taking the unbinding items commutes with such a change. -/
theorem takeUnbinds_modPort {f : PortRecord → PortRecord} (h : LeavesWindows f) (p : Port) (s : State) :
    (s.modPort p f).takeUnbinds p = (s.takeUnbinds p).modPort p f := by
  unfold takeUnbinds
  rw [← unbindAll_modPort h, modPort_modPort, modPort_modPort]
  congr 1
  refine modPort_congr ?_
  generalize s.port p = r
  refine Eq.trans ?_ (h r r.windows (r.bindItems.filter (fun i => i != .unbindAll))).symm
  rw [← h.windows r, h.bindItems]

theorem takeUnbinds_opened (p : Port) (q : Seq) (t : CmdTag) (c : Option Command) (s : State) :
    (s.opened p q t c).takeUnbinds p = (s.takeUnbinds p).opened p q t c :=
  takeUnbinds_modPort (fun _ _ _ => rfl) p s

end Sys2Proof.Machine.State
end

