-- ==== Sys2Proof/Laws/Invariants.lean ====
section
/-!
SUPPORT. What every step keeps (Safety.lean), shown for the shared operations: one lemma for each, all of one form. An
operation that only tends, serves or flows keeps it by `kept_tends`, `kept_serves` and `kept_flows`.
-/

open Sys2Proof Sys2Proof.Machine Sys2Proof.Machine.State

set_option linter.unusedSimpArgs false

namespace Sys2Proof.Machine.State

/-- What every step keeps (Safety.lean). -/
abbrev Kept (s : State) : Prop := s.FlashCanonical ∧ s.LinesAgree ∧ s.EventsInOrder ∧ s.BuffersFit

/-- The event record holds at most 64 entries with consecutive sequences (R186). -/
def InOrder (r : EventRecord) : Prop := r.entries.length ≤ 64 ∧
    ∀ i (h : i < r.entries.length), (r.entries[i]'h).seq = r.next - BitVec.ofNat 32 (r.entries.length - i)

theorem inOrder_logTo (r : EventRecord) (e : EventBody) (h : InOrder r) : InOrder (logTo r e) := by
  obtain ⟨h1, h2⟩ := h
  have base : ∀ i (hi : i < r.entries.length + 1), ((r.entries ++ [{ seq := r.next, body := e }])[i]'(by simpa using hi)).seq = r.next + 1 - BitVec.ofNat 32 (r.entries.length + 1 - i) := by
    intro i hi
    by_cases hl : i < r.entries.length
    · rw [List.getElem_append_left hl, h2 i hl]
      rw [show r.entries.length + 1 - i = (r.entries.length - i) + 1 by omega, BitVec.ofNat_add]
      show _ = r.next + 1 - (_ + 1#32)
      generalize BitVec.ofNat 32 (r.entries.length - i) = x
      generalize r.next = y
      apply BitVec.eq_of_toNat_eq; simp [BitVec.toNat_sub, BitVec.toNat_add]
    · have : i = r.entries.length := by omega
      subst this
      simp
  unfold logTo; dsimp only
  split
  · rename_i hl
    refine ⟨hl, fun i hi => ?_⟩
    have := base i (by simpa using hi)
    simpa using this
  · rename_i hl
    simp at hl
    refine ⟨by simp; omega, fun i hi => ?_⟩
    simp only [List.getElem_drop]
    have hi' : i < r.entries.length := by simpa using hi
    have := base (1 + i) (by omega)
    rw [this]
    congr 2
    simp; omega

theorem inOrder_app {a b : EventRecord} (h : Appended a b) (x : InOrder a) : InOrder b := by
  obtain ⟨es, rfl⟩ := h
  induction es generalizing a with
  | nil => exact x
  | cons e es ih => exact ih (inOrder_logTo a e x)

theorem kept_keeps {s t : State} (k : Keeps s t) (h : Kept s) : Kept t := by
  obtain ⟨a, b, c, d⟩ := h
  refine ⟨?_, fun p => k.sup p (b p), inOrder_app k.events c, fun p => (k.buffers p).trans (d p)⟩
  unfold FlashCanonical; rw [k.flash]; exact a

theorem kept_flows {s t : State} (k : Flows s t) (h : Kept s) : Kept t := kept_keeps k.toKeeps h

theorem kept_tends {s t : State} (k : Tends s t) (h : Kept s) : Kept t := kept_keeps k.toKeeps h

theorem kept_device (d : DeviceEnd) (o : Operation) {s : State} (h : Kept s) : Kept (s.deviceEffect d o) := by
  have e := deviceEffect_frame d o s
  have w := wf_deviceEffect d o s h.1
  refine ⟨w, ?_, ?_, ?_⟩
  · rw [e]; exact h.2.1
  · rw [e]; exact h.2.2.1
  · rw [e]; exact h.2.2.2

theorem kept_begin (k : StartKind) {s : State} (h : Kept s) : Kept (s.beginStart k) := by
  rw [beginStart_eq]
  have pp : ∀ (x : State) p, x.ports = tmap (fun r => { PortRecord.reset with wire := r.wire }) s.ports → x.port p = { PortRecord.reset with wire := (s.port p).wire } := by
    intro x p hx; unfold port; rw [hx, tget_tmap]
  refine ⟨wf_abandonOps _ _ h.1, fun p => ?_, ?_, fun p => ?_⟩
  · rw [pp _ p rfl]; simp [lineAgrees, PortRecord.reset, Supervision.reset]
  · cases k
    · exact ⟨Nat.zero_le _, fun i hi => absurd hi (by exact Nat.not_lt_zero _)⟩
    · exact h.2.2.1
  · rw [pp _ p rfl]; simp [PortRecord.reset, Link.reset]

theorem kept_settle {s : State} (h : Kept s) : Kept s.settle := by
  by_cases hx : s.hubRestart = .dropped
  · unfold settle; rw [if_pos hx]; exact kept_begin _ h
  · exact kept_flows (settle_follows s hx).flows h

theorem kept_live {s : State} {f : State → State} (h : Kept s) (hf : Kept s → Kept (f s)) : Kept (s.whenLive f) := by
  unfold whenLive; split
  · exact hf h
  · exact h

theorem kept_port {p : Port} {f : PortRecord → PortRecord} {s : State}
    (hs : lineAgrees (s.port p).sup → lineAgrees (f (s.port p)).sup)
    (hb : (s.port p).link.buffer.length ≤ 4 → (f (s.port p)).link.buffer.length ≤ 4) (h : Kept s) : Kept (s.modPort p f) := by
  refine ⟨h.1, fun x => ?_, h.2.2.1, fun x => ?_⟩
  · by_cases e : x = p
    · subst e; rw [port_modPort_same]; exact hs (h.2.1 _)
    · rw [port_modPort_ne e]; exact h.2.1 x
  · by_cases e : x = p
    · subst e; rw [port_modPort_same]; exact hb (h.2.2.2 _)
    · rw [port_modPort_ne e]; exact h.2.2.2 x

theorem kept_sup {p : Port} {f : Supervision → Supervision} {s : State}
    (hs : lineAgrees (s.port p).sup → lineAgrees (f (s.port p).sup)) (h : Kept s) : Kept (s.modSup p f) :=
  kept_port hs (fun h => h) h

theorem kept_link {p : Port} {f : Link → Link} {s : State} (hb : (s.port p).link.buffer.length ≤ 4 → (f (s.port p).link).buffer.length ≤ 4) (h : Kept s) : Kept (s.modLink p f) :=
  kept_port (fun h => h) hb h

theorem kept_beside {p : Port} {f : PortRecord → PortRecord} {s : State} (hs : (f (s.port p)).sup = (s.port p).sup) (hl : (f (s.port p)).link = (s.port p).link) (h : Kept s) : Kept (s.modPort p f) :=
  kept_tends (tends_modPort_beside hs hl) h

theorem kept_sequenced {p : Port} {q : Seq} {f : State → State} {s : State} (h : Kept s) (hf : ∀ {x}, Kept x → Kept (f x)) : Kept (sequenced p q f s) := by
  have acc : Kept (s.accept p q) := by rw [accept_eq]; exact kept_port (fun h => h) (fun h => h) h
  have ow : ∀ a, Kept (s.owe p a) := fun a => kept_link (fun h => h) h
  unfold sequenced
  split
  · dsimp only
    split
    · exact hf acc
    · split
      · exact ow _
      · exact ow _
  · exact h

theorem kept_command {p : Port} {q : Seq} {t : CmdTag} {c : Command} {b : Bool} {held : Option Word} {f : State → State} {s : State} (h : Kept s) (hf : ∀ {x}, Kept x → Kept (f x)) :
    Kept (command p q t c b held f s) := by
  rw [command_eq]
  refine kept_sequenced h (fun {x} hx => ?_)
  unfold settles
  have o : Kept (x.openCmd p t (some c)) := kept_tends (tends_modCmdTag _ _ _ _) hx
  split
  · exact kept_tends (tends_protocolError _ _ _ _ _) hx
  · dsimp only
    split
    · exact kept_tends (tends_answer _ _ _ _ _) o
    · split
      · split
        · exact kept_tends (tends_modCmdTag _ _ _ _) o
        · exact kept_tends (tends_answer _ _ _ _ _) o
      · split
        · exact hf o
        · exact kept_tends (tends_answer _ _ _ _ _) o

theorem kept_simple {p : Port} {q : Seq} {t : CmdTag} {c : Command} {f : State → State} {s : State} (h : Kept s) (hf : ∀ {x}, Kept x → Kept (f x)) :
    Kept (simpleCommand p q t c f s) := kept_command h hf

theorem kept_answer {p : Port} {t : CmdTag} {st : Status} {r : List Word} {s : State} (h : Kept s) : Kept (s.answer p t st r) := kept_tends (tends_answer _ _ _ _ _) h

theorem kept_serves {s t : State} (k : Serves s t) (h : Kept s) : Kept t := kept_tends k.tends h

theorem kept_dropCmd {p : Port} {t : CmdTag} {s : State} (h : Kept s) : Kept (s.dropCmdReply p t) := by
  unfold dropCmdReply; dsimp only
  have := kept_tends (tends_modCmdTag p t (fun _ => CmdTagRecord.reset) s) h
  split
  · exact this
  · exact this

theorem kept_endCmd {p : Port} {t : CmdTag} {s : State} (h : Kept s) : Kept (s.endCmd p t) := by
  unfold endCmd; split
  · exact kept_tends (tends_modCmdTag _ _ _ _) h
  · exact kept_dropCmd h
  · exact h
  · exact h

theorem kept_logc {e : EventBody} {s : State} (h : Kept s) : Kept (s.log e) := kept_tends (tends_log _ _) h

theorem linkDown_form (p : Port) (w : DownReason) (s : State) : s.linkDown p w =
    (((((s.modPort p (fun r => { r with notices := r.notices.map (resend r.link.buffer), link := { r.link with buffer := [] } })).endReads p).endCmd p 0).endCmd p 1).modLink p (fun k =>
      { k with state := .down, owed := none, ackTimer := none, trainTimer := none })).log { kind := .linkDown, port := some p, detail := wordOf w.code } := rfl

theorem kept_linkDown {p : Port} {w : DownReason} {s : State} (h : Kept s) : Kept (s.linkDown p w) := by
  rw [linkDown_form]
  have a : Kept (s.modPort p (fun r => { r with notices := r.notices.map (resend r.link.buffer), link := { r.link with buffer := [] } })) :=
    kept_port (fun h => h) (fun _ => Nat.zero_le _) h
  generalize s.modPort p (fun r => { r with notices := r.notices.map (resend r.link.buffer), link := { r.link with buffer := [] } }) = x at a ⊢
  have b : Kept (((x.endReads p).endCmd p 0).endCmd p 1) := kept_endCmd (kept_endCmd (kept_serves (serves_endReads p x) a))
  generalize ((x.endReads p).endCmd p 0).endCmd p 1 = y at b ⊢
  exact kept_logc (kept_link (fun h => h) b)

theorem kept_put {p x s} (h : Kept s) : Kept (s.put p x) := kept_tends (tends_put _ _ _) h

theorem kept_enterUp {p s} (h : Kept s) : Kept (s.enterUp p) := kept_tends (tends_log _ _) (kept_link (fun _ => by simp [Link.reset]) h)

theorem kept_takeTrain {p a b s} (h : Kept s) : Kept (takeTrain p a b s) := by
  unfold takeTrain; split
  · dsimp only; split
    · exact kept_enterUp (kept_put h)
    · exact kept_link (fun h => h) (kept_put h)
  · exact kept_link (fun h => h) (kept_put h)

theorem kept_putAll {p bs s} (h : Kept s) : Kept (putAll p bs s) := by
  induction bs generalizing s with
  | nil => exact h
  | cons b bs ih => exact ih (kept_put h)

theorem kept_retransmit {p s} (h : Kept s) : Kept (retransmit p s) := by
  unfold retransmit; dsimp only; split
  · exact kept_settle (kept_linkDown h)
  · exact kept_link (fun h => h) (kept_putAll h)

theorem kept_leave {p x s} (h : Kept s) : Kept (leaveQueue p x s) := by
  unfold leaveQueue reportLost; split
  · exact h
  · split
    · dsimp only; split
      · exact kept_beside rfl rfl h
      · exact kept_beside rfl rfl (kept_beside rfl rfl h)
    · exact h

theorem kept_acks {p bs s} (h : Kept s) : Kept (acknowledged p bs s) := by
  induction bs generalizing s with
  | nil => exact h
  | cons b bs ih => exact ih (kept_leave h)

theorem kept_dropOldest {p n s} (h : Kept s) : Kept (dropOldest p n s) := by
  unfold dropOldest; dsimp only
  exact kept_acks (kept_link (fun h => by simp; omega) h)

theorem kept_sendNew {p b x s} (h4 : (s.port p).link.buffer.length < 4) (h : Kept s) : Kept (sendNew p b x s) := by
  unfold sendNew; dsimp only
  refine kept_link (fun _ => ?_) (kept_put h)
  have : ((s.put p (.sequenced (s.port p).link.sendSeq b)).port p).link = (s.port p).link := by unfold put; rw [port_modPort_same]
  rw [this]; simp; omega

theorem kept_sendOne {p s} (h : Kept s) : Kept (sendOne p s) := by
  unfold sendOne; split
  · exact kept_link (fun h => h) (kept_put h)
  · split
    · rename_i h4
      split
      · unfold takeOutgoing; split
        · exact kept_settle (kept_serves (serves_dropRequest _ _ _) (kept_sendNew h4 h))
        · dsimp only
          have := kept_tends (tends_modCmdTag p ‹_› (fun _ => CmdTagRecord.reset) _) (kept_sendNew (p := p) (b := .cmdReply ‹_› ((s.cmdTag p ‹_›).status.getD .ok) (s.cmdTag p ‹_›).result) (x := none) h4 h)
          split
          · exact this
          · exact this
        · exact kept_beside rfl rfl (kept_sendNew h4 h)
      · exact h
    · exact h

theorem kept_advance {d s} (h : Kept s) : Kept (advance d s) := kept_flows (flows_advance _ _) h

theorem kept_handAll {n ps s} (h : Kept s) : Kept (handAll n ps s) := kept_tends (tends_handAll _ _ _) h

theorem kept_log {e s} (h : Kept s) : Kept (State.log e s) := kept_tends (tends_log _ _) h

theorem kept_restart {p c b s} (h : Kept s) : Kept (restart p c b s) := by
  unfold restart; dsimp only
  have k : Kept ((s.handRequests p).modSup p (s.restartedSup p c)) := by
    refine kept_sup (fun _ => ?_) (kept_beside rfl rfl h)
    unfold restartedSup lineAgrees stateEntered; dsimp only
    split <;> simp
  split
  · exact kept_log (kept_handAll (kept_log k))
  · exact kept_handAll (kept_log k)

theorem kept_chan {f s} (h : Kept s) : Kept (modChan f s) := kept_flows (flows_modChan _ _) h

theorem kept_start {f s} (h : Kept s) : Kept (modStart f s) := kept_tends (tends_modStart _ _) h

theorem kept_endOp {s} (h : Kept s) : Kept (endOp s) := kept_chan h

theorem kept_end {o z} (h : Kept z) : Kept ((if z.chan.timeouts < 3 then issueReset .timeout z else enterOffline o z).settle) := by
  refine kept_settle ?_
  split
  · exact kept_flows (flows_issueReset _ _) h
  · exact kept_flows (flows_enterOffline _ _) h

theorem kept_timedOut {o s} (h : Kept s) : Kept (timedOut o s) := by
  have k : Kept (report o .timeout ((deviceEffect .timedOut o (s.countTimeout.logTimeout o)).modChan (fun c => { c with op := none, suspended := none }))) :=
    kept_tends (tends_report _ _ _) (kept_chan (kept_device _ _ (kept_log (kept_chan h))))
  unfold timedOut
  cases s.chan.suspended with
  | none => exact kept_end k
  | some x => exact kept_end (kept_tends (tends_report _ _ _) (kept_device _ _ k))

theorem kept_resetTimedOut {o c s} (h : Kept s) : Kept (resetTimedOut o c s) := by
  unfold resetTimedOut; dsimp only
  refine kept_settle ?_
  split
  · exact kept_flows (flows_issueReset _ _) (kept_log (kept_chan h))
  · exact kept_flows (flows_enterOffline _ _) (kept_log (kept_chan h))

theorem kept_resume {s} (h : Kept s) : Kept (resumeStart s) := by
  unfold resumeStart; split
  · exact h
  · exact kept_start (kept_start h)
  all_goals exact kept_start h

theorem kept_own {o b f s} (hf : ∀ {out x}, Kept x → Kept (f out x)) (h : Kept s) : Kept (endOwnOp o b f s) :=
  kept_settle (hf (kept_endOp (kept_device _ _ h)))

theorem kept_upd {o b f s} (hf : ∀ {out x}, Kept x → Kept (f out x)) (h : Kept s) : Kept (endUpdateOp o b f s) :=
  kept_settle (hf (kept_tends (tends_logProgramFail _ _ _) (kept_endOp (kept_device _ _ h))))

theorem kept_unbind {p w b s} (h : Kept s) : Kept (unbindWindow p w b s) := kept_tends (tends_setWindow _ _ _ _) (kept_tends (tends_windowUnpin _ _) h)

theorem kept_unbindAll {p ws s} (h : Kept s) : Kept (unbindAll p ws s) := by
  induction ws generalizing s with
  | nil => exact h
  | cons w ws ih => unfold unbindAll; split
                    · exact ih h
                    · exact ih (kept_unbind h)

theorem kept_takeUnbinds {p s} (h : Kept s) : Kept (takeUnbinds p s) :=
  kept_unbindAll (kept_tends (tends_modPort_beside rfl rfl) h)

theorem kept_afterUnbinds {p f s} (hf : ∀ {x}, Kept x → Kept (f x)) (h : Kept s) : Kept (afterUnbinds p f s) := by
  unfold afterUnbinds
  split
  · exact kept_settle (hf (kept_takeUnbinds h))
  · exact hf h

theorem kept_rebindAll {p l ws s} (h : Kept s) : Kept (rebindAll p l ws s).2 := by
  induction ws generalizing s with
  | nil => exact h
  | cons w ws ih =>
    unfold rebindAll; split
    · exact ih h
    · split
      · split
        · exact ih h
        · rename_i hr; exact ih (kept_tends (tends_setWindow _ _ _ _) (kept_tends (rebindPin_tends hr) h))
      · exact ih h

theorem kept_bindTo {p w a b c d e s n g t} (hb : bindTo p w a b c d e s = .ok (n, g, t)) (h : Kept s) : Kept t := by
  unfold bindTo at hb
  split at hb
  · cases hb
  · split at hb
    · cases hb
    · split at hb
      · cases hb
      · split at hb
        · cases hb
        · rename_i hp
          cases hb
          exact kept_tends (tends_setWindow _ _ _ _) (kept_tends (bindPin_tends hp) h)

theorem kept_bindBoot {p ws bs s} (h : Kept s) : Kept (bindBoot p ws bs s).2 := by
  induction ws generalizing bs s with
  | nil => unfold bindBoot; exact h
  | cons w ws ih =>
    cases bs with
    | nil => unfold bindBoot; exact h
    | cons b bs =>
      unfold bindBoot; split
      · exact ih (kept_log h)
      · rename_i hb; exact ih (kept_bindTo hb h)

theorem kept_statusLine {p t l s} (h : Kept s) : Kept (statusLineBody p t l s) := by unfold statusLineBody; split <;> exact kept_answer h

theorem kept_statusSlot {p t l s} (h : Kept s) : Kept (statusSlotBody p t l s) := by unfold statusSlotBody; split <;> exact kept_answer h

theorem kept_statusPort {p t l s} (h : Kept s) : Kept (statusPortBody p t l s) := by
  unfold statusPortBody; split
  · exact kept_answer h
  · split <;> exact kept_answer h

theorem kept_settleStatus {p t s} (h : Kept s) : Kept (settleStatus p t s) := by
  unfold settleStatus; split
  · exact kept_statusLine h
  · exact kept_statusSlot h
  · exact kept_statusPort h
  · exact h

theorem kept_settleStatuses {ps s} (h : Kept s) : Kept (settleStatuses ps s) := by
  induction ps generalizing s with
  | nil => exact h
  | cons p ps ih => exact ih (kept_settleStatus (kept_settleStatus h))

theorem kept_preloading {p s} (h : Kept s) : Kept (enterPreloading p s) :=
  kept_port (fun _ => by simp [lineAgrees]) (fun h => h) h

theorem kept_handOverPort {p s} (h : Kept s) : Kept (handOverPort p s) := by
  unfold handOverPort; split
  · exact kept_preloading h
  · unfold makeOff; dsimp only
    refine kept_sup (fun _ => by simp [lineAgrees]) (kept_beside rfl rfl ?_)
    split
    · exact kept_linkDown h
    · exact kept_link (fun h => h) h

theorem kept_handOverPorts {ps s} (h : Kept s) : Kept (handOverPorts ps s) := by
  induction ps generalizing s with
  | nil => exact h
  | cons p ps ih => exact ih (kept_handOverPort h)

theorem kept_handOver {s} (h : Kept s) : Kept (handOver s) := by
  unfold handOver; dsimp only
  exact kept_settleStatuses (kept_handOverPorts (kept_log (kept_start h)))

theorem kept_nextList {s} (h : Kept s) : Kept (nextList s) := by
  unfold nextList; split
  · exact kept_start (kept_start h)
  · exact kept_handOver h

theorem kept_logRec {l s} (h : Kept s) : Kept (logRecovery l s) := by
  induction l generalizing s with
  | nil => exact h
  | cons x l ih =>
    obtain ⟨i, e⟩ := x
    unfold logRecovery; split
    · exact ih (kept_log h)
    · exact ih h

theorem kept_headerRead {n d s} (h : Kept s) : Kept (headerRead n d s) := by
  unfold headerRead; dsimp only; split
  · exact kept_start (kept_start h)
  · unfold resolve; dsimp only; exact kept_nextList (kept_logRec (kept_start (kept_start h)))

theorem kept_listRead {n d s} (h : Kept s) : Kept (listRead n d s) := by
  unfold listRead
  cases s.start.scan[n.val]? with
  | none => exact kept_nextList h
  | some e =>
    dsimp only
    have k : ∀ b : Bool, Kept (if b then
        (s.modStart (fun t => { t with scan := t.scan.set n.val { e with list := some (bytesWords e.pages d) } })).nextList
      else if e.cls = .current then
        (s.log { kind := .lineDamaged, slot := some n, line := e.line }).nextList
      else
        ((s.modStart (fun t => { t with scan := t.scan.set n.val { e with cls := .dirty .listFail } })).log
          { kind := .recovery, slot := some n, line := e.line, detail := wordOf RecoveryReason.listFail.code }).nextList) := by
      intro b
      split
      · exact kept_nextList (kept_start h)
      · split
        · exact kept_nextList (kept_log h)
        · exact kept_nextList (kept_log (kept_start h))
    exact k _

theorem kept_cfg {c s} (h : Kept s) : Kept ({ s with cfg := c } : State) := h

theorem kept_present {w s} (h : Kept s) : Kept (present w s) := kept_start h

theorem kept_configRead {c d s} (h : Kept s) : Kept (configRead c d s) := by
  unfold configRead; split
  · exact kept_present (kept_start h)
  · unfold chooseConfig; dsimp only
    apply kept_present
    split
    · exact kept_log (kept_start (kept_cfg (kept_start h)))
    · exact kept_start (kept_cfg (kept_start h))

theorem kept_addSegs {gs s} (h : Kept s) : Kept (addSegments gs s) := by
  induction gs generalizing s with
  | nil => exact h
  | cons g gs ih =>
    unfold addSegments addSegment
    split
    · exact ih h
    · rename_i hp
      unfold segmentPin at hp; split at hp
      · cases hp
        apply ih
        exact kept_serves (serves_segments _ _) (kept_tends (tends_modSlot g.slot (fun r => { r with segmentPins := r.segmentPins + 1 }) s) h)
      · cases hp

theorem kept_reclaimEnd {b out x} (h : Kept x) : Kept (reclaimEraseEnded b out x) := kept_tends (tends_reclaimEraseEnded _ _ _) h

theorem kept_after {s} (h : Kept s) : Kept (afterFillRead s) := by
  unfold afterFillRead; split
  · refine kept_settle ?_
    unfold afterRead; dsimp only
    split
    · exact kept_flows (flows_resume _) (kept_chan h)
    · split
      · exact kept_flows (flows_resume _) (kept_chan h)
      · exact kept_flows (flows_grantFill _ _) (kept_chan h)
  · exact kept_settle h

theorem kept_readBody {p t a c s} (h : Kept s) : Kept (readBodyOf p t a c s) := by
  unfold readBodyOf; split
  · exact kept_serves (serves_readReady _ _ _ _) h
  · split
    · exact kept_serves (serves_readReady _ _ _ _) h
    · refine kept_afterUnbinds (fun h => ?_) h
      unfold translateRead
      split
      · exact kept_serves (serves_readReady _ _ _ _) h
      · exact kept_tends (tends_modReadTag _ _ _ _) (kept_addSegs h)

end Sys2Proof.Machine.State
end

