-- ==== Sys2Proof/Laws/Records.lean ====
section
/-!
SUPPORT. The fields of the records in flash (spec/11) read back: lemmas over little-endian fields, slices and checks.
-/

open Sys2Proof Sys2Proof.Machine Sys2Proof.Machine.State

namespace Sys2Proof.Machine.State

/-- A little-endian field has its width. -/
theorem leBytes_length (n v : Nat) : (leBytes n v).length = n := by
  induction n generalizing v with
  | zero => rfl
  | succ n ih => simp [leBytes, ih]

/-- A little-endian field reads back as its value, cut to its width. -/
theorem leNat_leBytes (n v : Nat) : leNat (leBytes n v) = v % 256 ^ n := by
  induction n generalizing v with
  | zero => simp [leBytes, leNat, Nat.mod_one]
  | succ n ih =>
    simp only [leBytes, leNat, ih, byteOf, BitVec.toNat_ofNat]
    rw [show (256:Nat) ^ (n+1) = 256 * 256 ^ n by rw [Nat.pow_succ, Nat.mul_comm], Nat.mod_mul]

theorem wordBytes_length (w : Word) : (wordBytes w).length = 4 := leBytes_length _ _

/-- A word reads back from its bytes. -/
theorem wordOf_wordBytes (w : Word) : wordOf (leNat (wordBytes w)) = w := by
  unfold wordBytes wordOf; rw [leNat_leBytes]
  apply BitVec.eq_of_toNat_eq; simp; have := w.isLt; omega

/-- A field between two parts of a record. -/
theorem field_at (a b c : List Byte) (off n : Nat) (h1 : a.length = off) (h2 : b.length = n) : field (a ++ b ++ c) off n = leNat b := by
  subst h1 h2
  unfold field slice; simp

/-- The bytes between two parts of a record. -/
theorem slice_at (a b c : List Byte) (off n : Nat) (h1 : a.length = off) (h2 : b.length = n) : slice (a ++ b ++ c) off n = b := by
  subst h1 h2
  unfold slice; simp

/-- A rest of FFH is erased. -/
theorem erased_replicate (n : Nat) : erased (List.replicate n 0xFF) = true := by
  simp [erased]

/-- A body that parses has 196 bytes. -/
theorem parseConfig_length {b c} (h : parseConfig b = some c) : b.length = 196 := by
  unfold parseConfig at h; dsimp only at h
  split at h
  · rename_i h1; exact h1.1
  · cases h

/-- A header record written whole, with its check and an erased rest, holds. -/
theorem recordHolds_of_bytes {kind : Byte} {u body : List Byte} {n k : Nat} (hn : body.length + 4 = n) (hk : body.head? = some kind)
    (hu : u = withCheck body ++ List.replicate k 0xFF) : recordHolds kind n u = true := by
  subst hu; unfold recordHolds withCheck
  have e1 : (body ++ wordBytes (crc32 body) ++ List.replicate k 0xFF).head? = some kind := by
    cases body with
    | nil => cases hk
    | cons b r => simpa using hk
  have e2 : field (body ++ wordBytes (crc32 body) ++ List.replicate k 0xFF) (n - 4) 4 = leNat (wordBytes (crc32 body)) :=
    field_at _ _ _ _ _ (by subst hn; rfl) (wordBytes_length _)
  have e3 : (body ++ wordBytes (crc32 body) ++ List.replicate k 0xFF).take (n - 4) = body := by
    have : n - 4 = body.length := by omega
    rw [this, List.append_assoc]; simp
  have e4 : (body ++ wordBytes (crc32 body) ++ List.replicate k 0xFF).drop n = List.replicate k 0xFF := by
    rw [List.drop_append, List.drop_eq_nil_of_le (by simp [wordBytes_length]; omega)]
    simp [wordBytes_length, hn]
  rw [e1, e2, e3, e4, erased_replicate, wordOf_wordBytes]; simp

theorem nameField_length (n : Name) : (nameField n).length = 8 := by unfold nameField; simp

end Sys2Proof.Machine.State
end

