-- ==== Sys2Proof/Laws/Scan.lean ====
section
/-!
SUPPORT. The scan of start-up (spec/09): its numbered slots, and what the choice among candidates answers.
-/

open Sys2Proof Sys2Proof.Machine Sys2Proof.Machine.State

namespace Sys2Proof.Machine.State

/-- The entries of a numbered list. -/
theorem numbered_mem (k : Nat) (t : List ScanEntry) (i : Nat) (e : ScanEntry) : (i, e) ∈ numbered k t ↔ ∃ j, i = k + j ∧ t[j]? = some e := by
  induction t generalizing k with
  | nil => simp [numbered]
  | cons x xs ih =>
    simp only [numbered, List.mem_cons, Prod.mk.injEq, ih]
    constructor
    · rintro (⟨rfl, rfl⟩ | ⟨j, rfl, h⟩)
      · exact ⟨0, rfl, rfl⟩
      · exact ⟨j + 1, by omega, by simpa using h⟩
    · rintro ⟨j, hj, h⟩
      cases j with
      | zero => left; simp at h; exact ⟨by omega, h.symm⟩
      | succ j => right; exact ⟨j, by omega, by simpa using h⟩

theorem numbered_get (k : Nat) (t : List ScanEntry) (i : Nat) : (numbered k t)[i]? = (t[i]?).map (fun e => (k + i, e)) := by
  induction t generalizing k i with
  | nil => simp [numbered]
  | cons x xs ih =>
    cases i with
    | zero => simp [numbered]
    | succ i => simp [numbered, ih]; congr 1; funext e; congr 1; omega

/-- The numbers rise. -/
theorem numbered_sorted (k : Nat) (t : List ScanEntry) : (numbered k t).Pairwise (fun x y => x.1 < y.1) := by
  induction t generalizing k with
  | nil => exact List.Pairwise.nil
  | cons x xs ih =>
    refine List.Pairwise.cons ?_ (ih _)
    rintro ⟨i, e⟩ h
    obtain ⟨j, rfl, _⟩ := (numbered_mem _ _ _ _).mp h
    show k < _; omega

/-- In a list with rising numbers, a number names one entry. -/
theorem numbered_unique {l : List (Nat × ScanEntry)} (hs : l.Pairwise (fun x y => x.1 < y.1)) {x y : Nat × ScanEntry} (hx : x ∈ l) (hy : y ∈ l) (h : x.1 = y.1) : x = y := by
  induction l with
  | nil => cases hx
  | cons a as ih =>
    obtain ⟨h1, h2⟩ := List.pairwise_cons.mp hs
    rcases List.mem_cons.mp hx with e1 | e1 <;> rcases List.mem_cons.mp hy with e2 | e2
    · rw [e1, e2]
    · have := h1 _ e2; subst e1; omega
    · have := h1 _ e1; subst e2; omega
    · exact ih h2 e1 e2

/-- What `choose` answers: the entry with the largest key, the first of equals. -/
theorem choose_spec (better : ScanEntry → ScanEntry → Bool) (key : ScanEntry → Nat) 
    (hb : ∀ x y, better x y = true ↔ key y < key x) (l : List (Nat × ScanEntry)) (hs : l.Pairwise (fun x y => x.1 < y.1))
    (z : Nat × ScanEntry) : choose better l = some z ↔ z ∈ l ∧ ∀ x ∈ l, x.1 ≠ z.1 → key x.2 < key z.2 ∨ key x.2 = key z.2 ∧ z.1 < x.1 := by
  induction l generalizing z with
  | nil => simp [choose]
  | cons a as ih =>
    have hs' := (List.pairwise_cons.mp hs)
    have ih' := fun z => ih hs'.2 z
    unfold choose
    cases hc : choose better as with
    | none =>
      have : as = [] := by
        cases as with
        | nil => rfl
        | cons b bs =>
          unfold choose at hc
          cases hd : choose better bs with
          | none => rw [hd] at hc; cases hc
          | some y => rw [hd] at hc; dsimp only at hc; split at hc <;> simp at hc
      subst this
      simp only [Option.some.injEq, List.mem_singleton]
      constructor
      · rintro rfl; exact ⟨rfl, fun x hx h => absurd (congrArg Prod.fst hx) h⟩
      · rintro ⟨rfl, _⟩; rfl
    | some y =>
      obtain ⟨my, by'⟩ := (ih' y).mp hc
      have lt := hs'.1 y my
      dsimp only
      by_cases hk : better y.2 a.2 = true
      · rw [if_pos hk, Option.some.injEq]
        rw [hb] at hk
        constructor
        · rintro rfl
          refine ⟨List.mem_cons_of_mem _ my, fun x hx hn => ?_⟩
          rcases List.mem_cons.mp hx with rfl | hx
          · left; exact hk
          · exact by' x hx hn
        · rintro ⟨mz, hz⟩
          rcases List.mem_cons.mp mz with rfl | mz
          · have := hz y (List.mem_cons_of_mem _ my) (by omega)
            omega
          · by_cases hyz : z.1 = y.1
            · have : choose better as = some z := by
                rw [ih' z]; exact ⟨mz, fun x hx => hz x (List.mem_cons_of_mem _ hx)⟩
              rw [hc] at this; exact Option.some.inj this
            · have h1 := by' z mz hyz
              have h2 := hz y (List.mem_cons_of_mem _ my) (Ne.symm hyz)
              omega
      · rw [if_neg hk, Option.some.injEq]
        rw [hb] at hk
        constructor
        · rintro rfl
          refine ⟨List.mem_cons_self, fun x hx hn => ?_⟩
          rcases List.mem_cons.mp hx with rfl | hx
          · exact absurd rfl hn
          · have := hs'.1 x hx
            by_cases hxy : x.1 = y.1
            · have h3 : ¬ key y.2 < key a.2 → key y.2 = key a.2 := by omega
              have : x = y := numbered_unique hs'.2 hx my hxy
              subst this
              omega
            · have := by' x hx hxy
              omega
        · rintro ⟨mz, hz⟩
          rcases List.mem_cons.mp mz with rfl | mz
          · rfl
          · have := hs'.1 z mz
            have h2 := hz a List.mem_cons_self (by omega)
            by_cases hyz : z.1 = y.1
            · have : choose better as = some z := by
                rw [ih' z]; exact ⟨mz, fun x hx => hz x (List.mem_cons_of_mem _ hx)⟩
              rw [hc] at this; have := Option.some.inj this; subst this; omega
            · have h1 := by' z mz hyz
              omega

/-- The version of the stage record; 0 without one. -/
def versionKey (x : ScanEntry) : Nat := (x.stageRec.map (fun r => r.version.toNat)).getD 0

/-- The generation of the commit record; 0 without one. -/
def generationKey (x : ScanEntry) : Nat := x.commitRec.getD 0

/-- 1 for a slot without a retire record. -/
def unretiredKey (x : ScanEntry) : Nat := if x.retireRec = none then 1 else 0

/-- Generation first, then retired or not, then version (R179). -/
def candidateKey (x : ScanEntry) : Nat := generationKey x * 8589934592 + unretiredKey x * 4294967296 + versionKey x

theorem versionKey_lt (x : ScanEntry) : versionKey x < 4294967296 := by
  unfold versionKey; cases x.stageRec with
  | none => simp
  | some r => simp; exact r.version.isLt

theorem unretiredKey_le (x : ScanEntry) : unretiredKey x ≤ 1 := by unfold unretiredKey; split <;> omega

/-- The comparison of two candidates is that of their keys (R179). -/
theorem beats_key (x y : ScanEntry) : x.beats y = true ↔ candidateKey y < candidateKey x := by
  have e : x.beats y = true ↔ generationKey y < generationKey x ∨ generationKey y = generationKey x ∧ (unretiredKey y < unretiredKey x ∨ unretiredKey y = unretiredKey x ∧ versionKey y < versionKey x) := by
    unfold ScanEntry.beats ScanEntry.version generationKey unretiredKey versionKey
    cases x.retireRec <;> cases y.retireRec <;> simp <;> omega
  rw [e]; unfold candidateKey
  have := versionKey_lt x; have := versionKey_lt y; have := unretiredKey_le x; have := unretiredKey_le y
  constructor
  · rintro (h | ⟨h1, h | ⟨h2, h⟩⟩) <;> omega
  · intro h; omega

/-- The comparison of two SEALED slots is that of their versions. -/
theorem newer_key (x y : ScanEntry) : x.newer y = true ↔ versionKey y < versionKey x := by
  unfold ScanEntry.newer; exact decide_eq_true_iff

end Sys2Proof.Machine.State
end

