-- ==== Sys2Proof/WellFormed.lean ====
section
/-!
DEFINITION. Which commands a sender can send: the checks on a command's operands that its types do not
make already.
-/

namespace Sys2Proof

/-- The read errors of one page: each names a byte of the page and at least one bit. -/
def ReadErrors.wellFormed (e : ReadErrors) : Bool :=
  e.all (fun x => decide (x.1 < 4096) && x.2 != 0)

/-- The operands of a command are ones its sender can send. A STAGE carries 64 data words and a
WRITE_CONFIG 49 (spec/11, opcodes); an UNKNOWN_OPCODE's count is not its opcode's; a
MALFORMED packet of an unsequenced kind has no sequence number to give; a page read's errors lie in the
page. -/
def Instr.wellFormed : Instr → Bool
  | .stage _ _ _ _ data => data.length == 64
  | .writeConfig _ _ _ record => record.length == 49
  | .unknownOpcode _ _ _ opcode argCount => opcodeArgs opcode != some argCount.toNat
  | .malformed _ kind s => sequencedKind kind || s == 0
  | .fillReadEnd e => ReadErrors.wellFormed e
  | .verifyReadEnd e => ReadErrors.wellFormed e
  | .configReadEnd e => ReadErrors.wellFormed e
  | .headerReadEnd e => ReadErrors.wellFormed e
  | .listReadEnd e => ReadErrors.wellFormed e
  | .coldStart => true
  | .hubResetInputAsserted => true
  | .hubRestart => true
  | .train _ _ _ _ => true
  | .ack _ _ => true
  | .nak _ _ => true
  | .packetCheckFailed _ => true
  | .read _ _ _ _ _ => true
  | .bind _ _ _ _ _ _ _ _ => true
  | .unbind _ _ _ _ => true
  | .rebind _ _ _ _ => true
  | .touch _ _ _ _ _ => true
  | .service _ _ _ _ => true
  | .lockUpdate _ _ _ _ _ _ _ _ => true
  | .seal _ _ _ _ => true
  | .commit _ _ _ _ => true
  | .abortUpdate _ _ _ _ => true
  | .statusLine _ _ _ _ => true
  | .statusSlot _ _ _ _ => true
  | .statusPort _ _ _ _ => true
  | .resetPort _ _ _ _ => true
  | .releasePort _ _ _ _ => true
  | .channelReset _ _ _ => true
  | .readEvents _ _ _ _ _ => true
  | .restartHub _ _ _ => true
  | .linkSend _ => true
  | .trainPeriod _ => true
  | .trainingTimeout _ => true
  | .acknowledgementTimeout _ => true
  | .segmentLookup _ _ _ => true
  | .copyComplete _ _ _ => true
  | .eraseSuspend => true
  | .suspendAnswer _ => true
  | .suspendAckTimeout => true
  | .operationTimeout => true
  | .offlineFillFail => true
  | .offlineUpdateLoss => true
  | .deviceResetReady => true
  | .deviceResetTimeout => true
  | .channelResetComplete => true
  | .recoveryReset => true
  | .recoveryResetComplete => true
  | .stageMarkEnd _ => true
  | .dataProgramEnd _ => true
  | .listProgramEnd _ => true
  | .sealMarkEnd _ => true
  | .commitMarkEnd _ => true
  | .retireMarkEnd _ => true
  | .eraseMarkEnd _ => true
  | .reclaimEraseEnd _ => true
  | .configEraseEnd _ => true
  | .configProgramEnd _ => true
  | .bootWindowsBind _ => true
  | .bootWindowsReport _ => true
  | .preloadComplete _ => true
  | .bootTimeout _ => true
  | .deadlineExpiry _ => true
  | .graceExpiry _ => true
  | .resetHoldExpiry _ => true
  | .restartUnbind _ => true
  | .restartEndReads _ => true
  | .restartClearNotices _ => true
  | .restartLockLoss _ => true
  | .preloadCancel _ => true
  | .idleTimeout _ => true
  | .lossOfPower => true

end Sys2Proof
end

