-- ==== Sys2Proof/Tests/Slice0.lean ====
section
/-!
SUPPORT. The model's own tests: the well-formedness checks, the formats on worked values, one step of each family of
commands, and for every statement of Certificates/Slice0/Obligations.lean that has hypotheses a concrete state and
operands that meet them together.
-/

open Sys2Proof Sys2Proof.Machine Sys2Proof.Machine.State

set_option Elab.async false

namespace Sys2Proof.Tests

/-! ### Well-formedness: an ill-formed command for each check -/

theorem test_wellFormed_stage :
    Instr.wellFormed (.stage 0 0 0 0 (List.replicate 63 0)) = false ∧
      Instr.wellFormed (.stage 0 0 0 0 (List.replicate 64 0)) = true := by decide

theorem test_wellFormed_writeConfig :
    Instr.wellFormed (.writeConfig 0 0 0 (List.replicate 50 0)) = false ∧
      Instr.wellFormed (.writeConfig 0 0 0 (List.replicate 49 0)) = true := by decide

theorem test_wellFormed_unknownOpcode_own_count : Instr.wellFormed (.unknownOpcode 0 0 0 0x01 5) = false := by decide

theorem test_wellFormed_unknownOpcode :
    Instr.wellFormed (.unknownOpcode 0 0 0 0x01 4) = true ∧ Instr.wellFormed (.unknownOpcode 0 0 0 0x7F 69) = true := by
  decide

theorem test_wellFormed_malformed :
    Instr.wellFormed (.malformed 0 0x02 1) = false ∧ Instr.wellFormed (.malformed 0 0x02 0) = true ∧
      Instr.wellFormed (.malformed 0 0x20 7) = true := by decide

theorem test_wellFormed_readErrors_outside :
    Instr.wellFormed (.fillReadEnd [(4096, 1)]) = false ∧ Instr.wellFormed (.verifyReadEnd [(4096, 1)]) = false ∧
      Instr.wellFormed (.configReadEnd [(4096, 1)]) = false ∧ Instr.wellFormed (.headerReadEnd [(4096, 1)]) = false ∧
      Instr.wellFormed (.listReadEnd [(4096, 1)]) = false := by decide

theorem test_wellFormed_readErrors_no_bit :
    Instr.wellFormed (.fillReadEnd [(0, 0)]) = false ∧ Instr.wellFormed (.verifyReadEnd [(0, 0)]) = false ∧
      Instr.wellFormed (.configReadEnd [(0, 0)]) = false ∧ Instr.wellFormed (.headerReadEnd [(0, 0)]) = false ∧
      Instr.wellFormed (.listReadEnd [(0, 0)]) = false := by decide

theorem test_wellFormed_readErrors :
    Instr.wellFormed (.fillReadEnd [(4095, 0x80)]) = true ∧ Instr.wellFormed (.listReadEnd []) = true := by decide

/-! ### Checks and packets (spec/11) -/

/-- The nine digits "123456789". -/
def digits : List Byte := [0x31, 0x32, 0x33, 0x34, 0x35, 0x36, 0x37, 0x38, 0x39]

/-- The page and image check of the nine digits (R188). -/
theorem test_crc32_digits : crc32 digits = 0xCBF43926#32 := by decide +kernel

/-- The link check of the nine digits (R188). -/
theorem test_linkCheck_digits : linkCheck digits = 0x29B1#16 := by decide +kernel

/-- A packet laid out by hand and closed by its link check. -/
def packet (kind seq : Byte) (body : List Byte) : List Byte :=
  let l := [kind, seq, BitVec.ofNat 8 body.length, 0] ++ body
  l ++ leBytes 2 (linkCheck l).toNat

theorem test_packet_train : packetCommand 2 (packet 0x01 0 [1, 2, 1, 0]) = .train 2 1 2 true := by decide +kernel

theorem test_packet_ack_nak :
    packetCommand 1 (packet 0x02 5 []) = .ack 1 5 ∧ packetCommand 1 (packet 0x03 4 []) = .nak 1 4 := by decide +kernel

theorem test_packet_read :
    packetCommand 0 (packet 0x10 3 [7, 0x34, 0x12, 0x80, 64, 0, 0, 0]) = .read 0 3 7 0x801234 64 := by decide +kernel

theorem test_packet_unbind :
    packetCommand 0 (packet 0x20 1 [1, 0x02, 1, 0, 3, 0, 0, 0]) = .unbind 0 1 1 3 := by decide +kernel

theorem test_packet_wrong_count :
    packetCommand 0 (packet 0x20 1 [1, 0x02, 0, 0]) = .unknownOpcode 0 1 1 0x02 0 := by decide +kernel

/-- A count of 69 words that is consistent with the length is no malformed packet (R189, log 49). -/
theorem test_packet_many_words :
    kindInstr 0 0x20 1 ([1, 0x02, 69, 0] ++ List.replicate 276 0) = .unknownOpcode 0 1 1 0x02 69 := by decide +kernel

theorem test_packet_malformed :
    packetCommand 0 (packet 0x20 1 [2, 0x02, 0, 0]) = .malformed 0 0x20 1 ∧
      packetCommand 0 (packet 0x02 1 [9]) = .malformed 0 0x02 0 := by decide +kernel

theorem test_packet_check_failed :
    packetCommand 0 [0x02, 5, 0, 0, 0, 0] = .packetCheckFailed ⟨0, 0x02⟩ ∧
      packetCommand 0 [0x10, 5] = .packetCheckFailed ⟨0, 0x10⟩ := by
  decide +kernel

/-- No row of the table gives bits. -/
theorem test_no_table_words : decodeTableWord 32 0 = none := rfl

/-! ### Small states -/

/-- A port record of a configuration, every right given. -/
def portOf (supervised : Bool) : PortConfig :=
  { enabled := true, supervised := supervised, fetch := true, update := true, supervise := true, resetHold := 10,
    restartLimit := 1, heartbeat := 100, grace := 20, bootTimeout := 500, restartWindow := 60, preloadCount := 1,
    prefetchDepth := 2, bootWindows := [] }

/-- Three slots of 256 KiB in a flash of 2 MiB. -/
def conf : ConfigRecord :=
  { flashExp := 21, slotExp := 18, slotCount := 3, idleTimeout := 1, ports := Vector.replicate 4 (portOf true) }

/-- A port whose link is UP and whose master runs free. -/
def portUp : PortRecord :=
  { PortRecord.reset with
    link := { Link.reset with state := .up },
    sup := { Supervision.reset with state := .free, lineAsserted := false } }

/-- A CURRENT slot of line 0, 8 KiB long. -/
def slotA : Slot :=
  { Slot.reset with state := .current, line := some 0, name := some [0x41], version := some 1, length := some 8192,
                    generation := some 1, checkList := some [0, 0] }

/-- A hub after start-up, all links UP: line 0 ACTIVE in slot 0, line 2 DAMAGED, the others EMPTY. -/
def hub : State :=
  { State.reset with
    cfg := conf, ports := Vector.replicate 4 portUp, chan := Channel.reset,
    start := { StartUp.reset with phase := .done },
    lines := tset (tset (Vector.replicate 8 Line.reset) 0
      { Line.reset with state := .active, name := some [0x41], current := some 0, generation := 1, version := some 1 })
      2 { Line.reset with state := .damaged },
    slots := tset (Vector.replicate 16 Slot.reset) 0 slotA }

/-- With the link of port 0 changed. -/
def link0 (f : Link → Link) (s : State) : State := s.modLink 0 f

/-- With port 0 in a supervision state, under a timer. -/
def sup0 (x : SupState) (t : SupTimer) (s : State) : State :=
  s.modSup 0 (fun u => { u with state := x, timer := t })

/-- With port 0's command tag 0 in a state. -/
def cmd0 (r : CmdTagRecord) (s : State) : State := s.modCmdTag 0 0 (fun _ => r)

/-- With port 0's read tag 0 in a state. -/
def read0 (r : ReadTagRecord) (s : State) : State := s.modReadTag 0 0 (fun _ => r)

/-- With an operation running. -/
def running (o : Operation) (s : State) : State := { s with chan := { s.chan with state := .busy, op := some o } }

/-- An operation of the channel, for slot 2. -/
def opOf (w : Work) : Operation := { work := w, slot := some 2, addr := 0, data := [], left := 5000, erase := none }

/-- An erase that runs. -/
def eraseOf (w : Work) (phase : ErasePhase) (run suspensions : Nat) : Operation :=
  { opOf w with erase := some { block := 2, eraseTime := run, run := run, suspensions := suspensions, reads := 0,
                                phase := phase, ackLeft := 100 } }

/-- With the channel OFFLINE. -/
def offlineHub (s : State) : State := { s with chan := { s.chan with state := .offline } }

/-- The working record of a lock. -/
def workOf (phase : LockPhase) (step : Option SealStep) : LockWork :=
  { phase := phase, staged := [true, false], sealStep := step, cursor := some 0, checks := [7], image := 0, wanted := 0,
    listNext := 0, lossPending := false, command := some (0, 0), commit := none }

/-- The lock that port 0 holds on line 3, with slot 2. -/
def lockA (idle : Option Nat) : Lock := { holder := 0, slot := 2, idle := idle }

/-- With line 3 locked by port 0, and slot 2 STAGING for it, 512 bytes long. -/
def locked (w : LockWork) (s : State) : State :=
  { s with
    lines := tset s.lines 3 { s.line 3 with lock := some (lockA (some 1000000)) },
    slots := tset s.slots 2 { Slot.reset with state := .staging, line := some 3, name := some [0x42],
                                              version := some 2, length := some 512 },
    upd := { s.upd with work := tset s.upd.work 3 (some w) } }

/-- A window over line 0. -/
def bound (base : Nat) (boot : Bool) : Binding :=
  { base := base, size := 4096, line := 0, offset := 0, slot := 0, generation := 1, boot := boot }

/-- With window 0 of port 0 BOUND. -/
def windowed (b : Binding) (s : State) : State := s.setWindow 0 0 (some b)

/-- Window 0 of port 0 is BOUND, and an unbinding item waits behind some others. -/
def unbinding (before : List BindItem) : State :=
  (windowed (bound 4096 false) hub).modPort 0 (fun r => { r with bindItems := before ++ [.unbindAll] })

/-- A segment of port 0's read tag 0. -/
def segmentOf (part : Part) (place : Place) : Segment :=
  { id := ⟨0, 0, part⟩, slot := 0, page := 34, first := 0, length := 4, place := place, outcome := none }

/-- A fill-queue entry for a page of slot 0. -/
def fillOf (cls : FillClass) (retry : Bool) (reading : Bool) : FillEntry :=
  { frame := 5, page := 34, slot := 0, cls := cls, retry := retry, port := none, reading := reading }

/-- With one entry in the first FIFO. -/
def demanded (e : FillEntry) (s : State) : State := s.modFill (fun q => { q with demand := [e] })

/-- With a frame for the page 34. -/
def framed (x : FrameState) (waiters : List SegId) (s : State) : State :=
  s.modFrame 5 (fun _ => { Frame.reset with state := x, page := some 34, slot := some 0, waiters := waiters })

/-- With a waiting notice in port 0's queue. -/
def noticed0 (s : State) : State :=
  s.modPort 0 (fun r =>
    { r with notices := [{ notice := { kind := .newGeneration, subject := some 2, value := 1 }, sent := false,
                           readyAt := 0 }] })

/-- What is absent meets any premise about what is there. -/
theorem of_none {α : Type} {x : Option α} {P : α → Prop} (h : x = none) : ∀ a, x = some a → P a := by
  intro a e; rw [h] at e; cases e

/-- What is there is the one thing that is there. -/
theorem of_some {α : Type} {x : Option α} {b : α} {P : α → Prop} (h : x = some b) (hb : P b) :
    ∀ a, x = some a → P a := by
  intro a e; rw [h] at e; cases e; exact hb

/-! ### One step of each command -/

/-- What a command leaves, seen through a view of the state. -/
def after {α : Type} (c : Instr) (s : State) (view : State → α) : Option α :=
  match exec c s with
  | .next t => some (view t)
  | .fault _ => none
  | .refused _ => none

/-- The status of port 0's command tag 0. -/
def replied0 (s : State) : TagState × Option Status × List Word :=
  ((s.cmdTag 0 0).state, (s.cmdTag 0 0).status, (s.cmdTag 0 0).result)

/-- The kinds of the events held. -/
def kinds (s : State) : List EventKind := s.events.entries.map (·.body.kind)

/-- The work of the running operation. -/
def work (s : State) : Option Work := s.chan.op.map (·.work)

theorem test_coldStart :
    after .coldStart hub (fun s => (s.start.phase, work s, s.events.next)) =
      some (.reset, some (.deviceReset .startUp), 1) := by decide +kernel

theorem test_hubResetInputAsserted :
    after .hubResetInputAsserted hub (fun s => (s.live, (s.port 0).sup.lineAsserted)) = some (false, true) := by
  decide +kernel

theorem test_hubRestart :
    after .hubRestart { hub with hubRestart := .sending } (fun s => (s.start.kind, (s.port 0).link.state)) =
      some (.restart, .down) := by decide +kernel

theorem test_train :
    after (.train 0 1 0 false) (link0 (fun k => { k with state := .down }) hub)
      (fun s => ((s.port 0).link.state, (s.port 0).wire)) = some (.training, [.train true]) := by decide +kernel

theorem test_ack :
    after (.ack 0 0) (link0 (fun k => { k with sendSeq := 1, buffer := [⟨0, .cmdReply 0 .ok [], none⟩],
                                               ackTimer := some 5, retransmissions := 2 }) hub)
      (fun s => ((s.port 0).link.buffer, (s.port 0).link.ackTimer, (s.port 0).link.retransmissions)) =
      some ([], none, 0) := by decide +kernel

theorem test_nak :
    after (.nak 0 0) (link0 (fun k => { k with sendSeq := 1, buffer := [⟨0, .cmdReply 0 .ok [], none⟩],
                                               ackTimer := some 5, retransmissions := 2 }) hub)
      (fun s => ((s.port 0).wire, (s.port 0).link.ackTimer, (s.port 0).link.retransmissions)) =
      some ([.sequenced 0 (.cmdReply 0 .ok [])], some 100, 3) := by decide +kernel

theorem test_packetCheckFailed :
    after (.packetCheckFailed ⟨0, 0x10⟩) hub (fun s => (s.port 0).link.owed) = some (some (.nak 0)) ∧
      after (.packetCheckFailed ⟨0, 0x02⟩) hub (fun s => (s.port 0).link.owed) = some none ∧
      after (.packetCheckFailed ⟨0, 0x01⟩) hub (fun s => ((s.port 0).link.state, (s.port 0).wire, kinds s)) =
        some (.down, [.train false], [.linkDown]) := by decide +kernel

theorem test_malformed :
    after (.malformed 0 0x20 0) hub (fun s => ((s.port 0).link.recvSeq, (s.port 0).notices.map (·.notice.value), kinds s)) =
      some (1, [0x00FF2002], [.protocolError]) := by decide +kernel

theorem test_read :
    after (.read 0 0 0 8 1) (windowed (bound 0 false) hub)
      (fun s => ((s.readTag 0 0).state, s.segments.map (fun g => (g.page, g.first, g.length)), (s.slot 0).segmentPins)) =
      some (.opened, [(34, 8, 4)], 1) := by decide +kernel

theorem test_read_no_window :
    after (.read 0 0 0 8 1) hub (fun s => ((s.readTag 0 0).state, (s.readTag 0 0).status)) =
      some (.ready, some .noWindow) := by decide +kernel

theorem test_bind :
    after (.bind 0 0 0 2 4096 4096 0 0) hub (fun s => (replied0 s, s.window 0 2, (s.slot 0).windowPins)) =
      some ((.ready, some .ok, [0, 1]), some (bound 4096 false), 1) := by decide +kernel

theorem test_bind_damaged :
    after (.bind 0 0 0 2 4096 4096 2 0) hub replied0 = some (.ready, some .damaged, []) := by decide +kernel

theorem test_unbind :
    after (.unbind 0 0 0 0) (windowed (bound 4096 false) hub) (fun s => (replied0 s, s.window 0 0)) =
      some ((.ready, some .ok, [0, 1]), none) := by decide +kernel

theorem test_rebind_nothing_stale :
    after (.rebind 0 0 0 8) (windowed (bound 4096 false) hub) replied0 = some (.ready, some .ok, [0]) := by decide +kernel

theorem test_touch :
    after (.touch 0 0 0 4096 2) (windowed (bound 4096 false) hub) (fun s => (replied0 s, work s)) =
      some ((.ready, some .ok, [1]), some (.fill 0)) := by decide +kernel

theorem test_service_not_supervised :
    after (.service 0 0 0 0) hub replied0 = some (.ready, some .notSupervised, []) := by decide +kernel

theorem test_lockUpdate :
    after (.lockUpdate 0 0 0 3 0x41 0 2 512) hub
      (fun s => ((s.line 3).lock, (s.slot 1).state, s.chan.op.map (fun o => (o.work, o.addr)))) =
      some (some { holder := 0, slot := 1, idle := none }, .staging, some (.stageMark 3, 0x60000)) := by decide +kernel

theorem test_stage :
    after (.stage 0 0 0 256 (List.replicate 64 0)) (locked (workOf .opened none) hub)
      (fun s => (s.chan.op.map (fun o => (o.work, o.addr, o.data.length)), (s.work 3).map (·.staged))) =
      some (some (.dataProgram 3 1, 0xA2100, 256), some [true, true]) := by decide +kernel

theorem test_seal_incomplete :
    after (.seal 0 0 0 0) (locked (workOf .opened none) hub) replied0 = some (.ready, some .incomplete, []) := by
  decide +kernel

theorem test_seal_verifies :
    after (.seal 0 0 0 0) (locked { workOf .opened none with staged := [true, true] } hub)
      (fun s => s.chan.op.map (fun o => (o.work, o.addr))) = some (some (.verifyRead 3, 0xA2000)) := by decide +kernel

theorem test_commit_no_pending :
    after (.commit 0 0 0 0) hub replied0 = some (.ready, some .noPending, []) := by decide +kernel

theorem test_abortUpdate :
    after (.abortUpdate 0 0 0 3) (locked (workOf .opened none) hub)
      (fun s => (replied0 s, (s.line 3).lock, kinds s, s.reclaim.map (·.target))) =
      some ((.ready, some .ok, [2]), none, [.updateAborted], some 2) := by decide +kernel

theorem test_statusLine :
    after (.statusLine 0 0 0 0) hub replied0 =
      some (.ready, some .ok, [0xFFFF0001, 0x41, 0, 0xFFFF0001, 1, 0xFF, 0xFFFFFFFF, 0]) := by decide +kernel

theorem test_statusSlot :
    after (.statusSlot 0 0 0 0) hub replied0 =
      some (.ready, some .ok, [0x00010003, 0x41, 0, 1, 8192, 0x00FF0001, 0, 0]) := by decide +kernel

theorem test_statusPort_other :
    after (.statusPort 0 0 0 4) hub replied0 = some (.ready, some .badArgument, []) := by decide +kernel

theorem test_resetPort :
    after (.resetPort 0 0 0 1) hub (fun s => (replied0 s, (s.port 1).sup.state, (s.port 1).sup.lineAsserted, kinds s)) =
      some ((.ready, some .ok, [1]), .held, true, [.portReset]) := by decide +kernel

theorem test_releasePort :
    after (.releasePort 0 0 0 1) (hub.modSup 1 (fun u => { u with state := .quarantined }))
      (fun s => (replied0 s, (s.port 1).sup.state, (s.port 1).sup.timer)) =
      some ((.ready, some .ok, []), .held, .resetHold 10000) := by decide +kernel

theorem test_channelReset :
    after (.channelReset 0 0 0) (offlineHub hub) (fun s => (s.chan.state, work s)) =
      some (.offline, some (.deviceReset (.command 0 0))) := by decide +kernel

theorem test_readEvents :
    after (.readEvents 0 0 0 1 8) (hub.log { kind := .linkUp, port := some 2 }) replied0 =
      some (.ready, some .ok, [1, 2, 1, 0xFFFF0215, 0xFFFF, 0]) := by decide +kernel

theorem test_writeConfig_out_of_range :
    after (.writeConfig 0 0 0 (List.replicate 49 0)) hub replied0 = some (.ready, some .badArgument, []) := by decide +kernel

theorem test_restartHub : after (.restartHub 0 0 0) hub replied0 = some (.ready, some .ok, []) := by decide +kernel

theorem test_unknownOpcode :
    after (.unknownOpcode 0 0 0 0x7F 0) hub replied0 = some (.ready, some .badArgument, []) := by decide +kernel

theorem test_linkSend :
    after (.linkSend 0) (link0 (fun k => { k with owed := some (.ack 3) }) hub)
      (fun s => ((s.port 0).wire, (s.port 0).link.owed)) = some ([.ack 3], none) := by decide +kernel

theorem test_trainPeriod :
    after (.trainPeriod 0) (link0 (fun k => { k with state := .down }) hub) (fun s => (s.port 0).wire) =
      some [.train false] := by decide +kernel

theorem test_trainingTimeout :
    after (.trainingTimeout 0) (link0 (fun k => { k with state := .training, trainTimer := some 7 }) hub)
      (fun s => ((s.port 0).link.state, s.clock)) = some (.down, 7) := by decide +kernel

theorem test_acknowledgementTimeout :
    after (.acknowledgementTimeout 0)
      (link0 (fun k => { k with buffer := [⟨0, .cmdReply 0 .ok [], none⟩], ackTimer := some 5, retransmissions := 8 }) hub)
      (fun s => ((s.port 0).link.state, kinds s)) = some (.down, [.linkDown]) := by decide +kernel

/-- A hub with one segment of a request of one word. -/
def oneSegment (place : Place) (s : State) : State :=
  { read0 { ReadTagRecord.reset with state := .opened, count := some 1, openSegs := 1 } s with
    segments := [segmentOf .lower place] }

theorem test_segmentLookup :
    after (.segmentLookup 0 0 .lower) (oneSegment .lookup hub)
      (fun s => (s.segments.map (·.place), work s, (s.slot 0).fillPins, (s.frame 0).state)) =
      some ([.waiting], some (.fill 0), 2, .filling) := by decide +kernel

theorem test_copyComplete :
    after (.copyComplete 0 0 .lower)
      (oneSegment .copying (hub.modFrame 5 (fun _ => { Frame.reset with
        state := .valid, page := some 34, slot := some 0, uses := 1, data := [9, 8, 7, 6, 5] })))
      (fun s => ((s.readTag 0 0).state, (s.readTag 0 0).status, (s.readTag 0 0).lower, (s.frame 5).uses)) =
      some (.ready, some .ok, [9, 8, 7, 6], 0) := by decide +kernel

theorem test_fillReadEnd_retries :
    after (.fillReadEnd []) (running (opOf (.fill 5)) (demanded (fillOf .demand false true) (framed .filling [] hub)))
      (fun s => (s.fill.demand.map (·.retry), kinds s, work s)) = some ([true], [.checkRetry], some (.fill 5)) := by
  decide +kernel

theorem test_eraseSuspend :
    after .eraseSuspend (running (eraseOf (.reclaimErase 2) .running 400 0)
        (demanded (fillOf .demand false false) (framed .filling [] hub)))
      (fun s => (s.clock, s.chan.op.map (fun o => o.erase.map (fun e => (e.phase, e.run))))) =
      some (600, some (some (.suspending, 1000))) := by decide +kernel

theorem test_suspendAnswer :
    after (.suspendAnswer true) (running (eraseOf (.reclaimErase 2) .suspending 1000 0)
        (demanded (fillOf .demand false false) (framed .filling [] hub)))
      (fun s => (s.chan.state, work s, s.chan.suspended.map (·.work))) =
      some (.eraseSuspended, some (.fill 5), some (.reclaimErase 2)) := by decide +kernel

theorem test_suspendAckTimeout :
    after .suspendAckTimeout (running (eraseOf (.configErase .a) .suspending 1000 0) hub)
      (fun s => (s.chan.timeouts, work s, kinds s)) = some (1, some (.deviceReset .timeout), [.channelTimeout]) := by
  decide +kernel

theorem test_operationTimeout :
    after .operationTimeout (running (opOf .eraseMark) hub) (fun s => (s.clock, s.chan.timeouts, work s)) =
      some (5000, 1, some (.deviceReset .timeout)) := by decide +kernel

theorem test_offlineFillFail :
    after .offlineFillFail (offlineHub ((demanded (fillOf .demand false false) (framed .filling [] hub)).modFill
        (fun q => { q with toldOffline := true })))
      (fun s => (s.fill.demand, (s.frame 5).state, s.fill.toldOffline)) = some ([], .free, false) := by decide +kernel

theorem test_offlineUpdateLoss :
    after .offlineUpdateLoss (offlineHub ((locked (workOf .opened none) hub).modUpd (fun u => { u with toldOffline := true })))
      (fun s => ((s.line 3).lock, (s.slot 2).state, kinds s)) = some (none, .dirty, [.lockLost]) := by decide +kernel

theorem test_deviceResetReady :
    after .deviceResetReady State.reset (fun s => (s.start.phase, s.chan.op.map (fun o => (o.work, o.addr)))) =
      some (.config, some (.configRead .a, 0)) := by decide +kernel

theorem test_deviceResetTimeout :
    after .deviceResetTimeout State.reset (fun s => (s.clock, s.chan.timeouts, work s)) =
      some (10000, 1, some (.deviceReset .startUp)) := by decide +kernel

/-- A reset that runs while the channel is OFFLINE. -/
def recovering (c : ResetCause) : State :=
  { hub with chan := { hub.chan with state := .offline, op := some (resetOp c), timeouts := 3 } }

theorem test_channelResetComplete :
    after .channelResetComplete (cmd0 { CmdTagRecord.reset with state := .opened } (recovering (.command 0 0)))
      (fun s => (replied0 s, s.chan.state, s.chan.timeouts, kinds s)) =
      some ((.ready, some .ok, []), .idle, 0, [.channelOnline]) := by decide +kernel

/-- OFFLINE is still to be taken, with a queued fill, a segment in the frame-wait queue and a lock. -/
def untaken (s : State) : State :=
  { locked (workOf .opened none) (oneSegment .frameWait (demanded (fillOf .demand false false) (framed .filling [] s))) with
    frameWait := [⟨0, 0, .lower⟩] }

theorem test_channelResetComplete_takesOffline :
    after .channelResetComplete (cmd0 { CmdTagRecord.reset with state := .opened }
        (((untaken (recovering (.command 0 0))).modFill (fun q => { q with toldOffline := true })).modUpd
          (fun u => { u with toldOffline := true })))
      (fun s => (s.fillCount + s.frameWait.length, (s.readTag 0 0).status, (s.line 3).lock.isNone, kinds s)) =
      some (0, some .channelFault, true, [.lockLost, .channelOnline]) := by decide +kernel

theorem test_recoveryReset :
    after .recoveryReset { offlineHub hub with start := { hub.start with phase := .scan, wait := some 1000000 } }
      (fun s => (s.clock, work s)) = some (1000000, some (.deviceReset .recovery)) := by decide +kernel

theorem test_recoveryResetComplete :
    after .recoveryResetComplete
      { recovering .recovery with start := { hub.start with phase := .scan, retry := some (.headerRead 1) } }
      (fun s => (s.chan.timeouts, work s)) = some (0, some (.headerRead 1)) := by decide +kernel

theorem test_stageMarkEnd :
    after (.stageMarkEnd true) (running (opOf (.stageMark 3))
        (cmd0 { CmdTagRecord.reset with state := .opened } (locked (workOf .marking none) hub)))
      (fun s => (replied0 s, (s.work 3).map (·.phase))) = some ((.ready, some .ok, [2]), some .opened) := by decide +kernel

theorem test_dataProgramEnd_fails :
    after (.dataProgramEnd false) (running (opOf (.dataProgram 3 0)) (locked (workOf .opened none) hub))
      (fun s => ((s.slot 2).state, (s.line 3).lock, kinds s)) = some (.bad, none, [.programFail, .lockLost]) := by
  decide +kernel

theorem test_verifyReadEnd_mismatch :
    after (.verifyReadEnd []) (running (opOf (.verifyRead 3))
        (cmd0 { CmdTagRecord.reset with state := .opened } (locked (workOf .sealing (some .verify)) hub)))
      (fun s => (replied0 s, (s.line 3).lock, kinds s)) =
      some ((.ready, some .checkMismatch, []), none, [.updateAborted]) := by decide +kernel

theorem test_listProgramEnd :
    after (.listProgramEnd true) (running (opOf (.listProgram 3 0))
        (locked { workOf .sealing (some .list) with listNext := 1 } hub)) work = some (some (.sealMark 3)) := by decide +kernel

theorem test_sealMarkEnd :
    after (.sealMarkEnd true) (running (opOf (.sealMark 3)) (locked (workOf .sealing (some .mark)) hub))
      (fun s => ((s.slot 2).state, (s.slot 2).checkList, (s.line 3).pending)) = some (.sealed, some [7], some 2) := by
  decide +kernel

/-- A line 0 with slot 1 SEALED and pending, and a commit that runs for port 0. -/
def committing0 (retiring : Bool) (old : Option SlotNo) : State :=
  { cmd0 { CmdTagRecord.reset with state := .opened } hub with
    lines := tset hub.lines 0 { hub.line 0 with pending := some 1 },
    slots := tset hub.slots 1 { slotA with state := .sealed, version := some 2, generation := none },
    upd := { hub.upd with
      sequences := tset hub.upd.sequences 0 (some { port := 0, tag := 0, retiring := retiring, generation := 2, oldSlot := old }) } }

theorem test_commitMarkEnd :
    after (.commitMarkEnd true)
      (running { opOf (.commitMark (.sequence 0)) with slot := some 1 } (committing0 false none))
      (fun s => ((s.line 0).current, (s.line 0).generation, (s.slot 0).state, (s.slot 0).reclaimHold, work s)) =
      some (some 1, 2, .dirty, true, some (.retireMark (.sequence 0))) := by decide +kernel

theorem test_retireMarkEnd :
    after (.retireMarkEnd false) (running { opOf (.retireMark (.sequence 0)) with slot := some 0 } (committing0 true (some 0)))
      (fun s => (replied0 s, (s.sequence 0).isNone, kinds s)) = some ((.ready, some .ok, [2]), true, [.programFail]) := by
  decide +kernel

/-- A reclaimer at slot 2's last block. -/
def reclaiming (cursor : Nat) (erasing : Bool) : State :=
  { hub.modSlot 2 (fun r => { r with state := .erasing }) with
    reclaim := some { target := 2, cursor := cursor, erasing := erasing } }

theorem test_eraseMarkEnd :
    after (.eraseMarkEnd true) (running (opOf .eraseMark) (reclaiming 3 false)) work = some (some (.reclaimErase 13)) := by
  decide +kernel

theorem test_reclaimEraseEnd :
    after (.reclaimEraseEnd true) (running (eraseOf (.reclaimErase 10) .running 0 0) (reclaiming 0 true))
      (fun s => ((s.slot 2).state, s.reclaim)) = some (.empty, none) := by decide +kernel

/-- A configuration write of copy B. -/
def writing (programming : Bool) : State :=
  { cmd0 { CmdTagRecord.reset with state := .opened } hub with
    cfgw := { hub.cfgw with write := some { copy := .b, programming := programming, sequence := 2, record := [1], port := 0,
                                            tag := 0 } } }

theorem test_configEraseEnd :
    after (.configEraseEnd true) (running (eraseOf (.configErase .b) .running 0 0) (writing false))
      (fun s => s.chan.op.map (fun o => (o.work, o.addr, o.data))) = some (some (.configProgram .b, 0x10000, [1])) := by
  decide +kernel

theorem test_configProgramEnd :
    after (.configProgramEnd true) (running (opOf (.configProgram .b)) (writing true))
      (fun s => (replied0 s, s.cfgw.copyB)) = some ((.ready, some .ok, [1, 2]), .valid 2) := by decide +kernel

/-- A hub that starts, in a phase. -/
def startingIn (phase : StartPhase) (scan : List ScanEntry) : State :=
  { hub with start := { StartUp.reset with phase := phase, scan := scan } }

theorem test_configReadEnd :
    after (.configReadEnd []) (running (opOf (.configRead .a)) (startingIn .config []))
      (fun s => (s.start.copyA, work s)) = some (none, some (.configRead .b)) := by decide +kernel

theorem test_headerReadEnd :
    after (.headerReadEnd []) (running (opOf (.headerRead 1)) (startingIn .scan []))
      (fun s => (s.start.scan.map (·.cls), work s)) = some ([.empty], some (.headerRead 2)) := by decide +kernel

/-- An entry of the scan for line 3. -/
def scanOf (cls : ScanClass) (version : Word) (commit retire : Option Nat) : ScanEntry :=
  { stageRec := some { line := 3, name := [0x41], version := version, length := 4096 }, sealRec := some (0, 0),
    commitRec := commit, retireRec := retire, cls := cls, list := none }

theorem test_listReadEnd_damaged :
    after (.listReadEnd []) (running (opOf (.listRead 0)) (startingIn .lists [scanOf .current 1 (some 4) none]))
      (fun s => (s.start.phase, (s.line 3).state, (s.line 3).generation, kinds s)) =
      some (.done, .damaged, 4, [.lineDamaged, .startup]) := by decide +kernel

/-- A hub whose port 0 is PRELOADING at request 1, with one thing handed on to it. -/
def preloading0 (f : PortRecord → PortRecord) : State :=
  (hub.modSup 0 (fun u => { u with state := .preloading, lineAsserted := true, bootRequest := 1 })).modPort 0 f

theorem test_bootWindowsBind :
    after (.bootWindowsBind 0) (preloading0 (fun r => { r with bindItems := [.boot 1] }))
      (fun s => ((s.port 0).bindItems, (s.port 0).reports)) = some ([], [⟨1, []⟩]) := by decide +kernel

theorem test_bootWindowsReport :
    after (.bootWindowsReport 0) (preloading0 (fun r => { r with reports := [⟨1, []⟩] }))
      (fun s => ((s.port 0).reports, (s.port 0).completions)) = some ([], 1) := by decide +kernel

theorem test_preloadComplete :
    after (.preloadComplete 0) (preloading0 (fun r => { r with completions := 1 }))
      (fun s => ((s.port 0).sup.state, (s.port 0).sup.lineAsserted, (s.port 0).sup.timer)) =
      some (.booting, false, .bootTimeout 500000) := by decide +kernel

theorem test_bootTimeout :
    after (.bootTimeout 0) (sup0 .booting (.bootTimeout 3) hub)
      (fun s => ((s.port 0).sup.state, (s.port 0).sup.history, (s.port 0).sup.lastCause, kinds s)) =
      some (.held, [3], some .bootTimeout, [.portReset]) := by decide +kernel

theorem test_deadlineExpiry :
    after (.deadlineExpiry 0) (sup0 .running (.deadline 3) hub)
      (fun s => ((s.port 0).sup.state, (s.port 0).sup.timer, (s.port 0).notices.map (·.notice.kind), kinds s)) =
      some (.warned, .grace 20000, [.supervisionWarning], [.portWarned]) := by decide +kernel

theorem test_graceExpiry :
    after (.graceExpiry 0) ((sup0 .warned (.grace 3) hub).modSup 0 (fun u => { u with history := [0], token := some 7 }))
      (fun s => ((s.port 0).sup.state, (s.port 0).sup.lastToken, kinds s)) =
      some (.quarantined, some 7, [.portReset, .portQuarantined]) := by decide +kernel

theorem test_resetHoldExpiry :
    after (.resetHoldExpiry 0) (sup0 .held (.resetHold 3) hub)
      (fun s => ((s.port 0).sup.state, (s.port 0).sup.bootRequest, (s.port 0).bindItems)) =
      some (.preloading, 1, [.boot 1]) := by decide +kernel

theorem test_restartUnbind :
    after (.restartUnbind 0) (unbinding [.boot 1]) (fun s => (s.window 0 0, (s.port 0).bindItems)) =
      some (none, [.boot 1]) := by decide +kernel

/-- An unbinding item that waits is taken before a later read's translation and before a later window command. -/
theorem test_unbinding_first :
    after (.read 0 0 0 4096 1) (unbinding []) (fun s => ((s.readTag 0 0).status, s.window 0 0, (s.port 0).bindItems)) =
      some (some .noWindow, none, []) ∧
    after (.unbind 0 0 0 0) (unbinding [.boot 1]) (fun s => (replied0 s, s.window 0 0, (s.port 0).bindItems)) =
      some ((.ready, some .badState, []), none, [.boot 1]) := by decide +kernel

theorem test_restartEndReads :
    after (.restartEndReads 0) ((oneSegment .waiting hub).modPort 0 (fun r => { r with endReads := 1 }))
      (fun s => ((s.readTag 0 0).state, (s.port 0).endReads)) = some (.discard, 0) := by decide +kernel

theorem test_restartClearNotices :
    after (.restartClearNotices 0) ((noticed0 hub).modPort 0 (fun r => { r with clearNotices := 1, lost := 4 }))
      (fun s => ((s.port 0).notices, (s.port 0).lost)) = some ([], 0) := by decide +kernel

theorem test_restartLockLoss :
    after (.restartLockLoss 0) ((locked (workOf .opened none) hub).modPort 0 (fun r => { r with dropLock := 1 }))
      (fun s => ((s.line 3).lock, kinds s)) = some (none, [.lockLost]) := by decide +kernel

theorem test_preloadCancel :
    after (.preloadCancel 0)
      (hub.modPort 0 (fun r => { r with cancelLoads := 1, preload := some { slot := 0, cursor := 1, last := 1, entries := 0 } }))
      (fun s => ((s.port 0).preload, (s.port 0).completions)) = some (none, 0) := by decide +kernel

theorem test_idleTimeout :
    after (.idleTimeout 3) (locked (workOf .opened none) hub)
      (fun s => (s.clock, (s.line 3).lock, (s.slot 2).state, (s.port 0).notices.map (·.notice.kind))) =
      some (1000000, none, .erasing, [.updateLost]) := by decide +kernel

theorem test_lossOfPower :
    after .lossOfPower hub (fun s => (s.live, s.events.entries, s.flash)) = some (false, [], []) := by decide +kernel

/-! ### The hypotheses of the statements: the machine, starts, links -/

theorem takes_of {s : State} {p : Port} {q : Seq}
    (h : (s.live && s.linkUp p && (s.port p).link.recvSeq == q) = true) : s.Takes p q := by
  simp only [Bool.and_eq_true, beq_iff_eq] at h; exact ⟨h.1.1, h.1.2, h.2⟩

theorem dispatched_of {s : State} {p : Port} {q : Seq} {t : CmdTag} {c : Command}
    (h : (s.live && s.linkUp p && (s.port p).link.recvSeq == q) = true)
    (g : ((s.cmdTag p t).state == .free && s.started && s.hasRight p c.right) = true) : s.Dispatched p q t c := by
  simp only [Bool.and_eq_true, beq_iff_eq] at g; exact ⟨takes_of h, g.1.1, g.1.2, g.2⟩

theorem held_of {s : State} {p : Port}
    (h : (s.port p).sup.state = .held ∨ (s.port p).sup.state = .preloading ∨ (s.port p).sup.state = .quarantined) :
    s.Held p := h

theorem notHeld_of {s : State} {p : Port}
    (h : ¬ ((s.port p).sup.state = .held ∨ (s.port p).sup.state = .preloading ∨ (s.port p).sup.state = .quarantined)) :
    ¬ s.Held p := h

theorem test_meets_StepRunsFrontCommand :
    ({ State.reset with pending := [.lossOfPower, .coldStart] } : State).pending = .lossOfPower :: [.coldStart] := rfl

theorem test_meets_EmptyQueuePassesOneMicrosecond : State.reset.pending = [] := rfl

theorem test_meets_EveryCommandCompletes :
    ({ hub with powered := false } : State).live = false ∧ ({ hub with resetInput := true } : State).live = false ∧
      Instr.trainPeriod 0 ≠ .coldStart ∧ Instr.trainPeriod 0 ≠ .hubResetInputAsserted ∧
      Instr.trainPeriod 0 ≠ .lossOfPower := by decide +kernel

theorem test_meets_StartsTakeAfterStartValues :
    (hub.chan.op = none ∧ hub.chan.suspended = none) ∧
    (let s := running (opOf (.stageMark 0)) hub
     s.chan.op = some (opOf (.stageMark 0)) ∧ s.chan.suspended = none) ∧
    (let e := eraseOf (.reclaimErase 2) .suspended 1000 1
     let s : State := { hub with chan := { hub.chan with state := .eraseSuspended, suspended := some e } }
     s.chan.op = none ∧ s.chan.suspended = some e ∧
       ({ s with chan := { s.chan with op := some (opOf (.fill 5)) } } : State).chan.op = some (opOf (.fill 5))) ∧
    (hub.live = true ∧ ({ hub with hubRestart := .sending } : State).live = true ∧
      ({ hub with hubRestart := .sending } : State).hubRestart ≠ .none) ∧
    ({ hub with hubRestart := .dropped } : State).hubRestart = .dropped ∧ hub.hubRestart = .none ∧
    hub.powered = true ∧ ({ hub with powered := false } : State).powered = false ∧ (∃ t, exec .coldStart hub = .next t) ∧
    ∃ t, exec .lossOfPower hub = .next t :=
  ⟨⟨rfl, rfl⟩, ⟨rfl, rfl⟩, ⟨rfl, rfl, rfl⟩, ⟨by decide +kernel, by decide +kernel, by decide +kernel⟩, rfl, rfl, rfl, rfl, ⟨_, rfl⟩, _, rfl⟩

/-- A hub whose port 0 trains. -/
def training : State := link0 (fun k => { k with state := .training, trainTimer := some 10000 }) hub

/-- A hub whose port 0 has a link that is DOWN. -/
def down : State := link0 (fun k => { k with state := .down }) hub

theorem test_meets_TrainingOutsideUp :
    (down.live = true ∧ down.portOff 0 = false ∧ (down.port 0).link.state = .down) ∧
    (training.live = true ∧ training.portOff 0 = false ∧ (training.port 0).link.state = .training ∧
      (training.port 0).link.trainTimer = some 10000) ∧
    (let s := link0 (fun k => { k with trainTimer := some 0 }) training
     s.live = true ∧ (s.port 0).link.state = .training ∧ (s.port 0).link.trainTimer = some 0) := by decide +kernel

theorem test_meets_TrainingOutsideUp_pair : ∃ t, exec (.train 0 1 (BitVec.ofNat 8 (0 : Port).val) false) down = .next t :=
  ⟨_, rfl⟩

/-- A hub whose port 0 has the reply of an accepted RESTART_HUB READY. -/
def restarting : State :=
  cmd0 { CmdTagRecord.reset with state := .ready, command := some .restartHub, status := some .ok, readyAt := some 0 } hub

theorem test_meets_RetrainAndLinkDown :
    (hub.live = true ∧ hub.portOff 0 = false ∧ (hub.port 0).link.state = .up) ∧
    ((1 : Byte) = 1 ∧ (0 : Byte).toNat = (0 : Port).val) ∧ ¬ ((2 : Byte) = 1 ∧ (0 : Byte).toNat = (0 : Port).val) ∧
    ¬ ((1 : Byte) = 1 ∧ (3 : Byte).toNat = (0 : Port).val) ∧ (sup0 .off .stopped hub).portOff 0 = true ∧
    ((restarting.port 0).link.state = .up ∧ (restarting.linkDown 0 .retrain).hubRestart = .dropped ∧
      (hub.linkDown 0 .retrain).hubRestart ≠ .dropped) := by
  decide +kernel

theorem test_meets_TrainPeriodSendsTrain : hub.live = true ∧ down.live = true ∧ training.live = true := by decide +kernel

theorem test_meets_PacketsNotTaken :
    (hub.live = true ∧ hub.linkUp 0 = true ∧ (hub.port 0).link.recvSeq = 0) ∧
    sequencedPacket (.read 0 7 0 0 1) = some (0, 7) ∧ sequencedPacket (.unbind 0 4 0 0) = some (0, 4) ∧
    sequencedPacket (.malformed 0 0x11 1) = some (0, 1) ∧ sequencedPacket (.service 0 3 0 0) = some (0, 3) ∧
    ((7 : Seq) = 0 - 1 ∧ (4 : Seq) = 0 - 4 ∧ (1 : Seq) = 0 + 1 ∧ (3 : Seq) = 0 + 3) ∧ down.linkUp 0 = false ∧
    ((0x03 : Byte) = 0x02 ∨ (0x03 : Byte) = 0x03) ∧
    ((0x10 : Byte) ≠ 0x01 ∧ (0x00 : Byte) ≠ 0x01 ∧ (0x04 : Byte) ≠ 0x02 ∧ (0x04 : Byte) ≠ 0x03) := by
  decide +kernel

/-- A port 0 with packets 0 and 1 in its retransmit buffer; the first carries notice 0. -/
def sentTwo (count : Nat) : State :=
  (link0 (fun k =>
    { k with sendSeq := 2, retransmissions := count, ackTimer := some 100,
             buffer := [{ seq := 0, body := .cmdReply 0 .ok [], source := some 0 },
                        { seq := 1, body := .cmdReply 1 .ok [], source := none }] }) hub).modPort 0 (fun r =>
    { r with notices := [{ notice := { kind := .channelState, subject := none, value := 1 }, sent := true, readyAt := 0 }],
             lost := 3, nextReady := 1 })

theorem test_meets_AcknowledgementsRemovePackets :
    ((sentTwo 0).live = true ∧ (sentTwo 0).linkUp 0 = true ∧ (sentTwo 0).placeOf 0 0 = some 0 ∧
      (sentTwo 0).placeOf 0 1 = some 1) ∧
    ((sentTwo 0).placeOf 0 2 = none ∧ (2 : Seq) = ((sentTwo 0).port 0).link.sendSeq ∧
      ((sentTwo 0).port 0).link.buffer ≠ []) ∧
    ((sentTwo 0).placeOf 0 3 = none ∧ (3 : Seq) ≠ ((sentTwo 0).port 0).link.sendSeq) ∧ down.linkUp 0 = false := by
  decide +kernel

theorem test_meets_RetransmissionOrLinkDown :
    ((sentTwo 7).live = true ∧ ((sentTwo 7).port 0).link.state = .up ∧ ((sentTwo 7).port 0).link.ackTimer = some 100 ∧
      ((sentTwo 7).port 0).link.retransmissions < 8) ∧
    8 ≤ ((sentTwo 8).port 0).link.retransmissions ∧
    ((sentTwo 8).placeOf 0 1 = some 1 ∧ (sentTwo 8).placeOf 0 0 = some 0 ∧ (sentTwo 8).linkUp 0 = true) := by
  decide +kernel

/-- A READY read tag, with four bytes. -/
def readReadyTag (n : Nat) : ReadTagRecord :=
  { ReadTagRecord.reset with state := .ready, count := some 1, status := some .ok, lower := [1, 2, 3, 4],
                             readyAt := some n }

/-- A READY command tag. -/
def cmdReadyTag (c : Command) (n : Nat) : CmdTagRecord :=
  { CmdTagRecord.reset with state := .ready, command := some c, status := some .ok, readyAt := some n }

/-- With a waiting notice in port 0's queue. -/
def noticed (n : Nat) (s : State) : State :=
  s.modPort 0 (fun r =>
    { r with notices := [{ notice := { kind := .newGeneration, subject := some 2, value := 1 }, sent := false,
                           readyAt := n }] })

theorem test_meets_LinkSendOrder :
    (let s := link0 (fun k => { k with owed := some (.ack 0) }) hub
     s.live = true ∧ s.linkUp 0 = true ∧ (s.port 0).link.owed = some (.ack 0)) ∧
    (hub.live = true ∧ hub.linkUp 0 = true ∧ (hub.port 0).link.owed = none ∧ hub.nextOutgoing 0 = none ∧
      (hub.port 0).link.buffer.length < 4) ∧
    (let s := noticed 6 (cmd0 (cmdReadyTag .restartHub 5) (read0 (readReadyTag 4) hub))
     s.nextOutgoing 0 = some (.readReply 0 4) ∧ (s.readTag 0 0).state = .ready ∧
       (s.readTag 0 0).readyAt = some 4 ∧ (s.cmdTag 0 0).state = .ready ∧ (s.cmdTag 0 0).readyAt = some 5 ∧
       (s.cmdTag 0 0).restartHeld = false) ∧
    (noticed 6 (cmd0 (cmdReadyTag .restartHub 5) hub)).nextOutgoing 0 = some (.cmdReply 0 5) ∧
    (noticed 6 hub).nextOutgoing 0 =
      some (.notice { notice := { kind := .newGeneration, subject := some 2, value := 1 }, sent := false, readyAt := 6 }) ∧
    4 ≤ ((link0 (fun k => { k with buffer := List.replicate 4 ⟨0, .cmdReply 0 .ok [], none⟩ }) hub).port 0).link.buffer.length ∧
    down.linkUp 0 = false := by decide +kernel

theorem test_meets_NoticeQueueTakesNotices :
    (let n : Notice := { kind := .newGeneration, subject := some 2, value := 9 }
     let e : NoticeEntry := { notice := { kind := .newGeneration, subject := some 2, value := 1 }, sent := false, readyAt := 6 }
     n.kind = .newGeneration ∧ ((noticed 6 hub).port 0).notices = [] ++ e :: [] ∧
       (e.sent = false ∧ e.notice.kind = .newGeneration ∧ e.notice.subject = n.subject)) ∧
    (let n : Notice := { kind := .newGeneration, subject := some 3, value := 9 }
     n.kind = .newGeneration ∧ ∀ x ∈ ((noticed 6 hub).port 0).notices,
       x.sent = true ∨ x.notice.kind ≠ .newGeneration ∨ x.notice.subject ≠ n.subject) ∧
    (NoticeKind.channelState ≠ .newGeneration) ∧ (sup0 .off .stopped hub).portOff 0 = true ∧
    (hub.portOff 0 = false ∧ (hub.port 0).notices.length < 8) ∧
    (let s := hub.modPort 0 (fun r =>
       { r with notices := List.replicate 8 ⟨{ kind := .portReset, subject := some 1, value := 0 }, false, 0⟩ })
     s.portOff 0 = false ∧ 8 ≤ (s.port 0).notices.length) := by decide +kernel

theorem test_meets_AcknowledgedNoticeLeaves :
    (let n : Notice := { kind := .newGeneration, subject := some 2, value := 9 }
     let e : NoticeEntry := { notice := { kind := .newGeneration, subject := some 2, value := 1 }, sent := false, readyAt := 6 }
     ((hub.modPort 0 (fun r => { r with notices := [e, e] })).port 0).notices = [] ++ e :: [e] ∧
       n.kind = .newGeneration ∧ (e.sent = false ∧ e.notice.kind = .newGeneration ∧ e.notice.subject = n.subject)) ∧
    (let b : Buffered := { seq := 0, body := .cmdReply 0 .ok [], source := some 0 }
     b.source = some 0 ∧ (∃ e ∈ ((sentTwo 0).port 0).notices, e.readyAt = 0) ∧ 0 < ((sentTwo 0).port 0).lost ∧
       (∀ e ∈ (hub.port 0).notices, e.readyAt ≠ 0)) ∧
    (let s := (sentTwo 0).modPort 0 (fun r => { r with lost := 0 })
     (∃ e ∈ (s.port 0).notices, e.readyAt = 0) ∧ (s.port 0).lost = 0) ∧
    ({ seq := 0, body := .cmdReply 0 .ok [], source := none } : Buffered).source = none := by decide +kernel

theorem test_meets_ProtocolErrorsAreReported :
    (let s := cmd0 (cmdReadyTag .bind 0) hub
     cmdHeader (.unbind 0 0 0 1) = some ⟨0, 0, 0, some .unbind, true, none⟩ ∧ s.Takes 0 0 ∧
       (s.cmdTag 0 0).state ≠ .free) ∧
    (let s := read0 (readReadyTag 0) hub
     s.Takes 0 0 ∧ (s.readTag 0 0).state ≠ .free) ∧
    ((0x20 : Byte) ∈ [0x10#8, 0x11#8, 0x20#8, 0x21#8, 0x30#8] ∧ hub.Takes 0 0) ∧
    ((0x02 : Byte) ∉ [0x10#8, 0x11#8, 0x20#8, 0x21#8, 0x30#8] ∧ hub.live = true ∧ hub.linkUp 0 = true ∧
      down.linkUp 0 = false) := by
  refine ⟨⟨rfl, takes_of ?_, ?_⟩, ⟨takes_of ?_, ?_⟩, ⟨?_, takes_of ?_⟩, ?_⟩ <;> decide +kernel

/-- The hub before the hand-over. -/
def starting : State := { hub with start := { hub.start with phase := .scan } }

/-- The hub with no right given to port 0. -/
def noRights : State :=
  { hub with cfg := { conf with ports := tset conf.ports 0 { portOf true with fetch := false, update := false,
                                                                              supervise := false } } }

theorem test_meets_DispatchAnswersFirst :
    (cmdHeader (.unknownOpcode 0 0 0 0x02 0) = some ⟨0, 0, 0, some .unbind, false, none⟩ ∧ hub.Takes 0 0 ∧
      (hub.cmdTag 0 0).state = .free) ∧
    (cmdHeader (.unbind 0 0 0 1) = some ⟨0, 0, 0, some .unbind, true, none⟩ ∧ starting.Takes 0 0 ∧
      (starting.cmdTag 0 0).state = .free ∧ starting.started = false) ∧
    cmdHeader (.statusLine 0 0 0 7) = some ⟨0, 0, 0, some .statusLine, true, some 7⟩ ∧
    (noRights.Takes 0 0 ∧ (noRights.cmdTag 0 0).state = .free ∧ noRights.started = true ∧
      noRights.hasRight 0 Command.unbind.right = false) ∧
    (noRights.Dispatched 0 0 0 .statusPort ∧ (1 : Port) ≠ 0 ∧ (noRights.portCfg 0).supervise = false) ∧
    ((cmd0 { CmdTagRecord.reset with state := .opened } hub).cmdTag 0 0).state = .opened ∧
    ((cmd0 { CmdTagRecord.reset with state := .discard } hub).cmdTag 0 0).state = .discard := by
  refine ⟨⟨rfl, takes_of ?_, ?_⟩, ⟨rfl, takes_of ?_, ?_, ?_⟩, rfl, ⟨takes_of ?_, ?_, ?_, ?_⟩,
    ⟨dispatched_of ?_ ?_, ?_, ?_⟩, ?_, ?_⟩ <;> decide +kernel

/-! ### The hypotheses of the statements: windows, pins, reads and fills -/

theorem test_meets_HeldPortsAreRefused :
    cmdHeader (.unbind 0 0 0 1) = some ⟨0, 0, 0, some .unbind, true, none⟩ ∧
    (sup0 .held .stopped hub).Dispatched 0 0 0 .unbind ∧ (sup0 .held .stopped hub).Held 0 ∧
    (sup0 .preloading .stopped hub).Held 0 ∧ (sup0 .quarantined .stopped hub).Held 0 ∧ heldCommand .unbind = true ∧
    windowCommand .stage = false ∧ .unbindAll ∉ ((sup0 .held .stopped hub).port 0).bindItems ∧
    (windowCommand .touch = true ∧ heldCommand .touch = true ∧
      (sup0 .held .stopped (unbinding [])).Dispatched 0 0 0 .touch ∧ (sup0 .held .stopped (unbinding [])).Held 0 ∧
      .unbindAll ∈ ((sup0 .held .stopped (unbinding [])).port 0).bindItems) := by
  refine ⟨rfl, dispatched_of ?_ ?_, held_of ?_, held_of ?_, held_of ?_, rfl, rfl, ?_, rfl, rfl, dispatched_of ?_ ?_,
    held_of ?_, ?_⟩ <;> decide +kernel

/-- Both sides of the test of `UnpinsReleaseRetiredSlots`. -/
theorem test_meets_UnpinsReleaseRetiredSlots :
    (let s := hub.modSlot 0 (fun r => { r with state := .retired, windowPins := 1 })
     ((s.windowUnpin 0).slot 0).state = .dirty ∧ ((s.segmentUnpin 0).slot 0).state = .retired) ∧
    ((hub.windowUnpin 0).slot 0).state = .current := by decide +kernel

theorem test_meets_WindowChecksInOrder :
    (let fits (base size line offset : Nat) : Prop :=
       base < 16777216 ∧ (∃ k, 12 ≤ k ∧ k ≤ 22 ∧ size = 2 ^ k) ∧ size ∣ base ∧ line < 8 ∧ 4096 ∣ offset ∧
         offset < hub.largestImage
     fits 0 4096 0 0 ∧ fits 16773120 4096 7 249856 ∧ fits 0 4194304 2 0 ∧ ¬ fits 16777216 4096 0 0 ∧
       ¬ fits 0 4096 8 0 ∧ ¬ fits 0 4096 0 253952) ∧
    hub.window 0 0 = none ∧ (windowed (bound 4096 false) hub).window 0 0 ≠ none ∧
    ((windowed (bound 4096 false) hub).window 0 0 = some (bound 4096 false) ∧
      4096 < (bound 4096 false).base + (bound 4096 false).size ∧ (bound 4096 false).base < 4096 + 4096) ∧
    (¬ ∃ x b, hub.window 0 x = some b ∧ 0 < b.base + b.size ∧ b.base < 0 + 4096) ∧
    ((hub.line 1).state = .empty ∧ (hub.line 2).state = .damaged ∧ (hub.line 0).state = .active ∧
      (hub.line 0).current = some 0) := by
  have none' : ∀ w, hub.window 0 w = none := by decide +kernel
  refine ⟨⟨⟨?_, ⟨12, ?_⟩, ?_⟩, ⟨?_, ⟨12, ?_⟩, ?_⟩, ⟨?_, ⟨22, ?_⟩, ?_⟩, ?_, ?_, ?_⟩, ?_, ?_, ?_, ?_, ?_⟩
  case refine_6 => decide +kernel
  case refine_10 => rintro ⟨h, _⟩; exact absurd h (by decide)
  case refine_11 => rintro ⟨_, _, _, h, _⟩; exact absurd h (by decide)
  case refine_12 => rintro ⟨_, _, _, _, _, h⟩; exact absurd h (by decide +kernel)
  case refine_16 => rintro ⟨x, b, h, _⟩; rw [none' x] at h; cases h
  all_goals decide +kernel

theorem test_meets_BindAndUnbind :
    hub.Dispatched 0 0 0 .bind ∧ ¬ hub.Held 0 ∧ .unbindAll ∉ (hub.port 0).bindItems ∧ hub.Dispatched 0 0 0 .unbind ∧ 4 ≤ (4 : Word).toNat ∧
    (3 : Word).toNat = (3 : WindowNo).val ∧
    ((hub.opened 0 0 0 (some .bind)).bindTo 0 3 0 4096 1 0 false).toOption = none ∧
    ((hub.opened 0 0 0 (some .bind)).bindTo 0 3 0 4096 0 0 false).toOption.map (fun x => (x.1, x.2.1)) = some (0, 1) ∧
    hub.window 0 3 = none ∧
    ((windowed (bound 4096 false) hub).Dispatched 0 0 0 .unbind ∧ ¬ (windowed (bound 4096 false) hub).Held 0 ∧
      .unbindAll ∉ ((windowed (bound 4096 false) hub).port 0).bindItems ∧
      (0 : Word).toNat = (0 : WindowNo).val ∧ (windowed (bound 4096 false) hub).window 0 0 = some (bound 4096 false)) := by
  refine ⟨dispatched_of ?_ ?_, notHeld_of ?_, ?_, dispatched_of ?_ ?_, ?_, ?_, ?_, ?_, ?_, dispatched_of ?_ ?_, notHeld_of ?_,
    ?_, ?_, ?_⟩ <;> decide +kernel

/-- Window 0 of port 0 on line 0's old slot 0; the line is in slot 1 at generation 2. -/
def stale : State :=
  { windowed (bound 4096 false) hub with
    lines := tset hub.lines 0 { hub.line 0 with current := some 1, generation := 2 },
    slots := tset (tset hub.slots 0 { slotA with state := .retired, windowPins := 1 }) 1
      { slotA with generation := some 2 } }

theorem test_meets_RebindMovesStaleWindows :
    (stale.Dispatched 0 0 0 .rebind ∧ ¬ stale.Held 0 ∧
      .unbindAll ∉ (stale.port 0).bindItems) ∧ 8 < (9 : Word).toNat ∧
    (8 : Word).toNat = 8 ∧ (7 : Word).toNat = (7 : LineNo).val ∧
    (stale.window 0 0 = some (bound 4096 false) ∧ (some (0 : LineNo) = some (bound 4096 false).line) ∧
      (stale.line (bound 4096 false).line).current = some 1 ∧
      (stale.slot (bound 4096 false).slot).generation.getD 0 < (stale.line (bound 4096 false).line).generation) ∧
    stale.window 0 1 = none ∧ ((some (1 : LineNo)) ≠ none ∧ (some (1 : LineNo)) ≠ some (bound 4096 false).line) ∧
    (let s := windowed (bound 4096 false) hub
     s.window 0 0 = some (bound 4096 false) ∧
       (s.line (bound 4096 false).line).generation ≤ (s.slot (bound 4096 false).slot).generation.getD 0) := by
  refine ⟨⟨dispatched_of ?_ ?_, notHeld_of ?_, ?_⟩, ?_, ?_, ?_, ?_, ?_, ?_, ?_⟩ <;> decide +kernel

theorem test_meets_TouchQueuesPages :
    let s := windowed (bound 4096 false) hub
    s.Dispatched 0 0 0 .touch ∧ ¬ s.Held 0 ∧ .unbindAll ∉ (s.port 0).bindItems ∧ (0 : Word).toNat = 0 ∧
      8 < (9 : Word).toNat ∧
      16777216 ≤ (16777216 : Word).toNat ∧ hub.Dispatched 0 0 0 .touch ∧ ¬ hub.Held 0 ∧
      .unbindAll ∉ (hub.port 0).bindItems ∧ .unbindAll ∉ ((offlineHub s).port 0).bindItems ∧
      (∀ w b, hub.window 0 w = some b → (4096 : Word).toNat < b.base ∨ b.base + b.size ≤ (4096 : Word).toNat) ∧
      (1 ≤ (1 : Word).toNat ∧ (8 : Word).toNat ≤ 8 ∧ (8191 : Word).toNat < 16777216 ∧
        s.windowAt 0 (4096 : Word).toNat = some (0, bound 4096 false) ∧
        s.windowAt 0 (8191 : Word).toNat = some (0, bound 4096 false) ∧ s.offline = false) ∧
      ((offlineHub s).Dispatched 0 0 0 .touch ∧ ¬ (offlineHub s).Held 0 ∧ (offlineHub s).offline = true) := by
  refine ⟨dispatched_of ?_ ?_, notHeld_of ?_, ?_, ?_, ?_, ?_, dispatched_of ?_ ?_, notHeld_of ?_, ?_, ?_, ?_, ?_,
    dispatched_of ?_ ?_, notHeld_of ?_, ?_⟩
  case refine_13 => exact fun w => of_none (by revert w; decide +kernel)
  all_goals decide +kernel

/-- The residency of a page in frame 5. -/
theorem test_meets_PagesQueuedAhead :
    ((framed .filling [] hub).resident ((framed .filling [] hub).dataPage 0 0)).isSome = true ∧
    (hub.modFill (fun q => { q with badPages := [⟨34, 0, 0⟩] })).isBad 34 = true ∧
    ((hub.resident (hub.dataPage 0 0)).isSome = false ∧ hub.isBad (hub.dataPage 0 0) = false ∧
      hub.fill.demand.length + hub.fill.ahead.length + 1 ≤ 8 ∧ (hub.slot 0).state = .current ∧
      hub.victim = some 0) ∧
    (let s := hub.modFill (fun q => { q with demand := List.replicate 8 (fillOf .demand false false) })
     (s.resident 35).isSome = false ∧ s.isBad 35 = false ∧ 8 < s.fill.demand.length + s.fill.ahead.length + 1) ∧
    (let s := hub.modFill (fun q => { q with demand := List.replicate 7 (fillOf .demand false false) })
     s.fill.demand.length + s.fill.ahead.length + 1 ≤ 8) := by decide +kernel

/-- Port 0 PRELOADING at request 1, with a boot item and a report. -/
def preloadingHub (item report : Nat) : State :=
  (sup0 .preloading .stopped hub).modPort 0 (fun r =>
    { r with sup := { r.sup with bootRequest := 1 }, bindItems := [.boot item, .unbindAll], reports := [⟨report, []⟩] })

/-- A boot window for port 0's configuration. -/
def bootAt (line : Nat) : BootWindow := { base := 0, size := 4096, offset := 0, line := line }

theorem test_meets_BindItemsAreTaken :
    ((preloadingHub 1 1).live = true ∧ ((preloadingHub 1 1).port 0).bindItems = .boot 1 :: [.unbindAll] ∧
      ((preloadingHub 1 1).port 0).sup.state = .preloading ∧ ((preloadingHub 1 1).port 0).sup.bootRequest = 1) ∧
    (((preloadingHub 2 1).port 0).bindItems = .boot 2 :: [.unbindAll] ∧ ((preloadingHub 2 1).port 0).sup.bootRequest ≠ 2) ∧
    ((hub.bindTo 0 0 0 4096 8 0 true).toOption = none ∧
      (hub.bindTo 0 0 0 4096 0 0 true).toOption.map (fun x => (x.1, x.2.1)) = some (0, 1)) ∧
    ((preloadingHub 1 1).port 0).reports = ⟨1, []⟩ :: [] ∧
    (((preloadingHub 1 2).port 0).reports = ⟨2, []⟩ :: [] ∧ ((preloadingHub 1 2).port 0).sup.bootRequest ≠ 2) ∧
    (let s := unbinding [.boot 1]
     s.live = true ∧ .unbindAll ∈ (s.port 0).bindItems ∧
       s.window 0 0 = some (bound 4096 false) ∧ s.window 0 1 = none) ∧
    .unbindAll ∉ (hub.port 0).bindItems ∧
    (cmdHeader (.bind 0 0 0 0 0 4096 0 0) = some ⟨0, 0, 0, some .bind, true, none⟩ ∧ windowCommand .bind = true ∧
      (unbinding []).Dispatched 0 0 0 .bind ∧ .unbindAll ∈ ((unbinding []).port 0).bindItems) := by
  refine ⟨?_, ?_, ?_, ?_, ?_, ?_, ?_, rfl, rfl, dispatched_of ?_ ?_, ?_⟩ <;> decide +kernel

theorem test_meets_TranslationOfReads :
    (∀ w b, hub.window 0 w = some b → 4 < b.base ∨ b.base + b.size ≤ 4) ∧
    (let b := { bound 4096 false with offset := 4096 }
     let s := windowed b hub
     s.window 0 0 = some b ∧ b.base ≤ 8188 ∧ 8188 < b.base + b.size ∧ (∀ x, s.window 0 x ≠ none → x = 0) ∧ b.size < (8188 - b.base) + 8 ∧ (8188 - b.base) + 4 ≤ b.size ∧
       b.offset + (8188 - b.base) + 4 ≤ (s.slot b.slot).length.getD 0) ∧
    (let b := { bound 4096 false with offset := 8192 }
     let s := windowed b hub
     s.window 0 0 = some b ∧ b.base ≤ 4096 ∧ 4096 < b.base + b.size ∧ (∀ x, s.window 0 x ≠ none → x = 0) ∧ (4096 - b.base) + 4 ≤ b.size ∧
       (s.slot b.slot).length.getD 0 < b.offset + (4096 - b.base) + 4) ∧ hub.cfg.slotExp ≠ 0 := by
  refine ⟨fun w => of_none (by revert w; decide +kernel), ?_⟩; decide +kernel

/-- A window of 8 KiB over line 0, for a read across a page end. -/
def wide : State := windowed { bound 8192 false with size := 8192 } hub

theorem test_meets_ReadsAreAccepted :
    (wide.Takes 0 0 ∧ (wide.readTag 0 0).state = .free ∧ ¬ wide.Held 0 ∧ .unbindAll ∉ (wide.port 0).bindItems) ∧
    ((unbinding []).Takes 0 0 ∧ ((unbinding []).readTag 0 0).state = .free ∧ ¬ (unbinding []).Held 0 ∧
      .unbindAll ∈ ((unbinding []).port 0).bindItems) ∧
    ((sup0 .held .stopped wide).Takes 0 0 ∧ ((sup0 .held .stopped wide).readTag 0 0).state = .free ∧
      (sup0 .held .stopped wide).Held 0) ∧
    ((2 : BitVec 24).toNat % 4 ≠ 0 ∧ (0 : Byte).toNat = 0 ∧ 64 < (65 : Byte).toNat) ∧
    ((0 : BitVec 24).toNat % 4 = 0 ∧ (wide.translate 0 0 4).toOption = none) ∧
    ((8192 : BitVec 24).toNat % 4 = 0 ∧ 1 ≤ (1 : Byte).toNat ∧ (1 : Byte).toNat ≤ 64 ∧
      (wide.translate 0 8192 4).toOption = some (0, 0) ∧ (wide.slot 0).state = .current ∧ 0 % 4096 + 4 ≤ 4096) ∧
    ((wide.translate 0 12160 256).toOption = some (0, 3968) ∧ (64 : Byte).toNat ≤ 64 ∧ 4096 < 3968 % 4096 + 256) ∧
    ((wide.translate 0 12032 256).toOption = some (0, 3840) ∧ 3840 % 4096 + 256 ≤ 4096) := by
  refine ⟨⟨takes_of ?_, ?_, notHeld_of ?_, ?_⟩, ⟨takes_of ?_, ?_, notHeld_of ?_, ?_⟩, ⟨takes_of ?_, ?_, held_of ?_⟩, ?_, ?_, ?_, ?_, ?_⟩ <;> decide +kernel

/-- A hub with one segment of port 0's read tag 0, which is in a state with some segments open. -/
def seg (part : Part) (place : Place) (tag : TagState) (count : Nat) (s : State) : State :=
  { read0 { ReadTagRecord.reset with state := tag, count := some 1, openSegs := count } s with
    segments := [segmentOf part place] }

theorem test_meets_LookupCasesInOrder :
    (let s := seg .lower .lookup .opened 1 (framed .valid [] hub)
     s.segment ⟨0, 0, .lower⟩ = some (segmentOf .lower .lookup) ∧ s.resident 34 = some 5 ∧ (s.frame 5).state = .valid ∧
       s.live = true ∧ (segmentOf .lower .lookup).place = .lookup) ∧
    (let s := seg .lower .lookup .opened 1 (framed .filling [] hub)
     s.resident 34 = some 5 ∧ (s.frame 5).state ≠ .valid) ∧
    (let s := seg .lower .lookup .opened 1 hub
     s.segment ⟨0, 0, .lower⟩ = some (segmentOf .lower .lookup) ∧ s.resident 34 = none ∧ s.isBad 34 = false ∧
       s.offline = false ∧ s.fill.demand.length + s.fill.ahead.length < 16 ∧ (s.slot 0).state = .current ∧
       s.victim = some 0 ∧ (offlineHub s).offline = true ∧ (offlineHub s).resident 34 = none ∧
       (s.modFill (fun q => { q with badPages := [⟨34, 0, 0⟩] })).isBad 34 = true ∧
       16 ≤ (s.modFill (fun q => { q with demand := List.replicate 16 (fillOf .demand false false) })).fill.demand.length) ∧
    (let s := seg .upper .lookup .opened 1 hub
     s.segment ⟨0, 0, .upper⟩ = some (segmentOf .upper .lookup) ∧ s.segment ⟨0, 0, .lower⟩ = none) := by decide +kernel

/-- Every frame taken: FILLING but for frames 5 and 6, which are VALID, 6 nearer the back of the age order. -/
def allTaken (uses5 uses6 : Nat) : State :=
  let taken (x : FrameState) (u : Nat) : Frame := { Frame.reset with state := x, uses := u }
  { hub with frames := tset (tset (Vector.replicate 128 (taken .filling 0)) 5 (taken .valid uses5)) 6
               (taken .valid uses6),
             age := [5, 6] }

theorem test_meets_LookupCasesInOrder_victim :
    (allTaken 0 0).victim = some 6 ∧ (allTaken 0 1).victim = some 5 ∧ (allTaken 1 1).victim = none := by decide +kernel

theorem test_meets_SegmentsFinish :
    1 < ((seg .lower .copying .opened 2 hub).readTag 0 0).openSegs ∧
    (((seg .lower .copying .opened 1 hub).readTag 0 0).openSegs ≤ 1 ∧
      ((seg .lower .copying .opened 1 hub).readTag 0 0).state = .opened) ∧
    (((seg .lower .copying .discard 1 hub).readTag 0 0).openSegs ≤ 1 ∧
      ((seg .lower .copying .discard 1 hub).readTag 0 0).state = .discard) := by decide +kernel

theorem test_meets_CopiesComplete :
    let s := seg .upper .copying .opened 1 (framed .valid [] hub)
    s.live = true ∧ s.segment ⟨0, 0, .upper⟩ = some (segmentOf .upper .copying) ∧
      (segmentOf .upper .copying).place = .copying ∧ s.resident (segmentOf .upper .copying).page = some 5 ∧
      (⟨0, 0, .upper⟩ : SegId) ∉ (s.frame 5).served := by
  decide +kernel

/-- With the waiters of frame 5's fill whose copies still run. -/
def serving (ids : List SegId) (s : State) : State := s.modFrame 5 (fun r => { r with served := ids })

theorem test_meets_CopiesComplete_served :
    let s := seg .upper .copying .opened 1 (framed .valid [] hub)
    ((serving [⟨0, 0, .upper⟩] s).frame 5).served.head? = some ⟨0, 0, .upper⟩ ∧
    (let u := serving [⟨1, 0, .lower⟩, ⟨0, 0, .upper⟩] s
     u.live = true ∧ u.segment ⟨0, 0, .upper⟩ = some (segmentOf .upper .copying) ∧ u.resident 34 = some 5 ∧
       (u.frame 5).served = ⟨1, 0, .lower⟩ :: [⟨0, 0, .upper⟩] ∧ (⟨1, 0, .lower⟩ : SegId) ≠ ⟨0, 0, .upper⟩) := by
  decide +kernel

theorem test_meets_FillsEndByTheirCheck :
    (let s := framed .filling [⟨0, 0, .lower⟩] hub
     (s.slot 0).checkList.bind (fun l => l[34 - (s.slotPage 0 + 2)]?) = some (crc32 []) ∧
       (s.slot 0).checkList.bind (fun l => l[34 - (s.slotPage 0 + 2)]?) ≠ some (crc32 [1]) ∧
       (fillOf .demand true true).retry = true ∧ (fillOf .demand false true).retry = false ∧
       (fillOf .demand false true).cls ≠ .prefetch ∧ (s.frame 5).waiters ≠ []) ∧
    ((fillOf .prefetch false true).cls = .prefetch ∧ ((framed .filling [] hub).frame 5).waiters = []) := by decide +kernel

/-- A fill's read that runs. -/
def filling : State := running (opOf (.fill 5)) (demanded (fillOf .demand false true) (framed .filling [] hub))

/-- A held erase, in phase SUSPENDED, with some reads made. -/
def heldErase (reads : Nat) : Operation :=
  { opOf (.reclaimErase 2) with
    erase := some { block := 2, eraseTime := 5000, run := 1000, suspensions := 1, reads := reads, phase := .suspended,
                    ackLeft := 0 } }

/-- A fill's read within a suspension. -/
def suspendedFill (reads : Nat) : State :=
  { filling with chan := { filling.chan with state := .eraseSuspended, suspended := some (heldErase reads) } }

theorem test_meets_FillReadsEnd :
    (filling.live = true ∧ filling.chan.op = some (opOf (.fill 5)) ∧
      (opOf (.fill 5)).work = .fill 5 ∧ filling.fillOf 5 = some (fillOf .demand false true) ∧
      filling.chan.state ≠ .eraseSuspended) ∧
    ((suspendedFill 3).live = true ∧ (suspendedFill 3).chan.op = some (opOf (.fill 5)) ∧
      (suspendedFill 3).fillOf 5 = some (fillOf .demand false true) ∧ (suspendedFill 3).chan.state = .eraseSuspended ∧
      (suspendedFill 3).chan.suspended = some (heldErase 3) ∧ 4 ≤ 3 + 1) := by decide +kernel

theorem test_meets_FillReadsEnd_next :
    let s := (suspendedFill 2).modSlot 0 (fun r => { r with checkList := none })
    let d := withErrors (Memory.page s.flash ((opOf (.fill 5)).addr / 4096)) []
    let z := State.fillEnd (fillOf .demand false true) d { s with chan := { s.chan with op := none, timeouts := 0 } }
    let w := { z with chan := { s.chan with op := none, timeouts := 0, suspended := some { heldErase 2 with
      erase := (heldErase 2).erase.map (fun (x : EraseRecord) => { x with reads := x.reads + 1 }) } } }
    s.chan.state = .eraseSuspended ∧ s.chan.suspended = some (heldErase 2) ∧ 2 + 1 < 4 ∧
      w.class1 = some (fillOf .demand true false) := by decide +kernel

theorem test_meets_FillsFailAndPreloadsCancel :
    (let s := hub.modFill (fun q => { q with toldOffline := true })
     s.live = true ∧ s.fill.toldOffline = true) ∧
    (let s := hub.modPort 0 (fun r => { r with endReads := 1 })
     s.live = true ∧ (s.port 0).endReads ≠ 0) ∧
    (let s := hub.modPort 0 (fun r => { r with cancelLoads := 1 })
     s.live = true ∧ (s.port 0).cancelLoads ≠ 0) ∧
    (hub.fill.toldOffline = false ∧ (hub.port 0).endReads = 0 ∧ (hub.port 0).cancelLoads = 0) := by decide +kernel

/-- Port 0 with a preload of slot 0. -/
def preloaded (cursor last entries : Nat) : State :=
  hub.modPort 0 (fun r => { r with preload := some { slot := 0, cursor := cursor, last := last, entries := entries } })

theorem test_meets_PreloadsOpenAndClose :
    ((hub.port 0).cancelLoads = 0 ∧ (hub.port 0).preload = none ∧ (hub.portCfg 0).preloadCount ≠ 0 ∧
      (∀ b, hub.window 0 0 = some b → b.boot = false)) ∧
    (let s := windowed (bound 4096 true) hub
     (s.port 0).cancelLoads = 0 ∧ (s.port 0).preload = none ∧ s.window 0 0 = some (bound 4096 true) ∧ (bound 4096 true).boot = true ∧
       0 / 4096 < min (0 / 4096 + (s.portCfg 0).preloadCount) (min ((0 + 4096 - 1) / 4096 + 1) (s.dataPages 0))) ∧
    (let b := { bound 4096 true with offset := 8192 }
     let s := windowed b hub
     s.window 0 0 = some b ∧ b.boot = true ∧
       min (b.offset / 4096 + (s.portCfg 0).preloadCount) (min ((b.offset + b.size - 1) / 4096 + 1) (s.dataPages b.slot)) ≤
         b.offset / 4096) ∧
    (((preloaded 2 1 0).port 0).preload = some { slot := 0, cursor := 2, last := 1, entries := 0 } ∧ 1 < 2) ∧
    (((preloaded 2 1 1).port 0).preload = some { slot := 0, cursor := 2, last := 1, entries := 1 } ∧ 1 ≠ 0) ∧
    (((preloaded 1 1 0).port 0).preload = some { slot := 0, cursor := 1, last := 1, entries := 0 } ∧ 1 ≤ 1 ∧
      ((preloaded 1 1 0).resident ((preloaded 1 1 0).dataPage 0 1)).isSome = false ∧ (preloaded 1 1 0).isBad 35 = false ∧
      (preloaded 1 1 0).offline = false ∧ ((preloaded 1 1 0).slot 0).state = .current ∧
      (preloaded 1 1 0).victim = some 0 ∧ (offlineHub (preloaded 1 1 0)).offline = true) := by
  refine ⟨⟨?_, ?_, ?_, of_none ?_⟩, ?_⟩ <;> decide +kernel

/-- An opening closes the record that is still open, and its entry no longer counts for the port. -/
theorem test_openPreload_closes_earlier :
    (let s := demanded { fillOf .preload false false with port := some 0 } (windowed (bound 4096 true) (preloaded 1 1 1))
     ((s.openPreload 0).fill.demand.map (·.port)).head? = some none) := by decide +kernel

theorem test_meets_PreloadsOpenAndClose_handOut :
    ((preloaded 1 1 0).port 0).preload ≠ none ∧ ((hub.modPort 0 (fun r => { r with cancelLoads := 2 })).port 0).cancelLoads ≠ 0 ∧
    (let full := hub.modFill (fun q => { q with demand := List.replicate 16 (fillOf .demand false false) })
     16 ≤ full.fill.demand.length + full.fill.ahead.length ∧ full.offline = false) ∧
    (let s : State := { hub with frameWait := [⟨0, 0, .lower⟩] }
     s.frameWait = ⟨0, 0, .lower⟩ :: [] ∧ ¬ 16 ≤ s.fill.demand.length + s.fill.ahead.length ∧ s.offline = false ∧
       s.frameWait ≠ []) ∧
    (let s := preloaded 1 1 0
     s.frameWait = [] ∧ ¬ 16 ≤ s.fill.demand.length + s.fill.ahead.length ∧ (offlineHub s).offline = true ∧
       [s.fill.lastServed + 1, s.fill.lastServed + 2, s.fill.lastServed + 3, s.fill.lastServed].find?
         (fun p => (s.port p).preload.elim false (fun l => decide (l.cursor ≤ l.last))) = some 0 ∧
       (s.port 0).preload = some { slot := 0, cursor := 1, last := 1, entries := 0 }) ∧
    [hub.fill.lastServed + 1, hub.fill.lastServed + 2, hub.fill.lastServed + 3, hub.fill.lastServed].find?
      (fun p => (hub.port p).preload.elim false (fun l => decide (l.cursor ≤ l.last))) = none ∧
    (let s := (preloaded 1 1 0).modFill (fun q => { q with demand := List.replicate 16 (fillOf .demand false false) })
     (s.handOut.port 0).preload = some { slot := 0, cursor := 1, last := 1, entries := 0 } ∧ 1 ≤ 1 ∧
       ({ s with frameWait := [⟨0, 0, .lower⟩] } : State).handOut.frameWait ≠ []) ∧
    (let s := (preloaded 1 1 0).modSlot 0 (fun r => { r with state := .dirty })
     (s.slot 0).state ≠ .current ∧ (s.slot 0).state ≠ .retired) := by
  decide +kernel

/-! ### The hypotheses of the statements: updates and the ends of operations -/

/-- A name of eight characters and its two words. -/
def nameA : Name := [0x41, 0x42, 0x43, 0x44, 0x45, 0x46, 0x47, 0x7E]

theorem test_meets_LockUpdateChecksInOrder_accepted :
    (hub.Dispatched 0 0 0 .lockUpdate ∧ ¬ hub.Held 0) ∧ (3 : Word).toNat = (3 : LineNo).val ∧
    (1 ≤ nameA.length ∧ nameA.length ≤ 8 ∧ (∀ b ∈ nameA, 0x20 ≤ b.toNat ∧ b.toNat ≤ 0x7E) ∧
      wordBytes 0x44434241 ++ wordBytes 0x7E474645 = nameA ++ List.replicate (8 - nameA.length) 0) ∧
    (256 ∣ (256 : Word).toNat ∧ 256 ≤ (256 : Word).toNat ∧ (256 : Word).toNat ≤ hub.largestImage) ∧
    (253952 : Word).toNat = hub.largestImage ∧
    (¬ ((hub.line 3).lock ≠ none ∨ ∃ m k, (hub.line m).lock = some k ∧ k.holder = 0) ∧ (hub.line 3).pending = none ∧
      (¬ ∃ v, (hub.line 3).version = some v ∧ (2 : Word).toNat ≤ v.toNat) ∧ hub.offline = false) ∧
    ((1 : SlotNo).val < hub.cfg.slotCount ∧ (hub.slot 1).state = .empty ∧ (∀ m, m < 1 → (hub.slot m).state ≠ .empty)) := by
  have none' : ∀ m, (hub.line m).lock = none := by decide +kernel
  have noVersion : (hub.line 3).version = none := by decide +kernel
  refine ⟨⟨dispatched_of ?_ ?_, notHeld_of ?_⟩, ?_, ?_, ?_, ?_, ⟨?_, ?_, ?_, ?_⟩, ?_⟩
  case refine_8 =>
    rintro (h | ⟨m, k, h, _⟩)
    · exact h (none' 3)
    · rw [none' m] at h; cases h
  case refine_10 => rintro ⟨v, h, _⟩; rw [noVersion] at h; cases h
  all_goals decide +kernel

theorem test_meets_LockUpdateChecksInOrder_refused :
    8 ≤ (8 : Word).toNat ∧
    ¬ (256 ∣ (255 : Word).toNat ∧ 256 ≤ (255 : Word).toNat ∧ (255 : Word).toNat ≤ hub.largestImage) ∧
    ¬ (256 ∣ (254208 : Word).toNat ∧ 256 ≤ (254208 : Word).toNat ∧ (254208 : Word).toNat ≤ hub.largestImage) ∧
    (let s := locked (workOf .opened none) hub
     s.Dispatched 0 0 0 .lockUpdate ∧ ¬ s.Held 0 ∧ (s.line 3).lock ≠ none) ∧
    (let s := { hub with lines := tset hub.lines 3 { Line.reset with pending := some 2 } }
     s.Dispatched 0 0 0 .lockUpdate ∧ ¬ s.Held 0 ∧ (s.line 3).pending ≠ none) ∧
    (∃ v, (hub.line 0).version = some v ∧ (1 : Word).toNat ≤ v.toNat) ∧
    ((offlineHub hub).Dispatched 0 0 0 .lockUpdate ∧ (offlineHub hub).offline = true) ∧
    (let s := { hub with cfg := { conf with slotCount := 1 } }
     ∀ n : SlotNo, n.val < s.cfg.slotCount → (s.slot n).state ≠ .empty) := by
  refine ⟨?_, ?_, ?_, ⟨dispatched_of ?_ ?_, notHeld_of ?_, ?_⟩, ⟨dispatched_of ?_ ?_, notHeld_of ?_, ?_⟩, ⟨1, ?_⟩,
    ⟨dispatched_of ?_ ?_, ?_⟩, ?_⟩ <;> decide +kernel

/-- No name has a character past 7EH. -/
theorem test_meets_LockUpdateChecksInOrder_name (x : Name) :
    ¬ (1 ≤ x.length ∧ x.length ≤ 8 ∧ (∀ b ∈ x, 0x20 ≤ b.toNat ∧ b.toNat ≤ 0x7E) ∧
      wordBytes 0xFF434241 ++ wordBytes 0 = x ++ List.replicate (8 - x.length) 0) := by
  rintro ⟨h1, h2, h3, h4⟩
  have e : wordBytes 0xFF434241 ++ wordBytes 0 = [0x41, 0x42, 0x43, 0xFF, 0, 0, 0, 0] := by decide +kernel
  rw [e] at h4
  have l3 : (x ++ List.replicate (8 - x.length) (0 : Byte))[3]? = some 0xFF := by rw [← h4]; rfl
  by_cases h : 3 < x.length
  · rw [List.getElem?_append_left h] at l3
    exact absurd (h3 _ (List.mem_of_getElem? l3)).2 (by decide)
  · rw [List.getElem?_append_right (by omega)] at l3
    have := List.mem_of_getElem? l3
    rw [List.mem_replicate] at this
    exact absurd this.2 (by decide)

/-- A line 3 locked by port 0 in a phase. -/
def lockHub (phase : LockPhase) (step : Option SealStep) : State := locked (workOf phase step) hub

/-- An entry of the program queue for slot 2. -/
def entryOf (kind : ProgKind) (unit : Nat) : ProgEntry :=
  { line := 3, slot := 2, kind := kind, unit := unit, data := [], owner := some (0, 0), programming := false }

/-- With entries in the program queue. -/
def queued (es : List ProgEntry) (s : State) : State := s.modUpd (fun u => { u with queue := es })

/-- With every unit of line 3's lock marked. -/
def fullHub : State := locked { workOf .opened none with staged := [true, true] } hub

theorem test_meets_StagesAndSealsInOrder_lock :
    (hub.Dispatched 0 0 0 .stage ∧ hub.Dispatched 0 0 0 .seal ∧ ¬ hub.Held 0 ∧
      (∀ l k, (hub.line l).lock = some k → k.holder ≠ 0)) ∧
    ((lockHub .opened none).Dispatched 0 0 0 .stage ∧ (lockHub .opened none).Dispatched 0 0 0 .seal ∧
      ¬ (lockHub .opened none).Held 0 ∧ (List.replicate 64 (0 : Word)).length = 64) ∧
    ((lockHub .opened none).lockOf 0 = some 3 ∧ ((lockHub .opened none).line 3).lock = some (lockA (some 1000000)) ∧
      (lockHub .opened none).work 3 = some (workOf .opened none)) ∧
    ((workOf .marking none).phase = .marking ∧ (workOf .sealing none).phase = .sealing ∧
      (workOf .sealed none).phase = .sealed ∧ (workOf .committing none).phase = .committing) ∧
    ((lockHub .marking none).lockOf 0 = some 3 ∧ (lockHub .sealing none).lockOf 0 = some 3 ∧
      (lockHub .sealed none).lockOf 0 = some 3 ∧ (lockHub .committing none).lockOf 0 = some 3) := by
  refine ⟨⟨dispatched_of ?_ ?_, dispatched_of ?_ ?_, notHeld_of ?_, fun l => of_none (by revert l; decide +kernel)⟩,
    ⟨dispatched_of ?_ ?_, dispatched_of ?_ ?_, notHeld_of ?_, ?_⟩, ?_, ?_, ?_⟩ <;> decide +kernel

theorem test_meets_StagesAndSealsInOrder_cases :
    (let s := lockHub .opened none
     (256 ∣ (256 : Word).toNat ∧ (256 : Word).toNat < (s.slot 2).length.getD 0) ∧
       ¬ (256 ∣ (512 : Word).toNat ∧ (512 : Word).toNat < (s.slot 2).length.getD 0) ∧
       ¬ (256 ∣ (255 : Word).toNat ∧ (255 : Word).toNat < (s.slot 2).length.getD 0) ∧
       (workOf .opened none).staged[(0 : Word).toNat / 256]? = some true ∧
       (workOf .opened none).staged[(256 : Word).toNat / 256]? ≠ some true ∧ s.upd.queue.length < 8 ∧
       (s.upd.queue.filter (fun e => e.slot == 2)).length < 4 ∧
       false ∈ (workOf .opened none).staged) ∧
    (8 ≤ (queued (List.replicate 8 { entryOf .data 0 with slot := 1 }) (lockHub .opened none)).upd.queue.length) ∧
    (4 ≤ ((queued (List.replicate 4 (entryOf .data 0)) (lockHub .opened none)).upd.queue.filter
      (fun e => e.slot == 2)).length) ∧
    (fullHub.lockOf 0 = some 3 ∧ fullHub.work 3 = some { workOf .opened none with staged := [true, true] } ∧
      false ∉ ({ workOf .opened none with staged := [true, true] } : LockWork).staged ∧
      (fullHub.upd.queue.filter (fun e => e.slot == 2)).length = 0 ∧
      0 < ((queued [entryOf .data 0] fullHub).upd.queue.filter (fun e => e.slot == 2)).length) := by decide +kernel

/-- A commit that runs for port 0. -/
def runOf (retiring : Bool) (old : Option SlotNo) : CommitRun :=
  { port := 0, tag := 0, retiring := retiring, generation := 1, oldSlot := old }

/-- A hub whose line 0 has the pending slot 1, and no lock. -/
def pendingHub : State :=
  { hub with
    lines := tset hub.lines 0 { hub.line 0 with pending := some 1 },
    slots := tset hub.slots 1 { slotA with state := .sealed, version := some 2, generation := none } }

/-- The same, with a commit sequence. -/
def sequenced0 (r : CommitRun) : State :=
  { pendingHub with upd := { pendingHub.upd with sequences := tset pendingHub.upd.sequences 0 (some r) } }

theorem test_meets_CommitsAndAbortsInOrder :
    (hub.Dispatched 0 0 0 .commit ∧ hub.Dispatched 0 0 0 .abortUpdate ∧ ¬ hub.Held 0 ∧ 8 ≤ (8 : Word).toNat ∧
      (7 : Word).toNat = (7 : LineNo).val) ∧
    (let s := { lockHub .sealed none with
       lines := tset (lockHub .sealed none).lines 3 { Line.reset with lock := some { lockA none with holder := 1 } } }
     s.Dispatched 0 0 0 .commit ∧ (s.line 3).lock = some { lockA none with holder := 1 } ∧
       ({ lockA none with holder := 1 } : Lock).holder ≠ 0) ∧
    ((lockHub .sealed none).Dispatched 0 0 0 .commit ∧ ((lockHub .sealed none).line 3).lock = some (lockA (some 1000000)) ∧
      (lockA none).holder = 0 ∧ (lockHub .sealed none).work 3 = some (workOf .sealed none) ∧
      ((lockHub .sealed none).line 3).generation ≠ 65535 ∧ (lockHub .sealed none).offline = false) ∧
    (let s := { pendingHub with lines := tset pendingHub.lines 0 { pendingHub.line 0 with generation := 65535 } }
     (s.line 0).lock = none ∧ s.sequence 0 = none ∧ (s.line 0).pending ≠ none ∧ (s.line 0).generation = 65535) ∧
    ((pendingHub.line 0).lock = none ∧ pendingHub.sequence 0 = none ∧ (pendingHub.line 0).pending = some 1 ∧
      (pendingHub.line 0).generation ≠ 65535 ∧ (offlineHub pendingHub).offline = true) ∧
    ((hub.line 0).lock = none ∧ hub.sequence 0 = none ∧ (hub.line 0).pending = none) ∧
    (((sequenced0 (runOf false none)).line 0).lock = none ∧ (sequenced0 (runOf false none)).sequence 0 ≠ none) := by
  refine ⟨⟨dispatched_of ?_ ?_, dispatched_of ?_ ?_, notHeld_of ?_, ?_⟩, ⟨dispatched_of ?_ ?_, ?_⟩,
    ⟨dispatched_of ?_ ?_, ?_⟩, ?_⟩ <;> decide +kernel

/-- A line 3 whose lock commits, with slot 2 SEALED and pending. -/
def committing (r : CommitRun) : State :=
  let s := locked { workOf .committing none with commit := some r } hub
  { s with lines := tset s.lines 3 { s.line 3 with pending := some 2 },
           slots := tset s.slots 2 { s.slot 2 with state := .sealed } }

theorem test_meets_LocksAreLost :
    ((hub.line 3).lock = none ∧ ((lockHub .opened none).line 3).lock = some (lockA (some 1000000)) ∧
      LossReason.reset = .reset ∧ LossReason.idle ≠ .reset) ∧
    ((lockHub .opened none).live = true ∧
      (lockA (some 1000000)).idle = some 1000000) ∧
    (∀ k, (hub.line 3).lock = some k → k.idle = none) ∧
    (let s := hub.modPort 0 (fun r => { r with dropLock := 1 })
     (s.port 0).dropLock ≠ 0 ∧ ∀ l k, (s.line l).lock = some k → k.holder ≠ 0) ∧
    (let s := (lockHub .sealing (some .drain)).modPort 0 (fun r => { r with dropLock := 1 })
     (s.port 0).dropLock ≠ 0 ∧ s.lockOf 0 = some 3 ∧ s.work 3 = some (workOf .sealing (some .drain)) ∧
       (workOf .sealing (some .drain)).phase = .sealing) ∧
    ((lockHub .opened none).lockOf 0 = some 3 ∧ (workOf .opened none).phase = .opened ∧
      (lockHub .marking none).lockOf 0 = some 3 ∧ (workOf .marking none).phase = .marking ∧
      (workOf .marking none).command = some (0, 0)) := by
  refine ⟨?_, ?_, of_none ?_, ⟨?_, fun l => of_none (by revert l; decide +kernel)⟩, ?_, ?_⟩ <;> decide +kernel

theorem test_meets_LocksAreLost_offline :
    (hub.live = true ∧ hub.upd.toldOffline = false ∧
      (hub.modUpd (fun u => { u with toldOffline := true })).upd.toldOffline = true) ∧
    ((committing (runOf false none)).work 3 = some { workOf .committing none with commit := some (runOf false none) } ∧
      (runOf false none).retiring = false ∧ (runOf true (some 0)).retiring = true ∧
      (runOf true (some 0)).oldSlot = some 0) ∧
    (hub.sequence 0 = none ∧ (sequenced0 (runOf false none)).sequence 0 = some (runOf false none) ∧
      ((sequenced0 (runOf false none)).line 0).pending = some 1 ∧
      (sequenced0 (runOf true (some 0))).sequence 0 = some (runOf true (some 0))) ∧
    ((workOf .sealing (some .verify)).sealStep = some .verify ∧ (workOf .sealing (some .mark)).sealStep = some .mark) ∧
    ((queued [entryOf .data 0] hub).upd.queue.find? (fun e => e.slot == 2 && e.kind == .data && e.unit == 0) =
        some (entryOf .data 0) ∧
      (queued [entryOf .list 0] hub).upd.queue.find? (fun e => e.slot == 2 && e.kind == .list && e.unit == 0) =
        some (entryOf .list 0)) := by decide +kernel

theorem test_meets_FlashOperationsTakeEffect :
    Memory.wf hub.flash ∧ Memory.wf [(0, 0), (255, 1)] ∧ (Work.fill 0).flashUse = .nothing ∧
      (Work.stageMark 0).flashUse = .programs ∧ (Work.reclaimErase 2).flashUse = .erases ∧
      DeviceEnd.failed ≠ .done ∧ 65536 ∣ 131072 ∧ 65536 ∣ 0 ∧
    ((Work.stageMark 0).headerRecord = some 0 ∧ 131072 % 4096 = 256 * 0) ∧
    ((Work.retireMark (.lock 0)).headerRecord = some 3 ∧ (131072 + 768) % 4096 = 256 * 3 ∧
      Work.retireMark (.lock 0) ≠ .eraseMark) ∧
    (Work.eraseMark.headerRecord = some 0 ∧ (131072 + 255) % 4096 = 255) := by decide +kernel

/-- An erase of the header block of slot 0, and a header page that the erase mark has left. -/
theorem test_meets_FlashOperationsTakeEffect_cut :
    (opOf (.configErase .a)).work = .configErase .a ∧
    ((opOf (.configProgram .b)).work = .configProgram .b ∧ 4096 ∣ 65536) ∧
    (let o : Operation := { opOf (.reclaimErase 2) with slot := some 0, addr := 131072 }
     o.addr = hub.slotBase 0 ∧ 4096 ∣ o.addr ∧
       erased (Memory.page [(131072 + 255, 0)] (o.addr / 4096)) = false ∧
       readStage hub.largestImage (Memory.page [(131072 + 255, 0)] (o.addr / 4096)) = none) := by decide +kernel

/-- A stage record of 100 bytes is invalid though its check holds; with its erase mark its check does not hold. -/
theorem test_recordFailsCheck :
    (let unit := stageBytes 0 [0x41] 1 100 ++ List.replicate 232 0xFF
     recordInvalid 253952 unit 0 = true ∧ recordFailsCheck unit 0 = false ∧
       recordFailsCheck (unit.set 255 0) 0 = true ∧ recordFailsCheck (unit.set 0 0) 0 = true) ∧
    recordFailsCheck (List.replicate 256 0xFF) 0 = false := by decide +kernel

theorem test_meets_RequestsCarryTheirTargets :
    ((entryOf .data 0).kind = .data ∧ (entryOf .list 0).kind = .list ∧
      (queued [entryOf .data 0] hub).upd.queue.find? (fun e => e.slot == 2 && e.kind == .data && e.unit == 0) =
        some (entryOf .data 0)) ∧
    (((lockHub .marking none).line 3).lock = some (lockA (some 1000000)) ∧
      (lockHub .marking none).work 3 = some (workOf .marking none) ∧ (workOf .sealing (some .verify)).cursor = some 0 ∧
      (workOf .sealing (some .mark)).sealStep = some .mark) ∧
    (((committing (runOf false none)).line 3).pending = some 2 ∧ (runOf true (some 0)).oldSlot = some 0) ∧
    ((sequenced0 (runOf false none)).sequence 0 = some (runOf false none) ∧
      ((sequenced0 (runOf false none)).line 0).pending = some 1) ∧
    (hub.cfgw.write = none ∧ hub.reclaim = none ∧
      ({ hub with reclaim := some { target := 0, cursor := 0, erasing := true } } : State).reclaim =
        some { target := 0, cursor := 0, erasing := true }) := by decide +kernel

theorem test_meets_UpdateOperationsEnd :
    (let s := running (opOf (.stageMark 3)) (lockHub .marking none)
     s.live = true ∧ s.chan.op = some (opOf (.stageMark 3)) ∧
       (opOf (.stageMark 3)).slot = some 2) ∧
    ((opOf (.stageMark 3)).work = .stageMark 3 ∧ (opOf (.dataProgram 3 0)).work = .dataProgram 3 0 ∧
      (opOf (.verifyRead 3)).work = .verifyRead 3 ∧ (opOf (.listProgram 3 0)).work = .listProgram 3 0 ∧
      (opOf (.sealMark 3)).work = .sealMark 3 ∧ (opOf (.commitMark (.lock 3))).work = .commitMark (.lock 3) ∧
      (opOf (.retireMark (.lock 3))).work = .retireMark (.lock 3)) ∧
    (∀ o l, hub.chan.op = some o → o.work ≠ .stageMark l) := by
  refine ⟨?_, ?_, fun o l h => of_none (P := fun o => o.work ≠ .stageMark l) (show hub.chan.op = none from rfl) o h⟩ <;>
    decide +kernel

/-- A line 3 with no lock meets the first clause of the statements of ends. -/
theorem test_meets_ends_disregarded :
    ¬ ∃ x w, (hub.line 3).lock = some x ∧ x.slot = 2 ∧ (hub.slot 2).state = .staging ∧ hub.work 3 = some w := by
  rintro ⟨x, _, h, _⟩
  have : (hub.line 3).lock = none := by decide +kernel
  rw [this] at h; cases h

theorem test_meets_StageMarksAndProgramsEnd :
    (((lockHub .marking none).line 3).lock = some (lockA (some 1000000)) ∧
      ((lockHub .marking none).slot (lockA none).slot).state = .staging ∧
      (lockHub .marking none).work 3 = some (workOf .marking none)) ∧
    (let s := lockHub .sealing (some .drain)
     s.work 3 = some (workOf .sealing (some .drain)) ∧ (workOf .sealing (some .drain)).sealStep = some .drain ∧
       (∀ e ∈ s.upd.queue, e.slot ≠ 2)) ∧
    ((workOf .opened none).sealStep ≠ some .drain ∧
      ∃ e ∈ (queued [entryOf .data 0] (lockHub .sealing (some .drain))).upd.queue, e.slot = 2) := by decide +kernel

theorem test_meets_VerifyReadsEnd :
    (let s := lockHub .sealing (some .verify)
     (s.line 3).lock = some (lockA (some 1000000)) ∧ (s.slot (lockA none).slot).state = .staging ∧
       s.work 3 = some (workOf .sealing (some .verify)) ∧ (workOf .sealing (some .verify)).cursor = some 0 ∧
       OpOutcome.timeout ≠ .done ∧ (s.slot 2).length.getD 0 ≤ 4096 * (0 + 1) ∧
       (workOf .sealing (some .verify)).lossPending = false) ∧
    (let s := (lockHub .sealing (some .verify)).modSlot 2 (fun r => { r with length := some 4352 })
     4096 * (0 + 1) < (s.slot 2).length.getD 0) ∧
    ({ workOf .sealing (some .verify) with lossPending := true } : LockWork).lossPending = true ∧
    (imageEnd (imageCarry imageStart [1]) = crc32 [1] ∧ imageEnd (imageCarry imageStart [1]) ≠ crc32 [2]) := by
  decide +kernel

theorem test_meets_CheckListsAndSealsEnd :
    (let s := locked { workOf .sealing (some .list) with listNext := 1 } hub
     let left := s.upd.queue.filter (fun e => !(e.slot == 2 && e.kind == .list && e.unit == 0))
     (s.line 3).lock = some (lockA (some 1000000)) ∧ (s.slot (lockA none).slot).state = .staging ∧
       s.work 3 = some { workOf .sealing (some .list) with listNext := 1 } ∧ OpOutcome.lost ≠ .done ∧
       (workOf .sealing (some .list)).sealStep = some .list ∧ (∀ e ∈ left, e.slot ≠ 2) ∧
       ((workOf .sealing (some .list)).checks.length + 63) / 64 ≤ 1) ∧
    ((workOf .sealing (some .mark)).sealStep ≠ some .list ∧ (workOf .sealing (some .list)).listNext < 1) ∧
    (8 ≤ (queued (List.replicate 8 (entryOf .data 0)) hub).upd.queue.length ∧ hub.upd.queue.length < 8 ∧
      hub.upd.listing = []) ∧
    (let s := (lockHub .sealing (some .list)).modUpd (fun u => { u with listing := [3] })
     s.upd.queue.length < 8 ∧
       s.upd.listing.find? (fun l => match (s.line l).lock with
         | none => false
         | some x => decide ((s.upd.queue.filter (fun e => e.slot == x.slot)).length < 4)) = some 3) := by decide +kernel

theorem test_meets_CommitsEnd :
    ((pendingHub.line 0).pending = some 1 ∧ (pendingHub.line 0).current ≠ some 1 ∧ (pendingHub.line 0).current = some 0) ∧
    ((Committer.lock 3 = .lock 3 ∧ ∃ w, (committing (runOf false none)).work 3 = some w ∧ w.commit = some (runOf false none)) ∧
      ((committing (runOf false none)).slot 2).state = .sealed ∧
      ((committing (runOf false none)).line 3).pending = some 2 ∧ ((committing (runOf false none)).line 3).current = none) ∧
    ((Committer.sequence 0 = .sequence 0 ∧ (sequenced0 (runOf false none)).sequence 0 = some (runOf false none)) ∧
      ((sequenced0 (runOf false none)).slot 1).state = .sealed ∧
      ((sequenced0 (runOf false none)).line 0).pending = some 1 ∧
      ((sequenced0 (runOf false none)).line 0).current = some 0) ∧
    ((sequenced0 (runOf false none)).slot 0).state ≠ .sealed := by
  refine ⟨?_, ⟨⟨rfl, { workOf .committing none with commit := some (runOf false none) }, ?_, rfl⟩, ?_⟩, ⟨⟨rfl, ?_⟩, ?_⟩, ?_⟩ <;>
    decide +kernel

/-! ### The hypotheses of the statements: the channel, the reclaimer, the configuration -/

/-- A hub with a DIRTY slot 1. -/
def dirtyHub : State := hub.modSlot 1 (fun r => { r with state := .dirty })

/-- A hub with one waiting DEMAND entry. -/
def waitingFill : State := demanded (fillOf .demand false false) (framed .filling [] hub)

/-- A hub whose update writer has the stage mark of line 3 ready. -/
def readyHub (aging : Nat) : State :=
  let s := (lockHub .marking none).modUpd (fun u => { u with ready := [.lockStep 3] })
  { s with chan := { s.chan with aging := aging } }

/-- A configuration write. -/
def writeOf (programming : Bool) : ConfigWrite :=
  { copy := .b, programming := programming, sequence := 2, record := [], port := 0, tag := 0 }

/-- A hub with a configuration write. -/
def configHub (programming : Bool) : State := { hub with cfgw := { hub.cfgw with write := some (writeOf programming) } }

theorem test_meets_ChannelGrantsInOrder_picks :
    hub.hubRestart ≠ .dropped ∧
    (({ dirtyHub with reclaim := some { target := 1, cursor := 0, erasing := false } } : State).reclaim ≠ none ∧
      (offlineHub dirtyHub).offline = true ∧ starting.started = false ∧
      (∀ n, (hub.slot n).state ≠ .dirty ∨ (hub.slot n).reclaimHold = true)) ∧
    (dirtyHub.reclaim = none ∧ dirtyHub.offline = false ∧ dirtyHub.started = true ∧ (dirtyHub.slot 1).state = .dirty ∧
      (dirtyHub.slot 1).reclaimHold = false ∧
      (∀ m, m < 1 → (dirtyHub.slot m).state ≠ .dirty ∨ (dirtyHub.slot m).reclaimHold = true)) := by decide +kernel

theorem test_meets_ChannelGrantsInOrder_grants :
    ((readyHub 0).chan.state = .idle ∧ (readyHub 0).updateRequest = some (.lockStep 3) ∧
      ((readyHub 0).readyOp (.lockStep 3)).isSome = true ∧ (readyHub 0).class1 = none) ∧
    (let s := { readyHub 8 with fill := waitingFill.fill }
     s.class1 = some (fillOf .demand false false) ∧ s.updateRequest = some (.lockStep 3) ∧ s.chan.aging = 8) ∧
    (let s := { readyHub 7 with fill := waitingFill.fill }
     s.class1 = some (fillOf .demand false false) ∧ s.updateRequest = some (.lockStep 3) ∧ s.chan.aging < 8) ∧
    (waitingFill.chan.state = .idle ∧ waitingFill.class1 = some (fillOf .demand false false) ∧
      waitingFill.updateRequest = none) ∧
    ((configHub true).class1 = none ∧ (configHub true).updateRequest = none ∧
      (configHub true).configRequest.map (fun o => o.erase) = some none) ∧
    ((configHub false).configRequest.map (fun o => o.erase.isSome) = some true ∧ (configHub false).class4 = none ∧
      (configHub false).reclaimRequest = none ∧ (configHub false).start.request = none) ∧
    (let s := { hub with fill := { hub.fill with ahead := [fillOf .prefetch false false] } }
     s.configRequest = none ∧ s.class1 = none ∧ s.class4 = some (fillOf .prefetch false false)) ∧
    (let s (erasing : Bool) := { hub with reclaim := some { target := 1, cursor := 1, erasing := erasing } }
     (s false).reclaimRequest.map (fun o => o.erase) = some none ∧
       (s true).reclaimRequest.map (fun o => o.erase.isSome) = some true) ∧
    (let s := { hub with start := { hub.start with request := some (.configRead .a) } }
     s.class1 = none ∧ s.class4 = none ∧ s.start.request = some (.configRead .a)) ∧
    (hub.configRequest = none ∧ hub.reclaimRequest = none ∧ hub.start.request = none) := by decide +kernel

/-- An erase of the reclaimer that runs while a fill waits. -/
def erasing (phase : ErasePhase) (run suspensions : Nat) : State :=
  running (eraseOf (.reclaimErase 2) phase run suspensions) waitingFill

theorem test_meets_ChannelGrantsInOrder_suspends :
    ((offlineHub hub).chan.state = .offline ∧ (suspendedFill 0).chan.state = .eraseSuspended) ∧
    (filling.chan.state = .busy ∧ filling.chan.op = some (opOf (.fill 5)) ∧ (opOf (.fill 5)).erase = none) ∧
    (let o := eraseOf (.reclaimErase 2) .running 1000 7
     (erasing .running 1000 7).chan.state = .busy ∧ (erasing .running 1000 7).chan.op = some o ∧
       o.erase.map (fun e => (e.phase, e.suspensions, e.run)) = some (.running, 7, 1000) ∧
       (erasing .running 1000 7).class1 ≠ none) ∧
    ((running (eraseOf (.reclaimErase 2) .running 1000 7) hub).class1 = none ∧
      (eraseOf (.reclaimErase 2) .running 999 8).erase.map (fun e => (e.suspensions, e.run)) = some (8, 999)) := by
  decide +kernel

theorem test_meets_ErasesSuspend :
    (let o := eraseOf (.reclaimErase 2) .running 0 7
     (erasing .running 0 7).live = true ∧ (erasing .running 0 7).chan.op = some o ∧
       o.erase.map (fun e => (e.phase, e.suspensions)) = some (.running, 7) ∧ (erasing .running 0 7).class1 ≠ none) ∧
    (let o := eraseOf (.reclaimErase 2) .suspending 1000 7
     (erasing .suspending 1000 7).chan.op = some o ∧ o.erase.map (fun e => e.phase) = some .suspending ∧
       (erasing .suspending 1000 7).class1 = some (fillOf .demand false false) ∧ o.work = .reclaimErase 2) ∧
    ((running (eraseOf (.configErase .a) .suspending 1000 0) hub).class1 = none ∧
      (eraseOf (.configErase .a) .suspending 1000 0).work = .configErase .a) ∧
    (hub.live = true ∧ hub.chan.op = none) := by decide +kernel

/-- An operation's end by its timer, at the count 0, 1 and 2 of timeouts. -/
def timing (o : Operation) (count : Nat) : State :=
  let s := running o hub
  { s with chan := { s.chan with timeouts := count } }

theorem test_meets_TimeoutsResetOrGoOffline :
    ((timing (opOf (.stageMark 3)) 1).chan.timeouts + 1 < 3 ∧ 3 ≤ (timing (opOf (.stageMark 3)) 2).chan.timeouts + 1) ∧
    ((timing (opOf (.stageMark 3)) 1).live = true ∧ (timing (opOf (.stageMark 3)) 1).chan.op = some (opOf (.stageMark 3)) ∧
      (∀ c, (opOf (.stageMark 3)).work ≠ .deviceReset c)) ∧
    ((eraseOf (.reclaimErase 2) .suspending 0 0).erase.map (fun e => e.phase) = some .suspending) ∧
    (State.reset.live = true ∧ State.reset.chan.op = some Operation.startReset ∧
      Operation.startReset.work = .deviceReset .startUp ∧
      (resetOp .timeout).work = .deviceReset .timeout) ∧
    ((opOf (.fill 5)).work = .fill 5 ∧ filling.fillOf 5 = some (fillOf .demand false true)) ∧
    ((opOf (.stageMark 3)).slot = some 2 ∧ OpOutcome.timeout = .timeout ∧ OpOutcome.lost = .lost) := by
  refine ⟨?_, ⟨?_, ?_, fun c h => by cases h⟩, ?_, ?_, ?_, ?_⟩ <;> decide +kernel

/-- A reset that runs on the OFFLINE channel. -/
def offlineReset (c : ResetCause) : State :=
  let s := offlineHub (running (resetOp c) hub)
  { s with chan := { s.chan with state := .offline, op := some (resetOp c) } }

theorem test_meets_ChannelResets :
    ((sup0 .quarantined .stopped hub).Dispatched 0 0 0 .channelReset ∧
      ((sup0 .quarantined .stopped hub).port 0).sup.state = .quarantined) ∧
    (hub.Dispatched 0 0 0 .channelReset ∧ (hub.port 0).sup.state ≠ .quarantined ∧ hub.chan.state ≠ .offline) ∧
    ((offlineReset .recovery).Dispatched 0 0 0 .channelReset ∧ (offlineReset .recovery).chan.state = .offline ∧
      (offlineReset .recovery).chan.op ≠ none) ∧
    ((offlineHub hub).Dispatched 0 0 0 .channelReset ∧ (offlineHub hub).chan.state = .offline ∧
      (offlineHub hub).chan.op = none) ∧
    ((offlineReset (.command 0 0)).live = true ∧ (offlineReset (.command 0 0)).chan.op = some (resetOp (.command 0 0)) ∧
      (resetOp (.command 0 0)).work = .deviceReset (.command 0 0)) ∧
    ((offlineReset .recovery).chan.op = some (resetOp .recovery) ∧ (resetOp .recovery).work = .deviceReset .recovery) ∧
    (let s := { offlineHub hub with start := { hub.start with wait := some 1000000 } }
     s.live = true ∧ s.start.wait = some 1000000 ∧ s.chan.state = .offline ∧ s.chan.op = none) ∧
    hub.start.wait = none ∧
    (let s := (untaken (recovering (.command 0 0))).modFill (fun q => { q with toldOffline := true })
     s.live = true ∧ s.chan.op = some (resetOp (.command 0 0)) ∧ s.fill.toldOffline = true ∧ s.upd.toldOffline = false) := by
  refine ⟨⟨dispatched_of ?_ ?_, ?_⟩, ⟨dispatched_of ?_ ?_, ?_⟩, ⟨dispatched_of ?_ ?_, ?_⟩, ⟨dispatched_of ?_ ?_, ?_⟩, ?_⟩ <;>
    decide +kernel

theorem test_meets_ReclaimerStepsEnd :
    (let s := running (opOf .eraseMark) { dirtyHub with reclaim := some { target := 1, cursor := 1, erasing := false } }
     s.live = true ∧ s.chan.op = some (opOf .eraseMark) ∧ (opOf .eraseMark).work = .eraseMark ∧
       s.reclaim = some { target := 1, cursor := 1, erasing := false }) ∧
    ((opOf (.reclaimErase 4)).work = .reclaimErase 4 ∧ 0 < ({ target := 1, cursor := 1, erasing := true } : ReclaimJob).cursor ∧
      ({ target := 1, cursor := 0, erasing := true } : ReclaimJob).cursor = 0) ∧ hub.chan.op = none := by decide +kernel

/-- The words of a port record at the least values of its ranges, disabled. -/
def portRecord : List Word := [0x00010100, 1, 0x0001000A, 0] ++ List.replicate 8 0

/-- The words of a configuration record, from its first word. -/
def recordOf (first : Word) : List Word := first :: (portRecord ++ portRecord ++ portRecord ++ portRecord)

/-- The words of a port record at the greatest values of its ranges that one boot window allows; the window's image
offset is the last page boundary below the largest image of 256 KiB. -/
def fullRecord : List Word := [0x010FFF1F, 0x03E803E8, 0x0258EA60, 0x0440, 0x0CFFF000, 0x00FF003D] ++ List.replicate 6 0xFFFFFFFF

/-- A record at the greatest values that a flash of 64 MiB with slots of 256 KiB allows, from its first word. -/
def fullRecordOf (first : Word) : List Word := first :: (fullRecord ++ fullRecord ++ fullRecord ++ portRecord)

/-- The ranges of R173 and R191 at their two ends, and just past one. -/
theorem test_meets_ConfigurationWritesBegin_ranges :
    (parseConfig (wordsBytes (fullRecordOf 0x3C10121A))).isSome = true ∧
    (parseConfig (wordsBytes (recordOf 0x01011214))).isSome = true ∧
    (parseConfig (wordsBytes (recordOf 0x01041214))).isSome = false ∧
    (parseConfig (wordsBytes (fullRecordOf 0x3D10121A))).isSome = false ∧ parseConfig [] = none := by decide +kernel

theorem test_meets_ConfigurationWritesBegin :
    (hub.Dispatched 0 0 0 .writeConfig ∧ ¬ hub.Held 0 ∧ (recordOf 0).length = 49 ∧ hub.cfgw.write = none ∧
      hub.chan.state ≠ .offline) ∧
    ((configHub false).Dispatched 0 0 0 .writeConfig ∧ ¬ (configHub false).Held 0 ∧ (configHub false).cfgw.write ≠ none) ∧
    ((offlineHub hub).Dispatched 0 0 0 .writeConfig ∧ (offlineHub hub).chan.state = .offline) ∧
    ¬ (parseConfig (wordsBytes (recordOf 0)) ≠ none) ∧ parseConfig (wordsBytes (recordOf 0x3C011214)) ≠ none ∧
    (({ hub with cfgw := { copyA := .valid 4294967295, copyB := .valid 3, write := none } } : State).cfgw.copyA =
      .valid 4294967295) ∧ max 4294967295 3 = 4294967295 := by
  refine ⟨⟨dispatched_of ?_ ?_, notHeld_of ?_, ?_⟩, ⟨dispatched_of ?_ ?_, notHeld_of ?_, ?_⟩, ⟨dispatched_of ?_ ?_, ?_⟩, ?_⟩ <;>
    decide +kernel

theorem test_meets_ConfigurationWritesEnd :
    (let s := running (opOf (.configErase .b)) (configHub false)
     s.live = true ∧ s.chan.op = some (opOf (.configErase .b)) ∧
       (opOf (.configErase .b)).work = .configErase .b ∧ s.cfgw.write = some (writeOf false)) ∧
    ((opOf (.configProgram .b)).work = .configProgram .b ∧ (configHub true).cfgw.write = some (writeOf true)) ∧
    hub.chan.op = none ∧ hub.cfgw.write = none := by decide +kernel

/-- Bytes below a record read as given, the rest of a unit erased: what a header page holds is a page of such units. -/
theorem test_meets_RecordsReadBack :
    (1 ≤ 4294967295 ∧ (parseConfig (wordsBytes (recordOf 0x3C011214))).isSome = true) ∧
    (1 ≤ nameA.length ∧ nameA.length ≤ 8 ∧ (∀ b ∈ nameA, 0x20 ≤ b.toNat ∧ b.toNat ≤ 0x7E) ∧ 256 % 256 = 0 ∧ 256 ≤ 122880 ∧
      headerUnit (stageBytes 7 nameA 0xFFFFFFFF 256 ++ List.replicate 232 0xFF) 0 =
        stageBytes 7 nameA 0xFFFFFFFF 256 ++ List.replicate 232 0xFF) ∧
    (headerUnit (List.replicate 256 0xFF ++ (sealBytes 1 2 ++ List.replicate 240 0xFF)) 1 =
      sealBytes 1 2 ++ List.replicate 240 0xFF) ∧
    (headerUnit (List.replicate 512 0xFF ++ (commitBytes 65535 ++ List.replicate 248 0xFF)) 2 =
      commitBytes 65535 ++ List.replicate 248 0xFF) ∧
    (headerUnit (List.replicate 768 0xFF ++ (retireBytes 2 ++ List.replicate 248 0xFF)) 3 =
      retireBytes 2 ++ List.replicate 248 0xFF) ∧
    (List.replicate 255 0xFF ++ [(0 : Byte)])[255]? = some 0 ∧
    (List.replicate 4096 (0 : Byte)).length = 4096 ∧ (List.replicate 256 (0 : Byte)).length = 256 := by decide +kernel

/-! ### The hypotheses of the statements: start-up, supervision, queries -/

/-- A hub that starts, with a scan table. -/
def scanning (scan : List ScanEntry) : State := { starting with start := { starting.start with scan := scan } }

theorem test_meets_StartUpReads :
    (let s := running (opOf (.configRead .a)) starting
     s.live = true ∧ s.chan.op = some (opOf (.configRead .a)) ∧ (opOf (.configRead .a)).work = .configRead .a) ∧
    ((opOf (.configRead .b)).work = .configRead .b ∧ (opOf (.headerRead 2)).work = .headerRead 2 ∧
      (opOf (.listRead 2)).work = .listRead 2 ∧ hub.chan.op = none) ∧
    (State.reset.start.phase = .reset ∧ starting.start.phase = .scan ∧ hub.start.phase = .done) ∧
    (let s := { starting with start := { starting.start with copyA := some (1, conf), copyB := some (2, conf) } }
     s.start.copyA = some (1, conf) ∧ s.start.copyB = some (2, conf)) ∧
    (starting.start.copyA = none ∧ starting.start.copyB = none) ∧
    ((scanning [scanOf .current 1 (some 1) none]).start.scan[(0 : SlotNo).val]? = some (scanOf .current 1 (some 1) none) ∧
      (scanOf .current 1 (some 1) none).cls = .current ∧ (scanOf .sealed 1 none none).cls ≠ .current) ∧
    ((1 : Nat) < 2 ∧ 4 * 2 ≤ (List.replicate 8 (0 : Byte)).length) ∧ starting.start.toRead = [] := by decide +kernel

/-- The check list of one page agrees with a seal record that holds its check. -/
theorem test_meets_StartUpReads_list :
    (let x := { scanOf .current 1 (some 1) none with sealRec := some (5, crc32 ([1, 2, 3, 4] : List Byte)) }
     let pages := ((x.stageRec.map (·.length)).getD 0 + 4095) / 4096
     ∃ image, x.sealRec = some (image, crc32 (([1, 2, 3, 4, 5] : List Byte).take (4 * pages)))) ∧
    ¬ ∃ image, (scanOf .current 1 (some 1) none).sealRec = some (image, crc32 (([1, 2, 3, 4] : List Byte).take 4)) := by
  refine ⟨⟨5, by decide +kernel⟩, ?_⟩
  rintro ⟨image, h⟩
  have : some (crc32 (([1, 2, 3, 4] : List Byte).take 4)) = (scanOf .current 1 (some 1) none).sealRec.map Prod.snd := by
    rw [h]; rfl
  exact absurd this (by decide +kernel)

theorem test_meets_CandidatesAreResolved :
    (let c := scanOf .committedCandidate 1 (some 2) none
     let old := scanOf .committedCandidate 1 (some 1) none
     let x := scanOf .sealedCandidate 2 none none
     let low := scanOf .sealedCandidate 1 none none
     let scan := [old, c, low, x, x]
     scan[1]? = some c ∧ c.stageRec.map (·.line) = some 3 ∧ scan.length ≤ 16 ∧
       (resolveScan scan).map (·.cls) =
         [.dirty .superseded, .current, .dirty .oldVersion, .sealed, .dirty .duplicateSeal]) ∧
    (scanOf .empty 0 none none).cls ≠ .committedCandidate := by decide +kernel

theorem test_meets_RebuildAndHandOver :
    (let s := scanning [scanOf .current 1 (some 1) none, scanOf .sealed 2 none none, scanOf (.dirty .unsealed) 1 none none,
       scanOf .empty 0 none none]
     s.start.scan[(0 : SlotNo).val]? = some (scanOf .current 1 (some 1) none) ∧
       s.start.scan[(1 : SlotNo).val]? = some (scanOf .sealed 2 none none) ∧
       s.start.scan[(2 : SlotNo).val]? = some (scanOf (.dirty .unsealed) 1 none none) ∧
       s.start.scan[(4 : SlotNo).val]? = none) ∧
    ((hub.portCfg 0).enabled = true ∧ (State.reset.portCfg 0).enabled = false ∧
      (State.reset.port 0).link.state ≠ .up) ∧
    (let s := { hub with cfg := ConfigRecord.unchosen }
     (s.portCfg 0).enabled = false ∧ (s.port 0).link.state = .up) ∧
    (let s (c : Command) := cmd0 { CmdTagRecord.reset with state := .opened, command := some c, args := [7] } hub
     ((s .statusLine).cmdTag 0 0).args = [7] ∧ ((s .statusLine).cmdTag 0 0).command = some .statusLine ∧
       ((s .statusSlot).cmdTag 0 0).command = some .statusSlot ∧ ((s .statusPort).cmdTag 0 0).command = some .statusPort) ∧
    (hub.cmdTag 0 0).args = [] := by decide +kernel

/-- A scan with one CURRENT and one SEALED slot of line 3. -/
theorem test_meets_RebuildAndHandOver_lines :
    let scan := [scanOf .current 1 (some 1) none, scanOf .sealed 2 none none]
    let of (c : ScanClass) (n : SlotNo) := ∃ e, scan[n.val]? = some e ∧ e.cls = c ∧ e.stageRec.map (·.line) = some 3
    (of .current 0 ∧ ∀ m, of .current m → m = 0) ∧ (of .sealed 1 ∧ ∀ m, of .sealed m → m = 1) := by
  have one : ∀ (c : ScanClass) (n : SlotNo), (match [scanOf .current 1 (some 1) none, scanOf .sealed 2 none none][n.val]? with
      | none => false
      | some e => decide (e.cls = c)) = false → ¬ ∃ e,
      [scanOf .current 1 (some 1) none, scanOf .sealed 2 none none][n.val]? = some e ∧ e.cls = c ∧
        e.stageRec.map (·.line) = some 3 := by
    rintro c n h ⟨e, h1, h2, _⟩
    rw [h1] at h; simp [h2] at h
  refine ⟨⟨⟨_, rfl, rfl, rfl⟩, fun m h => ?_⟩, ⟨_, rfl, rfl, rfl⟩, fun m h => ?_⟩
  · by_contra hm
    exact one .current m (by revert m; decide +kernel) h
  · by_contra hm
    exact one .sealed m (by revert m; decide +kernel) h

/-- Port 0 with a token, in a state. -/
def tokened (x : SupState) : State := hub.modSup 0 (fun u => { u with state := x, token := some 7 })

theorem test_meets_MastersAreHeldAndReleased :
    ((sup0 .booting .stopped hub).Dispatched 0 0 0 .service ∧ ((sup0 .booting .stopped hub).port 0).sup.state = .booting ∧
      (0 : Word).setWidth 16 = (0 : BitVec 16) ∧ (0x10001 : Word).setWidth 16 ≠ (0 : BitVec 16)) ∧
    ((tokened .warned).Dispatched 0 0 0 .service ∧ ((tokened .warned).port 0).sup.state = .warned ∧
      ((tokened .warned).port 0).sup.token = some ((0x10007 : Word).setWidth 16) ∧
      ((tokened .warned).port 0).sup.token ≠ some ((8 : Word).setWidth 16)) ∧
    (hub.Dispatched 0 0 0 .service ∧ (hub.port 0).sup.state = .free) ∧
    (hub.Dispatched 0 0 0 .releasePort ∧ ¬ hub.Held 0 ∧ 4 ≤ (4 : Word).toNat ∧ (3 : Word).toNat = (3 : Port).val ∧
      (hub.port 3).sup.state ≠ .quarantined) ∧
    (let s := hub.modSup 3 (fun u => { u with state := .quarantined })
     s.Dispatched 0 0 0 .releasePort ∧ ¬ s.Held 0 ∧ (s.port 3).sup.state = .quarantined) ∧
    ((hub.modPort 0 (fun r => { r with completions := 1 })).live = true ∧
      ((hub.modPort 0 (fun r => { r with completions := 1 })).port 0).completions = 0 + 1 ∧ (hub.port 0).completions = 0) ∧
    (((sup0 .held (.resetHold 10000) hub).port 0).sup.state = .held ∧
      ((sup0 .held (.resetHold 10000) hub).port 0).sup.timer = .resetHold 10000 ∧ (hub.port 0).sup.state ≠ .held) ∧
    (((hub.modPort 0 (fun r => { r with clearNotices := 1 })).port 0).clearNotices = 0 + 1 ∧
      (hub.port 0).clearNotices = 0) := by
  refine ⟨⟨dispatched_of ?_ ?_, ?_⟩, ⟨dispatched_of ?_ ?_, ?_⟩, ⟨dispatched_of ?_ ?_, ?_⟩,
    ⟨dispatched_of ?_ ?_, notHeld_of ?_, ?_⟩, ⟨dispatched_of ?_ ?_, notHeld_of ?_, ?_⟩, ?_⟩ <;> decide +kernel

theorem test_meets_MastersAreHeldAndReleased_replies :
    (let s := cmd0 { cmdReadyTag .restartHub 0 with restartHeld := true } hub
     ∃ t, (s.cmdTag 0 t).restartHeld = true ∧ (s.cmdTag 0 t).state = .ready ∧
       (s.cmdTag 0 t).command = some .restartHub ∧ (s.cmdTag 0 t).status = some .ok) ∧
    (¬ ∃ t, (hub.cmdTag 0 t).restartHeld = true ∧ (hub.cmdTag 0 t).state = .ready ∧
       (hub.cmdTag 0 t).command = some .restartHub ∧ (hub.cmdTag 0 t).status = some .ok) := by decide +kernel

theorem test_meets_PortsAreRestarted :
    ((sup0 .booting (.bootTimeout 500000) hub).live = true ∧
      ((sup0 .booting (.bootTimeout 500000) hub).port 0).sup.state = .booting ∧
      ((sup0 .booting (.bootTimeout 500000) hub).port 0).sup.timer = .bootTimeout 500000) ∧
    (((sup0 .warned (.grace 20000) hub).port 0).sup.state = .warned ∧
      ((sup0 .warned (.grace 20000) hub).port 0).sup.timer = .grace 20000) ∧
    (((sup0 .running (.deadline 100000) hub).port 0).sup.state = .running ∧
      ((sup0 .running (.deadline 100000) hub).port 0).sup.timer = .deadline 100000 ∧ (hub.portCfg 0).grace ≠ 0 ∧
      (State.reset.portCfg 0).grace = 0) ∧
    ((hub.port 0).sup.state ≠ .booting ∧ (hub.port 0).sup.state ≠ .warned ∧ (hub.port 0).sup.state ≠ .running) ∧
    (hub.Dispatched 0 0 0 .resetPort ∧ ¬ hub.Held 0 ∧ 4 ≤ (4 : Word).toNat ∧ (3 : Word).toNat = (3 : Port).val ∧
      (hub.port 3).sup.state ≠ .off ∧ (hub.port 3).sup.state ≠ .quarantined) ∧
    (let s := hub.modSup 3 (fun u => { u with state := .off })
     s.Dispatched 0 0 0 .resetPort ∧ ¬ s.Held 0 ∧ (s.port 3).sup.state = .off) := by
  refine ⟨?_, ?_, ?_, ?_, ⟨dispatched_of ?_ ?_, notHeld_of ?_, ?_⟩, dispatched_of ?_ ?_, notHeld_of ?_, ?_⟩ <;> decide +kernel

/-- A hub with three events, numbered from 1. -/
def logged : State :=
  ((hub.log { kind := .linkUp, port := some 0 }).log { kind := .linkUp, port := some 1 }).log { kind := .linkUp, port := some 2 }

/-- A record of n entries, with sequences from 200 on, and its counter. -/
def manyEvents (n : Nat) (next : Word) : State :=
  { hub with events := { entries := (List.range n).map (fun i => { seq := wordOf (200 + i), body := { kind := .linkUp } }),
                         next := next } }

theorem test_meets_QueriesAreAnswered :
    (hub.Dispatched 0 0 0 .statusLine ∧ 8 ≤ (8 : Word).toNat ∧ (7 : Word).toNat = (7 : LineNo).val) ∧
    (hub.Dispatched 0 0 0 .statusSlot ∧ 16 ≤ (16 : Word).toNat ∧ hub.cfg.slotCount ≤ (3 : Word).toNat ∧
      (2 : Word).toNat = (2 : SlotNo).val ∧ (2 : SlotNo).val < hub.cfg.slotCount) ∧
    (hub.Dispatched 0 0 0 .statusPort ∧ 4 ≤ (4 : Word).toNat ∧ (3 : Word).toNat = (3 : Port).val ∧
      (hub.portCfg 0).supervise = true) ∧
    (hub.Dispatched 0 0 0 .readEvents ∧ ¬ hub.Held 0 ∧ (0 : Word).toNat = 0 ∧ 8 < (9 : Word).toNat ∧ 1 ≤ (1 : Word).toNat ∧
      (8 : Word).toNat ≤ 8 ∧ hub.events.entries = [] ∧ (1 : Word) = hub.events.next ∧ (2 : Word) ≠ hub.events.next) ∧
    (logged.Dispatched 0 0 0 .readEvents ∧ ¬ logged.Held 0 ∧
      logged.events.entries.map (·.seq) = [1, 2, 3] ∧ ((3 : Word) - 1).toNat < 3 ∧
      (((logged.events.entries.drop 2).take 1).getLast?).map (·.seq) = some 3 ∧ ((4 : Word) - 1).toNat = 3 ∧
      3 < ((5 : Word) - 1).toNat ∧ ((logged.events.entries.take 8).getLast?).map (·.seq) = some 3) ∧
    (hub.Dispatched 0 0 0 .restartHub ∧ ¬ hub.Held 0) ∧
    (logged.events.entries.length < 64 ∧ (manyEvents 63 7).events.entries.length < 64 ∧
      (manyEvents 64 7).events.entries.length = 64 ∧ (manyEvents 64 0xFFFFFFFF).events.next = 0xFFFFFFFF) := by
  refine ⟨⟨dispatched_of ?_ ?_, ?_⟩, ⟨dispatched_of ?_ ?_, ?_⟩, ⟨dispatched_of ?_ ?_, ?_⟩,
    ⟨dispatched_of ?_ ?_, notHeld_of ?_, ?_⟩, ⟨dispatched_of ?_ ?_, notHeld_of ?_, ?_⟩, ⟨dispatched_of ?_ ?_, notHeld_of ?_⟩, ?_⟩ <;>
    decide +kernel

/-- The record at 63 entries takes the next, at 64 it loses its oldest, and the counter wraps (R186). -/
theorem test_log :
    (let e (s : State) := (s.log { kind := .linkUp, port := some 0 }).events
     ((e (manyEvents 63 7)).entries.length, (e (manyEvents 63 7)).entries.head?.map (·.seq), (e (manyEvents 63 7)).next) =
         (64, some 200, 8) ∧
       ((e (manyEvents 64 7)).entries.length, (e (manyEvents 64 7)).entries.head?.map (·.seq),
         (e (manyEvents 64 7)).entries.getLast?.map (·.seq)) = (64, some 201, some 7) ∧
       (e (manyEvents 64 0xFFFFFFFF)).next = 0) := by decide +kernel

theorem test_meets_StepsKeepTheInvariants :
    (∃ t, step State.reset = .next t) ∧ Memory.wf State.reset.flash ∧
    (∀ p, lineAgrees (State.reset.port p).sup) ∧ State.reset.events.entries.length ≤ 64 ∧
    (∀ p, (State.reset.port p).link.buffer.length ≤ 4) := by
  refine ⟨⟨_, rfl⟩, ?_, ?_, ?_, ?_⟩
  case refine_2 => unfold lineAgrees; decide +kernel
  all_goals decide +kernel


end Sys2Proof.Tests
end

section
/-!
PROOFS. Windows and bindings: what a read's address is translated to (R34 to R36), and where its bytes lie (R2).
-/

namespace Sys2Proof.Machine.State

/-! ### Translation -/

/-- The only BOUND window of a port that holds an address is the one the address is looked up in (R34). -/
theorem windowAt_of_unique {s : State} {p : Port} {a : Nat} {w : WindowNo} {b : Binding} (bound : s.window p w = some b)
    (low : b.base ≤ a) (high : a < b.base + b.size)
    (only : ∀ x c, s.window p x = some c → c.base ≤ a → a < c.base + c.size → x = w) :
    s.windowAt p a = some (w, b) := by
  cases e : s.windowAt p a with
  | none =>
    have outside := windowAt_none.mp e w b bound
    omega
  | some found =>
    obtain ⟨x, c⟩ := found
    obtain ⟨bound', low', high'⟩ := windowAt_some e
    obtain rfl : x = w := only x c bound' low' high'
    obtain rfl : c = b := Option.some.inj (bound'.symm.trans bound)
    rfl

theorem translate_of_no_window {s : State} {p : Port} {a : Nat} (n : Nat) (h : s.windowAt p a = none) :
    s.translate p a n = .error .noWindow := by
  simp [translate, h]

/-- Inside a window, translation checks the window's size first and then the length of its slot's image (R35). -/
theorem translate_of_windowAt {s : State} {p : Port} {a : Nat} {w : WindowNo} {b : Binding} (n : Nat)
    (h : s.windowAt p a = some (w, b)) :
    s.translate p a n =
      if b.size < a - b.base + n then .error .outOfWindow
      else if s.imageLength b.slot < b.offset + (a - b.base) + n then .error .outOfImage
      else .ok (b.slot, b.offset + (a - b.base)) := by
  simp [translate, h]

/-! ### Slot geometry -/

theorem slotSize_of_configured {s : State} (h : s.cfg.slotExp ≠ 0) : s.slotSize = 2 ^ s.cfg.slotExp := if_neg h

theorem slotBase_of_configured {s : State} (h : s.cfg.slotExp ≠ 0) (n : SlotNo) :
    s.slotBase n = 128 * 1024 + n.val * 2 ^ s.cfg.slotExp := by
  rw [slotBase, slotSize_of_configured h]

theorem dataPage_of_configured {s : State} (h : s.cfg.slotExp ≠ 0) (n : SlotNo) (i : Nat) :
    s.dataPage n i = 32 + n.val * (2 ^ s.cfg.slotExp / 4096) + 2 + i := by
  rw [dataPage, slotPage, slotPages, slotSize_of_configured h]

/-- Settles O25, by the window the address is looked up in and the two checks made there. -/
theorem translationOfReads : Obligations.TranslationOfReads := by
  refine ⟨fun p a n s => ⟨fun outside => translate_of_no_window n (windowAt_none.mpr outside), ?_⟩,
    fun n i s h => ⟨slotBase_of_configured h n, dataPage_of_configured h n i⟩⟩
  intro w b bound low high only d length
  have t := translate_of_windowAt n (windowAt_of_unique bound low high only)
  refine ⟨fun past => ?_, fun inside past => ?_, fun inside within => ?_⟩
  · exact t.trans (if_pos past)
  · rw [t, if_neg (Nat.not_lt.mpr inside)]
    exact if_pos past
  · rw [t, if_neg (Nat.not_lt.mpr inside)]
    exact if_neg (Nat.not_lt.mpr within)

end Sys2Proof.Machine.State
end

section
/-!
PROOFS. The notice queue of a port's link: what handing a notice does to it (R165, R166), what STATUS_PORT reports of
it (R185), and what a start leaves of it (R170).
-/

namespace Sys2Proof.Machine.State

/-! ### Merging (R166) -/

/-- A notice merges into the WAITING NEW_GENERATION entries of its line, and only a NEW_GENERATION does. -/
theorem mergesInto_iff {n : Notice} {e : NoticeEntry} :
    mergesInto n e = true ↔ n.kind = .newGeneration ∧
      e.sent = false ∧ e.notice.kind = .newGeneration ∧ e.notice.subject = n.subject := by
  simp [mergesInto, and_assoc]

/-- What keeps a notice from merging into an entry: its own kind, or one of the entry's three fields. -/
theorem mergesInto_eq_false_iff {n : Notice} {e : NoticeEntry} :
    mergesInto n e = false ↔ n.kind ≠ .newGeneration ∨
      e.sent = true ∨ e.notice.kind ≠ .newGeneration ∨ e.notice.subject ≠ n.subject := by
  rw [← Bool.not_eq_true, mergesInto_iff]
  simp only [not_and_or, Bool.not_eq_false, ne_eq]

/-- The merge replaces the value of the first entry the notice merges into, in its place. -/
theorem mergeNotice_append_cons {n : Notice} {e : NoticeEntry} {l : List NoticeEntry} (r : List NoticeEntry)
    (before : ∀ x ∈ l, mergesInto n x = false) (here : mergesInto n e = true) :
    mergeNotice n (l ++ e :: r) = l ++ { e with notice := { e.notice with value := n.value } } :: r := by
  induction l with
  | nil => simp [mergeNotice, here]
  | cons x xs ih =>
    obtain ⟨first, later⟩ := List.forall_mem_cons.mp before
    simp [mergeNotice, first, ih later]

/-! ### The four ends of a notice handed to a link (R165) -/

theorem hand_of_merges {p : Port} {n : Notice} {s : State} {l r : List NoticeEntry} {e : NoticeEntry}
    (queue : (s.port p).notices = l ++ e :: r) (before : ∀ x ∈ l, mergesInto n x = false)
    (here : mergesInto n e = true) :
    s.hand p n = s.modPort p (fun x =>
      { x with notices := l ++ { e with notice := { e.notice with value := n.value } } :: r }) := by
  have merges : (s.port p).notices.any (mergesInto n) = true := by simp [queue, here]
  calc s.hand p n
    _ = s.modPort p (fun x => { x with notices := mergeNotice n x.notices }) := if_pos merges
    _ = _ := modPort_congr (by rw [queue, mergeNotice_append_cons r before here])

/-- A notice that merges into nothing is handed by the port's state and its queue's length. -/
theorem hand_of_not_merges {p : Port} {n : Notice} {s : State}
    (unlike : ∀ x ∈ (s.port p).notices, mergesInto n x = false) :
    s.hand p n =
      if s.portOff p = true then s
      else if (s.port p).notices.length < 8 then
        s.modPort p (fun x =>
          { x with notices := x.notices ++ [{ notice := n, sent := false, readyAt := x.nextReady }],
                   nextReady := x.nextReady + 1 })
      else s.modPort p (fun x => { x with lost := min 255 (x.lost + 1) }) := by
  have alone : ¬ (s.port p).notices.any (mergesInto n) = true := by simpa using unlike
  simp only [hand, if_neg alone, portOff, beq_iff_eq]

/-! ### STATUS_PORT (R185) -/

theorem length_windowWords (b : Option Binding) : (windowWords b).length = 3 := by
  cases b <;> rfl

/-- The four windows of a port take twelve words. -/
theorem length_flatMap_windowWords (v : Vector (Option Binding) 4) :
    (v.toList.flatMap windowWords).length = 12 := by
  simp [List.length_flatMap, length_windowWords]

/-- Word 18 follows the three words of supervision, the windows' twelve, the lock's and the two of the tags. -/
theorem portWords_notices (s : State) (p : Port) :
    (s.portWords p)[18]? = some (packWord (s.port p).notices.length (s.port p).lost 0 0) := by
  have twelve := length_flatMap_windowWords (s.port p).windows
  unfold portWords
  rw [List.getElem?_append_right (by simp [twelve])]
  simp [twelve]

/-! ### After a start (R170) -/

/-- A start leaves a port its packets already sent, and nothing else (log 25). -/
theorem port_beginStart (k : StartKind) (p : Port) (s : State) :
    (s.beginStart k).port p = { PortRecord.reset with wire := (s.port p).wire } := by
  rw [beginStart_eq]
  exact tget_tmap _ _ _

/-- Settles O13, by the entry the notice merges into and, where there is none, by the port's state and its queue's
length. -/
theorem noticeQueueTakesNotices : Obligations.NoticeQueueTakesNotices := by
  refine ⟨fun p n s l r e kind queue here others => ?_, fun p n s apart => ?_, fun p s => portWords_notices s p,
    fun k p s => ?_⟩
  · have before : ∀ x ∈ l, mergesInto n x = false := fun x mem =>
      mergesInto_eq_false_iff.mpr (Or.inr (others x (List.mem_append_left r mem)))
    exact hand_of_merges queue before (mergesInto_iff.mpr ⟨kind, here⟩)
  · have unlike : ∀ x ∈ (s.port p).notices, mergesInto n x = false := fun x mem =>
      mergesInto_eq_false_iff.mpr (apart.imp_right (fun h => h x mem))
    rw [hand_of_not_merges unlike]
    refine ⟨fun off => if_pos off, fun on room => ?_, fun on full => ?_⟩
    · rw [if_neg (ne_true_of_eq_false on), if_pos room]
    · rw [if_neg (ne_true_of_eq_false on), if_neg (Nat.not_lt.mpr full)]
  · rw [port_beginStart]
    exact ⟨rfl, rfl⟩

end Sys2Proof.Machine.State
end

section
/-!
PROOFS. What every step keeps: the flash, the reset lines, the event record and the retransmit buffers, through the
meaning of every command (Safety.lean). The shared operations keep them by Laws/Invariants.lean.
-/

namespace Sys2Proof.Machine.State

/-! ### The bodies of the commands -/

theorem kept_bindBody {p t w a b c d s} (h : Kept s) : Kept (bindBody p t w a b c d s) := by
  unfold bindBody
  split
  · exact kept_answer h
  · split
    · exact kept_answer h
    · split
      · exact kept_answer h
      case _ bound => exact kept_answer (kept_bindTo bound h)

theorem kept_unbindBody {p t w s} (h : Kept s) : Kept (unbindBody p t w s) := by
  unfold unbindBody
  split
  · exact kept_answer h
  · split
    · exact kept_answer h
    · split
      · exact kept_answer h
      · exact kept_settle (kept_answer (kept_unbind h))

theorem kept_rebindBody {p t l s} (h : Kept s) : Kept (rebindBody p t l s) := by
  unfold rebindBody
  split
  · exact kept_answer h
  · split
    · exact kept_answer h
    · exact kept_settle (kept_answer (kept_rebindAll h))

theorem kept_touchBody {p t a n s} (h : Kept s) : Kept (touchBody p t a n s) := by
  unfold touchBody
  split
  · exact kept_answer h
  · split
    · exact kept_answer h
    · split
      · exact kept_answer h
      · split
        · exact kept_answer h
        · exact kept_settle (kept_answer (kept_serves (serves_queueAhead _ _ _) h))

/-- A port released by an accepted SERVICE is RUNNING with its reset line as it was: not asserted, since the master was
BOOTING, RUNNING or WARNED (R134, R139). -/
theorem kept_acceptService {p t old s} (up : (s.port p).sup.state = .booting ∨ (s.port p).sup.state = .running ∨
    (s.port p).sup.state = .warned) (h : Kept s) : Kept (acceptService p t old s) := by
  refine kept_answer (kept_sup (fun agrees => ?_) h)
  have low : (s.port p).sup.lineAsserted ≠ true := by
    rcases up with e | e | e <;> simp [lineAgrees, e] at agrees ⊢ <;> exact agrees
  simpa [lineAgrees] using low

theorem kept_serviceBody {p t k s} (h : Kept s) : Kept (serviceBody p t k s) := by
  unfold serviceBody
  dsimp only
  split
  case h_1 e => split; exacts [kept_acceptService (.inl e) h, kept_answer h]
  case h_2 e => split; exacts [kept_acceptService (.inr (.inl e)) h, kept_answer h]
  case h_3 e => split; exacts [kept_acceptService (.inr (.inr e)) h, kept_answer h]
  all_goals exact kept_answer h

theorem kept_resetPortBody {p t x s} (h : Kept s) : Kept (resetPortBody p t x s) := by
  unfold resetPortBody
  split
  · exact kept_answer h
  · split
    · exact kept_answer h
    · split
      · exact kept_answer h
      · exact kept_answer h
      · exact kept_answer (kept_restart h)

theorem kept_releasePortBody {p t x s} (h : Kept s) : Kept (releasePortBody p t x s) := by
  unfold releasePortBody
  split
  · exact kept_answer h
  · split
    · exact kept_answer h
    · split
      case isTrue quarantined =>
        exact kept_answer (kept_sup (fun agrees => by simpa [lineAgrees, quarantined] using agrees) h)
      · exact kept_answer h

theorem kept_readEventsBody {p t a n s} (h : Kept s) : Kept (readEventsBody p t a n s) := by
  unfold readEventsBody
  split
  · exact kept_answer h
  · split <;> exact kept_answer h

theorem kept_restartHubBody {p t s} (h : Kept s) : Kept (restartHubBody p t s) := by
  unfold restartHubBody
  split <;> exact kept_answer h

theorem kept_configBody {p t r s} (h : Kept s) : Kept (configBody p t r s) := by
  unfold configBody
  split
  · exact kept_answer h
  · split
    · exact kept_answer h
    · split
      · exact kept_answer h
      · split
        · exact kept_answer h
        · split
          · exact kept_answer h
          · exact kept_settle (kept_tends (tends_acceptConfig _ _ _ _) h)

theorem kept_channelResetBody {p t s} (h : Kept s) : Kept (channelResetBody p t s) := by
  unfold channelResetBody
  split
  · exact kept_answer h
  · split
    · exact kept_answer h
    · split
      · exact kept_answer h
      · exact kept_flows (flows_runOp _ _) h

/-! ### The update commands -/

theorem kept_takeLock {p t l name version length n s} (h : Kept s) : Kept (takeLock p t l name version length n s) :=
  kept_tends (tends_addReady _ _) (kept_tends (tends_setWork _ _ _)
    (kept_tends (tends_modLine _ _ _) (kept_tends (tends_modSlot _ _ _) h)))

theorem kept_lockBody {p t l n0 n1 v n s} (h : Kept s) : Kept (lockBody p t l n0 n1 v n s) := by
  unfold lockBody
  split
  · exact kept_answer h
  · split
    · split
      · exact kept_answer h
      · split
        · exact kept_answer h
        · split
          · exact kept_answer h
          · split
            · exact kept_answer h
            · split
              · exact kept_answer h
              · split
                · exact kept_answer h
                · exact kept_settle (kept_takeLock h)
    · exact kept_answer h

theorem kept_acceptStage {p t l n u d s} (h : Kept s) : Kept (acceptStage p t l n u d s) :=
  kept_tends (tends_startIdle _ _) (kept_tends (tends_enqueueProgram _ _) (kept_tends (tends_modWork _ _ _) h))

theorem kept_stageBody {p t o d s} (h : Kept s) : Kept (stageBody p t o d s) := by
  unfold stageBody
  split
  · exact kept_answer h
  · split
    · exact kept_answer h
    · split
      · split
        case h_5 =>
          split
          · exact kept_answer h
          · split
            · exact kept_answer h
            · split
              · exact kept_answer h
              · exact kept_settle (kept_acceptStage h)
        all_goals exact kept_answer h
      · exact kept_answer h

theorem kept_sealBody {p t c s} (h : Kept s) : Kept (sealBody p t c s) := by
  unfold sealBody
  split
  · exact kept_answer h
  · split
    · exact kept_answer h
    · split
      · split
        case h_5 =>
          split
          · exact kept_answer (kept_tends (tends_startIdle _ _) h)
          · exact kept_settle (kept_tends (tends_drainEnd _ _ _)
              (kept_tends (tends_stopIdle _ _) (kept_tends (tends_setWork _ _ _) h)))
        all_goals exact kept_answer h
      · exact kept_answer h

theorem kept_commitOr {p t l f s} (hf : ∀ {x}, Kept x → Kept (f x)) (h : Kept s) : Kept (commitOr p t l f s) := by
  unfold commitOr
  split
  · exact kept_answer h
  · split
    · exact kept_answer h
    · exact kept_settle (hf h)

theorem kept_commitLocked {p t l s} (h : Kept s) : Kept (commitLocked p t l s) :=
  kept_tends (tends_addReady _ _) (kept_tends (tends_stopIdle _ _) (kept_tends (tends_modWork _ _ _) h))

theorem kept_commitHolderless {p t l s} (h : Kept s) : Kept (commitHolderless p t l s) :=
  kept_tends (tends_addReady _ _) (kept_tends (tends_setSequence _ _ _) h)

theorem kept_commitBody {p t l s} (h : Kept s) : Kept (commitBody p t l s) := by
  unfold commitBody
  split
  · exact kept_answer h
  · split
    · exact kept_answer h
    · split
      · split
        · exact kept_answer h
        · split
          · exact kept_answer h
          · exact kept_commitOr kept_commitLocked h
          · exact kept_answer h
      · split
        · exact kept_answer h
        · split
          · exact kept_answer h
          · exact kept_commitOr kept_commitHolderless h

theorem kept_abortSlot {p t l n s} (h : Kept s) : Kept (abortSlot p t l n s) := by
  unfold abortSlot
  refine kept_settle (kept_answer (kept_log (kept_tends (tends_endLock _ _) ?_)))
  split
  · exact kept_tends (tends_toDirty _ _) h
  · exact kept_tends (tends_dropPending _ _ _) h

theorem kept_abortBody {p t l s} (h : Kept s) : Kept (abortBody p t l s) := by
  unfold abortBody
  split
  · exact kept_answer h
  · split
    · exact kept_answer h
    · split
      · split
        · exact kept_answer h
        · split
          · exact kept_abortSlot h
          · exact kept_abortSlot h
          · exact kept_answer h
      · split
        · exact kept_answer h
        · split
          · exact kept_answer h
          · exact kept_abortSlot h

/-! ### The events of the units -/

theorem kept_dropHeld {p t s} (h : Kept s) : Kept (dropHeld p t s) := by
  unfold dropHeld
  split
  · exact kept_endCmd h
  · exact h

theorem kept_releaseMaster {p s} (h : Kept s) : Kept (releaseMaster p s) := by
  refine kept_sup (fun _ => ?_) h
  split <;> simp [lineAgrees]

theorem kept_warn {p s} (running : (s.port p).sup.state = .running) (h : Kept s) : Kept (warn p s) := by
  refine kept_log (kept_tends (tends_hand _ _ _) (kept_sup (fun agrees => ?_) h))
  simpa [lineAgrees, running] using agrees

theorem kept_goOnline {b s} (h : Kept s) : Kept (goOnline b s) := kept_flows (flows_goOnline _ _) h

theorem kept_eraseSuspended {o e s} (h : Kept s) : Kept (eraseSuspended o e s) := by
  unfold eraseSuspended
  dsimp only
  split
  · exact kept_flows (flows_grantFill _ _) (kept_chan h)
  · exact kept_flows (flows_resume _) (kept_chan h)

theorem kept_eraseDone {o s} (h : Kept s) : Kept (eraseDone o s) := by
  unfold eraseDone
  refine kept_settle ?_
  have done : Kept (s.deviceEffect .done o).endOp := kept_endOp (kept_device _ _ h)
  split
  · exact kept_reclaimEnd done
  · exact kept_tends (tends_configEraseEnded _ _) done
  · exact done

theorem kept_fillReadEnd {f o e s} (h : Kept s) : Kept (fillReadEnd f o e s) := by
  unfold fillReadEnd
  refine kept_after ?_
  split
  · exact kept_endOp h
  · exact kept_serves (serves_fillEnd _ _ _) (kept_endOp h)

theorem kept_copied {g s} (h : Kept s) : Kept (copied g s) := by
  refine kept_serves (serves_finishSegment _ _ _) ?_
  unfold releaseUse
  split
  · exact kept_tends (tends_modReadTag _ _ _ _) h
  · exact kept_tends (tends_modFrame _ _ _) (kept_tends (tends_modReadTag _ _ _ _) h)

/-- The links are reset and the reset lines asserted: what the loss of power and the reset input leave of a port. -/
theorem kept_lossOfPower {s} (h : Kept s) :
    Kept { (s.abandonOps .powerLost).afterStart .cold with powered := false, chan := Channel.reset } := by
  have reset : ∀ p, ((s.abandonOps .powerLost).afterStart .cold).port p =
      { PortRecord.reset with wire := ((s.abandonOps .powerLost).port p).wire } := fun p => tget_tmap _ _ _
  refine ⟨wf_abandonOps _ _ h.1, fun p => ?_, ⟨Nat.zero_le _, fun i hi => absurd hi (Nat.not_lt_zero i)⟩, fun p => ?_⟩
  · exact (reset p) ▸ by simp [lineAgrees, PortRecord.reset, Supervision.reset]
  · exact (reset p) ▸ by simp [PortRecord.reset, Link.reset]

theorem kept_resetInput {s} (h : Kept s) :
    Kept { s with resetInput := true, ports := tmap (fun r => { r with sup := Supervision.reset }) s.ports } := by
  obtain ⟨flash, -, events, buffers⟩ := h
  refine ⟨flash, fun p => ?_, events, fun p => ?_⟩
  · simp [port, lineAgrees, Supervision.reset]
  · simpa [port] using buffers p

/-! ### Every command -/

/-- The meaning of a command, outside the supply and the reset input, is a change that the running hub makes (R170). -/
theorem exec_whenLive {c : Instr} (cold : c ≠ .coldStart) (reset : c ≠ .hubResetInputAsserted)
    (power : c ≠ .lossOfPower) : ∃ f, ∀ s, exec c s = .next (whenLive s f) := by
  cases c
  case coldStart => exact absurd rfl cold
  case hubResetInputAsserted => exact absurd rfl reset
  case lossOfPower => exact absurd rfl power
  all_goals exact ⟨_, fun _ => rfl⟩

theorem exec_next (c : Instr) (s : State) : ∃ t, exec c s = .next t := by
  cases c
  all_goals exact ⟨_, rfl⟩

/-- A command keeps the invariants when the change it makes does. -/
theorem exec_keeps {o : Host.Outcome State Fault Refusal} {s t : State} {f : State → State} (next : o = .next t)
    (is : o = .next (s.whenLive f)) (keeps : Kept s → Kept (f s)) (h : Kept s) : Kept t := by
  obtain rfl := Host.Outcome.next.inj (is.symm.trans next)
  exact kept_live h keeps

theorem kept_exec {c : Instr} {s t : State} (next : exec c s = .next t) (h : Kept s) : Kept t := by
  cases c
  case coldStart => cases next; exact kept_begin _ h
  case lossOfPower => cases next; exact kept_lossOfPower h
  case hubResetInputAsserted =>
    cases next
    split
    · exact kept_resetInput h
    · exact h
  all_goals refine exec_keeps next rfl (fun h => ?_) h
  case bind => exact kept_simple h (fun h => kept_afterUnbinds kept_bindBody h)
  case unbind => exact kept_simple h (fun h => kept_afterUnbinds kept_unbindBody h)
  case rebind => exact kept_simple h (fun h => kept_afterUnbinds kept_rebindBody h)
  case touch => exact kept_simple h (fun h => kept_afterUnbinds kept_touchBody h)
  case service => exact kept_simple h kept_serviceBody
  case lockUpdate => exact kept_simple h kept_lockBody
  case stage => exact kept_command h kept_stageBody
  case commit => exact kept_simple h kept_commitBody
  case abortUpdate => exact kept_simple h kept_abortBody
  case statusLine => exact kept_command h kept_statusLine
  case statusSlot => exact kept_command h kept_statusSlot
  case statusPort => exact kept_command h kept_statusPort
  case resetPort => exact kept_simple h kept_resetPortBody
  case releasePort => exact kept_simple h kept_releasePortBody
  case channelReset => exact kept_simple h kept_channelResetBody
  case readEvents => exact kept_simple h kept_readEventsBody
  case writeConfig => exact kept_command h kept_configBody
  case restartHub => exact kept_simple h kept_restartHubBody
  case stageMarkEnd => split; exacts [h, by split; exacts [kept_upd (kept_tends (tends_stageMarkEnded _ _ _ _)) h, h]]
  case dataProgramEnd => split; exacts [h, by split; exacts [kept_upd (kept_tends (tends_dataEnded _ _ _ _ _)) h, h]]
  case verifyReadEnd => split; exacts [h, by split; exacts [kept_upd (kept_tends (tends_verifyEnded _ _ _ _ _)) h, h]]
  case listProgramEnd => split; exacts [h, by split; exacts [kept_upd (kept_tends (tends_listEnded _ _ _ _ _)) h, h]]
  case sealMarkEnd => split; exacts [h, by split; exacts [kept_upd (kept_tends (tends_sealMarkEnded _ _ _ _)) h, h]]
  case commitMarkEnd => split; exacts [h, by split; exacts [kept_upd (kept_tends (tends_commitMarkEnded _ _ _ _)) h, h]]
  case retireMarkEnd => split; exacts [h, by split; exacts [kept_upd (kept_tends (tends_retireMarkEnded _ _)) h, h]]
  case eraseMarkEnd => split; exacts [h, by split; exacts [kept_own (kept_tends (tends_eraseMarkEnded _ _)) h, h]]
  case reclaimEraseEnd => split; exacts [h, by split; exacts [kept_own kept_reclaimEnd h, h]]
  case configEraseEnd => split; exacts [h, by split; exacts [kept_own (kept_tends (tends_configEraseEnded _ _)) h, h]]
  case configProgramEnd => split; exacts [h, by split; exacts [kept_own (kept_tends (tends_configProgramEnded _ _)) h, h]]
  case configReadEnd => split; exacts [h, by split; exacts [kept_settle (kept_configRead (kept_endOp h)), h]]
  case headerReadEnd => split; exacts [h, by split; exacts [kept_settle (kept_headerRead (kept_endOp h)), h]]
  case listReadEnd => split; exacts [h, by split; exacts [kept_settle (kept_listRead (kept_endOp h)), h]]
  case fillReadEnd => split; exacts [h, by split; exacts [kept_fillReadEnd h, h]]
  case unknownOpcode =>
    refine kept_sequenced h fun h => ?_
    split
    · exact kept_tends (tends_protocolError _ _ _ _ _) h
    · exact kept_answer (kept_tends (tends_modCmdTag _ _ _ _) h)
  case malformed =>
    split
    · exact kept_sequenced h (kept_tends (tends_protocolError _ _ _ _ _))
    · split
      · exact kept_tends (tends_protocolError _ _ _ _ _) h
      · exact h
  case read =>
    refine kept_sequenced h fun h => ?_
    split
    · exact kept_tends (tends_protocolError _ _ _ _ _) h
    · exact kept_readBody (kept_tends (tends_modReadTag _ _ _ _) h)
  case hubRestart => split; exacts [h, kept_begin _ h]
  case train =>
    dsimp only
    split
    · exact h
    · split
      · split; exacts [h, kept_settle (kept_takeTrain (kept_linkDown h))]
      · exact kept_takeTrain h
      · exact kept_takeTrain h
  case ack =>
    split
    · split; exacts [kept_link (fun h => h) (kept_dropOldest h), h]
    · exact h
  case nak =>
    split
    · split
      · exact kept_retransmit (kept_dropOldest h)
      · split; exacts [kept_link (fun h => h) (kept_dropOldest h), h]
    · exact h
  case packetCheckFailed =>
    split
    · split
      · exact h
      · split
        · exact kept_settle (kept_takeTrain (kept_linkDown h))
        · exact kept_link (fun h => h) h
    · exact h
  case linkSend => split; exacts [kept_sendOne h, h]
  case trainPeriod =>
    split
    · exact h
    · split; exacts [kept_put h, kept_put h, h]
  case trainingTimeout => split; exacts [kept_link (fun h => h) (kept_advance h), h]
  case acknowledgementTimeout => split; exacts [kept_retransmit (kept_advance h), h]
  case segmentLookup => split; exacts [kept_settle (kept_serves (serves_lookup _ _) h), h]
  case copyComplete => split; exacts [h, by split; exacts [kept_settle (kept_copied h), h]]
  case eraseSuspend => split; exacts [h, by split; exacts [kept_chan (kept_advance h), h]]
  case suspendAnswer =>
    split
    · exact h
    · split
      · exact h
      · split
        · split; exacts [kept_eraseSuspended h, kept_eraseDone h]
        · exact h
  case suspendAckTimeout =>
    split
    · exact h
    · split
      · exact h
      · split; exacts [kept_timedOut (kept_advance h), h]
  case operationTimeout => split; exacts [h, by split; exacts [h, kept_timedOut (kept_advance h)]]
  case offlineFillFail => split; exacts [kept_settle (kept_serves (serves_offlineFills _) h), h]
  case offlineUpdateLoss => split; exacts [kept_settle (kept_tends (tends_offlineUpdate _) h), h]
  case deviceResetReady =>
    split; exacts [kept_settle (kept_resume (kept_chan h)), kept_settle (kept_resume (kept_chan h)), h]
  case deviceResetTimeout =>
    split
    · exact h
    · split
      · exact kept_resetTimedOut (kept_advance h)
      · exact kept_resetTimedOut (kept_advance h)
      · exact kept_answer (kept_log (kept_chan (kept_advance h)))
      · exact kept_start (kept_log (kept_chan (kept_advance h)))
      · exact h
  case channelResetComplete => split; exacts [kept_settle (kept_answer (kept_goOnline h)), h]
  case recoveryReset =>
    split; exacts [h, by split; exacts [kept_flows (flows_runOp _ _) (kept_start (kept_advance h)), h]]
  case recoveryResetComplete => split; exacts [kept_settle (kept_resume (kept_goOnline h)), h]
  case bootWindowsBind =>
    split
    · dsimp only
      split
      · exact kept_beside rfl rfl (kept_bindBoot (kept_beside rfl rfl h))
      · exact kept_beside rfl rfl (kept_beside rfl rfl h)
    · exact h
  case bootWindowsReport =>
    split
    · dsimp only
      split
      · exact kept_settle (kept_serves (serves_openPreload _ _) (kept_beside rfl rfl h))
      · exact kept_beside rfl rfl h
    · exact h
  case preloadComplete =>
    split
    · exact h
    · dsimp only
      split; exacts [kept_releaseMaster (kept_beside rfl rfl h), kept_beside rfl rfl h]
  case bootTimeout => split; exacts [kept_restart (kept_advance h), h]
  case deadlineExpiry p =>
    split
    case _ running _ =>
      dsimp only
      split
      · exact kept_restart (kept_advance h)
      · refine kept_warn ?_ (kept_advance h)
        simpa [port, portAfter] using running
    · exact h
  case graceExpiry => split; exacts [kept_restart (kept_advance h), h]
  case resetHoldExpiry => split; exacts [kept_preloading (kept_advance h), h]
  case restartUnbind => split; exacts [kept_settle (kept_unbindAll (kept_beside rfl rfl h)), h]
  case restartEndReads =>
    split; exacts [h, kept_settle (kept_serves (serves_endReads _ _) (kept_beside rfl rfl h))]
  case restartClearNotices =>
    split; exacts [h, kept_settle (kept_dropHeld (kept_dropHeld (kept_beside rfl rfl (kept_beside rfl rfl h))))]
  case restartLockLoss =>
    split; exacts [h, kept_settle (kept_tends (tends_restartLoss _ _) (kept_beside rfl rfl h))]
  case preloadCancel => split; exacts [h, kept_serves (serves_cancelPreload _ _) (kept_beside rfl rfl h)]
  case idleTimeout => split; exacts [h, kept_settle (kept_tends (tends_loseLock _ _ _ _) (kept_advance h))]
  -- SEAL, the one command left: its constructor's name is a keyword, which `case` cannot take
  · exact kept_simple h kept_sealBody

/-- Settles O59: a step runs a command, or lets a microsecond pass. -/
theorem stepsKeepTheInvariants : Obligations.StepsKeepTheInvariants := by
  intro s t next kept
  unfold step at next
  split at next
  · cases next
    exact kept_advance kept
  · exact kept_exec next kept

/-- Settles O60: after the reset every port is HELD, and the flash, the event record and the buffers are empty. -/
theorem resetMeetsTheInvariants : Obligations.ResetMeetsTheInvariants := by
  refine ⟨wf_reset, fun p => ?_, ⟨Nat.zero_le _, fun i hi => absurd hi (Nat.not_lt_zero i)⟩, fun p => ?_⟩
  · simp [port, State.reset, PortRecord.reset, Supervision.reset, lineAgrees]
  · simp [port, State.reset, PortRecord.reset, Link.reset]

end Sys2Proof.Machine.State
end

section
/-!
PROOFS. The machine and its starts: a step, the passing of a microsecond, the state after a start, and what the
starts, the reset input and a loss of power leave (R170, R171, R176).
-/

namespace Sys2Proof.Machine.State

/-! ### A step -/

/-- Settles O1: both parts are the second arm of `step`. -/
theorem stepRunsFrontCommand : Obligations.StepRunsFrontCommand := by
  intro c s rest
  refine ⟨fun pending => ?_, rfl⟩
  simp only [step, pending]

theorem step_of_empty {s : State} (h : s.pending = []) : step s = .next (s.advance 1) := by
  simp only [step, h]

/-! ### The passing of time (log 1) -/

theorem timerAfter_zero (t : Option Nat) : timerAfter 0 t = t := by
  cases t <;> rfl

theorem timerAfter_succ (d : Nat) (t : Option Nat) : timerAfter (d + 1) t = timerAfter 1 (timerAfter d t) := by
  cases t <;> rfl

theorem supTimerAfter_zero (t : SupTimer) : supTimerAfter 0 t = t := by
  cases t <;> rfl

theorem supTimerAfter_succ (d : Nat) (t : SupTimer) : supTimerAfter (d + 1) t = supTimerAfter 1 (supTimerAfter d t) := by
  cases t <;> rfl

theorem eraseAfter_zero (e : EraseRecord) : eraseAfter 0 e = e := by
  simp [eraseAfter]

theorem eraseAfter_succ (d : Nat) (e : EraseRecord) : eraseAfter (d + 1) e = eraseAfter 1 (eraseAfter d e) := by
  by_cases h : e.phase = .suspending <;> simp [eraseAfter, h, Nat.add_assoc, Nat.sub_sub]

theorem operationAfter_zero (o : Operation) : operationAfter 0 o = o := by
  cases o with | mk _ _ _ _ _ erase => cases erase <;> simp [operationAfter, eraseAfter_zero]

theorem operationAfter_succ (d : Nat) (o : Operation) :
    operationAfter (d + 1) o = operationAfter 1 (operationAfter d o) := by
  simp only [operationAfter, Option.map_map, Function.comp_def, funext (eraseAfter_succ d), Nat.sub_sub]

theorem portAfter_zero (r : PortRecord) : portAfter 0 r = r := by
  simp [portAfter, timerAfter_zero, supTimerAfter_zero]

theorem portAfter_succ (d : Nat) (r : PortRecord) : portAfter (d + 1) r = portAfter 1 (portAfter d r) := by
  simp only [portAfter, timerAfter_succ d, supTimerAfter_succ d]

theorem lineAfter_zero (l : Line) : lineAfter 0 l = l := by
  simp [lineAfter, timerAfter_zero, Option.map_id']

theorem lineAfter_succ (d : Nat) (l : Line) : lineAfter (d + 1) l = lineAfter 1 (lineAfter d l) := by
  simp only [lineAfter, Option.map_map, Function.comp_def, timerAfter_succ d]

theorem tmap_tmap {α β γ : Type} {n : Nat} (g : β → γ) (f : α → β) (v : Vector α n) :
    tmap g (tmap f v) = tmap (fun x => g (f x)) v :=
  table_ext fun i => by simp

theorem advance_zero (s : State) : s.advance 0 = s := by
  have ports : tmap (portAfter 0) s.ports = s.ports := tmap_id fun _ => portAfter_zero _
  have lines : tmap (lineAfter 0) s.lines = s.lines := tmap_id fun _ => lineAfter_zero _
  have op : s.chan.op.map (operationAfter 0) = s.chan.op := by
    simp [funext operationAfter_zero, Option.map_id']
  simp only [advance, ports, lines, op, timerAfter_zero, Nat.add_zero]

theorem advance_succ (d : Nat) (s : State) : s.advance (d + 1) = (s.advance d).advance 1 := by
  simp only [advance, tmap_tmap, Option.map_map, Function.comp_def, timerAfter_succ d, ← portAfter_succ,
    ← lineAfter_succ, ← operationAfter_succ, Nat.add_assoc]

/-- Settles O2: the microsecond that passes is `advance 1`, and `advance` adds up. -/
theorem emptyQueuePassesOneMicrosecond : Obligations.EmptyQueuePassesOneMicrosecond := by
  refine ⟨fun s empty => ⟨s.advance 1, step_of_empty empty, rfl, fun p => ?_, fun l => ?_⟩,
    fun d s => ⟨advance_zero s, advance_succ d s⟩⟩
  · calc (s.advance 1).port p
      _ = portAfter 1 (s.port p) := tget_tmap _ _ _
      _ = _ := by cases h : (s.port p).sup.timer <;> simp [portAfter, timerAfter, supTimerAfter, h]
  · exact tget_tmap _ _ _

/-- Settles O3: every meaning answers a next state, and a hub that is not live makes no change (R170). -/
theorem everyCommandCompletes : Obligations.EveryCommandCompletes := by
  refine ⟨exec_next, fun c s dead cold reset power => ?_⟩
  obtain ⟨f, run⟩ := exec_whenLive cold reset power
  rw [run, whenLive_dead dead]

/-! ### The state after a start (R170) -/

theorem port_reset (p : Port) : State.reset.port p = PortRecord.reset := tget_replicate _ _
theorem line_reset (l : LineNo) : State.reset.line l = Line.reset := tget_replicate _ _
theorem slot_reset (n : SlotNo) : State.reset.slot n = Slot.reset := tget_replicate _ _
theorem frame_reset (f : FrameNo) : State.reset.frame f = Frame.reset := tget_replicate _ _

/-- Settles O4: every table of the reset state is filled with its after-start record. -/
theorem resetIsAfterColdStart : Obligations.ResetIsAfterColdStart := by
  refine ⟨fun l => line_reset l, fun n => ?_, fun f => ?_, rfl, rfl, rfl, rfl, rfl, rfl, rfl, rfl, rfl, rfl, rfl,
    fun l => ⟨tget_replicate _ _, tget_replicate _ _⟩, rfl, rfl, rfl, rfl, fun p => ?_, rfl, rfl, rfl, rfl, rfl⟩
  · rw [slot_reset]
    exact ⟨rfl, rfl, rfl, rfl⟩
  · rw [frame_reset]
    exact ⟨rfl, rfl, rfl, rfl, rfl⟩
  · simp only [window, readTag, cmdTag, port_reset]
    refine ⟨rfl, rfl, rfl, rfl, rfl, rfl, rfl, rfl, rfl, rfl, rfl, rfl, fun w => tget_replicate _ _, fun t => ?_,
      fun t => ?_⟩
    · exact congrArg ReadTagRecord.state (tget_replicate _ _)
    · exact congrArg CmdTagRecord.state (tget_replicate _ _)

/-- What the running hub answers to a command is the change its meaning makes. -/
theorem next_whenLive {s t : State} {f : State → State} (live : s.live = true) (h : f s = t) :
    (Host.Outcome.next (s.whenLive f) : Host.Outcome State Fault Refusal) = .next t := by
  rw [whenLive_live live, h]

/-- A change that leaves the state as it is, is none on a hub that is not live either. -/
theorem next_whenLive_same {s : State} {f : State → State} (h : f s = s) :
    (Host.Outcome.next (s.whenLive f) : Host.Outcome State Fault Refusal) = .next s := by
  unfold whenLive
  rw [h, ite_self]

/-- The state while the reset input is asserted: every supervision record is at its after-start value (R170). -/
def underReset (s : State) : State :=
  { s with resetInput := true, ports := tmap (fun r => { r with sup := Supervision.reset }) s.ports }

theorem port_underReset (p : Port) (s : State) :
    s.underReset.port p = { s.port p with sup := Supervision.reset } := tget_tmap _ _ _

/-- A hub restart keeps the event record, and is otherwise a cold start (R171). -/
theorem beginStart_restart (s : State) : s.beginStart .restart =
    { State.reset with
      clock := s.clock, draws := (s.abandonOps .abandoned).draws, flash := (s.abandonOps .abandoned).flash,
      pending := s.pending, ports := tmap (fun r => { PortRecord.reset with wire := r.wire }) s.ports,
      start := { StartUp.reset with kind := .restart }, events := s.events } := beginStart_eq _ _

theorem beginStart_cold (s : State) : s.beginStart .cold =
    { State.reset with
      clock := s.clock, draws := (s.abandonOps .abandoned).draws, flash := (s.abandonOps .abandoned).flash,
      pending := s.pending, ports := tmap (fun r => { PortRecord.reset with wire := r.wire }) s.ports } :=
  beginStart_eq _ _

theorem settle_of_dropped {s : State} (h : s.hubRestart = .dropped) : s.settle = s.beginStart .restart := if_pos h

/-- A loss of power leaves what the operations cut on the device left, and the model's own (R176). -/
theorem afterStart_abandonOps (h : DeviceEnd) (s : State) : (s.abandonOps h).afterStart .cold =
    { State.reset with
      clock := s.clock, draws := (s.abandonOps h).draws, flash := (s.abandonOps h).flash,
      pending := s.pending, ports := tmap (fun r => { PortRecord.reset with wire := r.wire }) s.ports } := by
  rw [abandonOps_frame h s]
  rfl

/-- What the abandoned operations leave, by the running operation and the held erase (R99, R176). -/
theorem abandonOps_cases (h : DeviceEnd) (s : State) :
    (s.chan.op = none → s.chan.suspended = none → s.abandonOps h = s) ∧
    (∀ o, s.chan.op = some o → s.chan.suspended = none → s.abandonOps h = s.deviceEffect h o) ∧
    (∀ e, s.chan.op = none → s.chan.suspended = some e → s.abandonOps h = s.deviceEffect h e) ∧
    (∀ o e, s.chan.op = some o → s.chan.suspended = some e →
      s.abandonOps h = (s.deviceEffect h o).deviceEffect h e) := by
  refine ⟨fun a b => ?_, fun o a b => ?_, fun e a b => ?_, fun o e a b => ?_⟩
  all_goals simp only [abandonOps, a, b]

/-- Settles O5, start by start. -/
theorem startsTakeAfterStartValues : Obligations.StartsTakeAfterStartValues := by
  refine ⟨⟨fun s => congrArg _ (beginStart_cold s), abandonOps_cases⟩, ⟨fun s live asked => ?_, fun s dropped => ?_,
    fun s unasked => ?_⟩, fun s power => ⟨s.underReset, ?_, rfl, ?_, fun p => port_underReset p s⟩, fun s noPower => ?_,
    fun s => ?_, fun s t next => ?_, fun s t next => ?_⟩
  · exact next_whenLive live ((if_neg asked).trans (beginStart_restart s))
  · exact (settle_of_dropped dropped).trans (beginStart_restart s)
  · exact next_whenLive_same (if_pos unasked)
  · exact congrArg _ (if_pos power)
  · simp [live, underReset]
  · exact congrArg _ (if_neg (ne_true_of_eq_false noPower))
  · show Host.Outcome.next { (s.abandonOps .powerLost).afterStart .cold with powered := false, chan := Channel.reset } = _
    rw [afterStart_abandonOps]
    rfl
  · cases next; rfl
  · cases next; rfl

end Sys2Proof.Machine.State
end

section
/-!
PROOFS. The training of a link (R153 to R155, R169) and its way from UP to DOWN (R159, R80, R168).
-/

namespace Sys2Proof.Machine.State

/-! ### What a TRAIN does to a link that takes it (R154) -/

theorem trainMatches_iff {p : Port} {version port : Byte} :
    trainMatches p version port = true ↔ version = 1 ∧ port.toNat = p.val := by
  simp [trainMatches]

theorem takeTrain_unmatched (p : Port) (acked : Bool) (s : State) : takeTrain p false acked s =
    s.modPort p (fun r =>
      { r with wire := r.wire ++ [.train false], link := { r.link with state := .down, trainTimer := none } }) := by
  simp [takeTrain, put, modLink]

theorem takeTrain_clear (p : Port) (s : State) : takeTrain p true false s =
    s.modPort p (fun r =>
      { r with wire := r.wire ++ [.train true],
               link := { r.link with state := .training, trainTimer := some 10000 } }) := by
  simp [takeTrain, put, modLink, Timeout.training]

theorem takeTrain_set (p : Port) (s : State) : takeTrain p true true s =
    (s.modPort p (fun r =>
      { r with wire := r.wire ++ [.train true], link := { Link.reset with state := .up } })).log
      { kind := .linkUp, port := some p } := by
  simp [takeTrain, enterUp, put, modLink]

theorem exec_train_outside {p : Port} {version port : Byte} {acked : Bool} {s : State} (live : s.live = true)
    (on : s.portOff p = false) (outside : (s.port p).link.state = .down ∨ (s.port p).link.state = .training) :
    exec (.train p version port acked) s = .next (takeTrain p (trainMatches p version port) acked s) := by
  refine next_whenLive live ?_
  rcases outside with h | h <;> simp [on, h]

theorem link_takeTrain_set (p : Port) (s : State) :
    ((takeTrain p true true s).port p).link.state = .up := by
  simp [takeTrain_set]

theorem state_takeTrain_clear (p : Port) (s : State) :
    ((takeTrain p true false s).port p).link.state = .training := by
  simp [takeTrain_clear]

/-- Settles O6, by the TRAIN's match and its flag. -/
theorem trainingOutsideUp : Obligations.TrainingOutsideUp := by
  refine ⟨fun p version port acked s live on outside => ?_, fun p d s live training timer => ?_,
    fun p s t live on down next => ?_⟩
  · rw [exec_train_outside live on outside]
    congr 1
    split
    case isTrue same =>
      rw [trainMatches_iff.mpr same]
      cases acked
      · exact takeTrain_clear p s
      · exact takeTrain_set p s
    case isFalse other =>
      rw [Bool.eq_false_iff.mpr (fun same => other (trainMatches_iff.mp same))]
      exact takeTrain_unmatched p acked s
  · refine next_whenLive live ?_
    simp only [training, timer]
    rfl
  · have same : trainMatches p 1 (BitVec.ofNat 8 p.val) = true := trainMatches_iff.mpr ⟨rfl, by simp; omega⟩
    rw [exec_train_outside live on (.inl down), same] at next
    obtain rfl := Host.Outcome.next.inj next
    have on' : (takeTrain p true false s).portOff p = false := by
      simpa [takeTrain_clear, portOff] using on
    have live' : (takeTrain p true false s).live = true := by
      simpa [takeTrain_clear, State.live] using live
    exact ⟨_, exec_train_outside live' on' (.inr (state_takeTrain_clear p s)), by rw [same]; exact link_takeTrain_set p _⟩

/-- Settles O8: the period's TRAIN is by the link's state. -/
theorem trainPeriodSendsTrain : Obligations.TrainPeriodSendsTrain := by
  intro p s live
  refine next_whenLive live ?_
  cases (s.port p).link.state <;> rfl

/-! ### The link goes DOWN (R159) -/

/-- A port whose buffered notices wait again and whose buffer is empty: the first part of its way DOWN (R168). -/
def unbuffered (p : Port) (s : State) : State :=
  s.modPort p (fun r =>
    { r with notices := r.notices.map (resend r.link.buffer), link := { r.link with buffer := [] } })

theorem sameReads_unbuffered (p : Port) (s : State) : SameReads p s (s.unbuffered p) where
  rest := rfl
  tags := by simp [unbuffered]

theorem readTag_unbuffered (p : Port) (s : State) (x : ReadTag) : (s.unbuffered p).readTag p x = s.readTag p x := by
  simp [unbuffered, readTag]

/-- A link that is DOWN by R159: the link's own part and the two command tags. -/
def downed (r : PortRecord) : PortRecord :=
  { r with cmdTags := tmap endedCmd r.cmdTags,
           link := { r.link with state := .down, owed := none, ackTimer := none, trainTimer := none } }

/-- Whether the reply of an accepted RESTART_HUB is formed and waits for a port's link (R171). -/
abbrev restartReplyWaits (s : State) (p : Port) : Prop :=
  ∃ x, (s.cmdTag p x).state = .ready ∧ (s.cmdTag p x).command = some .restartHub ∧ (s.cmdTag p x).status = some .ok

theorem restartReplyWaits_iff {s : State} {p : Port} : s.restartReplyWaits p ↔
    ((s.cmdTag p 0).state = .ready ∧ restartReply (s.cmdTag p 0) = true) ∨
    ((s.cmdTag p 1).state = .ready ∧ restartReply (s.cmdTag p 1) = true) := by
  simp [restartReplyWaits, restartReply, Fin.exists_fin_two]

theorem tmap_two {α : Type} (f : α → α) (v : Vector α 2) :
    tset (tset v 0 (f (tget v 0))) 1 (f (tget v 1)) = tmap f v := by
  apply table_ext
  rw [Fin.forall_fin_two]
  simp

/-- Both command tags of a port at a loss of its link (R159), and what becomes of a RESTART_HUB reply (R171). -/
theorem endCmds_eq (p : Port) (s : State) : (s.endCmd p 0).endCmd p 1 =
    (s.modPort p (fun r => { r with cmdTags := tmap endedCmd r.cmdTags })).withRestart
      (if s.restartReplyWaits p then .dropped else s.hubRestart) := by
  have other : ((s.modCmdTag p 0 endedCmd).cmdTag p 1) = s.cmdTag p 1 := by
    simp [modCmdTag, cmdTag]
  have both : (s.modCmdTag p 0 endedCmd).modCmdTag p 1 endedCmd =
      s.modPort p (fun r => { r with cmdTags := tmap endedCmd r.cmdTags }) := by
    simp only [modCmdTag, modPort_modPort, ← tmap_two]
    refine modPort_congr ?_
    simp
  rw [endCmd_eq p 0, endCmd_eq p 1, cmdTag_withRestart, other, ← both]
  by_cases zero : (s.cmdTag p 0).state = .ready ∧ restartReply (s.cmdTag p 0) = true <;>
  by_cases one : (s.cmdTag p 1).state = .ready ∧ restartReply (s.cmdTag p 1) = true <;>
  simp only [restartReplyWaits_iff, zero, one, withRestart_hubRestart] <;> rfl

theorem modPort_withRestart (h : HubRestart) (p : Port) (f : PortRecord → PortRecord) (s : State) :
    (s.withRestart h).modPort p f = (s.modPort p f).withRestart h := rfl

/-- The link goes DOWN: its reads end, then its command tags and the link itself change, and LINK_DOWN is logged. -/
theorem linkDown_eq (p : Port) (why : DownReason) (s : State) : s.linkDown p why =
    ((((s.unbuffered p).endReads p).modPort p downed).withRestart
      (if s.restartReplyWaits p then .dropped else s.hubRestart)).log
      { kind := .linkDown, port := some p, detail := wordOf why.code } := by
  have reads := endReads_spec p (s.unbuffered p)
  have cmds : ∀ x, ((s.unbuffered p).endReads p).cmdTag p x = s.cmdTag p x := fun x => by
    rw [cmdTag, port, reads.ports]
    simp [unbuffered, cmdTag]
  have waits : ((s.unbuffered p).endReads p).restartReplyWaits p = s.restartReplyWaits p := by
    simp only [restartReplyWaits, cmds]
  have hub : ((s.unbuffered p).endReads p).hubRestart = s.hubRestart := by
    rw [reads.rest]
    rfl
  calc s.linkDown p why
    _ = (((((s.unbuffered p).endReads p).endCmd p 0).endCmd p 1).modLink p (fun k =>
        { k with state := .down, owed := none, ackTimer := none, trainTimer := none })).log
          { kind := .linkDown, port := some p, detail := wordOf why.code } := rfl
    _ = _ := by
      rw [endCmds_eq, modLink, modPort_withRestart, modPort_modPort]
      simp only [waits, hub]
      rfl

/-- A read tag's end in the model's form and in the form of the statements (R80). -/
theorem endReads_eq_foldl (p : Port) (s : State) : s.endReads p =
    ([0, 1, 2, 3, 4, 5, 6, 7] : List ReadTag).foldl (fun x t => x.endRead p t) s := by
  have steps : ∀ (ts : List ReadTag) (s : State), endReadsOf p ts s = ts.foldl (fun x t => x.endRead p t) s := by
    intro ts
    induction ts with
    | nil => exact fun s => rfl
    | cons t ts ih => exact fun s => ih (s.endRead p t)
  exact steps _ s

/-- What a link's way DOWN leaves of its port (R159). -/
theorem port_linkDown (p : Port) (why : DownReason) (s : State) : (s.linkDown p why).port p =
    downed { s.unbuffered p |>.port p with readTags := (((s.unbuffered p).endReads p).port p).readTags } := by
  have reads := endReads_spec p (s.unbuffered p)
  have mine : ((s.unbuffered p).endReads p).port p =
      { (s.unbuffered p).port p with readTags := (((s.unbuffered p).endReads p).port p).readTags } := by
    conv_lhs => rw [port, reads.ports, tget_tset_same]
  rw [linkDown_eq, port_log, port_withRestart, port_modPort_same]
  exact congrArg downed mine

theorem readTag_linkDown (p : Port) (why : DownReason) (s : State) (x : ReadTag) :
    (s.linkDown p why).readTag p x = endedTag (s.readTag p x) := by
  have reads := (endReads_spec p (s.unbuffered p)).tags x
  rw [if_pos (mem_tall x), readTag_unbuffered] at reads
  rw [← reads]
  simp only [readTag, port_linkDown, downed]

theorem cmdTag_linkDown (p : Port) (why : DownReason) (s : State) (x : CmdTag) :
    (s.linkDown p why).cmdTag p x = endedCmd (s.cmdTag p x) := by
  rw [cmdTag, port_linkDown]
  simp [downed, unbuffered, cmdTag]

theorem port_linkDown_ne {p x : Port} (why : DownReason) (s : State) (other : x ≠ p) :
    (s.linkDown p why).port x = s.port x := by
  have reads := endReads_spec p (s.unbuffered p)
  rw [linkDown_eq, port_log, port_withRestart, port_modPort_ne other, port, reads.ports, tget_tset_ne _ _ other]
  exact port_modPort_ne other _ _

theorem segments_linkDown (p : Port) (why : DownReason) (s : State) : (s.linkDown p why).segments =
    s.segments.filter (fun g => !(g.id.port == p && (s.readTag p g.id.tag).state == .ready)) := by
  have reads := segments_endReads p (s.unbuffered p)
  simp only [readTag_unbuffered] at reads
  rw [linkDown_eq, log_segments, withRestart_segments, modPort_segments, reads]
  rfl

/-- The tables that a link's way DOWN changes beside its port change by the end of its reads (R80). -/
theorem beside_linkDown (p : Port) (why : DownReason) (s : State) :
    (s.linkDown p why).slots = ((s.unbuffered p).endReads p).slots ∧
    (s.linkDown p why).frames = ((s.unbuffered p).endReads p).frames ∧
    (s.linkDown p why).age = ((s.unbuffered p).endReads p).age ∧
    (s.linkDown p why).fill = ((s.unbuffered p).endReads p).fill := by
  rw [linkDown_eq]
  generalize (s.unbuffered p).endReads p = x
  exact ⟨rfl, rfl, rfl, rfl⟩

theorem SameReads.beside {p : Port} {s t : State} (same : SameReads p s t) :
    t.slots = s.slots ∧ t.frames = s.frames ∧ t.age = s.age ∧ t.fill = s.fill := by
  rw [same.rest]
  exact ⟨rfl, rfl, rfl, rfl⟩

theorem linkDown_rest (p : Port) (why : DownReason) (s : State) :
    s.linkDown p why =
      { s with hubRestart := (s.linkDown p why).hubRestart, ports := (s.linkDown p why).ports,
               slots := (s.linkDown p why).slots, segments := (s.linkDown p why).segments,
               frames := (s.linkDown p why).frames, age := (s.linkDown p why).age, fill := (s.linkDown p why).fill,
               events := (s.linkDown p why).events } := by
  have reads := (endReads_spec p (s.unbuffered p)).rest
  rw [linkDown_eq, log_eq]
  generalize (s.unbuffered p).endReads p = x at reads ⊢
  have events : x.events = (s.unbuffered p).events := by conv_lhs => rw [reads]
  simp only [withRestart_events, modPort_events, events]
  conv_lhs => rw [reads]
  rfl

/-- A TRAIN on an UP link, but for the closing one, takes it DOWN and is then taken as in DOWN (R155). -/
theorem exec_train_up {p : Port} {version port : Byte} {acked : Bool} {s : State} (live : s.live = true)
    (on : s.portOff p = false) (up : (s.port p).link.state = .up) :
    exec (.train p version port acked) s = .next
      (if (trainMatches p version port && acked) = true then s
       else s.retrain p (trainMatches p version port) acked) := by
  refine next_whenLive live ?_
  simp [on, up]

/-- Settles O7. -/
theorem retrainAndLinkDown : Obligations.RetrainAndLinkDown := by
  refine ⟨⟨fun p version port acked s live on up => ⟨?_, ?_, ?_⟩, fun p version port acked s off => ?_⟩,
    fun p why s => ?_, fun p s => ?_⟩
  · rintro ⟨v, n, rfl⟩
    rw [exec_train_up live on up, trainMatches_iff.mpr ⟨v, n⟩, if_pos (by decide)]
  · rintro ⟨v, n, rfl⟩
    rw [exec_train_up live on up, trainMatches_iff.mpr ⟨v, n⟩, if_neg (by decide), retrain, takeTrain_clear]
  · intro other
    rw [exec_train_up live on up, Bool.eq_false_iff.mpr (fun same => other (trainMatches_iff.mp same)),
      if_neg (by simp), retrain, takeTrain_unmatched]
  · exact next_whenLive_same (if_pos off)
  · have same := (sameReads_unbuffered p s).endReads
    refine ⟨?_, ?_, fun x => ?_, fun x => ?_, ?_, fun x other => port_linkDown_ne why s other, ?_, ?_, ?_, ?_, ?_⟩
    · rw [port_linkDown]
      simp [downed, unbuffered]
    · rw [port_linkDown]
      simp [downed, unbuffered, resend]
    · exact (readTag_linkDown p why s x).trans rfl
    · exact (cmdTag_linkDown p why s x).trans rfl
    · rw [port_linkDown]
      simp [downed, unbuffered]
    · rw [linkDown_eq, log_eq, log_eq, withRestart_events, modPort_events, same.rest, (endReads_spec p s).rest]
    · exact segments_linkDown p why s
    · obtain ⟨slots, frames, age, fill⟩ := beside_linkDown p why s
      obtain ⟨slots', frames', age', fill'⟩ := same.beside
      exact ⟨slots.trans slots', frames.trans frames', age.trans age', fill.trans fill'⟩
    · rw [linkDown_eq]
      rfl
    · exact linkDown_rest p why s
  · exact endReads_eq_foldl p s

/-! ### Packets that are not taken (R153, R155 to R157) -/

theorem linkUp_iff {s : State} {p : Port} :
    s.linkUp p = true ↔ (s.port p).link.state = .up ∧ s.portOff p = false := by
  simp [linkUp]

theorem sequenced_not_up {p : Port} {q : Seq} {s : State} (f : State → State) (down : s.linkUp p = false) :
    sequenced p q f s = s := if_neg (ne_true_of_eq_false down)

/-- The packets numbered up to four below the receive sequence are repeats (R156). -/
theorem seq_repeat {q r : Seq} (h : q = r - 1 ∨ q = r - 2 ∨ q = r - 3 ∨ q = r - 4) : q ≠ r ∧ 4 ≤ (q - r).val := by
  revert q r
  decide

/-- The packets numbered up to three above the receive sequence come after a gap (R156). -/
theorem seq_gap {q r : Seq} (h : q = r + 1 ∨ q = r + 2 ∨ q = r + 3) : q ≠ r ∧ ¬ 4 ≤ (q - r).val := by
  revert q r
  decide

theorem sequenced_repeat {p : Port} {q : Seq} {s : State} (f : State → State) (up : s.linkUp p = true)
    (old : q ≠ (s.port p).link.recvSeq) (far : 4 ≤ (q - (s.port p).link.recvSeq).val) :
    sequenced p q f s = s.owe p (.ack ((s.port p).link.recvSeq - 1)) := by
  unfold sequenced
  rw [if_pos up]
  exact (if_neg old).trans (if_pos far)

theorem sequenced_gap {p : Port} {q : Seq} {s : State} (f : State → State) (up : s.linkUp p = true)
    (other : q ≠ (s.port p).link.recvSeq) (near : ¬ 4 ≤ (q - (s.port p).link.recvSeq).val) :
    sequenced p q f s = s.owe p (.nak (s.port p).link.recvSeq) := by
  unfold sequenced
  rw [if_pos up]
  exact (if_neg other).trans (if_neg near)

theorem answerKind_iff {k : Byte} : answerKind k = true ↔ k = 0x02 ∨ k = 0x03 := by
  simp [answerKind, ← BitVec.toNat_inj]

theorem trainKind_iff {k : Byte} : trainKind k = true ↔ k = 0x01 := by
  simp [trainKind, ← BitVec.toNat_inj]

/-- Settles O9, by the packet's kind and by the distance of its number from the receive sequence. -/
theorem packetsNotTaken : Obligations.PacketsNotTaken := by
  refine ⟨fun p kind s live up => ⟨fun answers => ?_, fun train => ?_, fun one two three => ?_⟩,
    fun c p q s packet live up => ⟨fun repeats => ?_, fun after => ?_⟩, fun p kind s down => ?_,
    fun c p q s packet down => ?_⟩
  · exact next_whenLive live ((if_pos up).trans (if_pos (answerKind_iff.mpr answers)))
  · refine next_whenLive live ((if_pos up).trans ((if_neg ?_).trans ((if_pos (trainKind_iff.mpr train)).trans ?_)))
    · subst train
      show ¬ answerKind 0x01 = true
      decide
    · rw [retrain, takeTrain_unmatched]
  · refine next_whenLive live ((if_pos up).trans ((if_neg ?_).trans ((if_neg ?_).trans ?_)))
    · exact fun h => (answerKind_iff.mp h).elim two three
    · exact fun h => one (trainKind_iff.mp h)
    · exact modPort_congr (f := fun r => { r with link := { r.link with owed := _ } }) rfl
  · obtain ⟨f, run⟩ := exec_sequenced packet
    obtain ⟨old, far⟩ := seq_repeat repeats
    exact (run s).trans (next_whenLive live (sequenced_repeat f up old far))
  · obtain ⟨f, run⟩ := exec_sequenced packet
    obtain ⟨other, near⟩ := seq_gap after
    exact (run s).trans (next_whenLive live (sequenced_gap f up other near))
  · exact next_whenLive_same (if_neg (ne_true_of_eq_false down))
  · obtain ⟨f, run⟩ := exec_sequenced packet
    exact (run s).trans (next_whenLive_same (sequenced_not_up f down))

end Sys2Proof.Machine.State
end

section
/-!
PROOFS. The retransmit buffer of a link (R157, R158), the order of packets to the master (R160) and what the removal of
a packet does to the notice it carried (R167, R168).
-/

namespace Sys2Proof.Machine.State

/-! ### The place of a number in the buffer -/

theorem placeOf_some {s : State} {p : Port} {q : Seq} {i : Nat} : s.placeOf p q = some i ↔
    (∃ b, (s.port p).link.buffer[i]? = some b ∧ b.seq = q) ∧
      ∀ j, j < i → ∀ c, (s.port p).link.buffer[j]? = some c → c.seq ≠ q := by
  simp only [placeOf, List.findIdx?_eq_some_iff_getElem, beq_iff_eq, List.getElem?_eq_some_iff]
  constructor
  · rintro ⟨inside, here, before⟩
    refine ⟨⟨_, ⟨inside, rfl⟩, here⟩, fun j lt c => ?_⟩
    rintro ⟨_, rfl⟩
    exact before j lt
  · rintro ⟨⟨b, ⟨inside, rfl⟩, here⟩, before⟩
    exact ⟨inside, here, fun j lt => before j lt _ ⟨lt.trans inside, rfl⟩⟩

theorem placeOf_none {s : State} {p : Port} {q : Seq} :
    s.placeOf p q = none ↔ ∀ b ∈ (s.port p).link.buffer, b.seq ≠ q := by
  simp [placeOf, List.findIdx?_eq_none_iff]

theorem lt_length_of_placeOf {s : State} {p : Port} {q : Seq} {i : Nat} (h : s.placeOf p q = some i) :
    i < (s.port p).link.buffer.length := by
  obtain ⟨⟨b, here, -⟩, -⟩ := placeOf_some.mp h
  exact (List.getElem?_eq_some_iff.mp here).1

/-! ### Packets that leave the buffer (R157) -/

theorem dropOldest_eq (p : Port) (n : Nat) (s : State) : s.dropOldest p n =
    acknowledged p ((s.port p).link.buffer.take n) (s.modPort p (fun r =>
      { r with link := { r.link with
                         buffer := (s.port p).link.buffer.drop n,
                         retransmissions := if (s.port p).link.buffer.take n = [] then (s.port p).link.retransmissions
                           else 0 } })) := by
  unfold dropOldest modLink
  simp only [List.isEmpty_iff]
  congr 1

theorem link_dropOldest (p : Port) (n : Nat) (s : State) : ((s.dropOldest p n).port p).link =
    { (s.port p).link with
      buffer := (s.port p).link.buffer.drop n,
      retransmissions := if (s.port p).link.buffer.take n = [] then (s.port p).link.retransmissions else 0 } := by
  rw [dropOldest_eq, link_acknowledged, port_modPort_same]

theorem dropOldest_some {p : Port} {n : Nat} {s : State} (some : (s.port p).link.buffer.take n ≠ []) :
    s.dropOldest p n = acknowledged p ((s.port p).link.buffer.take n) (s.modPort p (fun r =>
      { r with link := { r.link with buffer := (s.port p).link.buffer.drop n, retransmissions := 0 } })) := by
  rw [dropOldest_eq]
  simp only [if_neg some]

/-- The timer is restarted when packets remain, else stopped (R157). -/
theorem restartAck_eq {p : Port} {s : State} {left : List Buffered} (buffer : (s.port p).link.buffer = left) :
    s.restartAck p = s.modPort p (fun r =>
      { r with link := { r.link with ackTimer := if left = [] then none else some 100 } }) := by
  unfold restartAck modLink
  refine modPort_congr ?_
  simp only [buffer, List.isEmpty_iff, Timeout.acknowledgement]

theorem exec_ack {p : Port} {q : Seq} {s : State} (live : s.live = true) (up : s.linkUp p = true) {i : Nat}
    (place : s.placeOf p q = some i) :
    exec (.ack p q) s = .next ((s.dropOldest p (i + 1)).restartAck p) := by
  refine next_whenLive live ((if_pos up).trans ?_)
  rw [place]

theorem exec_nak {p : Port} {q : Seq} {s : State} (live : s.live = true) (up : s.linkUp p = true) {i : Nat}
    (place : s.placeOf p q = some i) : exec (.nak p q) s = .next ((s.dropOldest p i).retransmit p) := by
  refine next_whenLive live ((if_pos up).trans ?_)
  rw [place]

theorem exec_nak_none {p : Port} {q : Seq} {s : State} (live : s.live = true) (up : s.linkUp p = true)
    (place : s.placeOf p q = none) : exec (.nak p q) s = .next
      (if q = (s.port p).link.sendSeq then (s.dropOldest p (s.port p).link.buffer.length).restartAck p else s) := by
  refine next_whenLive live ((if_pos up).trans ?_)
  rw [place]

/-- Settles O10, by the place of the number. -/
theorem acknowledgementsRemovePackets : Obligations.AcknowledgementsRemovePackets := by
  refine ⟨fun p q s => ⟨fun i => placeOf_some, placeOf_none⟩, fun p q i s live up place => ?_,
    fun p q s live up place => ⟨?_, fun other => ?_, fun last more => ?_⟩, fun p q s down => ⟨?_, ?_⟩⟩
  · have gone : (s.port p).link.buffer.take (i + 1) ≠ [] := by
      have inside := lt_length_of_placeOf place
      simp only [ne_eq, List.take_eq_nil_iff, Nat.add_one_ne_zero, false_or]
      exact List.ne_nil_of_length_pos (by omega)
    have left : ((s.dropOldest p (i + 1)).port p).link.buffer = (s.port p).link.buffer.drop (i + 1) := by
      rw [link_dropOldest]
    rw [exec_ack live up place, restartAck_eq left, dropOldest_some gone]
  · refine next_whenLive live ((if_pos up).trans ?_)
    rw [place]
  · rw [exec_nak_none live up place, if_neg other]
  · have left : ((s.dropOldest p (s.port p).link.buffer.length).port p).link.buffer = [] := by
      rw [link_dropOldest]
      exact List.drop_length
    rw [exec_nak_none live up place, if_pos last, restartAck_eq left,
      dropOldest_some (by simpa using more), List.take_length, List.drop_length, if_pos rfl]
  · exact next_whenLive_same (if_neg (ne_true_of_eq_false down))
  · exact next_whenLive_same (if_neg (ne_true_of_eq_false down))

/-! ### Retransmission (R158) -/

theorem retransmit_below {p : Port} {s : State} {k : Link} (link : (s.port p).link = k) (below : k.retransmissions < 8) :
    s.retransmit p = s.modPort p (fun r =>
      { r with wire := r.wire ++ k.buffer.map (fun b => .sequenced b.seq b.body),
               link := { r.link with retransmissions := k.retransmissions + 1, ackTimer := some 100 } }) := by
  subst link
  unfold retransmit modLink
  rw [if_neg (by omega), putAll_eq, modPort_modPort]
  exact modPort_congr rfl

theorem retransmit_at_limit {p : Port} {s : State} (limit : 8 ≤ (s.port p).link.retransmissions) :
    s.retransmit p = (s.linkDown p .retransmit).settle := if_pos limit

theorem port_advance (d : Nat) (s : State) (p : Port) : (s.advance d).port p = portAfter d (s.port p) := tget_tmap _ _ _

theorem exec_acknowledgementTimeout {p : Port} {s : State} {d : Nat} (live : s.live = true)
    (up : (s.port p).link.state = .up) (timer : (s.port p).link.ackTimer = some d) :
    exec (.acknowledgementTimeout p) s = .next ((s.advance d).retransmit p) := by
  refine next_whenLive live ?_
  simp only [up, timer]

/-- Settles O11, by the retransmission count. -/
theorem retransmissionOrLinkDown : Obligations.RetransmissionOrLinkDown := by
  refine ⟨fun p s d live up timer => ⟨fun below => ?_, fun limit => ?_⟩,
    fun p q i s live up place => ⟨fun below => ?_, fun first limit => ?_⟩⟩
  · have link := congrArg PortRecord.link (port_advance d s p)
    rw [exec_acknowledgementTimeout live up timer, retransmit_below link below]
    rfl
  · have limit' : 8 ≤ ((s.advance d).port p).link.retransmissions := by rw [port_advance]; exact limit
    rw [exec_acknowledgementTimeout live up timer, retransmit_at_limit limit']
  · have inside := lt_length_of_placeOf place
    have gone : (s.port p).link.buffer.take i = [] ↔ i = 0 := by
      simp only [List.take_eq_nil_iff, or_iff_left_iff_imp]
      intro empty
      simp [empty] at inside
    have link := link_dropOldest p i s
    have drop := dropOldest_eq p i s
    simp only [gone] at link drop
    rw [exec_nak live up place, retransmit_below link (by dsimp only; split <;> omega), drop]
  · subst first
    have limit' : 8 ≤ ((s.dropOldest p 0).port p).link.retransmissions := by rw [link_dropOldest]; exact limit
    rw [exec_nak live up place, retransmit_at_limit limit', dropOldest_eq]
    rfl

/-! ### The removal of a packet that carried a notice (R167, R168) -/

theorem reportLost_none {p : Port} {s : State} (h : (s.port p).lost = 0) : s.reportLost p = s := if_pos h

theorem reportLost_some {p : Port} {s : State} (h : (s.port p).lost ≠ 0) : s.reportLost p =
    s.modPort p (fun r =>
      { r with notices := r.notices ++
                 [{ notice := { kind := .noticesLost, subject := none, value := wordOf r.lost }, sent := false,
                    readyAt := r.nextReady }],
               lost := 0, nextReady := r.nextReady + 1 }) := if_neg h

theorem leaveQueue_gone {p : Port} {n : Nat} {s : State} (h : ∀ e ∈ (s.port p).notices, e.readyAt ≠ n) :
    s.leaveQueue p (some n) = s := by
  refine if_neg ?_
  simpa using h

theorem leaveQueue_here {p : Port} {n : Nat} {s : State} (h : ∃ e ∈ (s.port p).notices, e.readyAt = n) :
    s.leaveQueue p (some n) =
      (s.modPort p (fun r => { r with notices := r.notices.filter (fun e => e.readyAt != n) })).reportLost p := by
  refine if_pos ?_
  simpa using h

/-- Settles O14, packet by packet. -/
theorem acknowledgedNoticeLeaves : Obligations.AcknowledgedNoticeLeaves := by
  refine ⟨fun p n s l r e kind queue here others => ?_, fun p b bs s => ⟨rfl, rfl, fun none => ?_, fun n source =>
    ⟨fun gone => ?_, fun here whole => ?_, fun here lost => ?_⟩⟩⟩
  · have before : ∀ x ∈ l, mergesInto n x = false := fun x mem => mergesInto_eq_false_iff.mpr (Or.inr (others x mem))
    exact hand_of_merges queue before (mergesInto_iff.mpr ⟨kind, here⟩)
  all_goals rw [acknowledged, acknowledged]
  · rw [none]
    rfl
  · rw [source, leaveQueue_gone gone]
  · rw [source, leaveQueue_here here, reportLost_none]
    simpa using whole
  · rw [source, leaveQueue_here here, reportLost_some (by simpa using Nat.pos_iff_ne_zero.mp lost), modPort_modPort]

end Sys2Proof.Machine.State
end

section
/-!
PROOFS. The order of packets to the master: what LINK_SEND takes, and what it passes over (R160).
-/

namespace Sys2Proof.Machine.State

/-! ### The earliest of some items -/

theorem earliest_none {l : List Outgoing} : Outgoing.earliest l = none ↔ l = [] := by
  cases l with
  | nil => simp [Outgoing.earliest]
  | cons x xs =>
    simp only [Outgoing.earliest, reduceCtorEq, iff_false]
    split
    · simp
    · split <;> simp

theorem earliest_some {l : List Outgoing} {x : Outgoing} (h : Outgoing.earliest l = some x) :
    x ∈ l ∧ ∀ y ∈ l, x.ready ≤ y.ready := by
  induction l generalizing x with
  | nil => simp [Outgoing.earliest] at h
  | cons z zs ih =>
    unfold Outgoing.earliest at h
    split at h
    case h_1 none =>
      obtain rfl := Option.some.inj h
      simp [earliest_none.mp none]
    case h_2 y later =>
      obtain ⟨mem, least⟩ := ih later
      split at h <;> obtain rfl := Option.some.inj h
      case isTrue lt =>
        exact ⟨List.mem_cons_of_mem _ mem, List.forall_mem_cons.mpr ⟨lt.le, least⟩⟩
      case isFalse ge =>
        exact ⟨List.mem_cons_self, List.forall_mem_cons.mpr ⟨le_rfl, fun a m => (not_lt.mp ge).trans (least a m)⟩⟩

/-! ### What a link can send -/

theorem mem_readReplies {s : State} {p : Port} {x : Outgoing} : x ∈ s.readReplies p ↔
    ∃ t, (s.readTag p t).state = .ready ∧ x = .readReply t ((s.readTag p t).readyAt.getD 0) := by
  simp only [readReplies, List.mem_filterMap, mem_tall, true_and, Option.ite_none_right_eq_some, Option.some.injEq,
    eq_comm (b := x)]

theorem mem_tall_two (t : CmdTag) : t ∈ tall 2 := List.mem_finRange t

theorem mem_cmdReplies {s : State} {p : Port} {x : Outgoing} : x ∈ s.cmdReplies p ↔
    ∃ t, ((s.cmdTag p t).state = .ready ∧ (s.cmdTag p t).restartHeld = false) ∧
      x = .cmdReply t ((s.cmdTag p t).readyAt.getD 0) := by
  simp only [cmdReplies, List.mem_filterMap, mem_tall_two, true_and, Option.ite_none_right_eq_some, Option.some.injEq,
    eq_comm (b := x)]

theorem mem_waitingNotice {s : State} {p : Port} {x : Outgoing} : x ∈ s.waitingNotice p ↔
    ∃ e, (s.port p).notices.find? (fun y => !y.sent) = some e ∧ x = .notice e := by
  simp [waitingNotice, eq_comm]

/-- The items of R160 in one list, tag by tag and then the notice. -/
theorem nextOutgoing_none {s : State} {p : Port} : s.nextOutgoing p = none ↔
    (∀ t, (s.readTag p t).state ≠ .ready) ∧
    (∀ t, (s.cmdTag p t).state = .ready → (s.cmdTag p t).restartHeld = true) ∧
    (∀ e ∈ (s.port p).notices, e.sent = true) := by
  rw [nextOutgoing, earliest_none, List.append_eq_nil_iff, List.append_eq_nil_iff, and_assoc]
  refine and_congr ?_ (and_congr ?_ ?_)
  · simp [readReplies, List.filterMap_eq_nil_iff, mem_tall]
  · simp only [cmdReplies, List.filterMap_eq_nil_iff, mem_tall_two, forall_const, ite_eq_right_iff, reduceCtorEq,
      imp_false, not_and, Bool.not_eq_false]
  · simp [waitingNotice]

theorem nextOutgoing_some {s : State} {p : Port} {x : Outgoing} (h : s.nextOutgoing p = some x) :
    (x ∈ s.readReplies p ∨ x ∈ s.cmdReplies p ∨ x ∈ s.waitingNotice p) ∧
    (∀ y ∈ s.readReplies p, x.ready ≤ y.ready) ∧ (∀ y ∈ s.cmdReplies p, x.ready ≤ y.ready) ∧
    (∀ y ∈ s.waitingNotice p, x.ready ≤ y.ready) := by
  obtain ⟨mem, least⟩ := earliest_some h
  simp only [List.mem_append] at mem least
  exact ⟨or_assoc.mp mem, fun y m => least y (.inl (.inl m)), fun y m => least y (.inl (.inr m)),
    fun y m => least y (.inr m)⟩

/-! ### One packet sent -/

theorem sendNew_eq (p : Port) (b : Body) (source : Option Nat) (s : State) :
    s.sendNew p b source = s.sent p b source := by
  unfold sendNew put modLink sent
  rw [modPort_modPort]
  exact modPort_congr rfl

theorem exec_linkSend {p : Port} {s : State} (live : s.live = true) (up : s.linkUp p = true) :
    exec (.linkSend p) s = .next (s.sendOne p) := next_whenLive live (if_pos up)

theorem sendOne_owed {p : Port} {s : State} {a : Owed} (owed : (s.port p).link.owed = some a) :
    s.sendOne p = s.modPort p (fun r =>
      { r with wire := r.wire ++ [owedPacket a], link := { r.link with owed := none } }) := by
  unfold sendOne
  rw [owed]
  exact modPort_modPort _ _ _ _

/-- With nothing owed and room in the buffer the next item is taken. -/
theorem sendOne_next {p : Port} {s : State} {x : Outgoing} (owed : (s.port p).link.owed = none)
    (room : (s.port p).link.buffer.length < 4) (next : s.nextOutgoing p = some x) :
    s.sendOne p = s.takeOutgoing p x := by
  simp only [sendOne, owed, if_pos room, next]

theorem sendOne_nothing {p : Port} {s : State} (owed : (s.port p).link.owed = none)
    (nothing : 4 ≤ (s.port p).link.buffer.length ∨ s.nextOutgoing p = none) : s.sendOne p = s := by
  unfold sendOne
  rw [owed]
  rcases nothing with full | none
  · exact if_neg (not_lt.mpr full)
  · simp only [none, ite_self]

theorem restartReply_iff {r : CmdTagRecord} :
    restartReply r = true ↔ r.command = some .restartHub ∧ r.status = some .ok := by
  simp [restartReply]

/-- Settles O12, by what is owed, the room in the buffer and the kind of the item. -/
theorem linkSendOrder : Obligations.LinkSendOrder := by
  refine ⟨fun p s a live up owed => ?_, fun p s live up owed => ⟨fun nothing => ?_, fun room =>
    ⟨fun t n next => ?_, fun t n next => ?_, fun e next => ?_⟩⟩, fun p s x next => ?_, fun p s => nextOutgoing_none,
    fun p s down => next_whenLive_same (if_neg (ne_true_of_eq_false down))⟩
  · rw [exec_linkSend live up, sendOne_owed owed]
    cases a <;> rfl
  · rw [exec_linkSend live up, sendOne_nothing owed nothing]
  · rw [exec_linkSend live up, sendOne_next owed room next, takeOutgoing, sendNew_eq]
    rfl
  · rw [exec_linkSend live up, sendOne_next owed room next, takeOutgoing, sendNew_eq]
    simp only [restartReply_iff]
    rfl
  · rw [exec_linkSend live up, sendOne_next owed room next, takeOutgoing, sendNew_eq]
  · obtain ⟨mem, reads, cmds, notices⟩ := nextOutgoing_some next
    refine ⟨fun t ready => reads _ (mem_readReplies.mpr ⟨t, ready, rfl⟩),
      fun t ready free => cmds _ (mem_cmdReplies.mpr ⟨t, ⟨ready, free⟩, rfl⟩),
      fun e found => notices _ (mem_waitingNotice.mpr ⟨e, found, rfl⟩), ?_⟩
    rcases mem with read | cmd | notice
    · obtain ⟨t, ready, rfl⟩ := mem_readReplies.mp read
      exact ⟨ready, rfl⟩
    · obtain ⟨t, ⟨ready, free⟩, rfl⟩ := mem_cmdReplies.mp cmd
      exact ⟨ready, free, rfl⟩
    · obtain ⟨e, found, rfl⟩ := mem_waitingNotice.mp notice
      exact found

end Sys2Proof.Machine.State
end

section
/-!
PROOFS. Dispatch of a CMD packet: protocol errors (R162), what is answered before a command's own checks (R163, R181)
and to a held port (R29 and the rules beside it), and how an answer reaches its tag (R164).
-/

namespace Sys2Proof.Machine.State

/-! ### Dispatch, for every command -/

/-- What a command does once it is dispatched: its body on the state with its tag OPEN. -/
theorem next_dispatched {p : Port} {q : Seq} {t : CmdTag} {c : Command} {s u : State} {held : Option Word}
    {body : State → State} (d : s.Dispatched p q t c) (h : body (s.opened p q t (some c)) = u) :
    (Host.Outcome.next (s.whenLive (command p q t c true held body)) : Host.Outcome State Fault Refusal) = .next u := by
  rw [whenLive_takes d.1, command_dispatched d, h]

/-- What dispatch does with a CMD packet of any header whose tag is FREE; `body` is the command's own meaning. -/
def headed (h : CmdHeader) (body : State → State) (s : State) : State :=
  if h.counted = false then s.answer h.port h.tag .badArgument []
  else if s.started = false then
    match h.held with
    | some a => s.holdArgs h.port h.tag [a]
    | none => s.answer h.port h.tag .portHeld []
  else
    match h.command with
    | some c => if s.hasRight h.port c.right then body s else s.answer h.port h.tag .noRight []
    | none => body s

/-- The packet of a CMD header, against its tag: a reused tag, or dispatch. -/
def againstTag (h : CmdHeader) (body : State → State) (s : State) : State :=
  if (s.cmdTag h.port h.tag).state ≠ .free then
    s.protocolError h.port .reusedTag PacketKind.cmd (some h.tag.val)
  else headed h body (s.openCmd h.port h.tag h.command)

/-- Every CMD packet is taken by R156 and then against its tag. -/
theorem exec_header {c : Instr} {h : CmdHeader} (header : cmdHeader c = some h) :
    ∃ body, ∀ s : State, exec c s = .next (s.whenLive (sequenced h.port h.seq (againstTag h body))) := by
  cases c
  all_goals cases header
  case unknownOpcode => exact ⟨id, fun _ => rfl⟩
  all_goals exact ⟨_, fun _ => rfl⟩

theorem exec_header_taken {c : Instr} {h : CmdHeader} (header : cmdHeader c = some h) :
    ∃ body, ∀ s : State, s.Takes h.port h.seq →
      exec c s = .next (againstTag h body (s.taken h.port h.seq)) := by
  obtain ⟨body, run⟩ := exec_header header
  refine ⟨body, fun s takes => ?_⟩
  rw [run, whenLive_takes takes, sequenced_takes takes]

/-- A CMD packet whose tag is FREE is dispatched with the tag OPEN. -/
theorem exec_header_free {c : Instr} {h : CmdHeader} (header : cmdHeader c = some h) :
    ∃ body, ∀ s : State, s.Takes h.port h.seq → (s.cmdTag h.port h.tag).state = .free →
      exec c s = .next (headed h body (s.opened h.port h.seq h.tag h.command)) := by
  obtain ⟨body, run⟩ := exec_header_taken header
  refine ⟨body, fun s takes free => ?_⟩
  rw [run s takes, againstTag, cmdTag_taken, if_neg (by simp [free]), openCmd_taken]

/-! ### Protocol errors (R162) -/

theorem read_taken {p : Port} {q : Seq} {t : ReadTag} {a : BitVec 24} {n : Byte} {s : State} (takes : s.Takes p q) :
    exec (.read p q t a n) s = .next
      (if ((s.taken p q).readTag p t).state ≠ .free then
        (s.taken p q).protocolError p .reusedTag PacketKind.read (some t.val)
      else ((s.taken p q).openRead p t a n.toNat).readBodyOf p t a.toNat n.toNat) :=
  next_whenLive takes.1 (sequenced_takes takes _)

theorem readTag_taken (p : Port) (q : Seq) (s : State) (t : ReadTag) : (s.taken p q).readTag p t = s.readTag p t := by
  simp [readTag, taken]

theorem sequencedKind_iff {kind : Byte} :
    sequencedKind kind = true ↔ kind ∈ [0x10#8, 0x11#8, 0x20#8, 0x21#8, 0x30#8] := by
  simp [sequencedKind, ← BitVec.toNat_inj]

/-- Settles O15, by the packet's kind. -/
theorem protocolErrorsAreReported : Obligations.ProtocolErrorsAreReported := by
  refine ⟨fun c h s header takes reused => ?_, fun p q t a n s takes reused => ?_,
    fun p kind q s => ⟨fun known takes => ?_, fun unknown => ⟨fun live up => ?_, fun down => ?_⟩⟩⟩
  · obtain ⟨body, run⟩ := exec_header_taken header
    rw [run s takes, againstTag, cmdTag_taken, if_pos reused]
    rfl
  · rw [read_taken takes, readTag_taken, if_pos reused]
    rfl
  · refine next_whenLive takes.1 ((if_pos (sequencedKind_iff.mpr known)).trans ?_)
    exact sequenced_takes takes _
  · exact next_whenLive live ((if_neg (fun k => unknown (sequencedKind_iff.mp k))).trans (if_pos up))
  · exact next_whenLive_same
      ((if_neg (fun k => unknown (sequencedKind_iff.mp k))).trans (if_neg (ne_true_of_eq_false down)))

/-! ### The answers of dispatch (R163, R181) -/

theorem headed_uncounted {h : CmdHeader} {body : State → State} {s : State} (counted : h.counted = false) :
    headed h body s = s.answer h.port h.tag .badArgument [] := if_pos counted

theorem headed_starting {h : CmdHeader} {body : State → State} {s : State} (counted : h.counted = true)
    (starting : s.started = false) (plain : h.held = none) :
    headed h body s = s.answer h.port h.tag .portHeld [] := by
  simp [headed, counted, starting, plain]

theorem headed_held {h : CmdHeader} {body : State → State} {s : State} {a : Word} (counted : h.counted = true)
    (starting : s.started = false) (status : h.held = some a) :
    headed h body s = s.holdArgs h.port h.tag [a] := by
  simp [headed, counted, starting, status]

theorem headed_no_right {h : CmdHeader} {body : State → State} {s : State} {k : Command} (counted : h.counted = true)
    (started : s.started = true) (command : h.command = some k) (right : s.hasRight h.port k.right = false) :
    headed h body s = s.answer h.port h.tag .noRight [] := by
  simp [headed, counted, started, command, right]

theorem hasRight_opened (p : Port) (q : Seq) (t : CmdTag) (c : Option Command) (s : State) (x : Port) (r : Right) :
    (s.opened p q t c).hasRight x r = s.hasRight x r := hasRight_modPort _ _ _ _ _

theorem holdArgs_opened (p : Port) (q : Seq) (t : CmdTag) (c : Option Command) (a : List Word) (s : State) :
    (s.opened p q t c).holdArgs p t a = s.modPort p (fun r =>
      { r with link := { r.link with recvSeq := r.link.recvSeq + 1, owed := some (.ack q) },
               cmdTags := tset r.cmdTags t { CmdTagRecord.reset with state := .opened, command := c, args := a } }) := by
  simp [holdArgs, modCmdTag, opened]

theorem answer_discard {s : State} {p : Port} {t : CmdTag} (h : (s.cmdTag p t).state = .discard) (st : Status)
    (res : List Word) :
    s.answer p t st res = s.modPort p (fun r => { r with cmdTags := tset r.cmdTags t CmdTagRecord.reset }) := by
  simp only [answer, h]
  rfl

/-- Settles O16: dispatch by the header, and an answer by the state of its tag. -/
theorem dispatchAnswersFirst : Obligations.DispatchAnswersFirst := by
  refine ⟨⟨fun c h s header takes free => ?_, fun p q t x s d other right => ?_, fun p s k => ?_⟩,
    fun p t st res s => ⟨fun opened => answer_opened opened st res, fun discard => answer_discard discard st res, rfl,
      rfl⟩⟩
  · obtain ⟨body, run⟩ := exec_header_free header
    rw [run s takes free]
    refine ⟨fun counted => ?_, fun counted starting plain => ?_, fun a counted starting status => ?_,
      fun k counted started command right => ?_⟩
    · rw [headed_uncounted counted, answer_of_opened]
    · rw [headed_starting counted (by rw [started_opened, starting]) plain, answer_of_opened]
    · rw [headed_held counted (by rw [started_opened, starting]) status, holdArgs_opened]
    · rw [headed_no_right counted (by rw [started_opened, started]) command (by rw [hasRight_opened, right]),
        answer_of_opened]
  · refine next_dispatched d ?_
    have arg : portArg (wordOf x.val) = some x := portArg_some (by simp [wordOf]; omega)
    have lacks : ¬ (x = p ∨ (s.opened p q t (some .statusPort)).hasRight p .supervise = true) := by
      rw [hasRight_opened]
      exact fun h => h.elim other (ne_true_of_eq_false right)
    simp only [statusPortBody, arg, if_neg lacks, answer_of_opened]
  · cases k <;> rfl

/-! ### Held ports -/

/-- A body that answers a held port PORT_HELD and does nothing else. -/
def RefusesHeld (p : Port) (t : CmdTag) (body : State → State) : Prop :=
  ∀ x : State, x.portHeld p = true → body x = x.answer p t .portHeld []

/-- The commands that refuse a held port check that first; those that the binding unit takes, after the unbinding items
of the port (R41). -/
theorem exec_heldCommand {c : Instr} {h : CmdHeader} {k : Command} (header : cmdHeader c = some h)
    (command : h.command = some k) (counted : h.counted = true) (held : heldCommand k = true) :
    ∃ body, RefusesHeld h.port h.tag body ∧ ∀ s : State, exec c s = .next (s.whenLive
      (State.command h.port h.seq h.tag k h.counted h.held
        (if windowCommand k then afterUnbinds h.port body else body))) := by
  cases c
  case unknownOpcode => cases header; cases counted
  all_goals cases header
  all_goals cases command
  all_goals cases held
  all_goals exact ⟨_, fun x on => if_pos on, fun s => rfl⟩

theorem takeUnbinds_held {p : Port} {s : State} (held : s.Held p) : (s.takeUnbinds p).portHeld p = true := by
  obtain ⟨-, -, -, -, same⟩ := takeUnbinds_spec p s
  rw [same, portHeld_iff]
  exact held

/-- Settles O17: the refusal comes at once, or after the unbinding items that wait. -/
theorem heldPortsAreRefused : Obligations.HeldPortsAreRefused := by
  intro c h k s header command counted d held refuses
  obtain ⟨body, refused, run⟩ := exec_heldCommand header command counted refuses
  have on : s.portHeld h.port = true := (portHeld_iff s _).mpr held
  rw [run s, counted]
  refine ⟨fun nothing => next_dispatched d ?_, fun windows waits => next_dispatched d ?_⟩
  · have direct : (if windowCommand k then afterUnbinds h.port body else body) (s.opened h.port h.seq h.tag (some k)) =
        body (s.opened h.port h.seq h.tag (some k)) := by
      split
      case isTrue windows =>
        have none : .unbindAll ∉ (s.port h.port).bindItems := nothing.resolve_left (by simp [windows])
        exact afterUnbinds_none _ (by rw [unbindWaits_opened, unbindWaits_false none])
      · rfl
    rw [direct, refused _ (by rw [portHeld_opened, on]), answer_of_opened]
  · rw [if_pos windows, afterUnbinds_some _ (by rw [unbindWaits_opened, unbindWaits_iff]; exact waits),
      takeUnbinds_opened, refused _ (by rw [portHeld_opened, takeUnbinds_held held]), answer_of_opened]

end Sys2Proof.Machine.State
end

section
/-!
PROOFS. Pins and windows: what an unpin does (R11, R19), the checks of a binding (R29, R30), and the commands of the
binding unit (R29 to R32).
-/

namespace Sys2Proof.Machine.State

/-! ### Pins (R11, R19) -/

theorem frame_toDirty (n : SlotNo) (s : State) (f : FrameNo) :
    (s.toDirty n).frame f = if (s.frame f).slot = some n then Frame.reset else s.frame f :=
  tget_tmap _ _ _

/-- Settles O18: the parts of `toDirty` and the test of `afterUnpin`. -/
theorem unpinsReleaseRetiredSlots : Obligations.UnpinsReleaseRetiredSlots :=
  ⟨fun n s => ⟨rfl, frame_toDirty n s, rfl, rfl, rfl⟩, fun _ _ => ⟨rfl, rfl, rfl⟩⟩

/-! ### The checks of a binding (R29, R30) -/

theorem bindPin_empty {l : LineNo} {s : State} (h : (s.line l).state = .empty) : s.bindPin l = .error .noLine := by
  simp only [bindPin, h]

theorem bindPin_damaged {l : LineNo} {s : State} (h : (s.line l).state = .damaged) : s.bindPin l = .error .damaged := by
  simp only [bindPin, h]

theorem bindPin_active {l : LineNo} {n : SlotNo} {s : State} (h : (s.line l).state = .active)
    (current : (s.line l).current = some n) :
    s.bindPin l = .ok (n, (s.line l).generation,
      s.modSlot n (fun r => { r with windowPins := r.windowPins + 1 })) := by
  simp only [bindPin, h, current]

/-- Past the checks on its arguments, a binding is by the window, by the other windows and by the bind pin. -/
theorem bindTo_of_args {p : Port} {w : WindowNo} {base size line offset : Nat} {boot : Bool} {s : State} {l : LineNo}
    (args : s.bindArgs base size line offset = some l) :
    s.bindTo p w base size line offset boot =
      if (s.window p w).isSome then .error .busy
      else if s.overlaps p base size then .error .overlap
      else
        match s.bindPin l with
        | .error e => .error e
        | .ok (n, g, s) =>
          .ok (n, g, s.setWindow p w (some
            { base := base, size := size, line := l, offset := offset, slot := n, generation := g, boot := boot })) := by
  simp only [bindTo, args] <;> rfl

/-- Settles O19, check by check. -/
theorem windowChecksInOrder : Obligations.WindowChecksInOrder := by
  intro p w base size line offset boot s fits meets
  have args : ∀ f : fits, s.bindArgs base size line offset = some ⟨line, f.2.2.2.1⟩ := fun f =>
    (bindArgs_some _ _ _ _ _ _).mpr ⟨f, rfl⟩
  refine ⟨fun misfit => ?_, fun f bound => ?_, fun f free apart => ?_, fun l f number free apart => ?_⟩
  · simp only [bindTo, (bindArgs_none _ _ _ _ _).mpr misfit]
  · rw [bindTo_of_args (args f), if_pos (Option.isSome_iff_ne_none.mpr bound)]
  · rw [bindTo_of_args (args f), free, if_neg (by simp), if_pos ((overlaps_iff _ _ _ _).mpr apart)]
  · subst number
    rw [bindTo_of_args (args f), free, if_neg (by simp), if_neg (fun o => apart ((overlaps_iff _ _ _ _).mp o))]
    refine ⟨fun empty => ?_, fun damaged => ?_, fun n active current => ?_⟩
    · simp only [bindPin_empty empty]
    · simp only [bindPin_damaged damaged]
    · simp only [bindPin_active active current]
      rfl

/-! ### The commands of the binding unit, with no unbinding item waiting -/

/-- A command of the binding unit from a port that is not held, with no unbinding item waiting (R41). -/
theorem next_windowCommand {p : Port} {q : Seq} {t : CmdTag} {c : Command} {s u : State} {f : State → State}
    (d : s.Dispatched p q t c) (none : .unbindAll ∉ (s.port p).bindItems) (h : f (s.opened p q t (some c)) = u) :
    (Host.Outcome.next (s.whenLive (simpleCommand p q t c (afterUnbinds p f))) :
      Host.Outcome State Fault Refusal) = .next u :=
  next_dispatched d ((afterUnbinds_none f (by rw [unbindWaits_opened, unbindWaits_false none])).trans h)

theorem not_held_opened {p : Port} {q : Seq} {t : CmdTag} {c : Option Command} {s : State} (h : ¬ s.Held p) :
    ¬ (s.opened p q t c).portHeld p = true := by
  rw [portHeld_opened, portHeld_iff]
  exact h

/-- A tag that stays OPEN: the answer to its command reaches it (R164). -/
theorem answer_of_cmdTags {s u : State} {p : Port} {q : Seq} {t : CmdTag} {c : Option Command}
    (same : (u.port p).cmdTags = ((s.opened p q t c).port p).cmdTags) (st : Status) (res : List Word) :
    u.answer p t st res = u.replied p t st res := by
  refine answer_opened ?_ st res
  rw [cmdTag, same]
  exact congrArg CmdTagRecord.state (cmdTag_opened p q t c s)

theorem cmdTags_setWindow (p : Port) (w : WindowNo) (b : Option Binding) (s : State) :
    ((s.setWindow p w b).port p).cmdTags = (s.port p).cmdTags := by
  simp [setWindow]

theorem cmdTags_windowUnpin (n : SlotNo) (s : State) (p : Port) :
    ((s.windowUnpin n).port p).cmdTags = (s.port p).cmdTags := by
  rw [port, (unpins_windowUnpin n s).rest]
  rfl

theorem cmdTags_bindTo {p : Port} {w : WindowNo} {a b c d : Nat} {e : Bool} {s u : State} {n : SlotNo} {g : Nat}
    (h : s.bindTo p w a b c d e = .ok (n, g, u)) : (u.port p).cmdTags = (s.port p).cmdTags := by
  unfold bindTo bindPin at h
  split at h
  · cases h
  · split at h
    · cases h
    · split at h
      · cases h
      · split at h <;> cases h
        rename_i pinned
        split at pinned <;> cases pinned
        exact cmdTags_setWindow _ _ _ _

/-- Settles O20, by the window named. -/
theorem bindAndUnbind : Obligations.BindAndUnbind := by
  refine ⟨fun p q t window base size line offset s d free none => ⟨fun past => ?_, fun w number =>
    ⟨fun e refused => ?_, fun n g u bound => ?_⟩⟩, fun p q t window s d free none => ⟨fun past => ?_,
    fun w number unbound => ?_, fun w b number bound => ?_⟩⟩
  all_goals refine next_windowCommand d none ((if_neg (not_held_opened free)).trans ?_)
  · simp only [windowArg_none past, answer_of_opened]
  · simp only [windowArg_some number, refused, answer_of_opened]
  · simp only [windowArg_some number, bound]
    exact answer_of_cmdTags (cmdTags_bindTo bound) _ _
  · simp only [windowArg_none past, answer_of_opened]
  · simp only [windowArg_some number, window_opened, unbound, answer_of_opened]
  · simp only [windowArg_some number, window_opened, bound]
    congr 1
    exact answer_of_cmdTags (s := s) (q := q) (c := some .unbind)
      ((cmdTags_setWindow _ _ _ _).trans (cmdTags_windowUnpin _ _ _)) _ _

/-! ### REBIND (R32) -/

theorem rebindTakes_iff {l : Option LineNo} {b : Binding} : rebindTakes l b = true ↔ l = none ∨ l = some b.line := by
  cases l with
  | none => simp [rebindTakes]
  | some l => simpa [rebindTakes] using eq_comm

theorem rebindPin_moves {l : LineNo} {n c : SlotNo} {s : State} (current : (s.line l).current = some c)
    (older : (s.slot n).generation.getD 0 < (s.line l).generation) :
    s.rebindPin l n = some (c, (s.line l).generation,
      (s.modSlot c (fun r => { r with windowPins := r.windowPins + 1 })).windowUnpin n) := by
  simp only [rebindPin, current, if_pos older]

theorem rebindPin_stays {l : LineNo} {n : SlotNo} {s : State}
    (fresh : (s.line l).generation ≤ (s.slot n).generation.getD 0) : s.rebindPin l n = none := by
  unfold rebindPin
  split
  · rfl
  · exact if_neg (not_lt.mpr fresh)

theorem rebindArg_some {w : Word} {l : Option LineNo} (h : w.toNat = match l with | none => 8 | some l => l.val) :
    rebindArg w = some l := by
  cases l with
  | none => exact if_pos h
  | some l =>
    have below : ¬ w.toNat = 8 := by
      have := l.isLt
      dsimp only at h
      omega
    rw [rebindArg, if_neg below, lineArg_some h]
    rfl

theorem rebindArg_none {w : Word} (h : 8 < w.toNat) : rebindArg w = none := by
  rw [rebindArg, if_neg (by omega), lineArg_none (by omega)]
  rfl

theorem cmdTags_rebindAll (p : Port) (l : Option LineNo) (ws : List WindowNo) (s : State) :
    ((s.rebindAll p l ws).2.port p).cmdTags = (s.port p).cmdTags := by
  induction ws generalizing s with
  | nil => rfl
  | cons w ws ih =>
    unfold rebindAll
    split
    · exact ih s
    · split
      · split
        · exact ih s
        case h_2 moved =>
          refine (ih _).trans ((cmdTags_setWindow _ _ _ _).trans ?_)
          unfold rebindPin at moved
          split at moved
          · cases moved
          · split at moved <;> cases moved
            exact cmdTags_windowUnpin _ _ _
      · exact ih s

/-- Settles O21, by the argument and then window by window. -/
theorem rebindMovesStaleWindows : Obligations.RebindMovesStaleWindows := by
  refine ⟨fun p q t line s d free none => ⟨fun past => ?_, fun l number => ?_⟩,
    fun p l w ws s => ⟨rfl, fun b c bound taken current older => ?_, fun unbound => ?_, fun b bound stays => ?_⟩⟩
  · refine next_windowCommand d none ((if_neg (not_held_opened free)).trans ?_)
    simp only [rebindArg_none past, answer_of_opened]
  · refine next_windowCommand d none ((if_neg (not_held_opened free)).trans ?_)
    simp only [rebindArg_some number]
    congr 1
    exact answer_of_cmdTags (cmdTags_rebindAll p l _ _) _ _
  · simp only [rebindAll, bound, if_pos (rebindTakes_iff.mpr taken), rebindPin_moves current older]
    rfl
  · simp only [rebindAll, unbound]
  · rcases stays with ⟨some', other⟩ | fresh
    · have passed : ¬ rebindTakes l b = true := fun takes => (rebindTakes_iff.mp takes).elim some' other
      simp only [rebindAll, bound, if_neg passed]
    · simp only [rebindAll, bound, rebindPin_stays fresh, ite_self]

end Sys2Proof.Machine.State
end

section
/-!
PROOFS. Pages queued ahead (R61, R62, R53, R50), TOUCH (R62), and the items of the binding unit (R39 to R41).
-/

namespace Sys2Proof.Machine.State

/-! ### Pages queued ahead (R61, R62) -/

theorem queueAhead_passed {n : SlotNo} {i : Nat} {is : List Nat} {s : State}
    (h : (s.resident (s.dataPage n i)).isSome = true ∨ s.isBad (s.dataPage n i) = true) :
    queueAhead n (i :: is) s = queueAhead n is s :=
  if_pos (Bool.or_eq_true_iff.mpr h)

/-- A page neither resident nor bad is queued while 8 places are left after it (R61). -/
theorem queueAhead_considered {n : SlotNo} {i : Nat} {is : List Nat} {s : State}
    (absent : (s.resident (s.dataPage n i)).isSome = false) (good : s.isBad (s.dataPage n i) = false) :
    queueAhead n (i :: is) s =
      if 16 < s.fillCount + 1 + 8 then (0, s)
      else
        match s.queueFill n (s.dataPage n i) .prefetch none with
        | none => (0, s)
        | some (_, s) => ((queueAhead n is s).1 + 1, (queueAhead n is s).2) := by
  rw [queueAhead, absent, good]
  rfl

theorem fillPin_some {n : SlotNo} {s : State} (h : (s.slot n).state = .current ∨ (s.slot n).state = .retired) :
    s.fillPin n = some (s.modSlot n (fun r => { r with fillPins := r.fillPins + 1 })) :=
  if_pos (by simpa [pinnable] using h)

theorem queueFill_some {n : SlotNo} {pg : Nat} {c : FillClass} {p : Option Port} {s : State} {f : FrameNo}
    (pinned : (s.slot n).state = .current ∨ (s.slot n).state = .retired) (frame : s.victim = some f) :
    s.queueFill n pg c p =
      some (f, ((s.modSlot n (fun r => { r with fillPins := r.fillPins + 1 })).allocate f n pg).enqueueFill
        { frame := f, page := pg, slot := n, cls := c, retry := false, port := p, reading := false }) := by
  have same : (s.modSlot n (fun r => { r with fillPins := r.fillPins + 1 })).victim = s.victim := rfl
  simp only [queueFill, fillPin_some pinned, frame]

/-- Settles O23, page by page. -/
theorem pagesQueuedAhead : Obligations.PagesQueuedAhead := by
  intro n i is s
  refine ⟨rfl, queueAhead_passed, fun absent good => ⟨fun full => ?_, fun f room pinned frame => ?_⟩⟩
  · exact (queueAhead_considered absent good).trans (if_pos (by unfold fillCount; omega))
  · refine (queueAhead_considered absent good).trans ((if_neg (by unfold fillCount; omega)).trans ?_)
    rw [queueFill_some pinned frame]
    rfl

/-! ### TOUCH (R62) -/

theorem range'_filter_lt (a n m : Nat) :
    (List.range' a n).filter (fun i => decide (i < m)) = List.range' a (min (a + n) m - a) := by
  have split : List.range' a n =
      List.range' a (min (a + n) m - a) ++ List.range' (a + (min (a + n) m - a)) (n - (min (a + n) m - a)) := by
    rw [List.range'_append_1]
    congr 1
    omega
  rw [split, List.filter_append, List.filter_eq_self.mpr, List.filter_eq_nil_iff.mpr, List.append_nil]
  · intro i member
    rw [List.mem_range'_1] at member
    simp only [decide_eq_true_eq]
    omega
  · intro i member
    rw [List.mem_range'_1] at member
    simp only [decide_eq_true_eq]
    omega

theorem touchPages_eq (s : State) (b : Binding) (a count : Nat) :
    s.touchPages b a count =
      (List.range' ((b.offset + (a - b.base)) / 4096) count).filter
        (fun i => decide (i < min ((b.offset + b.size - 1) / 4096 + 1) (s.dataPages b.slot))) := by
  simp only [touchPages, List.range'_eq_map_range]
  refine List.filter_congr fun i _ => ?_
  rw [← Bool.decide_and, decide_eq_decide]
  omega

theorem windowAt_opened (p : Port) (q : Seq) (t : CmdTag) (c : Option Command) (s : State) (a : Nat) :
    (s.opened p q t c).windowAt p a = s.windowAt p a := by
  simp [windowAt, window, opened]

/-- What TOUCH queues leaves the tags as they were. -/
theorem cmdTags_queueAhead (n : SlotNo) (is : List Nat) (s : State) (p : Port) :
    ((queueAhead n is s).2.port p).cmdTags = (s.port p).cmdTags := by
  rw [(serves_queueAhead n is s).ports p]

/-- Settles O22, by the argument checks in order. -/
theorem touchQueuesPages : Obligations.TouchQueuesPages := by
  refine ⟨fun p q t addr count s d free none => ⟨fun wrong => ?_, fun outside => ?_,
    fun w b least most below inside => ⟨fun down => ?_, fun up => ?_⟩⟩,
    fun p a s => ⟨fun w b => windowAt_some, windowAt_none⟩,
    fun b a count s => ⟨?_, fun i => ?_⟩⟩
  · refine next_windowCommand d none ((if_neg (not_held_opened free)).trans ((if_pos wrong).trans ?_))
    exact answer_of_opened _ _ _ _ _ _ _
  · refine next_windowCommand d none ((if_neg (not_held_opened free)).trans ?_)
    simp only [windowAt_opened, windowAt_none.mpr outside, answer_of_opened, ite_self]
  · refine next_windowCommand d none ((if_neg (not_held_opened free)).trans ((if_neg (by omega)).trans ?_))
    simp only [windowAt_opened, inside, offline_opened, down, if_true, answer_of_opened]
  · refine next_windowCommand d none ((if_neg (not_held_opened free)).trans ((if_neg (by omega)).trans ?_))
    simp only [windowAt_opened, inside, offline_opened, up]
    exact congrArg settle (answer_of_cmdTags (cmdTags_queueAhead _ _ _ _) _ _)
  · exact (touchPages_eq s b a count).trans (range'_filter_lt _ _ _)
  · rw [touchPages_eq, List.mem_filter, List.mem_range'_1, decide_eq_true_eq]
    omega

/-! ### Boot windows (R39, R40, R136) -/

theorem bootCurrent_iff {s : State} {p : Port} {count : Nat} :
    s.bootCurrent p count = true ↔ (s.port p).sup.state = .preloading ∧ (s.port p).sup.bootRequest = count := by
  simp [bootCurrent]

/-- A boot-window item is of the present PRELOADING entry, or of an earlier one (R136). -/
theorem bootCurrent_modPort {p : Port} {f : PortRecord → PortRecord} {s : State} {count : Nat}
    (h : ∀ r, (f r).sup = r.sup) : (s.modPort p f).bootCurrent p count = s.bootCurrent p count := by
  simp [bootCurrent, h]

theorem bootCurrent_false {s : State} {p : Port} {count : Nat}
    (h : (s.port p).sup.state ≠ .preloading ∨ (s.port p).sup.bootRequest ≠ count) :
    ¬ s.bootCurrent p count = true :=
  fun current => h.elim (fun other => other (bootCurrent_iff.mp current).1)
    (fun other => other (bootCurrent_iff.mp current).2)

theorem popBindItem_eq {p : Port} {s : State} {i : BindItem} {rest : List BindItem}
    (items : (s.port p).bindItems = i :: rest) :
    s.popBindItem p = s.modPort p (fun r => { r with bindItems := rest }) :=
  modPort_congr (by rw [items]; rfl)

theorem execBootWindowsBind_eq {p : Port} {s : State} {count : Nat} {rest : List BindItem} (live : s.live = true)
    (items : (s.port p).bindItems = .boot count :: rest) :
    exec (.bootWindowsBind p) s = .next
      (let u := s.modPort p (fun r => { r with bindItems := rest })
       if s.bootCurrent p count then
        (u.bindBoot p [0, 1, 2, 3] (s.portCfg p).bootWindows).2.reportBoot p count
          (u.bindBoot p [0, 1, 2, 3] (s.portCfg p).bootWindows).1
       else u.reportBoot p count []) := by
  refine next_whenLive live ?_
  simp only [items, popBindItem_eq items]
  rw [bootCurrent_modPort (f := fun r => { r with bindItems := rest }) (fun _ => rfl)]
  rfl

theorem execBootWindowsReport_eq {p : Port} {s : State} {x : BootReport} {rest : List BootReport} (live : s.live = true)
    (reports : (s.port p).reports = x :: rest) :
    exec (.bootWindowsReport p) s = .next
      (let u := s.modPort p (fun r => { r with reports := rest })
       if s.bootCurrent p x.count then (u.openPreload p).settle else u) := by
  refine next_whenLive live ?_
  simp only [reports]
  rw [bootCurrent_modPort (f := fun r => { r with reports := rest }) (fun _ => rfl)]

/-! ### The unbinding items (R41, R31) -/

theorem heldCommand_of_window {k : Command} (h : windowCommand k = true) : heldCommand k = true := by
  cases k <;> cases h <;> rfl

/-- BIND, UNBIND, REBIND and TOUCH are taken after the unbinding items of their port. -/
theorem exec_windowCommand {c : Instr} {h : CmdHeader} {k : Command} (header : cmdHeader c = some h)
    (command : h.command = some k) (counted : h.counted = true) (window : windowCommand k = true) :
    ∃ f, ∀ s : State, exec c s = .next (s.whenLive
      (State.command h.port h.seq h.tag k true h.held (afterUnbinds h.port f))) := by
  obtain ⟨f, -, run⟩ := exec_heldCommand header command counted (heldCommand_of_window window)
  rw [counted, if_pos window] at run
  exact ⟨f, run⟩

/-- The unbinding of a restarted port leaves it no BOUND window, and the other ports as they were (R41). -/
theorem restartUnbind_windows (p : Port) (f : PortRecord → PortRecord) (s : State) :
    (∀ w, ((s.modPort p f).unbindAll p [0, 1, 2, 3]).window p w = none) ∧
      ∀ x, x ≠ p → ((s.modPort p f).unbindAll p [0, 1, 2, 3]).port x = s.port x := by
  have u := unbindAll_spec p [0, 1, 2, 3] (s.modPort p f)
  refine ⟨fun w => (u.windows w).trans (if_pos ?_), fun x other => (u.others x other).trans (port_modPort_ne other _ _)⟩
  fin_cases w <;> simp

/-- Settles O24, item by item. -/
theorem bindItemsAreTaken : Obligations.BindItemsAreTaken := by
  refine ⟨⟨fun p count rest s live items => ⟨fun preloading present => ?_, fun past => ?_⟩,
      fun p w ws b bs s => ⟨?_, fun e skipped => ?_, fun n g u bound => ?_⟩,
      fun p x rest s live reports => ⟨fun preloading present => ?_, fun past => ?_⟩⟩,
    ⟨fun p s live waits => ?_, fun p w ws s => ⟨rfl, fun unbound => ?_, fun b bound => ?_⟩, fun p s none => ?_⟩,
    fun p s => ⟨rfl, ?_⟩, fun c h k s header command counted d window waits => ?_⟩
  · rw [execBootWindowsBind_eq live items]
    exact congrArg Host.Outcome.next (if_pos (bootCurrent_iff.mpr ⟨preloading, present⟩))
  · rw [execBootWindowsBind_eq live items]
    exact congrArg Host.Outcome.next (if_neg (bootCurrent_false past))
  · cases ws <;> rfl
  · simp only [bindBoot, skipped]
    rfl
  · simp only [bindBoot, bound]
  · rw [execBootWindowsReport_eq live reports]
    exact congrArg Host.Outcome.next (if_pos (bootCurrent_iff.mpr ⟨preloading, present⟩))
  · rw [execBootWindowsReport_eq live reports]
    exact congrArg Host.Outcome.next (if_neg (bootCurrent_false past))
  · obtain ⟨unbound, others⟩ :=
      restartUnbind_windows p (fun r => { r with bindItems := r.bindItems.erase .unbindAll }) s
    exact ⟨unbound, others, next_whenLive live (if_pos ((unbindWaits_iff s p).mpr waits))⟩
  · simp only [unbindAll, unbound]
  · simp only [unbindAll, bound]
    rfl
  · exact next_whenLive_same (if_neg (by rw [unbindWaits_iff]; exact none))
  · obtain ⟨unbound, taken, others, -, -⟩ := takeUnbinds_spec p s
    exact ⟨unbound, fun waits => by simp [(unbindWaits_iff _ _).mpr waits] at taken, others⟩
  · obtain ⟨f, run⟩ := exec_windowCommand header command counted window
    obtain ⟨-, taken, -, -, -⟩ := takeUnbinds_spec h.port s
    refine ⟨f ((s.takeUnbinds h.port).opened h.port h.seq h.tag (some k)), ?_, ?_⟩
    · rw [run]
      exact next_dispatched (dispatched_takeUnbinds d) (afterUnbinds_none f (by rw [unbindWaits_opened, taken]))
    · rw [run]
      refine next_dispatched d ((afterUnbinds_some f ?_).trans (by rw [takeUnbinds_opened]))
      rw [unbindWaits_opened, unbindWaits_iff]
      exact waits

end Sys2Proof.Machine.State
end

section
/-!
PROOFS. The read path (R68 to R80): an accepted READ, the lookup of a segment, and the end of a segment.
-/

namespace Sys2Proof.Machine.State

/-! ### An accepted READ (R68 to R71) -/

/-- The record of a READ just accepted (R68). -/
def readRecord (addr : BitVec 24) (count : Nat) : ReadTagRecord :=
  { ReadTagRecord.reset with
    state := .opened, addr := some addr, count := if 1 ≤ count ∧ count ≤ 64 then some count else none }

/-- A READ taken, with the record its tag then has and the readiness numbers it drew. -/
def readTaken (p : Port) (q : Seq) (t : ReadTag) (r : ReadTagRecord) (ready : Nat) (s : State) : State :=
  s.modPort p (fun x =>
    { x with link := { x.link with recvSeq := x.link.recvSeq + 1, owed := some (.ack q) },
             readTags := tset x.readTags t r, nextReady := x.nextReady + ready })

theorem openRead_taken (p : Port) (q : Seq) (t : ReadTag) (addr : BitVec 24) (count : Nat) (s : State) :
    (s.taken p q).openRead p t addr count = s.readTaken p q t (readRecord addr count) 0 := by
  unfold taken openRead modReadTag readTaken
  rw [modPort_modPort]
  rfl

theorem readReady_readTaken (p : Port) (q : Seq) (t : ReadTag) (r : ReadTagRecord) (st : Status) (s : State) :
    (s.readTaken p q t r 0).readReady p t st =
      s.readTaken p q t { r with state := .ready, status := some st, readyAt := some (s.port p).nextReady } 1 := by
  unfold readReady readTaken
  rw [modPort_modPort]
  refine modPort_congr ?_
  dsimp only
  rw [tget_tset_same, tset_tset]
  rfl

theorem modReadTag_readTaken (p : Port) (q : Seq) (t : ReadTag) (r : ReadTagRecord) (f : ReadTagRecord → ReadTagRecord)
    (s : State) : (s.readTaken p q t r 0).modReadTag p t f = s.readTaken p q t (f r) 0 := by
  unfold modReadTag readTaken
  rw [modPort_modPort]
  refine modPort_congr ?_
  dsimp only
  rw [tget_tset_same, tset_tset]

theorem modReadTag_segmented (p : Port) (q : Seq) (t : ReadTag) (r : ReadTagRecord) (f : ReadTagRecord → ReadTagRecord)
    (slots : Vector Slot 16) (gs : List Segment) (s : State) :
    modReadTag p t f { s.readTaken p q t r 0 with slots := slots, segments := gs } =
      { s.readTaken p q t (f r) 0 with slots := slots, segments := gs } :=
  congrArg (fun u : State => { u with slots := slots, segments := gs }) (modReadTag_readTaken p q t r f s)

/-- A READ whose tag is FREE is taken, and settled by the checks of R69 and R70. -/
theorem exec_read {p : Port} {q : Seq} {t : ReadTag} {addr : BitVec 24} {count : Byte} {s : State} (takes : s.Takes p q)
    (free : (s.readTag p t).state = .free) :
    exec (.read p q t addr count) s =
      .next ((s.readTaken p q t (readRecord addr count.toNat) 0).readBodyOf p t addr.toNat count.toNat) := by
  refine next_whenLive takes.1 ?_
  rw [sequenced_takes takes, ← openRead_taken]
  exact if_neg (by rw [readTag_taken, free]; simp)

theorem portHeld_readTaken (p : Port) (q : Seq) (t : ReadTag) (r : ReadTagRecord) (k : Nat) (s : State) :
    (s.readTaken p q t r k).portHeld p = s.portHeld p := by
  simp [portHeld, readTaken]

theorem unbindWaits_readTaken (p : Port) (q : Seq) (t : ReadTag) (r : ReadTagRecord) (k : Nat) (s : State) :
    (s.readTaken p q t r k).unbindWaits p = s.unbindWaits p := by
  simp [unbindWaits, readTaken]

theorem takeUnbinds_readTaken (p : Port) (q : Seq) (t : ReadTag) (r : ReadTagRecord) (k : Nat) (s : State) :
    (s.readTaken p q t r k).takeUnbinds p = (s.takeUnbinds p).readTaken p q t r k :=
  takeUnbinds_modPort (fun _ _ _ => rfl) p s

theorem translate_readTaken (p : Port) (q : Seq) (t : ReadTag) (r : ReadTagRecord) (k : Nat) (s : State) (a n : Nat) :
    (s.readTaken p q t r k).translate p a n = s.translate p a n := by
  have windows : (s.readTaken p q t r k).windowAt p a = s.windowAt p a := by
    simp [windowAt, window, readTaken]
  unfold translate
  rw [windows]
  rfl

/-- Past the checks of R69, an accepted READ is translated, after the unbinding items that wait. -/
theorem readBodyOf_checked {p : Port} {t : ReadTag} {a count : Nat} {s : State} (free : s.portHeld p = false)
    (aligned : a % 4 = 0) (least : 1 ≤ count) (most : count ≤ 64) :
    s.readBodyOf p t a count = s.afterUnbinds p (translateRead p t a count) := by
  rw [readBodyOf, free, if_neg (by simp), if_neg (by omega)]

theorem translateRead_refused {p : Port} {q : Seq} {t : ReadTag} {r : ReadTagRecord} {a count : Nat} {s : State}
    {e : Status} (refused : s.translate p a (4 * count) = .error e) :
    (s.readTaken p q t r 0).translateRead p t a count =
      s.readTaken p q t { r with state := .ready, status := some e, readyAt := some (s.port p).nextReady } 1 := by
  simp only [translateRead, translate_readTaken, refused, readReady_readTaken]

theorem translateRead_settled {p : Port} {q : Seq} {t : ReadTag} {r : ReadTagRecord} {a count : Nat} {s : State}
    {k : SlotNo} {x : Nat} (there : s.translate p a (4 * count) = .ok (k, x)) :
    (s.readTaken p q t r 0).translateRead p t a count =
      ((s.readTaken p q t r 0).addSegments (s.segmentsOf p t k x (4 * count))).modReadTag p t
        (fun r => { r with openSegs := (s.segmentsOf p t k x (4 * count)).length }) := by
  simp only [translateRead, translate_readTaken, there]
  rfl

theorem segmentPin_some {n : SlotNo} {s : State} (h : (s.slot n).state = .current ∨ (s.slot n).state = .retired) :
    s.segmentPin n = some (s.modSlot n (fun r => { r with segmentPins := r.segmentPins + 1 })) :=
  if_pos (by simpa [pinnable] using h)

/-- A segment enters the table with its segment pin (R71). -/
theorem addSegment_eq {g : Segment} {s : State} (h : (s.slot g.slot).state = .current ∨ (s.slot g.slot).state = .retired) :
    s.addSegment g =
      { s with slots := tset s.slots g.slot { s.slot g.slot with segmentPins := (s.slot g.slot).segmentPins + 1 },
               segments := s.segments ++ [g] } := by
  simp only [addSegment, segmentPin_some h]
  rfl

theorem addSegments_two {g h : Segment} {k : SlotNo} {s : State} (first : g.slot = k) (second : h.slot = k)
    (pinned : (s.slot k).state = .current ∨ (s.slot k).state = .retired) :
    s.addSegments [g, h] =
      { s with slots := tset s.slots k { s.slot k with segmentPins := (s.slot k).segmentPins + 2 },
               segments := s.segments ++ [g, h] } := by
  subst first
  rw [addSegments, addSegment_eq pinned, addSegments, addSegments, addSegment_eq]
  · rw [second]
    simp [slot]
  · rw [second]
    simpa [slot] using pinned

theorem segmentsOf_one {s : State} {p : Port} {t : ReadTag} {k : SlotNo} {x n : Nat} (one : x % 4096 + n ≤ 4096) :
    s.segmentsOf p t k x n =
      [{ id := ⟨p, t, .lower⟩, slot := k, page := s.dataPage k (x / 4096), first := x % 4096, length := n,
         place := .lookup, outcome := none }] :=
  if_neg (not_lt.mpr one)

theorem segmentsOf_two {s : State} {p : Port} {t : ReadTag} {k : SlotNo} {x n : Nat} (two : 4096 < x % 4096 + n) :
    s.segmentsOf p t k x n =
      [{ id := ⟨p, t, .lower⟩, slot := k, page := s.dataPage k (x / 4096), first := x % 4096,
         length := 4096 - x % 4096, place := .lookup, outcome := none },
       { id := ⟨p, t, .upper⟩, slot := k, page := s.dataPage k (x / 4096) + 1, first := 0,
         length := x % 4096 + n - 4096, place := .lookup, outcome := none }] :=
  if_pos two

/-- Settles O26, by the checks in order and the pages the request lies on. -/
theorem readsAreAccepted : Obligations.ReadsAreAccepted := by
  intro p q t addr count s takes free a n rec' acceptedIn accepted endedIn ended
  rw [exec_read takes free]
  have apart (h : ¬ s.Held p) : (s.readTaken p q t (readRecord addr count.toNat) 0).portHeld p = false := by
    rw [portHeld_readTaken, portHeld_false h]
  refine ⟨fun held => congrArg Host.Outcome.next ?_, fun held wrong => congrArg Host.Outcome.next ?_,
    fun held aligned least most waits => congrArg Host.Outcome.next ?_,
    fun held aligned least most none => ⟨fun e refused => congrArg Host.Outcome.next ?_, fun k x there pinned =>
      ⟨fun one => congrArg Host.Outcome.next ?_, fun two => congrArg Host.Outcome.next ?_⟩⟩⟩
  · have on : (s.readTaken p q t (readRecord addr count.toNat) 0).portHeld p = true := by
      rw [portHeld_readTaken, portHeld_iff]
      exact held
    exact (if_pos on).trans (readReady_readTaken _ _ _ _ _ _)
  · have off : ¬ (s.readTaken p q t (readRecord addr count.toNat) 0).portHeld p = true := by simp [apart held]
    exact (if_neg off).trans ((if_pos wrong).trans (readReady_readTaken _ _ _ _ _ _))
  · obtain ⟨unbound, -, -, -, -⟩ := takeUnbinds_spec p s
    obtain ⟨-, mine⟩ := takeUnbinds_rest p s
    have outside : (s.takeUnbinds p).windowAt p a = .none :=
      windowAt_none.mpr fun w b bound => by simp [unbound w] at bound
    have ready : ((s.takeUnbinds p).port p).nextReady = (s.port p).nextReady := by rw [mine]
    rw [readBodyOf_checked (apart held) aligned least most,
      afterUnbinds_some _ (by rw [unbindWaits_readTaken, unbindWaits_iff]; exact waits), takeUnbinds_readTaken,
      translateRead_refused (translate_of_no_window _ outside), ready]
    rfl
  all_goals
    rw [readBodyOf_checked (apart held) aligned least most,
      afterUnbinds_none _ (by rw [unbindWaits_readTaken, unbindWaits_false none])]
  · exact translateRead_refused refused
  all_goals
    have pinned' : ((s.readTaken p q t (readRecord addr count.toNat) 0).slot k).state = .current ∨
        ((s.readTaken p q t (readRecord addr count.toNat) 0).slot k).state = .retired := pinned
    rw [translateRead_settled there]
  · rw [segmentsOf_one one, addSegments, addSegments, addSegment_eq pinned']
    exact modReadTag_segmented _ _ _ _ _ _ _ _
  · rw [segmentsOf_two two, addSegments_two (by rfl) (by rfl) pinned']
    exact modReadTag_segmented _ _ _ _ _ _ _ _

/-! ### The lookup of a segment (R47 to R50, R72) -/

/-- The number a search finds is the lowest that passes its test. -/
theorem tfind_iff {α : Type} {n : Nat} {f : α → Bool} {v : Vector α n} {i : Fin n} :
    tfind f v = some i ↔ f (tget v i) = true ∧ ∀ j, j < i → f (tget v j) = false := by
  refine ⟨fun found => ⟨tfind_some found, tfind_first found⟩, fun ⟨passes, below⟩ => ?_⟩
  cases found : tfind f v with
  | none => simp [tfind_none found i] at passes
  | some k =>
    rcases lt_trichotomy k i with less | same | more
    · simpa [below k less] using tfind_some found
    · rw [same]
    · simp [tfind_first found i more] at passes

theorem tfind_none_iff {α : Type} {n : Nat} {f : α → Bool} {v : Vector α n} :
    tfind f v = none ↔ ∀ i, f (tget v i) = false := by
  refine ⟨tfind_none, fun fails => ?_⟩
  cases found : tfind f v with
  | none => rfl
  | some k => simpa [fails k] using tfind_some found

theorem resident_iff (s : State) (pg : Nat) (f : FrameNo) :
    s.resident pg = some f ↔ ((s.frame f).page = some pg ∧ (s.frame f).state ≠ .free) ∧
      ∀ x, x < f → (s.frame x).page = some pg → (s.frame x).state = .free := by
  rw [resident, tfind_iff]
  simp [frame]

theorem resident_none_iff (s : State) (pg : Nat) :
    s.resident pg = none ↔ ∀ x, (s.frame x).page = some pg → (s.frame x).state = .free := by
  rw [resident, tfind_none_iff]
  simp [frame]

theorem isBad_iff (s : State) (pg : Nat) : s.isBad pg = true ↔ ∃ b ∈ s.fill.badPages, b.page = pg := by
  simp [isBad]

theorem isBad_false_iff (s : State) (pg : Nat) : s.isBad pg = false ↔ ∀ b ∈ s.fill.badPages, b.page ≠ pg := by
  simp [isBad]

theorem lookup_hit {id : SegId} {g : Segment} {s : State} {f : FrameNo} (here : s.segment id = some g)
    (found : s.resident g.page = some f) (valid : (s.frame f).state = .valid) :
    s.lookup id =
      ({ s.modFrame f (fun r => { r with uses := r.uses + 1 }) with age := toFront f s.age }).modSegment id
        (fun g => { g with place := .copying }) := by
  simp only [lookup, here, found, if_pos valid]

theorem lookup_join {id : SegId} {g : Segment} {s : State} {f : FrameNo} (here : s.segment id = some g)
    (found : s.resident g.page = some f) (filling : (s.frame f).state ≠ .valid) :
    s.lookup id =
      (s.modFrame f (fun r => { r with waiters := r.waiters ++ [id] })).modSegment id
        (fun g => { g with place := .waiting }) := by
  simp only [lookup, here, found, if_neg filling]

/-- A page in no frame is settled by the cases of R47 that follow. -/
theorem lookup_absent {id : SegId} {g : Segment} {s : State} (here : s.segment id = some g)
    (absent : s.resident g.page = none) :
    s.lookup id =
      if s.isBad g.page then s.finishSegment id .checkFail
      else if s.offline then s.finishSegment id .channelFault
      else if s.fillCount < 16 then
        match s.queueFill g.slot g.page .demand none with
        | none => s
        | some (f, s) =>
          ((s.modFrame f (fun r => { r with waiters := [id] })).modSegment id
            (fun g => { g with place := .waiting })).prefetchAfter id.port g.slot (s.dataIndex g.slot g.page)
      else
        { s.modSegment id (fun g => { g with place := .frameWait }) with frameWait := s.frameWait ++ [id] } := by
  simp only [lookup, here, absent]
  rfl

/-- A segment that waits for the page a new DEMAND entry fills (R50, R53). -/
theorem lookup_allocates {id : SegId} {g : Segment} {s : State} {f : FrameNo} (here : s.segment id = some g)
    (absent : s.resident g.page = none) (good : s.isBad g.page = false) (up : s.offline = false)
    (room : s.fillCount < 16) (pinned : (s.slot g.slot).state = .current ∨ (s.slot g.slot).state = .retired)
    (frame : s.victim = some f) :
    s.lookup id = State.prefetchAfter id.port g.slot (s.dataIndex g.slot g.page)
      { s with
        slots := tset s.slots g.slot { s.slot g.slot with fillPins := (s.slot g.slot).fillPins + 1 },
        frames := tset s.frames f { state := .filling, page := some g.page, slot := some g.slot, waiters := [id],
                                    uses := 0, served := [], data := [] },
        age := s.age.filter (fun x => x != f),
        fill := { s.fill with demand := s.fill.demand ++
          [{ frame := f, page := g.page, slot := g.slot, cls := .demand, retry := false, port := none,
             reading := false }] },
        segments := s.segments.map (fun y => if y.id = id then { y with place := .waiting } else y) } := by
  rw [lookup_absent here absent, good, if_neg (by simp), up, if_neg (by simp), if_pos room,
    queueFill_some pinned frame]
  refine congrArg (State.prefetchAfter id.port g.slot (s.dataIndex g.slot g.page)) ?_
  simp only [modSegment, enqueueFill, modFill, allocate, modFrame, modSlot, State.frame, tget_tset_same, tset_tset]
  rfl

/-- The data pages of a slot are by its image length. -/
theorem dataPages_congr {n : SlotNo} {s u : State} (same : (u.slot n).length = (s.slot n).length) :
    u.dataPages n = s.dataPages n := by
  rw [dataPages, imageLength, same]
  rfl

theorem mayLookup_of_lookup {p : Port} {t : ReadTag} {part : Part} {g : Segment} {s : State}
    (here : s.segment ⟨p, t, part⟩ = some g) (place : g.place = .lookup)
    (after : part = .lower ∨ ∀ l, s.segment ⟨p, t, .lower⟩ = some l → l.place ≠ .lookup) :
    s.mayLookup ⟨p, t, part⟩ = true := by
  simp only [mayLookup, here, place]
  cases part with
  | lower => rfl
  | upper =>
    have past := after.resolve_left (by simp)
    cases lower : s.segment ⟨p, t, .lower⟩ with
    | none => simp
    | some l => simpa using past l lower

/-- Settles O27, by the cases of R47 in their order. -/
theorem lookupCasesInOrder : Obligations.LookupCasesInOrder := by
  refine ⟨fun id g s here => ⟨fun f found valid => ?_, fun f found filling => ?_, fun absent =>
      ⟨fun bad => ?_, fun good down => ?_, fun good up full => ?_, fun f good up room pinned frame => ?_⟩⟩,
    fun s => ⟨fun f => victim_spec, victim_none, fun pg =>
      ⟨resident_iff s pg, resident_none_iff s pg, isBad_iff s pg, isBad_false_iff s pg⟩⟩,
    fun p t part g s live here place after => ?_⟩
  · exact (lookup_hit here found valid).trans rfl
  · exact (lookup_join here found filling).trans rfl
  · exact (lookup_absent here absent).trans (if_pos bad)
  · rw [lookup_absent here absent, good, if_neg (by simp), if_pos down]
  · rw [lookup_absent here absent, good, if_neg (by simp), up, if_neg (by simp),
      if_neg (by unfold fillCount; omega)]
    rfl
  · rw [lookup_allocates here absent good up (by unfold fillCount; omega) pinned frame, prefetchAfter,
      dataPages_congr (s := s) (by simp [slot])]
    rfl
  · exact next_whenLive live (if_pos (mayLookup_of_lookup here place after))

end Sys2Proof.Machine.State
end

section
/-!
PROOFS. The end of a segment and of a copy (R72, R75, R77, R80), and the end of a fill by its check (R54 to R58).
-/

namespace Sys2Proof.Machine.State

/-! ### The end of a segment (R72, R77, R80) -/

/-- A segment DONE with its outcome, and its tag's segments open fallen by one. -/
def segmentDone (id : SegId) (o : Status) (s : State) : State :=
  (s.modSegment id (fun g => { g with place := .done, outcome := some o })).modReadTag id.port id.tag
    (fun r => { r with openSegs := r.openSegs - 1 })

theorem readTag_segmentDone (id : SegId) (o : Status) (s : State) :
    (s.segmentDone id o).readTag id.port id.tag =
      { s.readTag id.port id.tag with openSegs := (s.readTag id.port id.tag).openSegs - 1 } := by
  unfold segmentDone modReadTag readTag
  rw [port_modPort_same]
  exact tget_tset_same _ _ _

/-- The request ends with its last segment. -/
theorem finishSegment_eq (id : SegId) (o : Status) (s : State) :
    s.finishSegment id o =
      if (s.readTag id.port id.tag).openSegs ≤ 1 then (s.segmentDone id o).endRequest id.port id.tag
      else s.segmentDone id o := by
  have last : ((s.segmentDone id o).readTag id.port id.tag).openSegs = 0 ↔
      (s.readTag id.port id.tag).openSegs ≤ 1 := by
    rw [readTag_segmentDone]
    dsimp only
    omega
  exact if_congr last rfl rfl

theorem endRequest_opened {p : Port} {t : ReadTag} {s : State} (h : (s.readTag p t).state = .opened) :
    s.endRequest p t = s.readReady p t (s.replyStatus p t) := by
  simp only [endRequest, h]

theorem endRequest_discard {p : Port} {t : ReadTag} {s : State} (h : (s.readTag p t).state = .discard) :
    s.endRequest p t = s.dropRequest p t := by
  simp only [endRequest, h]

/-- Settles O28, by the state of the request's tag. -/
theorem segmentsFinish : Obligations.SegmentsFinish := by
  refine ⟨fun id o s => ⟨fun more => ?_, fun last opened => ?_, fun last discard => ?_⟩, fun p t s => rfl,
    fun g gs s => ⟨rfl, rfl⟩⟩
  · exact (finishSegment_eq id o s).trans (if_neg (not_le.mpr more))
  · exact (finishSegment_eq id o s).trans ((if_pos last).trans
      (endRequest_opened (by rw [readTag_segmentDone, opened])))
  · exact (finishSegment_eq id o s).trans ((if_pos last).trans
      (endRequest_discard (by rw [readTag_segmentDone, discard])))

/-! ### The end of a copy (R75, R48) -/

theorem segment_id {id : SegId} {g : Segment} {s : State} (h : s.segment id = some g) : g.id = id := by
  simpa using List.find?_some h

theorem mayComplete_iff {g : Segment} {f : FrameNo} {s : State} (copying : g.place = .copying)
    (found : s.resident g.page = some f) :
    s.mayComplete g = true ↔ g.id ∉ (s.frame f).served ∨ (s.frame f).served.head? = some g.id := by
  simp [mayComplete, copying, found]

theorem copied_eq {p : Port} {t : ReadTag} {part : Part} {g : Segment} {f : FrameNo} {s : State}
    (named : g.id = ⟨p, t, part⟩) (found : s.resident g.page = some f) :
    s.copied g = finishSegment ⟨p, t, part⟩ .ok
      ((s.modFrame f (fun r => { r with uses := r.uses - 1,
                                        served := r.served.filter (fun x => x != ⟨p, t, part⟩) })).placeBytes
        ⟨p, t, part⟩ (slice (s.frame f).data g.first g.length)) := by
  have same (d : List Byte) : (s.placeBytes ⟨p, t, part⟩ d).resident g.page = some f := found
  rw [copied, named, copiedBytes, found, releaseUse, same, named]
  rfl

/-- Settles O29: a completion in its turn, and one ahead of it. -/
theorem copiesComplete : Obligations.CopiesComplete := by
  intro p t part g f s live here copying found
  have named := segment_id here
  refine ⟨fun turn => ?_, fun first rest served other later => ?_⟩
  · refine next_whenLive live ?_
    have may : s.mayComplete g = true := (mayComplete_iff copying found).mpr (by rw [named]; exact turn)
    simp only [here, if_pos may, copied_eq named found]
    cases part <;> rfl
  · refine next_whenLive_same ?_
    have early : ¬ s.mayComplete g = true := by
      rw [mayComplete_iff copying found, named, served]
      simp [other, later]
    simp only [here, if_neg early]

/-! ### The end of a fill by its check (R54, R56 to R58) -/

/-- The waiters served are counted in the frame's use count, and copy (R56). -/
theorem serveWaiters_eq (f : FrameNo) (ids : List SegId) (s : State) :
    serveWaiters f ids s =
      { s with frames := tset s.frames f { s.frame f with uses := (s.frame f).uses + ids.length },
               segments := s.segments.map (fun g => if g.id ∈ ids then { g with place := .copying } else g) } := by
  induction ids generalizing s with
  | nil =>
    have frames : tset s.frames f (s.frame f) = s.frames := tset_tget _ _
    have segments : s.segments.map (fun g => if g.id ∈ ([] : List SegId) then { g with place := .copying } else g) =
        s.segments := by simp
    rw [segments]
    exact (congrArg (fun fs => { s with frames := fs }) frames).symm
  | cons i ids ih =>
    have segments (g : Segment) :
        (if (if g.id = i then { g with place := .copying } else g).id ∈ ids then
            { (if g.id = i then { g with place := .copying } else g) with place := .copying }
          else if g.id = i then { g with place := .copying } else g) =
        if g.id ∈ i :: ids then { g with place := .copying } else g := by
      by_cases first : g.id = i <;> by_cases later : g.id ∈ ids <;> simp [first, later]
    rw [serveWaiters, ih]
    simp only [modSegment, modFrame, State.frame, tget_tset_same, tset_tset, List.map_map, Function.comp_def, segments,
      List.length_cons, Nat.add_assoc, Nat.add_comm 1]

theorem fillEnd_matches {e : FillEntry} {d : List Byte} {s : State} (h : s.listEntry e = some (crc32 d)) :
    s.fillEnd e d = s.fillVerified e d :=
  if_pos h

/-- A fill whose check differs from the list's ends by its attempt (R57, R58). -/
theorem fillEnd_differs {e : FillEntry} {d : List Byte} {s : State} (h : s.listEntry e ≠ some (crc32 d)) :
    s.fillEnd e d =
      if e.retry then s.fillBad e (crc32 d)
      else if e.cls = .prefetch ∧ (s.frame e.frame).waiters = [] then s.fillDropped e (crc32 d)
      else s.fillRetried e (crc32 d) :=
  if_neg h

theorem fillVerified_eq (e : FillEntry) (d : List Byte) (s : State) :
    s.fillVerified e d =
      (({ s with
          frames := tset s.frames e.frame
            { s.frame e.frame with
              state := .valid, waiters := [], served := (s.frame e.frame).waiters, data := d,
              uses := (s.frame e.frame).uses + (s.frame e.frame).waiters.length },
          age := e.frame :: s.age.filter (fun x => x != e.frame),
          segments := s.segments.map (fun g =>
            if g.id ∈ (s.frame e.frame).waiters then { g with place := .copying } else g) } : State).removeFill
        e).handOut := by
  rw [fillVerified, serveWaiters_eq]
  simp only [modFrame, State.frame, tget_tset_same, tset_tset]
  rfl

/-- Settles O30, by the check and the attempt. -/
theorem fillsEndByTheirCheck : Obligations.FillsEndByTheirCheck := by
  refine ⟨fun e d s => ⟨fun equal => ?_, fun differs second => ?_, fun differs first ahead none => ?_,
    fun differs first needed => ?_⟩, fun e s => ?_⟩
  · exact (fillEnd_matches equal).trans (fillVerified_eq e d s)
  · exact (fillEnd_differs differs).trans (if_pos second)
  · rw [fillEnd_differs differs, first, if_neg (by simp), if_pos ⟨ahead, none⟩, fillDropped, ahead]
    rfl
  · have kept : ¬ (e.cls = .prefetch ∧ (s.frame e.frame).waiters = []) :=
      fun ⟨ahead, nobody⟩ => needed.elim (fun other => other ahead) (fun waiting => waiting nobody)
    exact (fillEnd_differs differs).trans ((if_neg (by simp [first])).trans (if_neg kept))
  · rw [removeFill, countPreload]
    cases e.port <;> rfl

end Sys2Proof.Machine.State
end

section
/-!
PROOFS. The end of a fill's page read (R54, R89, R96), and the ends that OFFLINE, a restart and a cancellation bring to
fills, reads and preloads (R59, R64, R80, R82).
-/

namespace Sys2Proof.Machine.State

/-! ### The end of a fill's page read -/

theorem chan_fillEnd (e : FillEntry) (d : List Byte) (s : State) : (s.fillEnd e d).chan = s.chan := by
  rw [(serves_fillEnd e d s).rest]

/-- The fill engine takes the page read, then the channel goes on. -/
theorem execFillReadEnd_eq {o : Operation} {f : FrameNo} {e : FillEntry} {s : State} (errors : ReadErrors)
    (live : s.live = true) (running : s.chan.op = some o) (work : o.work = .fill f) (entry : s.fillOf f = some e) :
    exec (.fillReadEnd errors) s =
      .next ((s.endOp.fillEnd e (withErrors (Memory.page s.flash (o.addr / 4096)) errors)).afterFillRead) := by
  refine next_whenLive live ?_
  have after : s.endOp.fillOf f = some e := entry
  simp only [running, work, fillReadEnd, after]
  rfl

theorem endOp_suspended {s : State} (h : s.chan.state = .eraseSuspended) :
    s.endOp = { s with chan := { s.chan with op := none, timeouts := 0 } } := by
  have state : (if s.chan.state = .busy then ChanState.idle else s.chan.state) = s.chan.state := by simp [h]
  rw [endOp, modChan, state]

theorem state_endOp_suspended {s : State} : s.endOp.chan.state = .eraseSuspended ↔ s.chan.state = .eraseSuspended := by
  unfold endOp modChan
  dsimp only
  split
  · simp_all
  · rfl

/-- An erase held, with its reads of this suspension raised by one. -/
theorem countRead_eq {s : State} {h : Operation} {x : EraseRecord} (held : s.chan.suspended = some h)
    (erase : h.erase = some x) :
    s.countRead =
      { s with chan := { s.chan with suspended := some { h with erase := some { x with reads := x.reads + 1 } } } } := by
  simp only [countRead, modChan, held, erase, Option.map_some]

theorem readsMade_eq {s : State} {h : Operation} {x : EraseRecord} (held : s.chan.suspended = some h)
    (erase : h.erase = some x) : s.readsMade = x.reads := by
  simp only [readsMade, held, Option.bind_some, erase, Option.map_some, Option.getD_some]

theorem resume_eq {s : State} {h : Operation} {x : EraseRecord} (held : s.chan.suspended = some h)
    (erase : h.erase = some x) :
    s.resume =
      { s with chan := { s.chan with state := .busy, suspended := none,
                                     op := some { h with erase := some { x with phase := .running, run := 0 } } } } := by
  simp only [resume, modChan, held, erase, Option.map_some]

/-- After a read of a suspension the erase resumes, or the class 1 request that waits is granted (R96). -/
theorem afterRead_eq (s : State) :
    s.afterRead =
      if 4 ≤ s.countRead.readsMade ∨ s.countRead.class1 = none then s.countRead.resume
      else s.countRead.class1.elim s.countRead fun e => s.countRead.grantFill e := by
  unfold afterRead
  by_cases enough : 4 ≤ s.countRead.readsMade
  · rw [if_pos (Or.inl enough)]
    exact if_pos enough
  · cases waiting : s.countRead.class1 with
    | none => simp [waiting]
    | some e => simp [waiting, enough]

/-- Settles O31: outside a suspension and within one. -/
theorem fillReadsEnd : Obligations.FillReadsEnd := by
  intro o f e errors s live running work entry d
  rw [execFillReadEnd_eq errors live running work entry]
  refine ⟨fun outside => ?_, fun h x suspended held erase => ?_⟩
  · refine congrArg Host.Outcome.next (if_neg ?_)
    rw [chan_fillEnd, state_endOp_suspended]
    exact outside
  · have within : (s.endOp.fillEnd e d).chan.state = .eraseSuspended := by
      rw [chan_fillEnd, state_endOp_suspended, suspended]
    have after : (s.endOp.fillEnd e d).afterFillRead = (s.endOp.fillEnd e d).afterRead.settle := if_pos within
    intro z w
    have chan : z.chan = { s.chan with op := none, timeouts := 0 } := chan_fillEnd _ _ _
    have counted : z.countRead = w := by
      rw [countRead_eq (h := h) (x := x) (by rw [chan]; exact held) erase, chan]
    have resumed := resume_eq (s := w) (h := { h with erase := some { x with reads := x.reads + 1 } }) rfl rfl
    have reads : w.readsMade = x.reads + 1 := readsMade_eq (h := { h with erase := some { x with reads := x.reads + 1 } }) rfl rfl
    have step : exec (.fillReadEnd errors) s = .next (z.afterRead.settle) := by
      rw [execFillReadEnd_eq errors live running work entry, after, endOp_suspended suspended]
    rw [← execFillReadEnd_eq errors live running work entry, step, afterRead_eq, counted, reads]
    refine ⟨fun ends => ?_, fun y few waiting => ?_⟩
    · rw [if_pos ends, resumed]
    · rw [if_neg (by simp [waiting]; omega), waiting]
      rfl

/-! ### Fills at the entry to OFFLINE, reads and preloads of a restarted port -/

theorem failFills_eq_foldl (es : List FillEntry) (s : State) :
    failFills es s = es.foldl (fun x e => x.fillFailed e) s := by
  induction es generalizing s with
  | nil => rfl
  | cons e es ih => rw [failFills, List.foldl_cons, ih]

theorem cancelPreload_modPort (p : Port) (s : State) :
    (s.modPort p (fun r => { r with cancelLoads := r.cancelLoads - 1 })).cancelPreload p =
      (s.modFill (fun q =>
        { q with demand := q.demand.map (fun e => if e.port = some p then { e with port := none } else e),
                 ahead := q.ahead.map (fun e => if e.port = some p then { e with port := none } else e) })).modPort p
        (fun r => { r with preload := none, cancelLoads := r.cancelLoads - 1 }) := by
  unfold cancelPreload
  rw [modPort_modPort]
  rfl

theorem readTag_modPort {p : Port} {f : PortRecord → PortRecord} {s : State} (same : (f (s.port p)).readTags = (s.port p).readTags)
    (x : ReadTag) : (s.modPort p f).readTag p x = s.readTag p x := by
  rw [readTag, port_modPort_same, same]
  rfl

/-- Settles O32, each from what its operation changes. -/
theorem fillsFailAndPreloadsCancel : Obligations.FillsFailAndPreloadsCancel := by
  refine ⟨fun e s => rfl, fun s live told => ?_, fun p s live waiting => ?_, fun p s => endReads_eq_foldl p s,
    fun p s live waiting => ?_, fun p s => ⟨fun none => ?_, fun none => ?_, fun none => ?_⟩⟩
  · refine next_whenLive live ((if_pos told).trans ?_)
    rw [offlineFills, failFills_eq_foldl]
  · intro u
    have ends : EndsRead p (tall 8) (s.modPort p (fun r => { r with endReads := r.endReads - 1 })) u := endReads_spec p _
    have tags (x : ReadTag) :
        (s.modPort p (fun r => { r with endReads := r.endReads - 1 })).readTag p x = s.readTag p x :=
      readTag_modPort rfl x
    refine ⟨next_whenLive live (if_neg waiting), fun x => ?_, ?_, fun x other => ?_, ?_, ?_⟩
    · rw [ends.tags x, if_pos (mem_tall x), tags]
      rfl
    · conv_lhs => rw [port, ends.ports, tget_tset_same, port_modPort_same]
    · rw [port, ends.ports, tget_tset_ne _ _ other]
      exact port_modPort_ne other _ _
    · rw [segments_endReads]
      simp only [tags]
      rfl
    · conv_lhs => rw [ends.rest]
      rfl
  · exact next_whenLive live ((if_neg waiting).trans (cancelPreload_modPort p s))
  · exact next_whenLive_same (if_neg (by simp [none]))
  · exact next_whenLive_same (if_pos none)
  · exact next_whenLive_same (if_pos none)

end Sys2Proof.Machine.State
end

section
/-!
PROOFS. Preloads and the hand-out of room (R55, R63, R64, R73).
-/

namespace Sys2Proof.Machine.State

/-! ### The opening of a preload (R63) -/

theorem takeCancels_none {p : Port} {s : State} (loads : (s.port p).cancelLoads = 0) (closed : (s.port p).preload = none) :
    s.takeCancels p = s :=
  if_pos ⟨loads, closed⟩

/-- The page after the last that a preload over a window covers (R63). -/
def preloadPast (s : State) (p : Port) (b : Binding) : Nat :=
  min (b.offset / 4096 + (s.portCfg p).preloadCount) (min ((b.offset + b.size - 1) / 4096 + 1) (s.dataPages b.slot))

/-- With nothing to take first, an opening is by the port's window W0 (R63). -/
theorem openPreload_eq {p : Port} {s : State} (fresh : s.takeCancels p = s) :
    s.openPreload p =
      match s.window p 0 with
      | none => s.modPort p (fun r => { r with preload := none, completions := r.completions + 1 })
      | some b =>
        if (s.portCfg p).preloadCount = 0 ∨ b.boot = false ∨ s.preloadPast p b ≤ b.offset / 4096 then
          s.modPort p (fun r => { r with preload := none, completions := r.completions + 1 })
        else
          (s.modPort p (fun r =>
            { r with preload := some { slot := b.slot, cursor := b.offset / 4096, last := s.preloadPast p b - 1,
                                       entries := 0 } })).handOut := by
  rw [openPreload, fresh]
  rfl

/-- A port's fills without its preload: the port field of its entries is clear (R64). -/
def cleared (p : Port) (e : FillEntry) : FillEntry := if e.port = some p then { e with port := none } else e

/-- What an opening finds of an earlier preload, taken (logs 23 and 57). -/
theorem takeCancels_some {p : Port} {s : State} (waits : (s.port p).cancelLoads ≠ 0 ∨ (s.port p).preload ≠ none) :
    s.takeCancels p =
      ({ s with fill := { s.fill with demand := s.fill.demand.map (cleared p), ahead := s.fill.ahead.map (cleared p) } }
        : State).modPort p (fun r => { r with preload := none, cancelLoads := 0 }) := by
  have waits' : ¬ ((s.port p).cancelLoads = 0 ∧ (s.port p).preload = none) := by tauto
  refine (if_neg waits').trans ?_
  show ((s.modFill (fun q => { q with demand := q.demand.map (cleared p), ahead := q.ahead.map (cleared p) })).modPort p
    (fun r => { r with preload := none })).modPort p (fun r => { r with cancelLoads := 0 }) = _
  rw [modPort_modPort]
  rfl

theorem openPreload_takeCancels {p : Port} {s : State} (again : (s.takeCancels p).takeCancels p = s.takeCancels p) :
    s.openPreload p = (s.takeCancels p).openPreload p := by
  unfold openPreload
  rw [again]

/-! ### The hand-out of room (R55, R73) -/

theorem closePreloads_eq_foldl (ps : List Port) (s : State) :
    closePreloads ps s = ps.foldl (fun x p => x.closePreload p) s := by
  induction ps generalizing s with
  | nil => rfl
  | cons p ps ih => rw [closePreloads, List.foldl_cons, ih]

theorem represent_ends {k : Nat} {s : State} (ends : s.frameWait = [] ∨ 16 ≤ s.fillCount) : represent k s = s := by
  cases k with
  | zero => rfl
  | succ k =>
    unfold represent
    split
    · rfl
    · next id rest waiting => exact if_neg (not_lt.mpr (ends.resolve_left (by simp [waiting])))

theorem represent_next {k : Nat} {id : SegId} {rest : List SegId} {s : State} (waiting : s.frameWait = id :: rest)
    (room : s.fillCount < 16) :
    represent (k + 1) s =
      represent k (({ s with frameWait := rest }.modSegment id (fun g => { g with place := .lookup })).lookup id) := by
  rw [represent, waiting]
  exact if_pos room

theorem pagesLeft_some {p : Port} {l : Preload} {s : State} (preload : (s.port p).preload = some l) :
    s.pagesLeft p = l.last + 1 - l.cursor := by
  rw [pagesLeft, preload]

theorem preloadLeft_eq (s : State) (p : Port) :
    s.preloadLeft p = (s.port p).preload.elim false (fun l => decide (l.cursor ≤ l.last)) := by
  cases preload : (s.port p).preload with
  | none => simp [preloadLeft, pagesLeft, preload]
  | some l =>
    rw [preloadLeft, pagesLeft_some preload, Option.elim_some, Bool.eq_iff_iff, bne_iff_ne, decide_eq_true_eq]
    omega

/-- The port that a round serves is the first in turn with a page left (R55). -/
theorem turn_eq (s : State) :
    [s.fill.lastServed + 1, s.fill.lastServed + 2, s.fill.lastServed + 3, s.fill.lastServed].find?
        (fun p => (s.port p).preload.elim false (fun l => decide (l.cursor ≤ l.last))) =
      s.turns.find? s.preloadLeft :=
  congrArg (fun left => List.find? left s.turns) (funext fun p => (preloadLeft_eq s p).symm)

theorem preloadRounds_next {k : Nat} {p : Port} {l : Preload} {s : State}
    (room : s.offline = true ∨ (s.frameWait = [] ∧ s.fillCount < 16)) (turn : s.turns.find? s.preloadLeft = some p)
    (preload : (s.port p).preload = some l) :
    preloadRounds (k + 1) s = preloadRounds k (preloadTurn (l.last + 1 - l.cursor) p s) := by
  rw [preloadRounds, if_pos (by simpa using room), turn, ← pagesLeft_some preload]

theorem preloadRounds_done {k : Nat} {s : State} (turn : s.turns.find? s.preloadLeft = none) : preloadRounds k s = s := by
  cases k with
  | zero => rfl
  | succ k => rw [preloadRounds, turn, ite_self]

theorem preloadRounds_full {k : Nat} {s : State} (up : s.offline = false) (ends : s.frameWait ≠ [] ∨ 16 ≤ s.fillCount) :
    preloadRounds k s = s := by
  cases k with
  | zero => rfl
  | succ k =>
    rw [preloadRounds, up]
    refine if_neg fun room => ?_
    have ⟨empty, free⟩ : s.frameWait = [] ∧ s.fillCount < 16 := by simpa using room
    exact ends.elim (fun waiting => waiting empty) (fun full => absurd free (not_lt.mpr full))

/-! ### A preload's turn (R63) -/

/-- A fill queued: its pin, its frame and its entry (R53). -/
def fillQueued (f : FrameNo) (n : SlotNo) (pg : Nat) (c : FillClass) (p : Option Port) (s : State) : State :=
  ((s.modSlot n (fun r => { r with fillPins := r.fillPins + 1 })).allocate f n pg).enqueueFill
    { frame := f, page := pg, slot := n, cls := c, retry := false, port := p, reading := false }

theorem fillQueued_modPort (f : FrameNo) (n : SlotNo) (pg : Nat) (c : FillClass) (q : Option Port) (p : Port)
    (g : PortRecord → PortRecord) (s : State) :
    (s.modPort p g).fillQueued f n pg c q = (s.fillQueued f n pg c q).modPort p g := rfl

/-- The page at a preload's cursor, and the cursor moved on. -/
theorem preloadTurn_succ {k : Nat} {p : Port} {l : Preload} {s : State} (preload : (s.port p).preload = some l)
    (left : l.cursor ≤ l.last) :
    preloadTurn (k + 1) p s =
      let u := s.modPort p (fun r => { r with preload := some { l with cursor := l.cursor + 1 } })
      if (s.resident (s.dataPage l.slot l.cursor)).isSome || s.isBad (s.dataPage l.slot l.cursor) || s.offline then
        preloadTurn k p u
      else
        match u.queueFill l.slot (s.dataPage l.slot l.cursor) .preload (some p) with
        | none => preloadTurn k p u
        | some (_, s) =>
          (s.modPort p (fun r =>
            { r with preload := some { l with cursor := l.cursor + 1, entries := l.entries + 1 } })).modFill
            (fun q => { q with lastServed := p }) := by
  rw [preloadTurn, preload]
  exact if_neg (not_lt.mpr left)

theorem queueFill_none {n : SlotNo} {pg : Nat} {c : FillClass} {p : Option Port} {s : State}
    (refused : (s.slot n).state ≠ .current ∧ (s.slot n).state ≠ .retired) : s.queueFill n pg c p = none := by
  have pin : s.fillPin n = none := if_neg (by simpa [pinnable] using refused)
  rw [queueFill, pin]

/-- The page at the cursor queued, the entry counted and the port the one last served (R55, R63). -/
theorem preloadTurn_queued {p : Port} {l : Preload} {s : State} {f : FrameNo} {pg k : Nat}
    (pinned : (s.slot l.slot).state = .current ∨ (s.slot l.slot).state = .retired) (frame : s.victim = some f) :
    (match (s.modPort p (fun r => { r with preload := some { l with cursor := l.cursor + 1 } })).queueFill l.slot pg
        .preload (some p) with
      | none => preloadTurn k p (s.modPort p (fun r => { r with preload := some { l with cursor := l.cursor + 1 } }))
      | some (_, s) =>
        (s.modPort p (fun r =>
          { r with preload := some { l with cursor := l.cursor + 1, entries := l.entries + 1 } })).modFill
          (fun q => { q with lastServed := p })) =
      ((s.fillQueued f l.slot pg .preload (some p)).modFill (fun q => { q with lastServed := p })).modPort p
        (fun r => { r with preload := some { l with cursor := l.cursor + 1, entries := l.entries + 1 } }) := by
  have queued : (s.modPort p (fun r => { r with preload := some { l with cursor := l.cursor + 1 } })).queueFill l.slot pg
      .preload (some p) =
      some (f, (s.fillQueued f l.slot pg .preload (some p)).modPort p
        (fun r => { r with preload := some { l with cursor := l.cursor + 1 } })) :=
    queueFill_some (s := s.modPort p (fun r => { r with preload := some { l with cursor := l.cursor + 1 } })) pinned
      frame
  simp only [queued, modPort_modPort]
  rfl

/-- Settles O33, operation by operation. -/
theorem preloadsOpenAndClose : Obligations.PreloadsOpenAndClose := by
  refine ⟨fun p s loads closed => ⟨fun nothing => ?_, fun b positive bound boot => ⟨fun short => ?_, fun long => ?_⟩⟩,
    fun p s waits => ?_, fun s => closePreloads_eq_foldl _ _,
    fun k s => ⟨represent_ends, fun id rest waiting room => represent_next waiting (not_le.mp room)⟩,
    fun k s => ⟨fun room => ⟨fun p l turn preload => ?_, fun turn => ?_⟩, preloadRounds_full⟩,
    fun s => ⟨(handOut_spec s).1, fun p l preload left => (handOut_spec s).2 p ?_⟩,
    fun p l s preload => ⟨fun past none => ?_, fun more => ?_⟩,
    fun p l k s preload left => ⟨fun passed => ?_, fun f absent good up pinned frame => ?_⟩⟩
  · rw [openPreload_eq (takeCancels_none loads closed)]
    split
    · rfl
    · next b bound => exact if_pos (nothing.imp id fun unmarked => Or.inl (unmarked b bound))
  · rw [openPreload_eq (takeCancels_none loads closed), bound]
    exact if_pos (Or.inr (Or.inr short))
  · rw [openPreload_eq (takeCancels_none loads closed), bound]
    refine if_neg ?_
    rintro (none | unmarked | short)
    · exact positive none
    · simp [boot] at unmarked
    · exact absurd long (not_lt.mpr short)
  · have taken := takeCancels_some waits
    have again : (s.takeCancels p).takeCancels p = s.takeCancels p :=
      takeCancels_none (by rw [taken]; simp) (by rw [taken]; simp)
    rw [openPreload_takeCancels again, taken]
    rfl
  · rw [turn_eq] at turn
    exact preloadRounds_next (room.imp id fun ⟨empty, free⟩ => ⟨empty, not_le.mp free⟩) turn preload
  · rw [turn_eq] at turn
    exact preloadRounds_done turn
  · rw [pagesLeft_some preload]
    omega
  · simp only [closePreload, preload, past, none, true_and, if_true]
  · have stays : ¬ (l.last < l.cursor ∧ l.entries = 0) := by omega
    simp only [closePreload, preload, if_neg stays]
  · rw [preloadTurn_succ preload left]
    dsimp only
    split
    · rfl
    · next considered =>
      have refused : (s.slot l.slot).state ≠ .current ∧ (s.slot l.slot).state ≠ .retired := by
        rcases passed with held | bad | down | refused
        · exact absurd (by simp [held]) considered
        · exact absurd (by simp [bad]) considered
        · exact absurd (by simp [down]) considered
        · exact refused
      have pin : (s.modPort p (fun r => { r with preload := some { l with cursor := l.cursor + 1 } })).queueFill l.slot
          (s.dataPage l.slot l.cursor) .preload (some p) = none := queueFill_none refused
      rw [pin]
  · rw [preloadTurn_succ preload left, absent, good, up]
    exact preloadTurn_queued pinned frame

end Sys2Proof.Machine.State
end

section
/-!
PROOFS. The update commands (spec/06): LOCK_UPDATE, STAGE, SEAL, COMMIT and ABORT_UPDATE, by their checks in order.
-/

namespace Sys2Proof.Machine.State

/-! ### LOCK_UPDATE (R114, R115) -/

theorem findFirst_iff {n : Nat} {f : Fin n → Bool} {i : Fin n} :
    (List.finRange n).find? f = some i ↔ f i = true ∧ ∀ j, j < i → f j = false := by
  have search := tfind_iff (f := id) (v := Vector.ofFn f) (i := i)
  simpa [tfind, tget] using search

theorem emptySlot_eq (s : State) :
    s.emptySlot = (List.finRange 16).find? (fun n => decide (n.val < s.cfg.slotCount) && (s.slot n).state == .empty) := by
  rw [emptySlot, existingSlots, List.find?_filter]
  simp only [Bool.decide_and, decide_eq_true_eq, Bool.decide_eq_true]
  rfl

/-- The lowest-numbered EMPTY slot (R12). -/
theorem emptySlot_some {s : State} {n : SlotNo} (exists' : n.val < s.cfg.slotCount) (empty : (s.slot n).state = .empty)
    (lowest : ∀ m, m < n → (s.slot m).state ≠ .empty) : s.emptySlot = some n := by
  rw [emptySlot_eq, findFirst_iff]
  exact ⟨by simp [exists', empty], fun m below => by simp [lowest m below]⟩

theorem emptySlot_none {s : State} (full : ∀ n : SlotNo, n.val < s.cfg.slotCount → (s.slot n).state ≠ .empty) :
    s.emptySlot = none := by
  rw [emptySlot_eq, List.find?_eq_none]
  intro n _
  by_cases below : n.val < s.cfg.slotCount
  · simp [full n below]
  · simp [below]

/-- A LOCK_UPDATE's name (R114, section 11.3). -/
theorem nameArg_iff (w0 w1 : Word) (x : Name) :
    nameArg w0 w1 = some x ↔ (1 ≤ x.length ∧ x.length ≤ 8 ∧ (∀ b ∈ x, 0x20 ≤ b.toNat ∧ b.toNat ≤ 0x7E) ∧
      wordBytes w0 ++ wordBytes w1 = x ++ List.replicate (8 - x.length) 0) :=
  parseName_iff (by rw [List.length_append, wordBytes_length, wordBytes_length]) x

theorem nameArg_none {w0 w1 : Word}
    (h : ∀ x : Name, ¬ (1 ≤ x.length ∧ x.length ≤ 8 ∧ (∀ b ∈ x, 0x20 ≤ b.toNat ∧ b.toNat ≤ 0x7E) ∧
      wordBytes w0 ++ wordBytes w1 = x ++ List.replicate (8 - x.length) 0)) : nameArg w0 w1 = none := by
  cases name : nameArg w0 w1 with
  | none => rfl
  | some x => exact absurd ((nameArg_iff w0 w1 x).mp name) (h x)

theorem lengthFits_iff (s : State) (n : Nat) :
    s.lengthFits n = true ↔ 256 ∣ n ∧ 256 ≤ n ∧ n ≤ s.largestImage := by
  simp [lengthFits, Nat.dvd_iff_mod_eq_zero, and_assoc]

theorem versionOld_iff (s : State) (l : LineNo) (v : Word) :
    s.versionOld l v = true ↔ ∃ c, (s.line l).version = some c ∧ v.toNat ≤ c.toNat := by
  unfold versionOld
  cases (s.line l).version <;> simp

theorem locked_iff (s : State) (l : LineNo) (p : Port) :
    (s.line l).lock.isSome ∨ (s.lockOf p).isSome ↔
      (s.line l).lock ≠ none ∨ ∃ m k, (s.line m).lock = some k ∧ k.holder = p := by
  refine or_congr (by rw [Option.isSome_iff_ne_none]) ?_
  rw [Option.isSome_iff_ne_none, Ne, lockOf_none]
  push Not
  rfl

/-- A LOCK_UPDATE whose arguments do not pass R114. -/
theorem lockBody_badArgument {p : Port} {t : CmdTag} {line name0 name1 version length : Word} {s : State}
    (free : ¬ s.portHeld p = true)
    (wrong : lineArg line = none ∨ nameArg name0 name1 = none ∨ s.lengthFits length.toNat = false) :
    s.lockBody p t line name0 name1 version length = s.answer p t .badArgument [] := by
  rw [lockBody, if_neg free]
  split
  · next l x lineOk nameOk =>
    refine if_pos (wrong.resolve_left (by simp [lineOk]) |>.resolve_left (by simp [nameOk]))
  · rfl

/-- Past its arguments, a LOCK_UPDATE is by the checks of R114 in order. -/
theorem lockBody_named {p : Port} {t : CmdTag} {line name0 name1 version length : Word} {s : State} {l : LineNo}
    {x : Name} (free : ¬ s.portHeld p = true) (lineOk : lineArg line = some l) (nameOk : nameArg name0 name1 = some x)
    (fits : s.lengthFits length.toNat = true) :
    s.lockBody p t line name0 name1 version length =
      if (s.line l).lock.isSome ∨ (s.lockOf p).isSome then s.answer p t .locked []
      else if (s.line l).pending.isSome then s.answer p t .pendingExists []
      else if s.versionOld l version then s.answer p t .versionOld []
      else if s.offline then s.answer p t .channelDown []
      else
        match s.emptySlot with
        | none => s.answer p t .noSlot []
        | some n => (s.takeLock p t l x version length.toNat n).settle := by
  rw [lockBody, if_neg free, lineOk, nameOk]
  exact if_neg (by simp [fits])

/-- Settles O34, check by check. -/
theorem lockUpdateChecksInOrder : Obligations.LockUpdateChecksInOrder := by
  intro p q t line name0 name1 version length s d free o answered named sized
  have off : ¬ o.portHeld p = true := not_held_opened free
  have answers (st : Status) : o.answer p t st [] = o.replied p t st [] := answer_of_opened _ _ _ _ _ _ _
  refine ⟨fun wrong => next_dispatched d ?_, fun l x number nameOk fits => ?_⟩
  · refine (lockBody_badArgument off ?_).trans (answers _)
    refine wrong.imp lineArg_none fun wrong => wrong.imp nameArg_none fun wrong => ?_
    rw [Bool.eq_false_iff, Ne, lengthFits_iff]
    exact wrong
  · have body : o.lockBody p t line name0 name1 version length = _ :=
      lockBody_named (version := version) off (lineArg_some number) ((nameArg_iff _ _ _).mpr nameOk)
        ((lengthFits_iff s _).mpr fits)
    have isLocked := locked_iff o l p
    have isOld := versionOld_iff o l version
    intro locked old
    refine ⟨fun held => next_dispatched d (body.trans ?_), fun unlocked pending => next_dispatched d (body.trans ?_),
      fun unlocked clear isOlder => next_dispatched d (body.trans ?_),
      fun unlocked clear newer down => next_dispatched d (body.trans ?_),
      fun unlocked clear newer up => ⟨fun full => next_dispatched d (body.trans ?_),
        fun n exists' empty lowest => next_dispatched d (body.trans ?_)⟩⟩
    · exact (if_pos (isLocked.mpr held)).trans (answers _)
    all_goals refine (if_neg fun held => unlocked (isLocked.mp held)).trans ?_
    · exact (if_pos (Option.isSome_iff_ne_none.mpr pending)).trans (answers _)
    all_goals refine (if_neg fun pending => Option.isSome_iff_ne_none.mp pending clear).trans ?_
    · exact (if_pos (isOld.mpr isOlder)).trans (answers _)
    all_goals refine (if_neg fun older => newer (isOld.mp older)).trans ?_
    · exact (if_pos down).trans (answers _)
    all_goals refine (if_neg (by rw [offline_opened, up]; simp)).trans ?_
    · rw [show o.emptySlot = none from emptySlot_none full]
      exact answers _
    · rw [show o.emptySlot = some n from emptySlot_some exists' empty lowest]
      rfl

end Sys2Proof.Machine.State
end

section
/-!
PROOFS. STAGE and SEAL (R116, R117, R120, R121), COMMIT and ABORT_UPDATE (R124, R128).
-/

namespace Sys2Proof.Machine.State

/-! ### Working records and idle timers -/

theorem modWork_some {l : LineNo} {w : LockWork} {s : State} (f : LockWork → LockWork) (work : s.work l = some w) :
    s.modWork l f = { s with upd := { s.upd with work := tset s.upd.work l (some (f w)) } } := by
  rw [modWork, work]
  rfl

theorem startIdle_some {l : LineNo} {k : Lock} {s : State} (lock : (s.line l).lock = some k) :
    s.startIdle l =
      { s with
        lines := tset s.lines l { s.line l with lock := some { k with idle := some (s.cfg.idleTimeout * 1000000) } } } := by
  rw [startIdle, modLine, lock]
  rfl

theorem stopIdle_some {l : LineNo} {k : Lock} {s : State} (lock : (s.line l).lock = some k) :
    s.stopIdle l = { s with lines := tset s.lines l { s.line l with lock := some { k with idle := none } } } := by
  rw [stopIdle, modLine, lock]
  rfl

/-! ### STAGE (R116, R117) -/

theorem stageBody_noLock {p : Port} {t : CmdTag} {offset : Word} {data : List Word} {s : State}
    (free : ¬ s.portHeld p = true) (none : s.lockOf p = none) :
    s.stageBody p t offset data = s.answer p t .noLock [] := by
  rw [stageBody, if_neg free, none]

/-- A STAGE of a lock's holder is by the lock's phase (R116). -/
theorem stageBody_holder {p : Port} {t : CmdTag} {offset : Word} {data : List Word} {s : State} {l : LineNo} {k : Lock}
    {w : LockWork} (free : ¬ s.portHeld p = true) (mine : s.lockOf p = some l) (lock : (s.line l).lock = some k)
    (work : s.work l = some w) :
    s.stageBody p t offset data =
      match w.phase with
      | .marking => s.answer p t .busy []
      | .sealing => s.answer p t .badState []
      | .sealed => s.answer p t .badState []
      | .committing => s.answer p t .badState []
      | .opened =>
        if offset.toNat % 256 ≠ 0 ∨ s.imageLength k.slot ≤ offset.toNat then s.answer p t .badArgument []
        else if w.staged[offset.toNat / 256]? = some true then s.answer p t .alreadyStaged []
        else if 8 ≤ s.upd.queue.length ∨ 4 ≤ s.share k.slot then s.answer p t .busy []
        else (s.acceptStage p t l k.slot (offset.toNat / 256) data).settle := by
  rw [stageBody, if_neg free, mine]
  simp only [lock, work] <;> rfl

theorem acceptStage_eq {p : Port} {t : CmdTag} {l : LineNo} {k : Lock} {w : LockWork} {u : Nat} {data : List Word}
    {s : State} (lock : (s.line l).lock = some k) (work : s.work l = some w) :
    s.acceptStage p t l k.slot u data =
      { s with
        lines := tset s.lines l { s.line l with lock := some { k with idle := some (s.cfg.idleTimeout * 1000000) } },
        upd := { s.upd with
          work := tset s.upd.work l (some { w with staged := w.staged.set u true }),
          queue := s.upd.queue ++
            [{ line := l, slot := k.slot, kind := .data, unit := u, data := wordsBytes data, owner := some (p, t),
               programming := false }],
          ready := s.upd.ready ++ [.entry k.slot .data u] } } := by
  rw [acceptStage, modWork_some _ work]
  refine (startIdle_some (k := k) ?_).trans rfl
  exact lock

/-! ### SEAL (R120, R121) -/

theorem sealBody_noLock {p : Port} {t : CmdTag} {check : Word} {s : State} (free : ¬ s.portHeld p = true)
    (none : s.lockOf p = none) : s.sealBody p t check = s.answer p t .noLock [] := by
  rw [sealBody, if_neg free, none]

/-- A SEAL of a lock's holder is by the lock's phase (R120). -/
theorem sealBody_holder {p : Port} {t : CmdTag} {check : Word} {s : State} {l : LineNo} {k : Lock} {w : LockWork}
    (free : ¬ s.portHeld p = true) (mine : s.lockOf p = some l) (lock : (s.line l).lock = some k)
    (work : s.work l = some w) :
    s.sealBody p t check =
      match w.phase with
      | .marking => s.answer p t .busy []
      | .sealing => s.answer p t .busy []
      | .committing => s.answer p t .busy []
      | .sealed => s.answer p t .badState []
      | .opened =>
        if w.staged.all id = false then (s.startIdle l).answer p t .incomplete []
        else (s.acceptSeal p t l k.slot check w).settle := by
  rw [sealBody, if_neg free, mine]
  simp only [lock, work] <;> rfl

theorem allStaged_iff (bs : List Bool) : bs.all id = false ↔ false ∈ bs := by simp

/-- An accepted SEAL, in step DRAIN with its idle timer stopped (R120). -/
def sealBegun (p : Port) (t : CmdTag) (l : LineNo) (k : Lock) (check : Word) (w : LockWork) (s : State) : State :=
  { s with
    lines := tset s.lines l { s.line l with lock := some { k with idle := none } },
    upd := { s.upd with
      work := tset s.upd.work l (some { w with phase := .sealing, wanted := check, command := some (p, t),
                                               sealStep := some .drain }) } }

theorem acceptSeal_eq {p : Port} {t : CmdTag} {l : LineNo} {k : Lock} {check : Word} {w : LockWork} {s : State}
    (lock : (s.line l).lock = some k) :
    s.acceptSeal p t l k.slot check w = (s.sealBegun p t l k check w).drainEnd l k.slot := by
  have stopped := stopIdle_some (s := s.setWork l (some { w with
    phase := .sealing, sealStep := some .drain, wanted := check, command := some (p, t) })) lock
  exact congrArg (drainEnd l k.slot) stopped

theorem work_sealBegun (p : Port) (t : CmdTag) (l : LineNo) (k : Lock) (check : Word) (w : LockWork) (s : State) :
    (s.sealBegun p t l k check w).work l =
      some { w with phase := .sealing, wanted := check, command := some (p, t), sealStep := some .drain } :=
  tget_tset_same _ _ _

theorem drainEnd_waits {l : LineNo} {n : SlotNo} {s : State} (entries : 0 < s.share n) : s.drainEnd l n = s := by
  unfold drainEnd
  split
  · rfl
  · exact if_neg fun ended => entries.ne' ended.2

/-- DRAIN with no entry of the lock left: the verify pass begins (R121). -/
theorem drainEnd_empty {l : LineNo} {n : SlotNo} {w : LockWork} {s : State} (work : s.work l = some w)
    (drain : w.sealStep = some .drain) (empty : s.share n = 0) :
    s.drainEnd l n =
      (s.setWork l (some { w with sealStep := some .verify, cursor := some 0, checks := [], image := imageStart })).addReady
        (.lockStep l) := by
  rw [drainEnd, work]
  exact if_pos ⟨drain, empty⟩

/-- Settles O35, by the lock and its phase. -/
theorem stagesAndSealsInOrder : Obligations.StagesAndSealsInOrder := by
  refine ⟨fun p q t offset data s d free whole => ?_, fun p q t check s d free => ?_, fun p l s => lockOf_some⟩
  · intro o answered
    have off : ¬ o.portHeld p = true := not_held_opened free
    have answers (st : Status) : o.answer p t st [] = o.replied p t st [] := answer_of_opened _ _ _ _ _ _ _
    have counted : (data.length == 64) = true := by simp [whole]
    have run (u : State) (h : o.stageBody p t offset data = u) : exec (.stage p q t offset data) s = .next u := by
      show Host.Outcome.next (s.whenLive (command p q t .stage (data.length == 64) none _)) = _
      rw [counted]
      exact next_dispatched d h
    refine ⟨fun others => run _ ((stageBody_noLock off (lockOf_none.mpr others)).trans (answers _)),
      fun l k w mine lock work => ?_⟩
    have body : o.stageBody p t offset data = _ := stageBody_holder off mine lock work
    intro fits unit share
    have misfit : offset.toNat % 256 ≠ 0 ∨ o.imageLength k.slot ≤ offset.toNat ↔ ¬ fits := by
      rw [← not_lt, ← not_and_or]
      exact not_congr (and_congr_left fun _ => Nat.dvd_iff_mod_eq_zero.symm)
    refine ⟨fun phase => run _ (body.trans ?_), fun phase => run _ (body.trans ?_), fun phase outside =>
      run _ (body.trans ?_), fun phase inside staged => run _ (body.trans ?_), fun phase inside new full =>
      run _ (body.trans ?_), fun phase inside new room mineRoom => run _ (body.trans ?_)⟩
    · rw [phase]
      exact answers _
    · rcases phase with phase | phase | phase
      all_goals rw [phase]; exact answers _
    all_goals conv_lhs => rw [phase]
    · exact (if_pos (misfit.mpr outside)).trans (answers _)
    all_goals refine (if_neg fun out => misfit.mp out inside).trans ?_
    · exact (if_pos staged).trans (answers _)
    all_goals refine (if_neg new).trans ?_
    · exact (if_pos full).trans (answers _)
    · refine (if_neg (by rintro (full | full); exacts [not_lt.mpr full room, not_lt.mpr full mineRoom])).trans ?_
      rw [acceptStage_eq (s := o) lock work]
      rfl
  · intro o answered
    have off : ¬ o.portHeld p = true := not_held_opened free
    have answers (st : Status) : o.answer p t st [] = o.replied p t st [] := answer_of_opened _ _ _ _ _ _ _
    refine ⟨fun others => next_dispatched d ((sealBody_noLock off (lockOf_none.mpr others)).trans (answers _)),
      fun l k w mine lock work => ?_⟩
    have body : o.sealBody p t check = _ := sealBody_holder off mine lock work
    have begun := acceptSeal_eq (p := p) (t := t) (check := check) (w := w) (s := o) lock
    refine ⟨fun phase => next_dispatched d (body.trans ?_), fun phase => next_dispatched d (body.trans ?_),
      fun phase left => next_dispatched d (body.trans ?_), fun phase full entries => next_dispatched d (body.trans ?_),
      fun phase full none => next_dispatched d (body.trans ?_)⟩
    · rcases phase with phase | phase | phase
      all_goals rw [phase]; exact answers _
    · rw [phase]
      exact answers _
    all_goals conv_lhs => rw [phase]
    · refine (if_pos ((allStaged_iff _).mpr left)).trans ?_
      rw [startIdle_some (s := o) lock]
      refine answer_of_cmdTags (s := s) (q := q) (c := some .seal) ?_ _ _
      rfl
    all_goals
      refine (if_neg fun left => full ((allStaged_iff _).mp left)).trans ?_
      rw [begun]
    · rw [drainEnd_waits (s := o.sealBegun p t l k check w) entries]
      rfl
    · rw [drainEnd_empty (work_sealBegun p t l k check w o) rfl none]
      refine congrArg settle ?_
      simp only [sealBegun, setWork, modUpd, addReady, tset_tset]
      rfl

end Sys2Proof.Machine.State
end

section
/-!
PROOFS. COMMIT and ABORT_UPDATE (R124, R128).
-/

namespace Sys2Proof.Machine.State

/-! ### COMMIT (R124) -/

theorem commitBody_badArgument {p : Port} {t : CmdTag} {line : Word} {s : State} (free : ¬ s.portHeld p = true)
    (past : 8 ≤ line.toNat) : s.commitBody p t line = s.answer p t .badArgument [] := by
  rw [commitBody, if_neg free, lineArg_none past]

/-- A COMMIT on a locked line is its holder's, by the lock's phase (R124). -/
theorem commitBody_locked {p : Port} {t : CmdTag} {line : Word} {s : State} {l : LineNo} {k : Lock}
    (free : ¬ s.portHeld p = true) (number : line.toNat = l.val) (lock : (s.line l).lock = some k) :
    s.commitBody p t line =
      if k.holder ≠ p then s.answer p t .noLock []
      else
        match (s.work l).map LockWork.phase with
        | some .opened => s.answer p t .noPending []
        | some .sealed => s.commitOr p t l (commitLocked p t l)
        | _ => s.answer p t .busy [] := by
  rw [commitBody, if_neg free, lineArg_some number]
  simp only [lock] <;> rfl

/-- A COMMIT on a line without a lock is by its commit sequence and its pending slot (R124). -/
theorem commitBody_holderless {p : Port} {t : CmdTag} {line : Word} {s : State} {l : LineNo}
    (free : ¬ s.portHeld p = true) (number : line.toNat = l.val) (lock : (s.line l).lock = none) :
    s.commitBody p t line =
      if (s.sequence l).isSome then s.answer p t .busy []
      else if (s.line l).pending = none then s.answer p t .noPending []
      else s.commitOr p t l (commitHolderless p t l) := by
  rw [commitBody, if_neg free, lineArg_some number]
  simp only [lock]

theorem commitOr_exhausted {p : Port} {t : CmdTag} {l : LineNo} {s : State} (accepted : State → State)
    (last : (s.line l).generation = 65535) : s.commitOr p t l accepted = s.answer p t .genExhausted [] :=
  if_pos last

theorem commitOr_offline {p : Port} {t : CmdTag} {l : LineNo} {s : State} (accepted : State → State)
    (more : (s.line l).generation ≠ 65535) (down : s.offline = true) :
    s.commitOr p t l accepted = s.answer p t .channelDown [] :=
  (if_neg more).trans (if_pos down)

theorem commitOr_accepted {p : Port} {t : CmdTag} {l : LineNo} {s : State} (accepted : State → State)
    (more : (s.line l).generation ≠ 65535) (up : s.offline = false) :
    s.commitOr p t l accepted = (accepted s).settle :=
  (if_neg more).trans (if_neg (by simp [up]))

theorem commitLocked_eq {p : Port} {t : CmdTag} {l : LineNo} {k : Lock} {w : LockWork} {s : State}
    (lock : (s.line l).lock = some k) (work : s.work l = some w) :
    s.commitLocked p t l =
      { s with
        lines := tset s.lines l { s.line l with lock := some { k with idle := none } },
        upd := { s.upd with
          work := tset s.upd.work l (some { w with phase := .committing, commit := some (newCommit p t) }),
          ready := s.upd.ready ++ [.lockStep l] } } := by
  rw [commitLocked, modWork_some _ work]
  refine (congrArg (addReady (.lockStep l)) (stopIdle_some (k := k) ?_)).trans rfl
  exact lock

/-! ### ABORT_UPDATE (R128) -/

theorem abortBody_badArgument {p : Port} {t : CmdTag} {line : Word} {s : State} (free : ¬ s.portHeld p = true)
    (past : 8 ≤ line.toNat) : s.abortBody p t line = s.answer p t .badArgument [] := by
  rw [abortBody, if_neg free, lineArg_none past]

/-- An ABORT_UPDATE on a locked line is its holder's, by the lock's phase (R128). -/
theorem abortBody_locked {p : Port} {t : CmdTag} {line : Word} {s : State} {l : LineNo} {k : Lock}
    (free : ¬ s.portHeld p = true) (number : line.toNat = l.val) (lock : (s.line l).lock = some k) :
    s.abortBody p t line =
      if k.holder ≠ p then s.answer p t .noLock []
      else
        match (s.work l).map LockWork.phase with
        | some .opened => s.abortSlot p t l k.slot
        | some .sealed => s.abortSlot p t l k.slot
        | _ => s.answer p t .busy [] := by
  rw [abortBody, if_neg free, lineArg_some number]
  simp only [lock] <;> rfl

/-- An ABORT_UPDATE on a line without a lock is by its commit sequence and its pending slot (R128). -/
theorem abortBody_holderless {p : Port} {t : CmdTag} {line : Word} {s : State} {l : LineNo}
    (free : ¬ s.portHeld p = true) (number : line.toNat = l.val) (lock : (s.line l).lock = none) :
    s.abortBody p t line =
      if (s.sequence l).isSome then s.answer p t .busy []
      else
        match (s.line l).pending with
        | none => s.answer p t .noPending []
        | some n => s.abortSlot p t l n := by
  rw [abortBody, if_neg free, lineArg_some number]
  simp only [lock] <;> rfl

/-- Settles O36, by the line's lock, its phase and the line's pending slot. -/
theorem commitsAndAbortsInOrder : Obligations.CommitsAndAbortsInOrder := by
  refine ⟨fun p q t line s d free => ?_, fun p q t line s d free => ?_⟩
  · intro o answered run
    have off : ¬ o.portHeld p = true := not_held_opened free
    have answers (st : Status) : o.answer p t st [] = o.replied p t st [] := answer_of_opened _ _ _ _ _ _ _
    refine ⟨fun past => next_dispatched d ?_, fun l number => ?_⟩
    · exact (commitBody_badArgument off past).trans (answers _)
    intro gated
    have gate (accepted : State → State) (body : o.commitBody p t line = o.commitOr p t l accepted) :
        gated (accepted o) :=
      ⟨fun last => next_dispatched d (body.trans ((commitOr_exhausted (s := o) _ last).trans (answers _))),
        fun more down => next_dispatched d (body.trans ((commitOr_offline (s := o) _ more down).trans (answers _))),
        fun more up => next_dispatched d (body.trans (commitOr_accepted (s := o) _ more up))⟩
    refine ⟨fun k lock other => next_dispatched d ?_, fun k w lock mine work => ?_, fun lock => ?_⟩
    · exact (commitBody_locked off number lock).trans ((if_pos other).trans (answers _))
    · have body := (commitBody_locked (s := o) (t := t) off number lock).trans (if_neg (not_not.mpr mine))
      rw [show o.work l = some w from work, Option.map_some] at body
      refine ⟨fun phase => next_dispatched d (body.trans ?_), fun phase => next_dispatched d (body.trans ?_),
        fun phase => ?_⟩
      · rcases phase with phase | phase | phase
        all_goals rw [phase]; exact answers _
      · rw [phase]
        exact answers _
      · rw [phase] at body
        have accepted := gate (commitLocked p t l) body
        rw [commitLocked_eq (s := o) lock work] at accepted
        exact accepted
    · have body := commitBody_holderless (s := o) (t := t) off number lock
      refine ⟨fun busy => next_dispatched d (body.trans ?_), fun idle pending => next_dispatched d (body.trans ?_),
        fun idle pending => gate (commitHolderless p t l) (body.trans ?_)⟩
      · exact (if_pos (Option.isSome_iff_ne_none.mpr busy)).trans (answers _)
      all_goals refine (if_neg fun busy => Option.isSome_iff_ne_none.mp busy idle).trans ?_
      · exact (if_pos pending).trans (answers _)
      · exact if_neg pending
  · intro o answered
    have off : ¬ o.portHeld p = true := not_held_opened free
    have answers (st : Status) : o.answer p t st [] = o.replied p t st [] := answer_of_opened _ _ _ _ _ _ _
    refine ⟨fun past => next_dispatched d ?_, fun l number => ?_⟩
    · exact (abortBody_badArgument off past).trans (answers _)
    intro aborted
    refine ⟨fun k lock other => next_dispatched d ?_, fun k w lock mine work => ?_, fun lock => ?_⟩
    · exact (abortBody_locked off number lock).trans ((if_pos other).trans (answers _))
    · have body := (abortBody_locked (s := o) (t := t) off number lock).trans (if_neg (not_not.mpr mine))
      rw [show o.work l = some w from work, Option.map_some] at body
      refine ⟨fun phase => next_dispatched d (body.trans ?_), fun phase => next_dispatched d (body.trans ?_)⟩
      · rcases phase with phase | phase | phase
        all_goals rw [phase]; exact answers _
      · rcases phase with phase | phase
        all_goals rw [phase]; rfl
    · have body := abortBody_holderless (s := o) (t := t) off number lock
      refine ⟨fun busy => next_dispatched d (body.trans ?_), fun idle pending => next_dispatched d (body.trans ?_),
        fun n idle pending => next_dispatched d (body.trans ?_)⟩
      · exact (if_pos (Option.isSome_iff_ne_none.mpr busy)).trans (answers _)
      all_goals
        refine (if_neg fun busy => Option.isSome_iff_ne_none.mp busy idle).trans ?_
        rw [show (o.line l).pending = _ from pending]
      · exact answers _
      · rfl

end Sys2Proof.Machine.State
end

section
/-!
PROOFS. The end of a lock and its loss (R129, R130, R119), and what the channel's entry to OFFLINE does to the update
writer (R131).
-/

namespace Sys2Proof.Machine.State

/-! ### The end of a lock (R129) -/

/-- One entry's STAGE answered. -/
def answerEntry (st : Status) (x : State) (e : ProgEntry) : State :=
  match e.owner with
  | none => x
  | some (p, t) => x.answer p t st []

theorem answerEntries_eq_foldl (st : Status) (es : List ProgEntry) (s : State) :
    answerEntries st es s = es.foldl (answerEntry st) s := by
  induction es generalizing s with
  | nil => rfl
  | cons e es ih =>
    rw [answerEntries, List.foldl_cons, ih]
    rfl

/-- Ready work that a lock's end leaves (R112). -/
def keptWork (l : LineNo) (n : SlotNo) (i : ReadyItem) : Bool :=
  match i with
  | .entry m _ _ => m != n
  | .lockStep m => m != l
  | .commitStep _ => true

theorem keptWork_eq (l : LineNo) (n : SlotNo) : (fun i => !ofLock l n i) = keptWork l n := by
  funext i
  cases i with
  | entry m k u => rfl
  | lockStep m => rfl
  | commitStep m => rfl

theorem endLock_unlocked {l : LineNo} {s : State} (lock : (s.line l).lock = none) : s.endLock l = s := by
  simp only [endLock, lock]

/-- A lock's end: its records and its work removed, and its QUEUED STAGEs answered (R129). -/
theorem endLock_locked {l : LineNo} {k : Lock} {s : State} (lock : (s.line l).lock = some k) :
    s.endLock l = (s.upd.queue.filter (fun e => e.slot == k.slot && !e.programming)).foldl (answerEntry .noLock)
      { s with
        lines := tset s.lines l { s.line l with lock := none },
        upd := { s.upd with
          work := tset s.upd.work l none,
          queue := s.upd.queue.filter (fun e => !(e.slot == k.slot && !e.programming)),
          ready := s.upd.ready.filter (keptWork l k.slot),
          listing := s.upd.listing.filter (fun m => m != l),
          lost := s.upd.lost.filter (keptWork l k.slot) } } := by
  simp only [endLock, lock, answerEntries_eq_foldl, withdraw, keptWork_eq]
  rfl

theorem loseLock_locked {l : LineNo} {k : Lock} {s : State} (why : LossReason) (device : Bool)
    (lock : (s.line l).lock = some k) :
    s.loseLock l why device =
      if why = .reset then ((s.leaveStaging k.slot device).endLock l).log
        { kind := .lockLost, port := some k.holder, slot := some k.slot, line := some l, detail := wordOf why.code }
      else (((s.leaveStaging k.slot device).endLock l).log
        { kind := .lockLost, port := some k.holder, slot := some k.slot, line := some l,
          detail := wordOf why.code }).hand k.holder
          { kind := .updateLost, subject := some l.val, value := wordOf why.code } := by
  rw [loseLock, lock]

/-! ### The losses of a lock (R119, R130) -/

theorem exec_idleTimeout {l : LineNo} {k : Lock} {d : Nat} {s : State} (live : s.live = true)
    (lock : (s.line l).lock = some k) (idle : k.idle = some d) :
    exec (.idleTimeout l) s = .next ((s.advance d).loseLock l .idle false).settle := by
  refine next_whenLive live ?_
  simp only [lock, Option.bind_some, idle]

theorem exec_idleTimeout_stopped {l : LineNo} {s : State}
    (stopped : ∀ k, (s.line l).lock = some k → k.idle = none) : exec (.idleTimeout l) s = .next s := by
  refine next_whenLive_same ?_
  have none : (s.line l).lock.bind (·.idle) = none := by
    cases lock : (s.line l).lock with
    | none => rfl
    | some k => exact stopped k lock
  simp only [none]

theorem exec_restartLockLoss {p : Port} {s : State} (live : s.live = true) (told : (s.port p).dropLock ≠ 0) :
    exec (.restartLockLoss p) s =
      .next ((s.modPort p (fun r => { r with dropLock := r.dropLock - 1 })).restartLoss p).settle :=
  next_whenLive live (if_neg told)

theorem restartLoss_none {p : Port} {s : State} (none : s.lockOf p = none) : s.restartLoss p = s := by
  rw [restartLoss, none]

/-- A restart acts on its port's lock by the lock's phase (R130). -/
theorem restartLoss_holder {p : Port} {l : LineNo} {w : LockWork} {s : State} (mine : s.lockOf p = some l)
    (work : s.work l = some w) :
    s.restartLoss p =
      match w.phase with
      | .sealing => s.setWork l (some { w with lossPending := true })
      | .committing => s.setWork l (some { w with lossPending := true })
      | .marking => (s.loseLock l .reset false).answerTo w.command .noLock []
      | .opened => s.loseLock l .reset false
      | .sealed => s.loseLock l .reset false := by
  simp only [restartLoss, mine, work] <;> rfl

/-- With a SEAL or a COMMIT that runs, the loss waits for its end (R130). -/
theorem restartLoss_waits {p : Port} {l : LineNo} {w : LockWork} {s : State} (mine : s.lockOf p = some l)
    (work : s.work l = some w) (phase : w.phase = .sealing ∨ w.phase = .committing) :
    s.restartLoss p = s.setWork l (some { w with lossPending := true }) := by
  rw [restartLoss_holder mine work]
  obtain ⟨phase', _⟩ := w
  rcases phase with phase | phase
  all_goals
    dsimp only at phase
    subst phase
    rfl

/-! ### The entry to OFFLINE (R131) -/

theorem offlineLines_eq_foldl (ls : List LineNo) (s : State) :
    offlineLines ls s = ls.foldl (fun x l => (x.offlineLock l).offlineSequence l) s := by
  induction ls generalizing s with
  | nil => rfl
  | cons l ls ih => rw [offlineLines, List.foldl_cons, ih]

theorem offlineLock_unlocked {l : LineNo} {s : State} (lock : (s.line l).lock = none) : s.offlineLock l = s := by
  simp only [offlineLock, lock]

/-- OFFLINE acts on a line's lock by the lock's phase (R131). -/
theorem offlineLock_locked {l : LineNo} {k : Lock} {w : LockWork} {s : State} (lock : (s.line l).lock = some k)
    (work : s.work l = some w) :
    s.offlineLock l =
      match w.phase, w.commit with
      | .marking, _ => (s.loseLock l .channel false).answerTo w.command .programFail []
      | .opened, _ => s.loseLock l .channel false
      | .sealing, _ => (s.loseLock l .channel false).answerTo w.command .programFail []
      | .sealed, _ => s.loseLock l .channel false
      | .committing, some r =>
        if r.retiring then
          ((s.releaseHold r.oldSlot).loseLock l .channel false).answer r.port r.tag .ok [wordOf r.generation]
        else ((s.dropPending l k.slot).loseLock l .channel false).answer r.port r.tag .programFail []
      | .committing, none => s.loseLock l .channel false := by
  simp only [offlineLock, lock, work] <;> rfl

/-- The waiting request of a lock, reported LOST, ends by the lock's step (R131). -/
theorem loseRequest_lockStep {l : LineNo} {k : Lock} {w : LockWork} {s : State} (lock : (s.line l).lock = some k)
    (work : s.work l = some w) :
    s.loseRequest (.lockStep l) =
      match w.phase, w.sealStep, w.commit with
      | .marking, _, _ => s.stageMarkEnded l k.slot .lost
      | .sealing, some .verify, _ => s.verifyEnded l k.slot [] .lost
      | .sealing, some .mark, _ => s.sealMarkEnded l k.slot .lost
      | .committing, _, some r =>
        if r.retiring then s.retireMarkEnded (.lock l) else s.commitMarkEnded (.lock l) k.slot .lost
      | _, _, _ => s := by
  simp only [loseRequest, lock, work] <;> rfl

/-- OFFLINE acts on a line's commit sequence by its step (R131). -/
theorem offlineSequence_some {l : LineNo} {r : CommitRun} {s : State} (sequence : s.sequence l = some r) :
    s.offlineSequence l =
      if r.retiring then s.retireMarkEnded (.sequence l)
      else
        match (s.line l).pending with
        | none => s.finishCommit (.sequence l) r .programFail []
        | some n => (s.dropPending l n).finishCommit (.sequence l) r .programFail [] := by
  simp only [offlineSequence, sequence] <;> rfl

/-- Settles O37, claim by claim. -/
theorem locksAreLost : Obligations.LocksAreLost := by
  refine ⟨⟨fun l s => ⟨endLock_unlocked, fun k lock => ?_⟩, fun l k why device s lock => ?_,
    fun l s live => ⟨fun k d lock idle => exec_idleTimeout live lock idle, exec_idleTimeout_stopped⟩,
    fun p s live told => ?_⟩, fun s live => ⟨fun untold => ?_, fun told => ?_⟩, fun l s => ?_,
    fun l k w s lock work => ?_, fun n k u e s found => ?_⟩
  · exact endLock_locked lock
  · intro a b
    have loses := loseLock_locked why device lock
    exact ⟨fun reset => loses.trans (if_pos reset), fun other => loses.trans (if_neg other)⟩
  · intro x
    have run := exec_restartLockLoss live told
    refine ⟨fun others => ?_, fun l w mine work => ?_⟩
    · rw [run, restartLoss_none]
      exact lockOf_none.mpr others
    · have mine' : x.lockOf p = some l := mine
      have body := restartLoss_holder mine' (show x.work l = some w from work)
      refine ⟨fun phase => ?_, fun phase => ?_, fun c z phase command => ?_⟩
      · rw [run, restartLoss_waits mine' (show x.work l = some w from work) phase]
        rfl
      · rw [run, body]
        rcases phase with phase | phase
        all_goals rw [phase]
      · rw [run, body, phase]
        simp only [command]
        rfl
  · exact next_whenLive_same (if_neg (by simp [untold]))
  · refine next_whenLive live ((if_pos told).trans ?_)
    rw [offlineUpdate, offlineLines_eq_foldl]
    rfl
  · refine ⟨offlineLock_unlocked, fun k w lock work => ?_, fun none => ?_, fun r n sequence running pending => ?_,
      fun r sequence retiring => ?_, fun n => rfl⟩
    · have ends := offlineLock_locked lock work
      refine ⟨fun phase => ?_, fun phase => ?_, fun r phase commit running => ?_,
        fun r o phase commit retiring old => ?_⟩
      · rw [ends]
        rcases phase with phase | phase
        all_goals rw [phase]
      · rw [ends]
        rcases phase with phase | phase
        all_goals rw [phase]
      · rw [ends, phase, commit]
        exact if_neg (by simp [running])
      · rw [ends, phase, commit]
        refine (if_pos retiring).trans ?_
        rw [old]
        rfl
    · simp only [offlineSequence, none]
    · rw [offlineSequence_some sequence, running, pending]
      rfl
    · rw [offlineSequence_some sequence, retiring]
      rfl
  · have ends := loseRequest_lockStep lock work
    refine ⟨fun phase => ?_, fun phase step => ?_, fun phase step => ?_, fun r phase commit => ?_⟩
    · rw [ends, phase]
    · rw [ends, phase, step]
    · rw [ends, phase, step]
    · rw [ends, phase, commit]
  · have entry : s.readyEntry n k u = some e := found
    simp only [loseRequest, entry] <;> rfl

end Sys2Proof.Machine.State
end

section
/-!
PROOFS. What a flash operation leaves in the flash (R88, R99, R107, R108, R176, R177, R190), and what each requester asks
of the channel (R90, R98).
-/

namespace Sys2Proof.Machine

namespace Memory

/-- Programming turns no zero into a one (R88). -/
theorem read_and_program {m : List Host.Cell} (h : wf m) (a : Nat) (bs : List Byte) (x : Nat) :
    read m x &&& read (program m a bs) x = read (program m a bs) x := by
  by_cases inside : a ≤ x ∧ x < a + bs.length
  · obtain ⟨low, high⟩ := inside
    obtain ⟨i, rfl⟩ := Nat.exists_eq_add_of_le low
    rw [read_program_in bs m a i (by omega) h, ← BitVec.and_assoc, BitVec.and_self]
  · rw [read_program_out bs m a x h (by omega), BitVec.and_self]

/-- Programming over what was programmed turns no zero of what stood there before into a one. -/
theorem and_trans {x y z : Byte} (first : x &&& y = y) (second : y &&& z = z) : x &&& z = z := by
  rw [← second, ← BitVec.and_assoc, first]

theorem read_program {m : List Host.Cell} (h : wf m) (a : Nat) (bs : List Byte) (x : Nat) :
    read (program m a bs) x =
      if a ≤ x ∧ x < a + bs.length then read m x &&& bs.getD (x - a) 0 else read m x := by
  split
  · next inside =>
    obtain ⟨low, high⟩ := inside
    obtain ⟨i, rfl⟩ := Nat.exists_eq_add_of_le low
    have below : i < bs.length := by omega
    rw [read_program_in bs m a i below h, Nat.add_sub_cancel_left, List.getD_eq_getElem _ _ below]
  · exact read_program_out bs m a x h (by omega)

end Memory

namespace State

/-! ### A program that is cut -/

theorem deviceEffect_cutProgram {h : DeviceEnd} {o : Operation} (s : State) (use : o.work.flashUse = .programs)
    (cut : h ≠ .done) : s.deviceEffect h o = { s with flash := s.cutProgram h o }.drawn := by
  cases h with
  | done => exact absurd rfl cut
  | failed | timedOut | abandoned | powerLost => simp only [deviceEffect, use]

theorem deviceEffect_cutErase {h : DeviceEnd} {o : Operation} (s : State) (use : o.work.flashUse = .erases)
    (cut : h ≠ .done) : s.deviceEffect h o = { s with flash := s.cutEraseBound o }.drawn := by
  cases h with
  | done => exact absurd rfl cut
  | failed | timedOut | abandoned | powerLost => simp only [deviceEffect, use]

theorem freeBytes_length (d a n : Nat) : (freeBytes d a n).length = n := by
  simp [freeBytes]

/-- A cut program leaves what it would have written, or that with zeros programmed over its beginning. -/
theorem cutProgram_cases (h : DeviceEnd) (o : Operation) (s : State) :
    ∃ zeros : List Byte, zeros.length ≤ o.work.reach ∧ s.cutProgram h o = Memory.program (s.cutBytes o) o.addr zeros := by
  have least : 1 ≤ o.work.reach := by
    unfold Work.reach
    split <;> omega
  unfold cutProgram
  dsimp only
  split
  · split
    · exact ⟨[], Nat.zero_le _, rfl⟩
    · exact ⟨[0], least, rfl⟩
  · split
    · next cut =>
      refine ⟨List.replicate 204 0, ?_, rfl⟩
      obtain ⟨config, -, -⟩ := cut
      rw [List.length_replicate]
      cases work : o.work <;> simp [work, Work.ofConfig] at config <;> simp [Work.reach]
    · exact ⟨[], Nat.zero_le _, rfl⟩

theorem read_cutProgram {h : DeviceEnd} {o : Operation} {s : State} (wf : Memory.wf s.flash) (a : Nat) :
    (a < o.addr ∨ o.addr + o.work.reach ≤ a → Memory.read (s.cutProgram h o) a = Memory.read s.flash a) ∧
      Memory.read s.flash a &&& Memory.read (s.cutProgram h o) a = Memory.read (s.cutProgram h o) a := by
  obtain ⟨zeros, short, left⟩ := cutProgram_cases h o s
  have wfCut : Memory.wf (s.cutBytes o) := wf_cutBytes o s wf
  rw [left]
  refine ⟨fun outside => ?_, ?_⟩
  · rw [Memory.read_program_out _ _ _ _ wfCut (by omega)]
    exact Memory.read_program_out _ _ _ _ wf (by rw [freeBytes_length]; exact outside)
  · exact Memory.and_trans (Memory.read_and_program wf _ _ _) (Memory.read_and_program wfCut _ _ _)

/-! ### An erase that is cut -/

theorem page_length (m : List Host.Cell) (pg : Nat) : (Memory.page m pg).length = 4096 := by
  simp [Memory.page, Memory.range]

theorem read_cutErase {o : Operation} {s : State} (wf : Memory.wf s.flash) {a : Nat}
    (outside : a < o.addr ∨ o.addr + 65536 ≤ a) : Memory.read (s.cutErase o) a = Memory.read s.flash a :=
  Memory.read_fill_out _ _ _ _ wf (by rw [freeBytes_length]; exact outside)

theorem read_cutEraseBound {o : Operation} {s : State} (wf : Memory.wf s.flash) (block : 65536 ∣ o.addr) {a : Nat}
    (outside : a < o.addr ∨ o.addr + 65536 ≤ a) : Memory.read (s.cutEraseBound o) a = Memory.read s.flash a := by
  unfold cutEraseBound
  dsimp only
  split
  · split
    · rw [Memory.read_eraseBlock, if_neg (by omega)]
    · exact read_cutErase wf outside
  · split
    · exact read_cutErase wf outside
    · split
      · exact read_cutErase wf outside
      · rw [Memory.read_fill_out _ _ _ _ (wf_cutErase o s wf) (by rw [page_length]; omega)]
        exact read_cutErase wf outside

/-! ### Marks and configuration copies -/

theorem flashUse_headerRecord {w : Work} {k : Nat} (record : w.headerRecord = some k) : w.flashUse = .programs := by
  cases w
  case stageMark | sealMark | commitMark | retireMark | eraseMark => rfl
  all_goals cases record

theorem flash_cutProgram {h : DeviceEnd} {o : Operation} (s : State) (use : o.work.flashUse = .programs)
    (cut : h ≠ .done) : (s.deviceEffect h o).flash = s.cutProgram h o := by
  rw [deviceEffect_cutProgram s use cut]
  rfl

theorem flash_cutErase {h : DeviceEnd} {o : Operation} (s : State) (use : o.work.flashUse = .erases)
    (cut : h ≠ .done) : (s.deviceEffect h o).flash = s.cutEraseBound o := by
  rw [deviceEffect_cutErase s use cut]
  rfl

/-- A configuration copy whose erase has ended, or was cut, fails its check (R176). -/
theorem readCopy_configErase {h : DeviceEnd} {o : Operation} {c : Copy} (s : State) (work : o.work = .configErase c) :
    readCopy (Memory.page (s.deviceEffect h o).flash (o.addr / 4096)) = none := by
  have use : o.work.flashUse = .erases := by rw [work]; rfl
  by_cases ended : h = .done
  · rw [ended, deviceEffect_erase s use]
    refine readCopy_erased ?_
    rw [Memory.getElem?_page _ _ _ (by omega), Memory.read_eraseBlock, if_pos (by omega)]
    rfl
  · rw [flash_cutErase s use ended]
    exact cutEraseBound_copy work

/-- The erase mark, written, leaves no header a scan could take for a stored image (R108). -/
theorem header_of_eraseMark {o : Operation} {s : State} (wf : Memory.wf s.flash) (work : o.work = .eraseMark)
    (place : o.addr % 4096 = 255) (data : o.data = [0]) :
    erased (Memory.page (s.deviceEffect .done o).flash (o.addr / 4096)) = false ∧
      readStage s.largestImage (Memory.page (s.deviceEffect .done o).flash (o.addr / 4096)) = none := by
  rw [deviceEffect_program s (by rw [work]; rfl)]
  refine header_marked _ ?_
  have addr : 4096 * (o.addr / 4096) + 255 = o.addr := by omega
  rw [Memory.getElem?_page _ _ _ (by omega), addr, data, Memory.read_program wf, if_pos (by simp)]
  simp

/-- Settles O38, by what the operation does and how it ended. -/
theorem flashOperationsTakeEffect : Obligations.FlashOperationsTakeEffect := by
  intro o h s wf t
  refine ⟨deviceEffect_frame h o s, wf_deviceEffect h o s wf, deviceEffect_nothing h s, fun use ended => ?_,
    fun use ended => ?_, fun use cut => ?_, fun k record place => ?_, fun use cut block => ?_,
    fun c work => readCopy_configErase s work, fun c work place cut => ?_,
    fun work ended place data => ?_, fun b n work slot first place cut before => ?_⟩
  · have effect : t = { s with flash := Memory.program s.flash o.addr o.data } := by
      show s.deviceEffect h o = _
      rw [ended, deviceEffect_program s use]
    rw [effect]
    exact ⟨rfl, Memory.read_program wf o.addr o.data⟩
  · have effect : t = { s with flash := Memory.eraseBlock s.flash (o.addr / 65536) } := by
      show s.deviceEffect h o = _
      rw [ended, deviceEffect_erase s use]
    rw [effect]
    exact ⟨rfl, Memory.read_eraseBlock _ _⟩
  · have effect : t = { s with flash := s.cutProgram h o }.drawn := deviceEffect_cutProgram s use cut
    rw [effect]
    exact ⟨rfl, read_cutProgram wf⟩
  · have use := flashUse_headerRecord record
    refine ⟨fun lost => ?_, fun failed other => ?_⟩
    · have left := cutProgram_mayLeave (h := h) wf record place
      rw [← flash_cutProgram s use (by simp [lost])] at left
      subst lost
      have fails : recordFailsCheck (Memory.page t.flash (o.addr / 4096)) k = true := left
      rw [recordFailsCheck, Bool.and_eq_true, Bool.not_eq_true', Bool.not_eq_true'] at fails
      exact fails
    · have left := cutProgram_mayLeave (h := h) wf record place
      rw [← flash_cutProgram s use (by simp [failed])] at left
      subst failed
      exact (Bool.or_eq_true_iff.mp left).resolve_left (by simpa using other)
  · have effect : t = { s with flash := s.cutEraseBound o }.drawn := deviceEffect_cutErase s use cut
    rw [effect]
    exact ⟨rfl, fun a => read_cutEraseBound wf block⟩
  · have use : o.work.flashUse = .programs := by rw [work]; rfl
    have flash : t.flash = s.cutProgram h o :=
      flash_cutProgram s use (by rcases cut with cut | cut <;> simp [cut])
    rw [flash]
    exact cutProgram_copy wf work place cut
  · subst ended
    exact header_of_eraseMark wf work place data
  · have flash : t.flash = s.cutEraseBound o := flash_cutErase s (by rw [work]; rfl) cut
    rw [flash]
    exact cutEraseBound_header wf (by rw [work]; rfl) slot first place before

end State

end Sys2Proof.Machine
end

section
/-!
PROOFS. What each requester asks of the channel (R90, R98).
-/

namespace Sys2Proof.Machine.State

theorem entryOp_data {e : ProgEntry} {s : State} (kind : e.kind = .data) :
    s.entryOp e =
      programOp (.dataProgram e.line e.unit) (some e.slot) (s.slotBase e.slot + 8192 + 256 * e.unit) e.data := by
  simp only [entryOp, kind]

theorem entryOp_list {e : ProgEntry} {s : State} (kind : e.kind = .list) :
    s.entryOp e =
      programOp (.listProgram e.line e.unit) (some e.slot) (s.slotBase e.slot + 4096 + 256 * e.unit) e.data := by
  simp only [entryOp, kind]

theorem commitOp_some {c : Committer} {l : LineNo} {n : SlotNo} {s : State} (pending : (s.line l).pending = some n) :
    s.commitOp c l =
      some (programOp (.commitMark c) (some n) (s.slotBase n + 512) (commitBytes ((s.line l).generation + 1))) := by
  rw [commitOp, pending, Option.map_some]

theorem retireOp_some {c : Committer} {r : CommitRun} {n : SlotNo} {s : State} (old : r.oldSlot = some n) :
    s.retireOp c r = some (programOp (.retireMark c) (some n) (s.slotBase n + 768) (retireBytes r.generation)) := by
  rw [retireOp, old, Option.map_some]

/-- A lock's next flash step is by its phase and its step (R112). -/
theorem lockOp_some {l : LineNo} {k : Lock} {w : LockWork} {s : State} (lock : (s.line l).lock = some k)
    (work : s.work l = some w) :
    s.lockOp l =
      match w.phase, w.sealStep, w.commit with
      | .marking, _, _ =>
        some (programOp (.stageMark l) (some k.slot) (s.slotBase k.slot)
          (stageBytes l ((s.slot k.slot).name.getD []) ((s.slot k.slot).version.getD 0) (s.imageLength k.slot)))
      | .sealing, some .verify, _ =>
        some (readOp (.verifyRead l) (some k.slot) (s.dataPage k.slot (w.cursor.getD 0)))
      | .sealing, some .mark, _ =>
        some (programOp (.sealMark l) (some k.slot) (s.slotBase k.slot + 256)
          (sealBytes w.wanted (crc32 (wordsBytes w.checks))))
      | .committing, _, some r => if r.retiring then s.retireOp (.lock l) r else s.commitOp (.lock l) l
      | _, _, _ => none := by
  simp only [lockOp, lock, work] <;> rfl

/-- A commit sequence's next flash step (R112). -/
theorem readyOp_commitStep {l : LineNo} {r : CommitRun} {s : State} (sequence : s.sequence l = some r) :
    s.readyOp (.commitStep l) = if r.retiring then s.retireOp (.sequence l) r else s.commitOp (.sequence l) l := by
  simp only [readyOp, sequence]

/-- Settles O39, requester by requester. -/
theorem requestsCarryTheirTargets : Obligations.RequestsCarryTheirTargets := by
  intro s programs reads erases
  refine ⟨fun e => entryOp_data, fun e => entryOp_list, fun n k u e found => ?_, fun l k w lock work => ?_,
    fun l x n sequence marks pending => ?_, fun l x n sequence retires old => ?_, fun none => ?_, fun w write => ?_,
    fun none => ?_, fun j target => ?_, rfl, rfl, fun n => rfl, fun n => rfl, fun c => rfl⟩
  · exact congrArg (Option.map s.entryOp) found
  · have step : s.readyOp (.lockStep l) = _ := lockOp_some lock work
    refine ⟨fun phase => ?_, fun c phase verify cursor => ?_, fun phase mark => ?_,
      fun x n phase commit marks pending => ?_, fun x n phase commit retires old => ?_⟩
    · rw [step, phase]
      rfl
    · rw [step, phase, verify, cursor]
      rfl
    · rw [step, phase, mark]
      rfl
    · rw [step, phase, commit]
      exact (if_neg (by simp [marks])).trans (commitOp_some pending)
    · rw [step, phase, commit]
      exact (if_pos retires).trans (retireOp_some old)
  · rw [readyOp_commitStep sequence, if_neg (by simp [marks]), commitOp_some pending]
    rfl
  · rw [readyOp_commitStep sequence, if_pos retires, retireOp_some old]
    rfl
  · rw [configRequest, none, Option.map_none]
  · rw [configRequest, write, Option.map_some]
    rfl
  · rw [reclaimRequest, none, Option.map_none]
  · rw [reclaimRequest, target, Option.map_some]
    rfl

end Sys2Proof.Machine.State
end

section
/-!
PROOFS. The ends of the update writer's operations (R89, R101, R102, R113), of the stage mark and of DATA programs (R115,
R117, R118, R121, R130).
-/

namespace Sys2Proof.Machine.State

/-! ### The device's and the channel's part of an end (R89, R101, R102) -/

/-- An operation of the update writer that the device answered, before its requester takes the outcome. -/
def updateEnded (o : Operation) (n : SlotNo) (pass : Bool) (s : State) : State :=
  let e : State :=
    { s.deviceEffect (if pass then .done else .failed) o with
      chan := { s.chan with op := none, timeouts := 0,
                            state := if s.chan.state = .busy then .idle else s.chan.state } }
  if pass then e
  else e.log { kind := .programFail, slot := some n, page := some (o.addr / 4096),
               detail := packWord o.work.stepCode 0 0 0 }

theorem chan_deviceEffect (h : DeviceEnd) (o : Operation) (s : State) : (s.deviceEffect h o).chan = s.chan := by
  rw [deviceEffect_frame]

theorem endUpdateOp_eq {o : Operation} {n : SlotNo} {s : State} (pass : Bool) (f : OpOutcome → State → State)
    (slot : o.slot = some n) :
    s.endUpdateOp o pass f = (f (answered pass) (s.updateEnded o n pass)).settle := by
  have ended (h : DeviceEnd) : (s.deviceEffect h o).endOp =
      { s.deviceEffect h o with
        chan := { s.chan with op := none, timeouts := 0,
                              state := if s.chan.state = .busy then .idle else s.chan.state } } := by
    rw [endOp, modChan, chan_deviceEffect]
  cases pass with
  | true => exact congrArg (fun u => (f .done u).settle) (ended .done)
  | false =>
    rw [endUpdateOp, ended]
    simp only [answered, logProgramFail, slot]
    rfl

/-- Settles O40, operation by operation. -/
theorem updateOperationsEnd : Obligations.UpdateOperationsEnd := by
  refine ⟨fun o n s live running slot => ?_, fun s pass errors => ?_⟩
  · intro outcome ended
    have ends (pass : Bool) (f : OpOutcome → State → State) :
        s.endUpdateOp o pass f = (f (answered pass) (s.updateEnded o n pass)).settle := endUpdateOp_eq pass f slot
    refine ⟨fun l pass work => ?_, fun l k pass work => ?_, fun l errors work => ?_, fun l k pass work => ?_,
      fun l pass work => ?_, fun c pass work => ?_, fun c pass work => ?_⟩
    all_goals
      refine next_whenLive live ?_
      simp only [running, work, slot]
      exact ends _ _
  · refine ⟨fun other => ?_, fun other => ?_, fun other => ?_, fun other => ?_, fun other => ?_, fun other => ?_,
      fun other => ?_⟩
    all_goals
      refine next_whenLive_same ?_
      split
      · rfl
      · next o running =>
        split
        · next work _ => exact absurd work (by apply other; exact running)
        · rfl

/-! ### Whether an outcome may act (R113) -/

/-- The line's lock holds the slot named, and it is STAGING. -/
theorem staging_iff (s : State) (l : LineNo) (n : SlotNo) :
    s.staging l n = true ↔
      ∃ x w, (s.line l).lock = some x ∧ x.slot = n ∧ (s.slot n).state = .staging ∧ s.work l = some w := by
  unfold staging
  cases lock : (s.line l).lock with
  | none => simp
  | some k => cases s.work l <;> simp

theorem staging_false {s : State} {l : LineNo} {n : SlotNo}
    (h : ¬ ∃ x w, (s.line l).lock = some x ∧ x.slot = n ∧ (s.slot n).state = .staging ∧ s.work l = some w) :
    s.staging l n = false :=
  Bool.eq_false_iff.mpr fun acts => h ((staging_iff s l n).mp acts)

theorem staging_true {s : State} {l : LineNo} {x : Lock} {w : LockWork} (lock : (s.line l).lock = some x)
    (staging : (s.slot x.slot).state = .staging) (work : s.work l = some w) : s.staging l x.slot = true :=
  (staging_iff s l x.slot).mpr ⟨x, w, lock, rfl, staging, work⟩

/-- What an outcome may act on, the program queue beside it. -/
theorem staging_takeEntry (l : LineNo) (n m : SlotNo) (k : ProgKind) (u : Nat) (s : State) :
    (s.takeEntry m k u).staging l n = s.staging l n := rfl

/-! ### The stage mark and DATA programs (R115, R117, R118) -/

theorem stageMarkEnded_disregarded {l : LineNo} {n : SlotNo} {s : State} (out : OpOutcome)
    (other : s.staging l n = false) : s.stageMarkEnded l n out = s := by
  simp only [stageMarkEnded, other]

theorem stageMarkEnded_staging {l : LineNo} {n : SlotNo} {w : LockWork} {s : State} (out : OpOutcome)
    (acts : s.staging l n = true) (work : s.work l = some w) :
    s.stageMarkEnded l n out =
      match out with
      | .done =>
        (((s.setWork l (some { w with phase := .opened, command := none })).startIdle l).answerTo w.command .ok
          [wordOf n.val])
      | .deviceFail => ((s.toBad n).endLock l).answerTo w.command .programFail []
      | .timeout => ((s.toDirty n).endLock l).answerTo w.command .programFail []
      | .lost => ((s.toDirty n).endLock l).answerTo w.command .programFail [] := by
  simp only [stageMarkEnded, acts, work] <;> rfl

theorem dataEnded_disregarded {l : LineNo} {n : SlotNo} {s : State} (u : Nat) (out : OpOutcome)
    (other : s.staging l n = false) :
    s.dataEnded l n u out = (s.takeEntry n .data u).answerTo (s.ownerOf n .data u) .noLock [] :=
  if_neg (by rw [staging_takeEntry, other]; simp)

theorem dataEnded_staging {l : LineNo} {n : SlotNo} {s : State} (u : Nat) (out : OpOutcome)
    (acts : s.staging l n = true) :
    s.dataEnded l n u out =
      if out = .done then ((s.takeEntry n .data u).answerTo (s.ownerOf n .data u) .ok []).drainEnd l n
      else ((s.takeEntry n .data u).answerTo (s.ownerOf n .data u) .programFail []).failLock l (out == .deviceFail) :=
  if_pos (by rw [staging_takeEntry, acts])

/-! ### Failures, and the end of DRAIN (R121, R130) -/

theorem pendingActs_iff (w : LockWork) :
    pendingActs w = true ↔ w.lossPending = true ∧ (w.sealStep = some .drain ∨ w.sealStep = some .verify) := by
  simp [pendingActs]

theorem failLock_some {l : LineNo} {w : LockWork} {s : State} (device : Bool) (work : s.work l = some w) :
    s.failLock l device =
      (s.loseLock l (if w.lossPending ∧ (w.sealStep = some .drain ∨ w.sealStep = some .verify) then .reset
        else if device then .program else .channel) device).answerTo w.command .programFail [] := by
  simp only [failLock, work, pendingActs_iff]

theorem share_zero_iff (s : State) (n : SlotNo) : s.share n = 0 ↔ ∀ e ∈ s.upd.queue, e.slot ≠ n := by
  simp [share, List.filter_eq_nil_iff]

theorem drainEnd_stays {l : LineNo} {n : SlotNo} {w : LockWork} {s : State} (work : s.work l = some w)
    (stays : w.sealStep ≠ some .drain ∨ ∃ e ∈ s.upd.queue, e.slot = n) : s.drainEnd l n = s := by
  rw [drainEnd, work]
  refine if_neg fun ⟨drain, empty⟩ => ?_
  rcases stays with other | ⟨e, member, mine⟩
  · exact other drain
  · exact (share_zero_iff s n).mp empty e member mine

/-- Settles O41, outcome by outcome. -/
theorem stageMarksAndProgramsEnd : Obligations.StageMarksAndProgramsEnd := by
  refine ⟨fun l n k out s disregarded => ?_, fun l x w k s lock staging work => ?_, fun l w n device s work => ?_⟩
  · have other := staging_false disregarded
    exact ⟨stageMarkEnded_disregarded out other, dataEnded_disregarded k out other⟩
  · have acts := staging_true lock staging work
    have opened : (s.setWork l (some { w with phase := .opened, command := none })).startIdle l = _ :=
      startIdle_some lock
    intro n bad owner left
    refine ⟨?_, stageMarkEnded_staging _ acts work, stageMarkEnded_staging _ acts work,
      stageMarkEnded_staging _ acts work, dataEnded_staging k .done acts, dataEnded_staging k .deviceFail acts,
      dataEnded_staging k .timeout acts, dataEnded_staging k .lost acts⟩
    rw [stageMarkEnded_staging _ acts work]
    exact congrArg (answerTo w.command .ok [wordOf n.val]) opened
  · refine ⟨failLock_some device work, fun drain empty => ?_, drainEnd_stays work⟩
    rw [drainEnd_empty work drain ((share_zero_iff s n).mpr empty)]
    rfl

end Sys2Proof.Machine.State
end

section
/-!
PROOFS. Verify reads (R121, R122, R188), the check list and the seal (R123, R13).
-/

namespace Sys2Proof.Machine

/-! ### A running check (R188) -/

theorem strictNat_eq {α : Type} (n : Nat) (k : Nat → α) : strictNat n k = k n := by
  cases n <;> rfl

theorem crc32Bit_lt {c : Nat} (h : c < 2 ^ 32) : crc32Bit c < 2 ^ 32 := by
  unfold crc32Bit
  split
  · exact Nat.xor_lt_two_pow (by omega) (by norm_num)
  · omega

theorem crc32Bits_lt (n : Nat) {c : Nat} (h : c < 2 ^ 32) : crc32Bits n c < 2 ^ 32 := by
  induction n generalizing c with
  | zero => exact h
  | succ n ih =>
    rw [crc32Bits, strictNat_eq]
    exact ih (crc32Bit_lt h)

theorem crc32Run_lt (l : List Byte) {c : Nat} (h : c < 2 ^ 32) : crc32Run l c < 2 ^ 32 := by
  induction l generalizing c with
  | nil => exact h
  | cons b l ih =>
    rw [crc32Run, strictNat_eq]
    have byte : b.toNat < 2 ^ 32 := lt_trans b.isLt (by norm_num)
    exact ih (crc32Bits_lt 8 (Nat.xor_lt_two_pow h byte))

theorem crc32Run_append (a b : List Byte) (c : Nat) : crc32Run (a ++ b) c = crc32Run b (crc32Run a c) := by
  induction a generalizing c with
  | nil => rfl
  | cons x a ih => rw [List.cons_append, crc32Run, crc32Run, strictNat_eq, strictNat_eq, ih]

theorem imageCarry_toNat (c : Word) (l : List Byte) : (imageCarry c l).toNat = crc32Run l c.toNat := by
  rw [imageCarry, wordOf, BitVec.toNat_ofNat, Nat.mod_eq_of_lt (crc32Run_lt l c.isLt)]

theorem imageCarry_append (c : Word) (a b : List Byte) :
    imageCarry (imageCarry c a) b = imageCarry c (a ++ b) := by
  rw [imageCarry, imageCarry_toNat, ← crc32Run_append, imageCarry]

theorem imageEnd_imageCarry (a : List Byte) : imageEnd (imageCarry imageStart a) = crc32 a := by
  rw [imageEnd, imageCarry_toNat]
  rfl

namespace State

/-! ### Verify reads (R121, R122) -/

theorem verifyEnded_disregarded {l : LineNo} {n : SlotNo} {s : State} (d : List Byte) (out : OpOutcome)
    (other : s.staging l n = false) : s.verifyEnded l n d out = s := by
  simp only [verifyEnded, other]

theorem verifyEnded_staging {l : LineNo} {n : SlotNo} {w : LockWork} {s : State} (d : List Byte) (out : OpOutcome)
    (acts : s.staging l n = true) (work : s.work l = some w) :
    s.verifyEnded l n d out = if out = .done then s.verifyPage l n d w else s.failLock l (out == .deviceFail) := by
  simp only [verifyEnded, acts, work]

/-- A working record after a page read with DONE (R121). -/
def verified (length c : Nat) (d : List Byte) (w : LockWork) : LockWork :=
  { w with checks := w.checks ++ [crc32 d], cursor := some (c + 1),
           image := imageCarry w.image (d.take (length - 4096 * c)) }

theorem verifyPage_eq {l : LineNo} {n : SlotNo} {c : Nat} {d : List Byte} {w : LockWork} {s : State}
    (cursor : w.cursor = some c) :
    s.verifyPage l n d w =
      if c + 1 < s.dataPages n then
        (s.setWork l (some (verified (s.imageLength n) c d w))).addReady (.lockStep l)
      else s.verifyDone l n (verified (s.imageLength n) c d w) := by
  rw [verifyPage, cursor]
  rfl

theorem more_pages_iff (s : State) (n : SlotNo) (c : Nat) : c < s.dataPages n ↔ 4096 * c < s.imageLength n := by
  unfold dataPages
  omega

/-- The end of VERIFY without a loss that waits (R122, R123). -/
theorem verifyDone_agreed {l : LineNo} {n : SlotNo} {w : LockWork} {s : State} (clear : w.lossPending = false)
    (agree : imageEnd w.image = w.wanted) :
    s.verifyDone l n w =
      (s.setWork l (some { w with sealStep := some .list, cursor := none, listNext := 0 })).modUpd
        (fun u => { u with listing := u.listing ++ [l] }) := by
  rw [verifyDone, clear]
  exact if_pos agree

theorem verifyDone_differs {l : LineNo} {n : SlotNo} {w : LockWork} {s : State} (clear : w.lossPending = false)
    (differs : ¬ imageEnd w.image = w.wanted) : s.verifyDone l n w = s.mismatch l n w.command := by
  rw [verifyDone, clear]
  exact if_neg differs

/-- Settles O42, by the place of the page and the checks. -/
theorem verifyReadsEnd : Obligations.VerifyReadsEnd := by
  refine ⟨fun l n d out s disregarded => verifyEnded_disregarded d out (staging_false disregarded),
    fun l x w c d s lock staging work cursor => ?_,
    fun c a b => ⟨imageCarry_append c a b, imageEnd_imageCarry a⟩⟩
  have acts := staging_true lock staging work
  have page : s.verifyEnded l x.slot d .done = s.verifyPage l x.slot d w := verifyEnded_staging d .done acts work
  have past (last : s.imageLength x.slot ≤ 4096 * (c + 1)) :
      s.verifyEnded l x.slot d .done = s.verifyDone l x.slot (verified (s.imageLength x.slot) c d w) := by
    rw [page, verifyPage_eq cursor, if_neg (by rw [more_pages_iff]; omega)]
  intro n length z agree
  refine ⟨fun out failed => ?_, fun more => ?_, fun last pending => ?_, fun last clear agreed => ?_,
    fun last clear differs => ?_⟩
  · exact (verifyEnded_staging d out acts work).trans (if_neg failed)
  · rw [page, verifyPage_eq cursor, if_pos ((more_pages_iff s _ _).mpr more)]
    rfl
  · exact (past last).trans (if_pos pending)
  · exact (past last).trans (verifyDone_agreed clear agreed)
  · exact (past last).trans (verifyDone_differs clear differs)

/-! ### The check list and the seal (R123) -/

theorem listEnded_disregarded {l : LineNo} {n : SlotNo} {s : State} (u : Nat) (out : OpOutcome)
    (other : s.staging l n = false) : s.listEnded l n u out = s.takeEntry n .list u :=
  if_neg (by rw [staging_takeEntry, other]; simp)

theorem listEnded_staging {l : LineNo} {n : SlotNo} {s : State} (u : Nat) (out : OpOutcome)
    (acts : s.staging l n = true) :
    s.listEnded l n u out =
      if out = .done then (s.takeEntry n .list u).listEnd l n
      else (s.takeEntry n .list u).failLock l (out == .deviceFail) :=
  if_pos (by rw [staging_takeEntry, acts])

theorem sealMarkEnded_disregarded {l : LineNo} {n : SlotNo} {s : State} (out : OpOutcome)
    (other : s.staging l n = false) : s.sealMarkEnded l n out = s := by
  simp only [sealMarkEnded, other]

theorem sealMarkEnded_staging {l : LineNo} {n : SlotNo} {w : LockWork} {s : State} (out : OpOutcome)
    (acts : s.staging l n = true) (work : s.work l = some w) :
    s.sealMarkEnded l n out = if out = .done then s.sealDone l n w else s.failLock l (out == .deviceFail) := by
  simp only [sealMarkEnded, acts, work]

/-- LIST ends with its last entry (R123). -/
theorem listEnd_ends {l : LineNo} {n : SlotNo} {w : LockWork} {s : State} (work : s.work l = some w)
    (list : w.sealStep = some .list) (empty : ∀ e ∈ s.upd.queue, e.slot ≠ n)
    (placed : (w.checks.length + 63) / 64 ≤ w.listNext) :
    s.listEnd l n = (s.setWork l (some { w with sealStep := some .mark })).addReady (.lockStep l) := by
  rw [listEnd, work]
  exact if_pos ⟨list, (share_zero_iff s n).mpr empty, placed⟩

theorem listEnd_stays {l : LineNo} {n : SlotNo} {w : LockWork} {s : State} (work : s.work l = some w)
    (stays : w.sealStep ≠ some .list ∨ (∃ e ∈ s.upd.queue, e.slot = n) ∨ w.listNext < (w.checks.length + 63) / 64) :
    s.listEnd l n = s := by
  rw [listEnd, work]
  refine if_neg fun ⟨list, empty, placed⟩ => ?_
  rcases stays with other | ⟨e, member, mine⟩ | left
  · exact other list
  · exact (share_zero_iff s n).mp empty e member mine
  · exact absurd placed (not_le.mpr left)

/-- The seal record written, before a loss that waits acts (R123, R13). -/
def sealedState (l : LineNo) (x : Lock) (w : LockWork) (s : State) : State :=
  { s with
    slots := tset s.slots x.slot { s.slot x.slot with state := .sealed, checkList := some w.checks },
    lines := tset s.lines l { s.line l with
      pending := some x.slot, lock := some { x with idle := some (s.cfg.idleTimeout * 1000000) } },
    upd := { s.upd with work := tset s.upd.work l (some
      { w with phase := .sealed, sealStep := none, checks := [], image := 0, wanted := 0, listNext := 0,
               command := none, lossPending := false }) } }

theorem sealDone_eq {l : LineNo} {x : Lock} {w : LockWork} {s : State} (lock : (s.line l).lock = some x) :
    s.sealDone l x.slot w =
      if w.lossPending then ((s.sealedState l x w).answerTo w.command .ok [wordOf x.slot.val]).loseLock l .reset false
      else (s.sealedState l x w).answerTo w.command .ok [wordOf x.slot.val] := by
  have started : (((s.modSlot x.slot (fun r => { r with state := .sealed, checkList := some w.checks })).modLine l
      (fun r => { r with pending := some x.slot })).setWork l (some
        { w with phase := .sealed, sealStep := none, checks := [], image := 0, wanted := 0, listNext := 0,
                 command := none, lossPending := false })).startIdle l = s.sealedState l x w := by
    rw [startIdle, modLine]
    simp only [setWork, modUpd, modSlot, modLine, State.line, tget_tset_same, tset_tset]
    rw [show (tget s.lines l).lock = some x from lock]
    rfl
  rw [sealDone, started]

/-! ### LIST units (R123) -/

/-- Free places go to the SEAL whose LIST began first (R123). -/
theorem placeLists_next {k : Nat} {s : State} (free : s.upd.queue.length < 8) :
    s.placeLists (k + 1) =
      match s.upd.listing.find? s.mayList with
      | none => s
      | some l => placeLists k (s.placeList l) :=
  if_pos free

theorem placeList_eq {l : LineNo} {x : Lock} {w : LockWork} {s : State} (lock : (s.line l).lock = some x)
    (work : s.work l = some w) :
    s.placeList l =
      { s with upd := { s.upd with
        work := tset s.upd.work l (some { w with listNext := w.listNext + 1 }),
        queue := s.upd.queue ++
          [{ line := l, slot := x.slot, kind := .list, unit := w.listNext,
             data := (wordsBytes ((w.checks.drop (64 * w.listNext)).take 64) ++ List.replicate 256 0xFF).take 256,
             owner := none, programming := false }],
        ready := s.upd.ready ++ [.entry x.slot .list w.listNext],
        listing := if (w.checks.length + 63) / 64 ≤ w.listNext + 1 then s.upd.listing.filter (fun m => m != l)
          else s.upd.listing } } := by
  simp only [placeList, lock, work]
  by_cases last : listUnits w.checks ≤ w.listNext + 1
  · rw [if_pos last, if_pos (c := (w.checks.length + 63) / 64 ≤ w.listNext + 1) last]
    rfl
  · rw [if_neg last, if_neg (c := (w.checks.length + 63) / 64 ≤ w.listNext + 1) last]
    rfl

/-- Settles O43, outcome by outcome. -/
theorem checkListsAndSealsEnd : Obligations.CheckListsAndSealsEnd := by
  refine ⟨fun l n k out s disregarded => ?_, fun l x w k s lock staging work => ?_,
    fun k s => ⟨rfl, fun full => if_neg (not_lt.mpr full), fun free => ?_⟩⟩
  · have other := staging_false disregarded
    exact ⟨sealMarkEnded_disregarded out other, listEnded_disregarded k out other⟩
  · have acts := staging_true lock staging work
    intro n left
    have work' : left.work l = some w := work
    refine ⟨fun out failed => ⟨?_, ?_⟩, fun list empty placed => ?_, fun stays => ?_, ?_⟩
    · exact (listEnded_staging k out acts).trans (if_neg failed)
    · exact (sealMarkEnded_staging out acts work).trans (if_neg failed)
    · exact (listEnded_staging k .done acts).trans (listEnd_ends work' list empty placed)
    · exact (listEnded_staging k .done acts).trans (listEnd_stays work' stays)
    · exact (sealMarkEnded_staging .done acts work).trans (sealDone_eq lock)
  · intro room
    have mayList : s.mayList = room := rfl
    refine ⟨fun none => ?_, fun l x w found lock work => ?_⟩
    · rw [placeLists_next free, mayList, none]
    · rw [placeLists_next free, mayList, found]
      exact congrArg (placeLists k) (placeList_eq lock work)

end State

end Sys2Proof.Machine
end

section
/-!
PROOFS. The commit switch (R16, R166) and the ends of the commit mark and of the retire mark (R125 to R127).
-/

namespace Sys2Proof.Machine.State

/-! ### The commit switch (R16) -/

/-- A line and its new current slot, before the slot that was current leaves. -/
def switched (l : LineNo) (n : SlotNo) (s : State) : State :=
  { s with
    slots := tset s.slots n { s.slot n with state := .current, generation := some ((s.line l).generation + 1) },
    lines := tset s.lines l { s.line l with
      state := .active, name := (s.slot n).name, current := some n, pending := none,
      generation := (s.line l).generation + 1, version := (s.slot n).version } }

/-- The slot that was current leaves the line, where there is one. -/
def superseded (old : Option SlotNo) (s : State) : State :=
  match old with
  | none => s
  | some o => s.supersede o

theorem handAll_eq_foldl (x : Notice) (ps : List Port) (s : State) :
    handAll x ps s = ps.foldl (fun s p => s.hand p x) s := by
  induction ps generalizing s with
  | nil => rfl
  | cons p ps ih => rw [handAll, List.foldl_cons, ih]

theorem slots_hand (p : Port) (x : Notice) (s : State) : (s.hand p x).slots = s.slots := by
  unfold hand
  dsimp only
  split
  · rfl
  · split
    · rfl
    · split <;> rfl

theorem slots_handAll (x : Notice) (ps : List Port) (s : State) : (handAll x ps s).slots = s.slots := by
  induction ps generalizing s with
  | nil => rfl
  | cons p ps ih => rw [handAll, ih, slots_hand]

theorem switch_eq (l : LineNo) (n : SlotNo) (s : State) :
    (s.modSlot n (fun r => { r with state := .current, generation := some ((s.line l).generation + 1) })).modLine l
        (fun r => { r with
          state := .active,
          name := ((s.modSlot n (fun r =>
            { r with state := .current, generation := some ((s.line l).generation + 1) })).slot n).name,
          current := some n, pending := none, generation := (s.line l).generation + 1,
          version := ((s.modSlot n (fun r =>
            { r with state := .current, generation := some ((s.line l).generation + 1) })).slot n).version }) =
      s.switched l n := by
  rw [slot_modSlot_same]
  rfl

/-- The switch, the slot that leaves, the notices and the event (R16, R166). -/
theorem commitSwitch_eq {l : LineNo} {n : SlotNo} {s : State} (pending : (s.line l).pending = some n) :
    s.commitSwitch l =
      (handAll { kind := .newGeneration, subject := some l.val, value := wordOf ((s.line l).generation + 1) }
        (allPorts.filter (s.boundOn l)) ((s.switched l n).superseded (s.line l).current)).log
        { kind := .commit, slot := some n, line := some l, code0 := byteOf ((s.line l).generation + 1),
          code1 := byteOf (((s.line l).generation + 1) / 256),
          detail := (((s.switched l n).superseded (s.line l).current).slot n).version.getD 0 } := by
  have left (x : State) (ps : List Port) (y : Notice) : (handAll y ps x).slot n = x.slot n := by
    rw [slot, slots_handAll]
    rfl
  rw [commitSwitch, pending]
  dsimp only
  rw [switch_eq, left]
  rfl

/-- The superseded slot is RETIRED while it is pinned, else DIRTY, its reclaim hold set (R16). -/
theorem supersede_eq (o : SlotNo) (s : State) :
    s.supersede o =
      let b : State := { s with slots := tset s.slots o { s.slot o with reclaimHold := true } }
      if 0 < (s.slot o).windowPins + (s.slot o).segmentPins + (s.slot o).fillPins then
        { b with slots := tset b.slots o { b.slot o with state := .retired } }
      else b.toDirty o := by
  have pins : pinCount ((s.modSlot o (fun r => { r with reclaimHold := true })).slot o) =
      (s.slot o).windowPins + (s.slot o).segmentPins + (s.slot o).fillPins := by
    rw [slot_modSlot_same]
    rfl
  rw [supersede, pins]
  rfl

theorem slots_toDirty (n : SlotNo) (s : State) :
    (s.toDirty n).slots = tset s.slots n { s.slot n with state := .dirty, checkList := none } := rfl

theorem slot_toDirty_ne {n o : SlotNo} (other : n ≠ o) (s : State) : (s.toDirty o).slot n = s.slot n := by
  rw [slot, slots_toDirty, tget_tset_ne _ _ other]
  rfl

theorem slot_supersede_ne {n o : SlotNo} (other : n ≠ o) (s : State) : (s.supersede o).slot n = s.slot n := by
  unfold supersede
  dsimp only
  split
  · rw [slot_modSlot, if_neg other, slot_modSlot, if_neg other]
  · rw [slot_toDirty_ne other, slot_modSlot, if_neg other]

theorem slot_switched (l : LineNo) (n m : SlotNo) (s : State) :
    (s.switched l n).slot m =
      if m = n then { s.slot n with state := .current, generation := some ((s.line l).generation + 1) } else s.slot m :=
  tget_tset _ _ _ _

theorem version_superseded {l : LineNo} {n : SlotNo} {s : State} (other : (s.line l).current ≠ some n) :
    (((s.switched l n).superseded (s.line l).current).slot n).version = (s.slot n).version := by
  have here : ((s.switched l n).slot n).version = (s.slot n).version := by rw [slot_switched, if_pos rfl]
  cases current : (s.line l).current with
  | none => exact here
  | some o =>
    have apart : n ≠ o := fun same => other (by rw [current, same])
    rw [superseded, slot_supersede_ne apart, here]

/-! ### The ends of a commit's marks (R125 to R127) -/

theorem modWork_map (l : LineNo) (f : LockWork → LockWork) (s : State) :
    s.modWork l f = { s with upd := { s.upd with work := tset s.upd.work l ((s.work l).map f) } } := by
  cases work : s.work l with
  | some w => exact modWork_some f work
  | none =>
    have same : tset s.upd.work l none = s.upd.work := by
      rw [← show tget s.upd.work l = none from work, tset_tget]
    rw [modWork, work, Option.map_none, same]

theorem commitMarkEnded_some {c : Committer} {n : SlotNo} {r : CommitRun} {s : State} (out : OpOutcome)
    (run : s.commitRun c = some r) :
    s.commitMarkEnded c n out =
      if (s.slot n).state = .sealed ∧ (s.line (committerLine c)).pending = some n then
        if out = .done then s.commitDone c r
        else (s.commitFailed c n (out == .deviceFail)).finishCommit c r .programFail []
      else s := by
  rw [commitMarkEnded, run]

/-- The commit switch taken, a line without an old slot ends its commit; any other goes on to its retire mark (R125). -/
theorem commitDone_first {c : Committer} {r : CommitRun} {s : State}
    (current : (s.line (committerLine c)).current = none) :
    s.commitDone c r =
      (s.commitSwitch (committerLine c)).finishCommit c r .ok
        [wordOf (((s.commitSwitch (committerLine c)).line (committerLine c)).generation)] := by
  rw [commitDone, current]

theorem commitDone_next {c : Committer} {r : CommitRun} {o : SlotNo} {s : State}
    (current : (s.line (committerLine c)).current = some o) :
    s.commitDone c r =
      ((s.commitSwitch (committerLine c)).setCommitRun c
        { r with retiring := true, oldSlot := some o,
                 generation := ((s.commitSwitch (committerLine c)).line (committerLine c)).generation }).addReady
        (commitStep c) := by
  rw [commitDone, current]

theorem retireMarkEnded_some {c : Committer} {r : CommitRun} {s : State} (run : s.commitRun c = some r) :
    s.retireMarkEnded c = (s.releaseHold r.oldSlot).finishCommit c r .ok [wordOf r.generation] := by
  rw [retireMarkEnded, run]

/-- A commit of a line, by its lock or by its commit sequence. -/
theorem commit_of_line {l : LineNo} {c : Committer} {r : CommitRun} {s : State}
    (run : (c = .lock l ∧ (∃ w, s.work l = some w ∧ w.commit = some r)) ∨ (c = .sequence l ∧ s.sequence l = some r)) :
    committerLine c = l ∧ s.commitRun c = some r := by
  rcases run with ⟨rfl, w, work, commit⟩ | ⟨rfl, sequence⟩
  · refine ⟨rfl, ?_⟩
    rw [commitRun, work]
    exact commit
  · exact ⟨rfl, sequence⟩

/-- Settles O44, by the mark, its outcome and the line's old slot. -/
theorem commitsEnd : Obligations.CommitsEnd := by
  refine ⟨fun l n s pending other => ?_, fun l n c r out s by' => ?_⟩
  · intro g told a gone
    rw [commitSwitch_eq pending, version_superseded other, handAll_eq_foldl]
    have left : (s.switched l n).superseded (s.line l).current = gone := by
      show _ = (match (s.line l).current with | none => _ | some o => _)
      cases current : (s.line l).current with
      | none => rfl
      | some o =>
        have apart : o ≠ n := fun same => other (by rw [current, same])
        have stays : (s.switched l n).slot o = s.slot o := by rw [slot_switched, if_neg apart]
        rw [superseded, supersede_eq, stays]
        rfl
    rw [left]
    rfl
  · obtain ⟨line, run⟩ := commit_of_line by'
    have ends := commitMarkEnded_some (n := n) out run
    intro ended
    have finished (x : State) (st : Status) (res : List Word) :
        x.finishCommit c r st res = (ended x).answer r.port r.tag st res := by
      rcases by' with ⟨rfl, -⟩ | ⟨rfl, -⟩ <;> rfl
    rw [line] at ends
    refine ⟨fun elsewhere => ?_, fun isSealed pending => ?_, ?_⟩
    · rw [ends]
      exact if_neg fun ⟨isSealed, pending⟩ => elsewhere.elim (fun no => no isSealed) (fun no => no pending)
    · rw [if_pos ⟨isSealed, pending⟩] at ends
      intro gone
      refine ⟨fun failed => ?_, fun failed => ?_, fun done first => ?_, fun o done next => ?_⟩
      · rw [ends, failed, if_neg (by simp), finished, commitFailed, line]
        rfl
      · rw [ends]
        rcases failed with failed | failed
        all_goals
          rw [failed, if_neg (by simp), finished, commitFailed, line]
          rfl
      · rw [ends, if_pos done, commitDone_first (by rw [line]; exact first), finished, line]
      · rw [ends, if_pos done, commitDone_next (by rw [line]; exact next), line]
        rcases by' with ⟨rfl, -⟩ | ⟨rfl, -⟩
        · exact congrArg (addReady (.lockStep l)) (modWork_map l _ _)
        · rfl
    · rw [retireMarkEnded_some run, finished]
      cases r.oldSlot <;> rfl

end Sys2Proof.Machine.State
end

section
/-!
PROOFS. What ends a step: the reclaimer's pick (R20, R106), the channel's grant (R90 to R92) and the suspend of an erase
(R94).
-/

namespace Sys2Proof.Machine.State

/-! ### The reclaimer's pick -/

theorem dirtySlot_eq (s : State) :
    s.dirtySlot = (List.finRange 16).find? (fun n => (s.slot n).state == .dirty && !(s.slot n).reclaimHold) := rfl

theorem mayPick_iff (s : State) :
    s.mayPick = true ↔ s.reclaim = none ∧ s.offline = false ∧ s.started = true := by
  simp [mayPick, and_assoc]

theorem pick_nothing {s : State}
    (h : s.reclaim ≠ none ∨ s.offline = true ∨ s.started = false ∨
      ∀ n, (s.slot n).state ≠ .dirty ∨ (s.slot n).reclaimHold = true) : s.pick = s := by
  unfold pick
  split
  · next may =>
    obtain ⟨idle, up, started⟩ := (mayPick_iff s).mp may
    have clean := ((h.resolve_left (· idle)).resolve_left (by simp [up])).resolve_left (by simp [started])
    have none : s.dirtySlot = none := by
      rw [dirtySlot_eq, List.find?_eq_none]
      intro n _
      rcases clean n with other | held
      · simp [other]
      · simp [held]
    rw [none]
  · rfl

theorem pick_dirty {s : State} {n : SlotNo} (idle : s.reclaim = none) (up : s.offline = false)
    (started : s.started = true) (dirty : (s.slot n).state = .dirty) (free : (s.slot n).reclaimHold = false)
    (lowest : ∀ m, m < n → (s.slot m).state ≠ .dirty ∨ (s.slot m).reclaimHold = true) :
    s.pick = { s.toErasing n with reclaim := some { target := n, cursor := s.slotBlocks - 1, erasing := false } } := by
  have found : s.dirtySlot = some n := by
    rw [dirtySlot_eq, findFirst_iff]
    refine ⟨by simp [dirty, free], fun m below => ?_⟩
    rcases lowest m below with other | held
    · simp [other]
    · simp [held]
  rw [pick, if_pos ((mayPick_iff s).mpr ⟨idle, up, started⟩), found]

/-! ### The grant from IDLE (R91, R92) -/

theorem kick_idle {s : State} (idle : s.chan.state = .idle) : s.kick = s.grant := by
  simp only [kick, idle]

theorem grant_update {s : State} {i : ReadyItem} (request : s.updateRequest = some i)
    (turn : s.chan.aging = 8 ∨ s.class1 = none) : s.grant = s.grantUpdate i := by
  by_cases aged : s.chan.aging = 8
  · simp [grant, request, aged]
  · simp [grant, request, aged, turn.resolve_left aged]

theorem grant_class1 {s : State} {e : FillEntry} (fill : s.class1 = some e)
    (turn : s.updateRequest = none ∨ s.chan.aging < 8) : s.grant = s.grantClass1 e := by
  have first : ¬ (s.updateRequest.isSome = true ∧ s.chan.aging = 8) := by
    rintro ⟨waits, aged⟩
    rcases turn with none | less
    · simp [none] at waits
    · omega
  rw [grant, if_neg first, fill]

/-- With no class 1 and no class 2 request, the grant is by the classes that follow (R91). -/
theorem grant_background {s : State} (fill : s.class1 = none) (update : s.updateRequest = none) :
    s.grant =
      match s.configRequest.filter (fun o => !isErase o) with
      | some o => s.grantOther o
      | none =>
      match s.class4 with
      | some e => (s.modChan (fun c => { c with state := .busy, aging := 0 })).grantFill e
      | none =>
      match s.reclaimRequest.filter (fun o => !isErase o) with
      | some o => s.grantOther o
      | none =>
      match s.start.request with
      | some w => (s.modStart (fun t => { t with request := none })).grantOther (s.startOp w)
      | none =>
      match s.configRequest with
      | some o => s.grantOther o
      | none =>
      match s.reclaimRequest with
      | some o => s.grantOther o
      | none => s := by
  simp only [grant, fill, update] <;> rfl

theorem filter_program {r : Option Operation} {o : Operation} (request : r = some o) (program : o.erase = none) :
    r.filter (fun o => !isErase o) = some o := by
  rw [request]
  simp [isErase, program]

theorem filter_erase {r : Option Operation} (erases : ∀ o, r = some o → o.erase ≠ none) :
    r.filter (fun o => !isErase o) = none := by
  cases request : r with
  | none => rfl
  | some o => simpa [isErase] using erases o request

/-- A grant beside the update writer's own returns the aging count to 0 when none of its work waits (R92). -/
theorem grantOther_eq {s : State} (o : Operation) (update : s.updateRequest = none) :
    s.grantOther o = { s with chan := { s.chan with state := .busy, op := some o, aging := 0 } } := by
  rw [grantOther, update]
  rfl

theorem grantUpdate_eq {s : State} {i : ReadyItem} {o : Operation} :
    s.readyOp i = some o → s.grantUpdate i =
      { s with
        upd := { s.upd with
          ready := s.upd.ready.drop 1,
          queue := match i with
            | .entry n k u => s.upd.queue.map (fun e =>
                if e.slot = n ∧ e.kind = k ∧ e.unit = u then { e with programming := true } else e)
            | _ => s.upd.queue },
        chan := { s.chan with state := .busy, op := some o, aging := 0 } } := by
  intro op
  rw [grantUpdate, op]
  cases i <;> rfl

/-- A class 1 grant from IDLE, with the aging count it leaves (R54, R92). -/
theorem grantClass1_eq (s : State) (e : FillEntry) :
    s.grantClass1 e =
      { s with
        fill := { s.fill with
          demand := s.fill.demand.map (fun x => if x.frame = e.frame then { x with reading := true } else x),
          ahead := s.fill.ahead.map (fun x => if x.frame = e.frame then { x with reading := true } else x) },
        chan := { s.chan with
          state := .busy,
          op := some { work := .fill e.frame, slot := some e.slot, addr := 4096 * e.page, data := [], left := 1000,
                       erase := none },
          aging := if s.updateRequest.isSome then min 8 (s.chan.aging + 1) else 0 } } := rfl

/-! ### The suspend of a running erase (R94) -/

theorem kick_noErase {s : State} (busy : s.chan.state = .busy) (other : ∀ o, s.chan.op = some o → o.erase = none) :
    s.kick = s := by
  have none : s.chan.op.bind (·.erase) = none := by
    cases op : s.chan.op with
    | none => rfl
    | some o => exact other o op
  simp only [kick, busy, none]

theorem kick_erase {s : State} {o : Operation} {e : EraseRecord} (busy : s.chan.state = .busy)
    (op : s.chan.op = some o) (erase : o.erase = some e) :
    s.kick = if s.maySuspend e then s.suspend else s := by
  have running : s.chan.op.bind (·.erase) = some e := by rw [op]; exact erase
  simp only [kick, busy, running]

theorem maySuspend_iff (s : State) (e : EraseRecord) :
    s.maySuspend e = true ↔ e.phase = .running ∧ e.suspensions < 8 ∧ 1000 ≤ e.run ∧ s.class1 ≠ none := by
  simp only [maySuspend, Bool.and_eq_true, beq_iff_eq, decide_eq_true_eq, Option.isSome_iff_ne_none, and_assoc]
  exact Iff.rfl

theorem suspend_eq {s : State} {o : Operation} {e : EraseRecord} (op : s.chan.op = some o) (erase : o.erase = some e) :
    s.suspend = { s with chan := { s.chan with
      op := some { o with erase := some { e with phase := .suspending, ackLeft := 100 } } } } := by
  simp only [suspend, modChan, op, erase, Option.map_some]
  rfl

/-- Settles O45, request by request. -/
theorem channelGrantsInOrder : Obligations.ChannelGrantsInOrder := by
  refine ⟨fun s running => ⟨if_neg running, settle_follows s running⟩, fun s => ⟨pick_nothing,
    fun n idle up started dirty free lowest => pick_dirty idle up started dirty free lowest⟩,
    fun s => ⟨rfl, if_congr Option.isSome_iff_ne_none rfl rfl, rfl⟩, fun s idle => ?_, fun s => ?_⟩
  · intro busy mark fills
    rw [kick_idle idle]
    refine ⟨fun i o request op turn => (grant_update request turn).trans (grantUpdate_eq op),
      fun e fill update => ?_, fun e i fill request young => ?_, fun fill update => ?_⟩
    · rw [grant_class1 fill (Or.inl update), grantClass1_eq, update]
      rfl
    · rw [grant_class1 fill (Or.inr young), grantClass1_eq, request, Option.isSome_some, if_pos rfl,
        Nat.min_eq_right (by omega)]
    · rw [grant_background fill update]
      refine ⟨fun o request program => ?_, fun config => ⟨fun e ahead => ?_, fun ahead =>
        ⟨fun o request program => ?_, fun reclaim => ⟨fun w request => ?_, fun start =>
          ⟨fun o request => ?_, fun o none request => ?_, fun none none' => ?_⟩⟩⟩⟩⟩
      · rw [filter_program request program]
        exact grantOther_eq o update
      all_goals rw [filter_erase config]
      · rw [ahead]
        rfl
      all_goals rw [ahead]
      · rw [filter_program request program]
        exact grantOther_eq o update
      all_goals rw [filter_erase reclaim]
      · rw [request]
        exact grantOther_eq (s := s.modStart (fun t => { t with request := none })) _ update
      all_goals rw [start]
      · rw [request]
        exact grantOther_eq o update
      · rw [none, request]
        exact grantOther_eq o update
      · rw [none, none']
  · refine ⟨fun still => ?_, kick_noErase, fun o e busy op erase => ⟨fun may => ?_, fun no => ?_⟩⟩
    · rcases still with still | still
      all_goals simp only [kick, still]
    · rw [kick_erase busy op erase, if_pos ((maySuspend_iff s e).mpr may), suspend_eq op erase]
    · rw [kick_erase busy op erase, if_neg]
      rw [maySuspend_iff]
      rintro ⟨running, few, long, fill⟩
      rcases no with other | many | short | none
      · exact other running
      · omega
      · omega
      · exact fill none

end Sys2Proof.Machine.State
end

section
/-!
PROOFS. The suspension of erases (R94 to R97), the timeouts of the channel and its entry to OFFLINE (R98 to R103).
-/

namespace Sys2Proof.Machine.State

/-! ### Suspension (R94, R95, R96) -/

theorem erase_of_op {s : State} {o : Operation} {e : EraseRecord} (op : s.chan.op = some o) (erase : o.erase = some e) :
    s.chan.op.bind (·.erase) = some e := by
  rw [op]
  exact erase

theorem exec_suspendAnswer {s : State} {o : Operation} {e : EraseRecord} (suspended : Bool) (live : s.live = true)
    (op : s.chan.op = some o) (erase : o.erase = some e) (phase : e.phase = .suspending) :
    exec (.suspendAnswer suspended) s =
      .next (if suspended then s.eraseSuspended o e else s.eraseDone o) := by
  refine next_whenLive live ?_
  simp only [op, erase, if_pos phase]

/-- The erase held, the class 1 request that waits is granted (R94). -/
theorem eraseSuspended_grants {s : State} {f : FillEntry} (o : Operation) (e : EraseRecord) (fill : s.class1 = some f) :
    s.eraseSuspended o e =
      grantFill f (s.modChan (fun c =>
        { c with state := .eraseSuspended, op := none,
                 suspended := some { o with
                   erase := some { e with phase := .suspended, suspensions := e.suspensions + 1, reads := 0 } } })) := by
  have waits : (s.modChan (fun c =>
      { c with state := .eraseSuspended, op := none,
               suspended := some { o with
                 erase := some { e with phase := .suspended, suspensions := e.suspensions + 1, reads := 0 } } })).class1 =
      some f := fill
  simp only [eraseSuspended, waits]

/-- With none waiting any more it runs on (R96). -/
theorem eraseSuspended_resumes {s : State} (o : Operation) (e : EraseRecord) (fill : s.class1 = none) :
    s.eraseSuspended o e =
      { s with chan := { s.chan with
        state := .busy, suspended := none,
        op := some { o with
          erase := some { e with phase := .running, run := 0, suspensions := e.suspensions + 1, reads := 0 } } } } := by
  have none : (s.modChan (fun c =>
      { c with state := .eraseSuspended, op := none,
               suspended := some { o with
                 erase := some { e with phase := .suspended, suspensions := e.suspensions + 1, reads := 0 } } })).class1 =
      none := fill
  simp only [eraseSuspended, none]
  exact resume_eq (h := { o with
    erase := some { e with phase := .suspended, suspensions := e.suspensions + 1, reads := 0 } }) rfl rfl

theorem endOp_deviceEffect (h : DeviceEnd) (o : Operation) (s : State) :
    (s.deviceEffect h o).endOp =
      { s.deviceEffect h o with
        chan := { s.chan with op := none, timeouts := 0,
                              state := if s.chan.state = .busy then .idle else s.chan.state } } := by
  rw [endOp, modChan, chan_deviceEffect]

theorem eraseDone_reclaim {o : Operation} {b : Nat} (s : State) (work : o.work = .reclaimErase b) :
    s.eraseDone o = ((s.deviceEffect .done o).endOp.reclaimEraseEnded b .done).settle := by
  simp only [eraseDone, work]

theorem eraseDone_config {o : Operation} {c : Copy} (s : State) (work : o.work = .configErase c) :
    s.eraseDone o = ((s.deviceEffect .done o).endOp.configEraseEnded .done).settle := by
  simp only [eraseDone, work]

/-- Settles O46, by the erase and the request that waits. -/
theorem erasesSuspend : Obligations.ErasesSuspend := by
  refine fun s live => ⟨fun o e op erase running few waits => ?_, fun nothing => ?_, fun o e op erase phase => ?_,
    fun answer other => ?_⟩
  · refine next_whenLive live ?_
    simp only [erase_of_op op erase]
    exact if_pos ⟨running, few, Option.isSome_iff_ne_none.mpr waits⟩
  · refine next_whenLive_same ?_
    split
    · rfl
    · next e found =>
      obtain ⟨o, op, erase⟩ := Option.bind_eq_some_iff.mp found
      refine if_neg fun ⟨running, few, waits⟩ => ?_
      rcases nothing with spent | none
      · rcases spent o e op erase with other | many
        · exact other running
        · exact absurd few (not_lt.mpr many)
      · exact Option.isSome_iff_ne_none.mp waits none
  · intro held
    refine ⟨fun f fill => ?_, fun fill => ?_, fun b work => ?_, fun c work => ?_⟩
    all_goals rw [exec_suspendAnswer _ live op erase phase]
    · exact congrArg Host.Outcome.next (eraseSuspended_grants o e fill)
    · exact congrArg Host.Outcome.next (eraseSuspended_resumes o e fill)
    · rw [if_neg (by simp), eraseDone_reclaim s work, endOp_deviceEffect]
    · rw [if_neg (by simp), eraseDone_config s work, endOp_deviceEffect]
  · refine next_whenLive_same ?_
    split
    · rfl
    · next o op =>
      split
      · rfl
      · next e erase => exact if_neg (other o e op erase)

/-! ### What an end through the channel reports (R99, R113) -/

theorem logProgramFail_cut {o : Operation} {out : OpOutcome} {s : State} (cut : out = .timeout ∨ out = .lost) :
    s.logProgramFail o out =
      if out = .timeout then
        s.log { kind := .programFail, slot := o.slot, page := some (o.addr / 4096),
                detail := packWord o.work.stepCode 1 0 0 }
      else s := by
  rcases cut with rfl | rfl <;> rfl

theorem updateTimedOut_some {o : Operation} {out : OpOutcome} {n : SlotNo} {s : State}
    (f : SlotNo → OpOutcome → State → State) (slot : o.slot = some n) :
    s.updateTimedOut o out f = f n out (s.logProgramFail o out) := by
  rw [updateTimedOut, slot]

theorem configEnded_cut {out : OpOutcome} {s : State} (cut : out = .timeout ∨ out = .lost) :
    s.configEraseEnded out = s.failConfig false ∧ s.configProgramEnded out = s.failConfig false := by
  rcases cut with rfl | rfl <;> exact ⟨rfl, rfl⟩

/-! ### The entry to OFFLINE (R103) -/

theorem answer_rest (p : Port) (t : CmdTag) (st : Status) (res : List Word) (s : State) :
    s.answer p t st res = { s with ports := (s.answer p t st res).ports } := by
  unfold answer
  split <;> rfl

theorem failConfig_rest (device : Bool) (s : State) :
    s.failConfig device =
      { s with ports := (s.failConfig device).ports, cfgw := (s.failConfig device).cfgw,
               events := (s.failConfig device).events } := by
  unfold failConfig
  split
  · rfl
  · rw [answer_rest]
    rfl

theorem start_failConfig (device : Bool) (s : State) : (s.failConfig device).start = s.start := by
  rw [failConfig_rest]

theorem cfg_failConfig (device : Bool) (s : State) : (s.failConfig device).cfg = s.cfg := by
  rw [failConfig_rest]

theorem reclaim_failConfig (device : Bool) (s : State) : (s.failConfig device).reclaim = s.reclaim := by
  rw [failConfig_rest]

/-- An operation of the update writer. -/
theorem ofUpdate_eq (w : Work) :
    ofUpdate w = match w with
      | .stageMark _ | .dataProgram _ _ | .verifyRead _ | .listProgram _ _ | .sealMark _ | .commitMark _
      | .retireMark _ => true
      | _ => false := by
  cases w <;> rfl

theorem supervisors_congr {s u : State} (start : u.start = s.start) (cfg : u.cfg = s.cfg) :
    u.supervisors = s.supervisors := by
  unfold supervisors started portCfg
  rw [start, cfg]

theorem reclaimOffline_eq (s : State) :
    s.reclaimOffline =
      match s.reclaim with
      | none => s
      | some j => { s.toDirty j.target with reclaim := none } := rfl

/-- The channel OFFLINE, its requesters told, and the configuration writer's write failed (R103). -/
def offlineTold (o : Operation) (s : State) : State :=
  let a := s.log { kind := .channelOffline, detail := wordOf o.work.kindCode }
  State.failConfig false
    { a with
      chan := { s.chan with state := .offline, op := none, suspended := none, aging := 0 },
      upd := { s.upd with lost := if ofUpdate o.work then none else s.upd.ready.head?, toldOffline := true },
      fill := { s.fill with toldOffline := true } }

theorem enterOffline_eq (o : Operation) (s : State) :
    s.enterOffline o =
      handAll { kind := .channelState, subject := none, value := wordOf 1 } s.supervisors
        (s.offlineTold o).reclaimOffline.startOffline := by
  have told : (s.offlineTold o).supervisors = s.supervisors :=
    supervisors_congr (start_failConfig _ _) (cfg_failConfig _ _)
  rw [← told]
  rfl

/-- What an entry to OFFLINE keeps of the start-up controller and the reclaimer until they are told. -/
theorem offlineTold_rest (o : Operation) (s : State) :
    (s.offlineTold o).start = s.start ∧ (s.offlineTold o).reclaim = s.reclaim := by
  exact ⟨start_failConfig _ _, reclaim_failConfig _ _⟩

theorem start_reclaimOffline (s : State) : s.reclaimOffline.start = s.start := by
  rw [reclaimOffline_eq]
  split <;> rfl

theorem startOffline_eq (s : State) :
    s.startOffline =
      if s.started then s
      else { s with start := { s.start with
        retry := if s.start.request.isSome then s.start.request else s.start.retry, request := none,
        wait := some 1000000 } } := rfl

/-! ### Timeouts (R98 to R101) -/

theorem chan_report (o : Operation) (out : OpOutcome) (s : State) : (s.report o out).chan = s.chan :=
  (tends_report o out s).chan

/-- What an operation's timeout reports, before the reset or OFFLINE that follows (R99). -/
def timeoutReported (o : Operation) (s : State) : State :=
  let a := s.countTimeout.logTimeout o
  let b := State.report o .timeout
    ((a.deviceEffect .timedOut o).modChan (fun c => { c with op := none, suspended := none }))
  match s.chan.suspended with
  | none => b
  | some h => State.report h .lost (b.deviceEffect .timedOut h)

theorem timeouts_timeoutReported (o : Operation) (s : State) :
    (s.timeoutReported o).chan.timeouts = s.chan.timeouts + 1 := by
  unfold timeoutReported
  dsimp only
  split
  · rw [chan_report, modChan_chan, chan_deviceEffect]
    rfl
  · rw [chan_report, chan_deviceEffect, chan_report, modChan_chan, chan_deviceEffect]
    rfl

theorem timedOut_eq (o : Operation) (s : State) :
    s.timedOut o =
      (if s.chan.timeouts + 1 < 3 then (s.timeoutReported o).issueReset .timeout
       else (s.timeoutReported o).enterOffline o).settle := by
  rw [← timeouts_timeoutReported o s]
  rfl

/-- Settles O47, operation by operation. -/
theorem timeoutsResetOrGoOffline : Obligations.TimeoutsResetOrGoOffline := by
  refine ⟨fun o s => ?_, fun o s live op => ⟨fun other => ?_, fun e erase phase => ?_, fun reset => ⟨?_, fun c work => ?_⟩⟩,
    fun o out s cut => ?_, fun o s => ?_⟩
  · intro count page a d b z
    have reported : s.timeoutReported o = z := rfl
    refine ⟨fun few => ?_, fun third => ?_, fun c few => ?_, fun c third => ?_⟩
    · rw [timedOut_eq, if_pos few, reported]
      rfl
    · rw [timedOut_eq, if_neg (not_lt.mpr third), reported]
    · exact congrArg settle (if_pos few)
    · exact congrArg settle (if_neg (not_lt.mpr third))
  · refine next_whenLive live ?_
    rw [op]
    dsimp only
    split
    · next c work => exact absurd work (other c)
    · rfl
  · refine next_whenLive live ?_
    simp only [op, erase, if_pos phase]
  · refine next_whenLive live ?_
    rcases reset with work | work
    all_goals
      simp only [op, Option.map_some, work]
      rfl
  · refine next_whenLive live ?_
    have two : c = .timeout ∨ c = .startUp := by
      rcases reset with reset | reset <;> rw [work] at reset <;> cases reset <;> simp
    rcases two with rfl | rfl
    all_goals simp only [op, work]
  · intro y
    have failed : s.logProgramFail o out = y := logProgramFail_cut cut
    have ended (n : SlotNo) (slot : o.slot = some n) (f : SlotNo → OpOutcome → State → State) :
        s.updateTimedOut o out f = f n out y := by
      rw [updateTimedOut_some f slot, failed]
    refine ⟨fun f e work entry => ?_, fun l n work slot => ?_, fun l k n work slot => ?_, fun l n work slot => ?_,
      fun l k n work slot => ?_, fun l n work slot => ?_, fun c n work slot => ?_, fun c n work slot => ?_,
      fun c work => ?_, fun work => ?_, fun b work => ?_, fun reads => ?_⟩
    · simp only [report, work, fillTimedOut, entry]
    · simp only [report, work]
      exact ended n slot _
    · simp only [report, work]
      exact ended n slot _
    · simp only [report, work]
      exact ended n slot _
    · simp only [report, work]
      exact ended n slot _
    · simp only [report, work]
      exact ended n slot _
    · simp only [report, work]
      exact ended n slot _
    · simp only [report, work]
      exact ended n slot _
    · rcases work with work | work
      · simp only [report, work]
        exact (configEnded_cut cut).1
      · simp only [report, work]
        exact (configEnded_cut cut).2
    · simp only [report, work]
    · simp only [report, work]
    · rcases reads with ⟨c, work⟩ | ⟨n, work | work⟩
      all_goals
        simp only [report, work]
        rfl
  · intro own a b c d
    have ofUpdates : ofUpdate o.work = own := ofUpdate_eq o.work
    have told : s.offlineTold o = b := by
      show _ = State.failConfig false _
      rw [← ofUpdates]
      rfl
    obtain ⟨start, reclaim⟩ := offlineTold_rest o s
    have left : (s.offlineTold o).reclaimOffline = c := by
      rw [reclaimOffline_eq, reclaim, told] <;> rfl
    have startC : c.start = s.start := by rw [← left, start_reclaimOffline, start]
    have waits : c.startOffline = d := by
      rw [startOffline_eq, started, startC]
      rfl
    rw [enterOffline_eq, left, waits, handAll_eq_foldl]
    rfl

end Sys2Proof.Machine.State
end

section
/-!
PROOFS. The ways out of OFFLINE (R105, R172), and the ends of the reclaimer's operations (R107 to R109).
-/

namespace Sys2Proof.Machine.State

/-! ### CHANNEL_RESET (R105, R150) -/

theorem offline_iff (s : State) : s.offline = true ↔ s.chan.state = .offline := by simp [offline]

theorem offline_false_iff (s : State) : s.offline = false ↔ s.chan.state ≠ .offline := by simp [offline]

/-- Past a QUARANTINED port, CHANNEL_RESET is by the channel (R105). -/
theorem channelResetBody_free {p : Port} {t : CmdTag} {s : State} (free : (s.port p).sup.state ≠ .quarantined) :
    s.channelResetBody p t =
      if s.offline = false then s.answer p t .badState []
      else if s.chan.op.isSome then s.answer p t .busy []
      else s.runOp (resetOp (.command p t)) :=
  if_neg free

/-! ### The channel's return (R105, R172) -/

/-- What an entry to OFFLINE has left untaken at the update writer (R131). -/
theorem offlineUpdate_eq (s : State) :
    s.offlineUpdate =
      allLines.foldl (fun x l => (x.offlineLock l).offlineSequence l)
        (match s.upd.lost with
         | none => { s with upd := { s.upd with lost := none, toldOffline := false } }
         | some i => loseRequest i { s with upd := { s.upd with lost := none, toldOffline := false } }) := by
  rw [offlineUpdate, offlineLines_eq_foldl]
  rfl

theorem offlineFills_eq (s : State) :
    s.offlineFills =
      (((s.fill.demand ++ s.fill.ahead).foldl (fun x e => x.fillFailed e) s).modFill (fun q =>
        { q with toldOffline := false })).handOut := by
  rw [offlineFills, failFills_eq_foldl]

/-- A reset by command or of a start that times out: the channel stays OFFLINE (R105, R172). -/
theorem resetFailed_eq {o : Operation} {c : ResetCause} {s : State} (work : o.work = .deviceReset c) :
    ((s.advance o.left).clearOp).logTimeout o =
      ({ s.advance o.left with chan := { (s.advance o.left).chan with op := none } } : State).log
        { kind := .channelTimeout, page := none, detail := packWord 4 s.chan.timeouts 0 0 } := by
  have page : timeoutPage o = none := by simp only [timeoutPage, work]
  rw [logTimeout, page, work]
  rfl

/-- Settles O48, by the reset's cause. -/
theorem channelResets : Obligations.ChannelResets := by
  refine ⟨fun p q t s d => ?_, fun o s live op => ?_, fun d s live wait down idle => ?_, fun s nothing => ?_⟩
  · intro o answered
    have answers (st : Status) : o.answer p t st [] = o.replied p t st [] := answer_of_opened _ _ _ _ _ _ _
    have sup : (o.port p).sup = (s.port p).sup := sup_opened _ _ _ _ _ _
    refine ⟨fun quarantined => next_dispatched d ?_, fun free up => next_dispatched d ?_,
      fun free down busy => next_dispatched d ?_, fun free down idle => next_dispatched d ?_⟩
    · exact (if_pos (by rw [sup, quarantined])).trans (answers _)
    all_goals refine (channelResetBody_free (s := o) (by rw [sup]; exact free)).trans ?_
    · exact (if_pos ((offline_false_iff s).mpr up)).trans (answers _)
    all_goals refine (if_neg fun up => (offline_false_iff s).mp up down).trans ?_
    · exact (if_pos (Option.isSome_iff_ne_none.mpr busy)).trans (answers _)
    · exact if_neg fun busy => Option.isSome_iff_ne_none.mp busy idle
  · intro f a b g online failed
    have fills : (if s.fill.toldOffline then s.offlineFills else s) = f := by rw [offlineFills_eq]
    have updates : (if f.upd.toldOffline then f.offlineUpdate else f) = g := by
      rw [offlineUpdate_eq] <;> rfl
    have taken : s.takeOffline = g := by rw [takeOffline, fills, updates]
    have returns (x : Option Port) : s.goOnline x = online x := by
      rw [goOnline, taken, handAll_eq_foldl]
      rfl
    refine ⟨fun p t work => ⟨next_whenLive live ?_, next_whenLive live ?_⟩,
      fun work => ⟨next_whenLive live ?_, next_whenLive live ?_⟩⟩
    · simp only [op, Option.map_some, work, returns]
    · simp only [op, work]
      rw [resetFailed_eq work]
    · simp only [op, Option.map_some, work, returns]
    · simp only [op, work]
      rw [resetFailed_eq work]
      rfl
  · refine next_whenLive live ?_
    simp only [wait]
    exact if_pos ⟨(offline_iff s).mpr down, idle⟩
  · refine next_whenLive_same ?_
    split
    · rfl
    · next d wait =>
      refine if_neg fun ⟨down, idle⟩ => ?_
      rcases nothing with none | up | busy
      · simp [none] at wait
      · exact up ((offline_iff s).mp down)
      · exact busy idle

/-! ### The ends of the reclaimer's operations (R107 to R109) -/

/-- An operation of a requester that logs its own failures, answered by the device. -/
theorem endOwnOp_eq (o : Operation) (pass : Bool) (f : OpOutcome → State → State) (s : State) :
    s.endOwnOp o pass f =
      (f (if pass then .done else .deviceFail)
        { s.deviceEffect (if pass then .done else .failed) o with
          chan := { s.chan with op := none, timeouts := 0,
                                state := if s.chan.state = .busy then .idle else s.chan.state } }).settle := by
  rw [endOwnOp, endOp_deviceEffect]
  rfl

/-- The outcomes of the erase mark, for the reclaimer's present target (R108). -/
theorem eraseMarkEnded_some {j : ReclaimJob} {s : State} (out : OpOutcome) (target : s.reclaim = some j) :
    s.eraseMarkEnded out =
      match out with
      | .done => { s with reclaim := some { j with erasing := true } }
      | .deviceFail => s.reclaimBad j (s.reclaimBlock j.target 0)
      | .timeout => s.reclaimFailed j
      | .lost => s.reclaimFailed j := by
  simp only [eraseMarkEnded, target] <;> rfl

/-- The outcomes of a block erase, for the reclaimer's present target (R107). -/
theorem reclaimEraseEnded_some {j : ReclaimJob} {s : State} (block : Nat) (out : OpOutcome)
    (target : s.reclaim = some j) :
    s.reclaimEraseEnded block out =
      match out with
      | .done =>
        if j.cursor = 0 then { s.toEmpty j.target with reclaim := none }
        else { s with reclaim := some { j with cursor := j.cursor - 1 } }
      | .deviceFail => s.reclaimBad j block
      | .timeout => s.reclaimFailed j
      | .lost => s.reclaimFailed j := by
  simp only [reclaimEraseEnded, target] <;> rfl

/-- Settles O49, outcome by outcome. -/
theorem reclaimerStepsEnd : Obligations.ReclaimerStepsEnd := by
  refine ⟨fun o s live op => ⟨fun pass work => ?_, fun b pass work => ?_⟩, fun s pass => ⟨fun other => ?_, fun other => ?_⟩,
    fun j b s target => ?_⟩
  · refine next_whenLive live ?_
    simp only [op, work]
    exact endOwnOp_eq o pass _ s
  · refine next_whenLive live ?_
    simp only [op, work]
    exact endOwnOp_eq o pass _ s
  · refine next_whenLive_same ?_
    split
    · rfl
    · next o op =>
      split
      · next work => exact absurd work (other o op)
      · rfl
  · refine next_whenLive_same ?_
    split
    · rfl
    · next o op =>
      split
      · next b work => exact absurd work (other o b op)
      · rfl
  · have mark (out : OpOutcome) := eraseMarkEnded_some out target
    have block (out : OpOutcome) := reclaimEraseEnded_some b out target
    exact ⟨mark .done, mark .deviceFail, mark .timeout, mark .lost,
      fun more => (block .done).trans (if_neg more.ne'), fun last => (block .done).trans (if_pos last),
      block .deviceFail, block .timeout, block .lost⟩

end Sys2Proof.Machine.State
end

section
/-!
PROOFS. The configuration writer (spec/09): how a write ends, and which writes begin.
-/

namespace Sys2Proof.Machine.State

/-! ### The ends of a write's operations (R176) -/

/-- The first flash page of a copy's block. -/
theorem copyPage_eq (c : Copy) : copyPage c = match c with | .a => 0 | .b => 16 := by
  cases c <;> rfl

/-- A copy set in the writer's record. -/
theorem setCopy_eq (c : Copy) (x : CopyState) (s : State) :
    s.setCopy c x = { s with cfgw :=
      { s.cfgw with copyA := if c = .a then x else s.cfgw.copyA, copyB := if c = .b then x else s.cfgw.copyB } } := by
  cases c <;> rfl

/-- A failed write: PROGRAM_FAIL with the step it was in, and the answer to its command. -/
theorem failConfig_some {w : ConfigWrite} {s : State} (device : Bool) (write : s.cfgw.write = some w) :
    s.failConfig device =
      (({ s with cfgw := { s.cfgw with write := none } } : State).log
        { kind := .programFail, page := some (match w.copy with | .a => 0 | .b => 16),
          detail := packWord (if w.programming then 8 else 7) (if device then 0 else 1) 0 0 }).answer
        w.port w.tag .programFail [] := by
  rw [failConfig, write]
  simp only [copyPage_eq, Work.stepCode] <;> rfl

/-- A write whose program is done: its target is VALID with its sequence. -/
theorem configProgramEnded_done {w : ConfigWrite} {s : State} (write : s.cfgw.write = some w) :
    s.configProgramEnded .done = State.answer w.port w.tag .ok
      [wordOf (match w.copy with | .a => 0 | .b => 1), wordOf w.sequence]
      { s with cfgw :=
        { copyA := if w.copy = .a then .valid w.sequence else s.cfgw.copyA,
          copyB := if w.copy = .b then .valid w.sequence else s.cfgw.copyB, write := none } } := by
  have number : copyNumber w.copy = match w.copy with | .a => 0 | .b => 1 := by cases w.copy <;> rfl
  rw [configProgramEnded, if_pos rfl, write]
  simp only [setCopy_eq, number] <;> rfl

/-- Settles O51, end by end. -/
theorem configurationWritesEnd : Obligations.ConfigurationWritesEnd := by
  refine ⟨fun o c pass s live op => ⟨fun work => next_whenLive live ?_, fun work => next_whenLive live ?_⟩,
    fun s pass => ⟨fun other => ?_, fun other => ?_⟩, fun w s write => ?_, fun device s => ⟨fun idle => ?_, fun _ => ?_⟩⟩
  · simp only [op, work]
    exact endOwnOp_eq o pass _ s
  · simp only [op, work]
    exact endOwnOp_eq o pass _ s
  · refine next_whenLive_same ?_
    split
    · rfl
    · next o op =>
      split
      · next c work => exact absurd work (other o c op)
      · rfl
  · refine next_whenLive_same ?_
    split
    · rfl
    · next o op =>
      split
      · next c work => exact absurd work (other o c op)
      · rfl
  · have failed (device : Bool) := failConfig_some device write
    refine ⟨?_, configProgramEnded_done write, failed true, failed true, failed false, failed false, failed false,
      failed false⟩
    rw [configEraseEnded, if_pos rfl, write]
    rfl
  · simp only [failConfig, idle]
  · cases device <;> rfl

/-! ### WRITE_CONFIG (R175) -/

/-- The higher VALID sequence, by the two copies. -/
theorem highestSequence_eq (s : State) :
    s.highestSequence =
      match s.cfgw.copyA, s.cfgw.copyB with
      | .valid a, .valid b => max a b
      | .valid a, .invalid => a
      | .invalid, .valid b => b
      | .invalid, .invalid => 0 := by
  unfold highestSequence
  cases s.cfgw.copyA <;> cases s.cfgw.copyB <;> simp [CopyState.sequence]

/-- The copy a write takes, by the two copies. -/
theorem targetCopy_eq (s : State) :
    s.targetCopy =
      match s.cfgw.copyA, s.cfgw.copyB with
      | .valid a, .valid b => if a < b then .a else .b
      | .valid _, .invalid => .b
      | .invalid, .valid _ => .a
      | .invalid, .invalid => .a := by
  unfold targetCopy
  cases s.cfgw.copyA <;> cases s.cfgw.copyB <;> rfl

/-- An accepted write: its target INVALID and the write in step ERASE. -/
theorem acceptConfig_eq (p : Port) (t : CmdTag) (body : List Byte) (s : State) :
    s.acceptConfig p t body =
      { s with cfgw :=
        { copyA := if s.targetCopy = .a then .invalid else s.cfgw.copyA,
          copyB := if s.targetCopy = .b then .invalid else s.cfgw.copyB,
          write := some { copy := s.targetCopy, programming := false, sequence := s.highestSequence + 1,
                          record := configBytes (s.highestSequence + 1) body, port := p, tag := t } } } := by
  simp only [acceptConfig, setCopy_eq]

/-- The checks of WRITE_CONFIG past the held port's, in their order. -/
theorem configBody_free {p : Port} {t : CmdTag} {record : List Word} {s : State} (off : ¬ s.portHeld p = true) :
    s.configBody p t record =
      if s.cfgw.write.isSome then s.answer p t .busy []
      else if (parseConfig (wordsBytes record)).isNone then s.answer p t .badArgument []
      else if s.highestSequence = 4294967295 then s.answer p t .badState []
      else if s.offline then s.answer p t .channelDown []
      else (s.acceptConfig p t (wordsBytes record)).settle :=
  if_neg off

/-- Which writes begin (R175): the first conjunct of O50. -/
theorem writeConfig_settles (p : Port) (q : Seq) (t : CmdTag) (record : List Word) (s : State)
    (d : s.Dispatched p q t .writeConfig) (free : ¬ s.Held p) (whole : record.length = 49) :
    let o := s.opened p q t (some .writeConfig)
    let answered (st : Status) := exec (.writeConfig p q t record) s = .next (o.replied p t st [])
    let valid := parseConfig (wordsBytes record) ≠ none
    (s.cfgw.write ≠ none → answered .busy) ∧
    (s.cfgw.write = none → ¬ valid → answered .badArgument) ∧
    (s.cfgw.write = none → valid → s.highestSequence = 4294967295 → answered .badState) ∧
    (s.cfgw.write = none → valid → s.highestSequence ≠ 4294967295 → s.chan.state = .offline → answered .channelDown) ∧
    (s.cfgw.write = none → valid → s.highestSequence ≠ 4294967295 → s.chan.state ≠ .offline →
      exec (.writeConfig p q t record) s = .next (State.settle
        { o with cfgw :=
          { copyA := if s.targetCopy = .a then .invalid else s.cfgw.copyA,
            copyB := if s.targetCopy = .b then .invalid else s.cfgw.copyB,
            write := some { copy := s.targetCopy, programming := false, sequence := s.highestSequence + 1,
                            record := configBytes (s.highestSequence + 1) (wordsBytes record), port := p, tag := t } } })) := by
  intro o answered valid
  have off : ¬ o.portHeld p = true := not_held_opened free
  have answers (st : Status) : o.answer p t st [] = o.replied p t st [] := answer_of_opened _ _ _ _ _ _ _
  have counted : (record.length == 49) = true := by simp [whole]
  have run (u : State) (h : o.configBody p t record = u) : exec (.writeConfig p q t record) s = .next u := by
    show Host.Outcome.next (s.whenLive (command p q t .writeConfig (record.length == 49) none _)) = _
    rw [counted]
    exact next_dispatched d h
  have body := configBody_free (t := t) (record := record) off
  have notBusy (idle : s.cfgw.write = none) : ¬ o.cfgw.write.isSome = true := fun busy =>
    Option.isSome_iff_ne_none.mp busy idle
  have notBad (v : valid) : ¬ (parseConfig (wordsBytes record)).isNone = true := fun bad => v (Option.isNone_iff_eq_none.mp bad)
  refine ⟨fun busy => run _ (body.trans ?_), fun idle bad => run _ (body.trans ?_),
    fun idle good full => run _ (body.trans ?_), fun idle good room down => run _ (body.trans ?_),
    fun idle good room up => run _ (body.trans ?_)⟩
  · exact (if_pos (Option.isSome_iff_ne_none.mpr busy)).trans (answers _)
  all_goals refine (if_neg (notBusy idle)).trans ?_
  · exact (if_pos (Option.isNone_iff_eq_none.mpr (not_not.mp bad))).trans (answers _)
  all_goals refine (if_neg (notBad good)).trans ?_
  · exact (if_pos full).trans (answers _)
  all_goals refine (if_neg room).trans ?_
  · exact (if_pos ((offline_iff s).mpr down)).trans (answers _)
  · refine (if_neg fun down => up ((offline_iff s).mp down)).trans ?_
    rw [acceptConfig_eq]
    rfl

end Sys2Proof.Machine.State
end

section
/-!
PROOFS. The configuration record (spec/11 section 11.4): the bytes that parse, and what they parse to.
-/

namespace Sys2Proof.Machine.State

/-! ### Fields of a record as its bytes -/

/-- The byte at a place; 0 past the end. -/
def byteAt (b : List Byte) (k : Nat) : Nat := (b.getD k 0).toNat

/-- The two-byte field at a place. -/
def halfAt (b : List Byte) (k : Nat) : Nat := byteAt b k + 256 * byteAt b (k + 1)

/-- The three-byte field at a place. -/
def baseAt (b : List Byte) (k : Nat) : Nat := halfAt b k + 65536 * byteAt b (k + 2)

theorem field_zero (b : List Byte) (k : Nat) : field b k 0 = 0 := by
  simp [field, slice, leNat]

/-- A field is its first byte and the field after it. -/
theorem field_succ (b : List Byte) (k n : Nat) : field b k (n + 1) = byteAt b k + 256 * field b (k + 1) n := by
  unfold field slice byteAt
  by_cases inside : k < b.length
  · rw [List.drop_eq_getElem_cons inside, List.take_succ_cons, leNat, List.getD_eq_getElem _ _ inside]
  · have outside : b.length ≤ k := Nat.le_of_not_lt inside
    rw [List.drop_eq_nil_of_le outside, List.drop_eq_nil_of_le (by omega), List.getD_eq_default _ _ outside]
    simp [leNat]

theorem field_one (b : List Byte) (k : Nat) : field b k 1 = byteAt b k := by
  rw [field_succ, field_zero]
  rfl

theorem field_two (b : List Byte) (k : Nat) : field b k 2 = halfAt b k := by
  rw [field_succ, field_one]
  rfl

theorem field_three (b : List Byte) (k : Nat) : field b k 3 = baseAt b k := by
  rw [field_succ, field_two, baseAt, halfAt, halfAt, Nat.add_assoc k 1 1]
  omega

theorem slice_slice (b : List Byte) (j k m n : Nat) (fits : k + n ≤ m) : slice (slice b j m) k n = slice b (j + k) n := by
  unfold slice
  rw [List.drop_take, List.take_take, List.drop_drop, Nat.min_eq_left (by omega)]

/-- A field of a part of a record. -/
theorem field_slice (b : List Byte) (j k m n : Nat) (fits : k + n ≤ m) : field (slice b j m) k n = field b (j + k) n := by
  rw [field, slice_slice b j k m n fits, field]

theorem take_slice (b : List Byte) (j m n : Nat) (fits : n ≤ m) : (slice b j m).take n = slice b j n := by
  unfold slice
  rw [List.take_take, Nat.min_eq_left fits]

theorem drop_slice (b : List Byte) (j m n : Nat) : (slice b j m).drop n = slice b (j + n) (m - n) := by
  unfold slice
  rw [List.drop_take, List.drop_drop]

/-! ### Boot windows -/

/-- The 8 bytes at a place are a boot window of an image of at most `largest` bytes (R173). -/
def WindowOk (largest : Nat) (b : List Byte) (k : Nat) : Prop :=
  12 ≤ byteAt b (k + 3) ∧ byteAt b (k + 3) ≤ 22 ∧ baseAt b k % 2 ^ byteAt b (k + 3) = 0 ∧
    4096 * halfAt b (k + 4) < largest ∧ byteAt b (k + 7) = 0

/-- The boot window the 8 bytes at a place give. -/
def bootWindowAt (b : List Byte) (k : Nat) : BootWindow :=
  { base := baseAt b k, size := 2 ^ byteAt b (k + 3), offset := halfAt b (k + 4) * 4096, line := byteAt b (k + 6) }

theorem parseBootWindow_of_ok {largest : Nat} {b : List Byte} {k : Nat} (ok : WindowOk largest b k) :
    parseBootWindow largest (slice b k 8) = some (bootWindowAt b k) := by
  obtain ⟨low, high, aligned, inside, zero⟩ := ok
  simp only [parseBootWindow, field_slice _ _ _ _ _ (show 0 + 3 ≤ 8 by omega), field_slice _ _ _ _ _ (show 3 + 1 ≤ 8 by omega),
    field_slice _ _ _ _ _ (show 4 + 2 ≤ 8 by omega), field_slice _ _ _ _ _ (show 6 + 1 ≤ 8 by omega),
    field_slice _ _ _ _ _ (show 7 + 1 ≤ 8 by omega), field_one, field_two, field_three, Nat.add_zero]
  exact if_pos ⟨low, high, aligned, by omega, zero⟩

theorem parseBootWindow_of_not_ok {largest : Nat} {b : List Byte} {k : Nat} (bad : ¬ WindowOk largest b k) :
    parseBootWindow largest (slice b k 8) = none := by
  simp only [parseBootWindow, field_slice _ _ _ _ _ (show 0 + 3 ≤ 8 by omega), field_slice _ _ _ _ _ (show 3 + 1 ≤ 8 by omega),
    field_slice _ _ _ _ _ (show 4 + 2 ≤ 8 by omega), field_slice _ _ _ _ _ (show 6 + 1 ≤ 8 by omega),
    field_slice _ _ _ _ _ (show 7 + 1 ≤ 8 by omega), field_one, field_two, field_three, Nat.add_zero]
  exact if_neg fun ⟨low, high, aligned, inside, zero⟩ => bad ⟨low, high, aligned, by omega, zero⟩

/-- Boot windows parse when each does. -/
theorem parseBootWindows_of_ok {largest n : Nat} {b : List Byte} {k m : Nat} (fits : 8 * n ≤ m)
    (ok : ∀ i, i < n → WindowOk largest b (k + 8 * i)) :
    parseBootWindows largest n (slice b k m) = some ((List.range n).map (fun i => bootWindowAt b (k + 8 * i))) := by
  induction n generalizing k m with
  | zero => rfl
  | succ n ih =>
    have first : parseBootWindow largest (slice b k 8) = some (bootWindowAt b k) := parseBootWindow_of_ok (ok 0 (by omega))
    have rest := ih (k := k + 8) (m := m - 8) (by omega) fun i lt => by
      rw [show k + 8 + 8 * i = k + 8 * (i + 1) by omega]
      exact ok (i + 1) (by omega)
    rw [parseBootWindows, take_slice _ _ _ _ (by omega), drop_slice, first, rest, List.range_succ_eq_map]
    simp only [List.map_cons, List.map_map, Option.some.injEq, List.cons.injEq]
    refine ⟨rfl, List.map_congr_left fun i _ => ?_⟩
    simp only [Function.comp_apply, Nat.succ_eq_add_one]
    rw [show k + 8 + 8 * i = k + 8 * (i + 1) by omega]

/-- Boot windows parse only when each does. -/
theorem parseBootWindows_of_not_ok {largest n : Nat} {b : List Byte} {k m : Nat} (fits : 8 * n ≤ m)
    (bad : ¬ ∀ i, i < n → WindowOk largest b (k + 8 * i)) : parseBootWindows largest n (slice b k m) = none := by
  induction n generalizing k m with
  | zero => exact absurd (fun i lt => absurd lt (Nat.not_lt_zero i)) bad
  | succ n ih =>
    rw [parseBootWindows, take_slice _ _ _ _ (by omega), drop_slice]
    by_cases first : WindowOk largest b k
    · have rest := ih (k := k + 8) (m := m - 8) (by omega) fun ok => bad fun i lt => by
        cases i with
        | zero => exact first
        | succ i =>
          rw [show k + 8 * (i + 1) = k + 8 + 8 * i by omega]
          exact ok i (by omega)
      rw [rest]
      split
      · next none => cases none
      · rfl
    · rw [parseBootWindow_of_not_ok first]

/-! ### Port records -/

/-- The fixed fields of the port record at a place hold values of their encodings (R173, R191). -/
def PortFieldsOk (b : List Byte) (k : Nat) : Prop :=
  byteAt b k < 32 ∧ 1 ≤ byteAt b (k + 1) ∧ 1 ≤ byteAt b (k + 2) ∧ byteAt b (k + 2) ≤ 15 ∧ byteAt b (k + 3) ≤ 4 ∧
    1 ≤ halfAt b (k + 4) ∧ halfAt b (k + 4) ≤ 1000 ∧ halfAt b (k + 6) ≤ halfAt b (k + 4) ∧
    10 ≤ halfAt b (k + 8) ∧ halfAt b (k + 8) ≤ 60000 ∧ 1 ≤ halfAt b (k + 10) ∧ halfAt b (k + 10) ≤ 600 ∧
    byteAt b (k + 12) ≤ 64 ∧ byteAt b (k + 13) ≤ 4 ∧ halfAt b (k + 14) = 0

/-- At most four boot windows lie in a port record's last 32 bytes. -/
theorem windows_fit {b : List Byte} {k : Nat} (fields : PortFieldsOk b k) : 8 * byteAt b (k + 3) ≤ 32 := by
  obtain ⟨_, _, _, _, few, _⟩ := fields
  omega

/-- The 48 bytes at a place are a port record. -/
def PortOk (largest : Nat) (b : List Byte) (k : Nat) : Prop :=
  PortFieldsOk b k ∧ ∀ i, i < byteAt b (k + 3) → WindowOk largest b (k + 16 + 8 * i)

/-- The port configuration the 48 bytes at a place give. -/
def portConfigAt (b : List Byte) (k : Nat) : PortConfig :=
  { enabled := (byteAt b k).testBit 0, supervised := (byteAt b k).testBit 1, fetch := (byteAt b k).testBit 2,
    update := (byteAt b k).testBit 3, supervise := (byteAt b k).testBit 4, resetHold := byteAt b (k + 1),
    restartLimit := byteAt b (k + 2), heartbeat := halfAt b (k + 4) * 10, grace := halfAt b (k + 6) * 10,
    bootTimeout := halfAt b (k + 8), restartWindow := halfAt b (k + 10), preloadCount := byteAt b (k + 12),
    prefetchDepth := byteAt b (k + 13),
    bootWindows := (List.range (byteAt b (k + 3))).map (fun i => bootWindowAt b (k + 16 + 8 * i)) }

/-- A port record by its bytes: its fixed fields, then its boot windows. -/
theorem parsePort_fields (largest : Nat) (b : List Byte) (k : Nat) :
    (PortFieldsOk b k → parsePort largest (slice b k 48) =
      (parseBootWindows largest (byteAt b (k + 3)) (slice b (k + 16) 32)).map (fun ws =>
        { portConfigAt b k with bootWindows := ws })) ∧
    (¬ PortFieldsOk b k → parsePort largest (slice b k 48) = none) := by
  simp only [parsePort, field_slice _ _ _ _ _ (show 0 + 1 ≤ 48 by omega), field_slice _ _ _ _ _ (show 1 + 1 ≤ 48 by omega),
    field_slice _ _ _ _ _ (show 2 + 1 ≤ 48 by omega), field_slice _ _ _ _ _ (show 3 + 1 ≤ 48 by omega),
    field_slice _ _ _ _ _ (show 4 + 2 ≤ 48 by omega), field_slice _ _ _ _ _ (show 6 + 2 ≤ 48 by omega),
    field_slice _ _ _ _ _ (show 8 + 2 ≤ 48 by omega), field_slice _ _ _ _ _ (show 10 + 2 ≤ 48 by omega),
    field_slice _ _ _ _ _ (show 12 + 1 ≤ 48 by omega), field_slice _ _ _ _ _ (show 13 + 1 ≤ 48 by omega),
    field_slice _ _ _ _ _ (show 14 + 2 ≤ 48 by omega), drop_slice, field_one, field_two, Nat.add_zero]
  refine ⟨fun ok => (if_pos ok).trans ?_, fun bad => if_neg bad⟩
  cases parseBootWindows largest (byteAt b (k + 3)) (slice b (k + 16) 32) <;> rfl

theorem parsePort_of_ok {largest : Nat} {b : List Byte} {k : Nat} (ok : PortOk largest b k) :
    parsePort largest (slice b k 48) = some (portConfigAt b k) := by
  obtain ⟨fields, windows⟩ := ok
  rw [(parsePort_fields largest b k).1 fields, parseBootWindows_of_ok (windows_fit fields) windows]
  rfl

theorem parsePort_of_not_ok {largest : Nat} {b : List Byte} {k : Nat} (bad : ¬ PortOk largest b k) :
    parsePort largest (slice b k 48) = none := by
  by_cases fields : PortFieldsOk b k
  · rw [(parsePort_fields largest b k).1 fields,
      parseBootWindows_of_not_ok (windows_fit fields) fun windows => bad ⟨fields, windows⟩]
    rfl
  · exact (parsePort_fields largest b k).2 fields

/-! ### The whole record -/

/-- The fixed fields of a configuration record hold values in the ranges of R173. -/
def ConfigFieldsOk (b : List Byte) : Prop :=
  b.length = 196 ∧ 20 ≤ byteAt b 0 ∧ byteAt b 0 ≤ 26 ∧ 18 ≤ byteAt b 1 ∧ byteAt b 1 ≤ 22 ∧ 1 ≤ byteAt b 2 ∧
    byteAt b 2 ≤ 16 ∧ byteAt b 2 ≤ (2 ^ byteAt b 0 - 131072) / 2 ^ byteAt b 1 ∧ 1 ≤ byteAt b 3 ∧ byteAt b 3 ≤ 60

/-- The largest image of the slot size in byte 1. -/
def largestAt (b : List Byte) : Nat := 2 ^ byteAt b 1 - 8192

/-- The bytes are a configuration record. -/
def ConfigOk (b : List Byte) : Prop :=
  ConfigFieldsOk b ∧ PortOk (largestAt b) b 4 ∧ PortOk (largestAt b) b 52 ∧ PortOk (largestAt b) b 100 ∧
    PortOk (largestAt b) b 148

/-- The configuration the bytes give. -/
def configAt (b : List Byte) : ConfigRecord :=
  { flashExp := byteAt b 0, slotExp := byteAt b 1, slotCount := byteAt b 2, idleTimeout := byteAt b 3,
    ports := ⟨#[portConfigAt b 4, portConfigAt b 52, portConfigAt b 100, portConfigAt b 148], rfl⟩ }

theorem parseConfig_of_ok {b : List Byte} (ok : ConfigOk b) : parseConfig b = some (configAt b) := by
  obtain ⟨fields, p0, p1, p2, p3⟩ := ok
  simp only [parseConfig, field_one]
  refine (if_pos fields).trans ?_
  show (match parsePort (largestAt b) (slice b 4 48), parsePort (largestAt b) (slice b 52 48),
    parsePort (largestAt b) (slice b 100 48), parsePort (largestAt b) (slice b 148 48) with
    | some _, some _, some _, some _ => _
    | _, _, _, _ => _) = _
  rw [parsePort_of_ok p0, parsePort_of_ok p1, parsePort_of_ok p2, parsePort_of_ok p3]
  rfl

theorem portOk_of_parsePort {largest : Nat} {b : List Byte} {k : Nat} {p : PortConfig}
    (parses : parsePort largest (slice b k 48) = some p) : PortOk largest b k := by
  by_contra bad
  rw [parsePort_of_not_ok bad] at parses
  cases parses

theorem parseConfig_of_not_ok {b : List Byte} (bad : ¬ ConfigOk b) : parseConfig b = none := by
  simp only [parseConfig, field_one]
  split
  · next fields =>
    split
    · next p0 p1 p2 p3 e0 e1 e2 e3 =>
      exact absurd ⟨fields, portOk_of_parsePort e0, portOk_of_parsePort e1, portOk_of_parsePort e2, portOk_of_parsePort e3⟩
        bad
    · rfl
  · rfl

/-! ### The ranges of R173, field by field -/

theorem half_zero_iff (b : List Byte) (k : Nat) : halfAt b k = 0 ↔ byteAt b k = 0 ∧ byteAt b (k + 1) = 0 := by
  unfold halfAt
  omega

/-- A port record's ranges, with its two unused bytes apart. -/
theorem portOk_iff (largest : Nat) (b : List Byte) (k : Nat) :
    PortOk largest b k ↔
      byteAt b k < 32 ∧ 1 ≤ byteAt b (k + 1) ∧ 1 ≤ byteAt b (k + 2) ∧ byteAt b (k + 2) ≤ 15 ∧ byteAt b (k + 3) ≤ 4 ∧
        1 ≤ halfAt b (k + 4) ∧ halfAt b (k + 4) ≤ 1000 ∧ halfAt b (k + 6) ≤ halfAt b (k + 4) ∧
        10 ≤ halfAt b (k + 8) ∧ halfAt b (k + 8) ≤ 60000 ∧ 1 ≤ halfAt b (k + 10) ∧ halfAt b (k + 10) ≤ 600 ∧
        byteAt b (k + 12) ≤ 64 ∧ byteAt b (k + 13) ≤ 4 ∧ byteAt b (k + 14) = 0 ∧ byteAt b (k + 15) = 0 ∧
        (∀ i, i < byteAt b (k + 3) → WindowOk largest b (k + 16 + 8 * i)) := by
  simp only [PortOk, PortFieldsOk, half_zero_iff b (k + 14), and_assoc]

/-- A configuration record's ranges in one list. -/
theorem configOk_iff (b : List Byte) :
    ConfigOk b ↔
      b.length = 196 ∧ 20 ≤ byteAt b 0 ∧ byteAt b 0 ≤ 26 ∧ 18 ≤ byteAt b 1 ∧ byteAt b 1 ≤ 22 ∧ 1 ≤ byteAt b 2 ∧
        byteAt b 2 ≤ 16 ∧ byteAt b 2 ≤ (2 ^ byteAt b 0 - 131072) / 2 ^ byteAt b 1 ∧ 1 ≤ byteAt b 3 ∧ byteAt b 3 ≤ 60 ∧
        PortOk (largestAt b) b 4 ∧ PortOk (largestAt b) b 52 ∧ PortOk (largestAt b) b 100 ∧
        PortOk (largestAt b) b 148 := by
  simp only [ConfigOk, ConfigFieldsOk, and_assoc]

/-- Settles O50, by the order of the command's checks and the layout of the record. -/
theorem configurationWritesBegin : Obligations.ConfigurationWritesBegin := by
  refine ⟨fun p q t record s d free whole => ?_, fun b => ?_⟩
  · intro o answered valid higher target
    have settled := writeConfig_settles p q t record s d free whole
    have sequence : s.highestSequence = higher := highestSequence_eq s
    have copy : s.targetCopy = target := targetCopy_eq s
    rw [sequence, copy] at settled
    exact settled
  · intro byte half base windowOk portOk valid window port
    have ports (k : Nat) : portOk k ↔ PortOk (largestAt b) b k := (portOk_iff (largestAt b) b k).symm
    have ranges : valid ↔ ConfigOk b := by
      rw [configOk_iff, ← ports, ← ports, ← ports, ← ports]
      rfl
    exact ⟨fun v => parseConfig_of_ok (ranges.mp v), fun v => parseConfig_of_not_ok fun ok => v (ranges.mpr ok)⟩

end Sys2Proof.Machine.State
end

section
/-!
PROOFS. The records in flash (spec/11 sections 11.3 and 11.4): what is written reads back, and nothing else does.
-/

namespace Sys2Proof.Machine.State

/-! ### Little-endian fields, back to their bytes -/

theorem leNat_lt (b : List Byte) : leNat b < 256 ^ b.length := by
  induction b with
  | nil => simp [leNat]
  | cons x xs ih =>
    have low := x.isLt
    rw [leNat, List.length_cons, Nat.pow_succ]
    omega

/-- The bytes of a field are those of its value. -/
theorem leBytes_leNat (b : List Byte) : leBytes b.length (leNat b) = b := by
  induction b with
  | nil => rfl
  | cons x xs ih =>
    have low := x.isLt
    rw [List.length_cons, leBytes, leNat, show (x.toNat + 256 * leNat xs) / 256 = leNat xs by omega, ih]
    congr 1
    apply BitVec.eq_of_toNat_eq
    simp only [byteOf, BitVec.toNat_ofNat]
    omega

/-- Four bytes are those of the word they hold. -/
theorem wordBytes_of_leNat {b : List Byte} {w : Word} (four : b.length = 4) (word : wordOf (leNat b) = w) : b = wordBytes w := by
  have small : leNat b < 4294967296 := by
    have := leNat_lt b
    rw [four] at this
    omega
  have value : w.toNat = leNat b := by
    rw [← word, wordOf, BitVec.toNat_ofNat, Nat.mod_eq_of_lt small]
  conv_lhs => rw [← leBytes_leNat b]
  rw [wordBytes, value, four]

theorem byteOf_toNat (x : Byte) : byteOf x.toNat = x :=
  (BitVec.ofNat_toNat 8 x).trans (BitVec.setWidth_eq x)

/-! ### A header record and its check (R190) -/

theorem erased_iff (b : List Byte) : erased b = true ↔ ∀ x ∈ b, x = 0xFF := by
  simp [erased]

theorem headerUnit_length {page : List Byte} {k : Nat} (whole : page.length = 4096) (few : k < 16) :
    (headerUnit page k).length = 256 := by
  simp only [headerUnit, slice, List.length_take, List.length_drop, whole]
  omega

/-- A list cut at two places. -/
theorem take_slice_drop (l : List Byte) (m n : Nat) : l = l.take m ++ slice l m n ++ l.drop (m + n) := by
  rw [slice, ← List.drop_drop, List.append_assoc, List.take_append_drop, List.take_append_drop]

/-- A record of a size holds exactly when the unit is a body of its kind, its check and an erased rest. -/
theorem recordHolds_iff {kind : Byte} {size : Nat} {u : List Byte} (unit : u.length = 256) (least : 5 ≤ size)
    (most : size ≤ 256) :
    recordHolds kind size u = true ↔
      ∃ body, body.length + 4 = size ∧ body.head? = some kind ∧ u = withCheck body ++ List.replicate (256 - size) 0xFF := by
  refine ⟨fun holds => ?_, fun ⟨body, fits, head, whole⟩ => recordHolds_of_bytes fits head whole⟩
  simp only [recordHolds, Bool.and_eq_true, beq_iff_eq] at holds
  obtain ⟨⟨head, check⟩, blank⟩ := holds
  have four : (slice u (size - 4) 4).length = 4 := by
    simp only [slice, List.length_take, List.length_drop]
    omega
  have rest : u.drop size = List.replicate (256 - size) 0xFF :=
    List.eq_replicate_iff.mpr ⟨by rw [List.length_drop, unit], (erased_iff _).mp blank⟩
  refine ⟨u.take (size - 4), by rw [List.length_take]; omega, ?_, ?_⟩
  · rw [List.head?_take, if_neg (by omega), head]
  · conv_lhs => rw [take_slice_drop u (size - 4) 4]
    rw [wordBytes_of_leNat four check, show size - 4 + 4 = size by omega, rest]
    rfl

/-- The first four bytes of a body of a kind. -/
theorem kind_bytes {b rest : List Byte} {kind : Byte} (four : b.length = 4) (head : (b ++ rest).head? = some kind) :
    ∃ x y z, b = [kind, x, y, z] := by
  match b, four with
  | [k, x, y, z], _ =>
    obtain rfl := Option.some.inj head
    exact ⟨x, y, z, rfl⟩

/-! ### The seal record -/

/-- A list cut into parts of given lengths. -/
theorem exists_parts (l : List Byte) (m n : Nat) (fits : m + n ≤ l.length) :
    ∃ a b c, l = a ++ b ++ c ∧ a.length = m ∧ b.length = n ∧ c.length = l.length - (m + n) := by
  refine ⟨l.take m, slice l m n, l.drop (m + n), take_slice_drop l m n, ?_, ?_, List.length_drop⟩
  · rw [List.length_take]
    omega
  · simp only [slice, List.length_take, List.length_drop]
    omega

theorem readSeal_iff (image check : Word) (page : List Byte) :
    readSeal page = some (image, check) ↔
      recordHolds 0x02 16 (headerUnit page 1) = true ∧ wordOf (field (headerUnit page 1) 4 4) = image ∧
        wordOf (field (headerUnit page 1) 8 4) = check := by
  unfold readSeal
  dsimp only
  by_cases holds : recordHolds 0x02 16 (headerUnit page 1) = true
  · rw [if_pos holds, Option.some.injEq, Prod.mk.injEq]
    exact (and_iff_right holds).symm
  · rw [if_neg holds]
    exact iff_of_false nofun fun ⟨h, _⟩ => holds h

/-- The two words of a seal record's unit. -/
theorem seal_fields {u head image check rest : List Byte} (unit : u = withCheck (head ++ image ++ check) ++ rest)
    (four : head.length = 4) (imageFour : image.length = 4) (checkFour : check.length = 4) :
    field u 4 4 = leNat image ∧ field u 8 4 = leNat check := by
  refine ⟨?_, ?_⟩
  · rw [unit, withCheck, List.append_assoc, List.append_assoc (head ++ image)]
    exact field_at _ _ _ _ _ four imageFour
  · rw [unit, withCheck, List.append_assoc]
    exact field_at _ _ _ _ _ (by rw [List.length_append, four, imageFour]) checkFour

theorem readSeal_of_bytes {image check : Word} {page : List Byte} {x y z : Byte}
    (unit : headerUnit page 1 =
      withCheck ([0x02, x, y, z] ++ wordBytes image ++ wordBytes check) ++ List.replicate 240 0xFF) :
    readSeal page = some (image, check) := by
  obtain ⟨first, second⟩ := seal_fields unit rfl (wordBytes_length _) (wordBytes_length _)
  rw [readSeal_iff, first, second, wordOf_wordBytes, wordOf_wordBytes]
  exact ⟨recordHolds_of_bytes (by simp [wordBytes_length]) rfl unit, rfl, rfl⟩

theorem bytes_of_readSeal {image check : Word} {page : List Byte} (whole : page.length = 4096)
    (reads : readSeal page = some (image, check)) :
    ∃ x y z, headerUnit page 1 =
      withCheck ([0x02, x, y, z] ++ wordBytes image ++ wordBytes check) ++ List.replicate 240 0xFF := by
  obtain ⟨holds, first, second⟩ := (readSeal_iff image check page).mp reads
  obtain ⟨body, fits, kind, unit⟩ :=
    (recordHolds_iff (headerUnit_length whole (by omega)) (by omega) (by omega)).mp holds
  obtain ⟨head, a, b, rfl, headFour, aFour, bFour⟩ := exists_parts body 4 4 (by omega)
  replace bFour : b.length = 4 := by omega
  obtain ⟨x, y, z, rfl⟩ := kind_bytes headFour (List.append_assoc head a b ▸ kind)
  obtain ⟨atImage, atCheck⟩ := seal_fields unit headFour aFour bFour
  rw [atImage] at first
  rw [atCheck] at second
  rw [wordBytes_of_leNat aFour first, wordBytes_of_leNat bFour second] at unit
  exact ⟨x, y, z, unit⟩

/-! ### The commit and retire records -/

/-- The generation in a commit or retire record's unit. -/
theorem generation_field {u head body rest : List Byte} (unit : u = withCheck (head ++ body) ++ rest)
    (two : head.length = 2) (bodyTwo : body.length = 2) : field u 2 2 = leNat body := by
  rw [unit, withCheck, List.append_assoc]
  exact field_at _ _ _ _ _ two bodyTwo

theorem generation_of_bytes {kind x : Byte} {g : Nat} {u : List Byte} (small : g ≤ 65535)
    (unit : u = withCheck ([kind, x] ++ leBytes 2 g) ++ List.replicate 248 0xFF) :
    recordHolds kind 8 u = true ∧ field u 2 2 = g := by
  refine ⟨recordHolds_of_bytes (by simp [leBytes_length]) rfl unit, ?_⟩
  rw [generation_field unit rfl (leBytes_length _ _), leNat_leBytes]
  omega

theorem bytes_of_generation {kind : Byte} {u : List Byte} (whole : u.length = 256) (holds : recordHolds kind 8 u = true) :
    field u 2 2 ≤ 65535 ∧
      ∃ x, u = withCheck ([kind, x] ++ leBytes 2 (field u 2 2)) ++ List.replicate 248 0xFF := by
  obtain ⟨body, fits, first, unit⟩ := (recordHolds_iff whole (by omega) (by omega)).mp holds
  match body, fits with
  | [k, x, a, b], _ =>
    obtain rfl := Option.some.inj first
    have value : field u 2 2 = leNat [a, b] := generation_field (head := [k, x]) unit rfl rfl
    have bytes : leBytes 2 (leNat [a, b]) = [a, b] := leBytes_leNat [a, b]
    have small : leNat [a, b] < 256 ^ 2 := leNat_lt [a, b]
    rw [value]
    refine ⟨by omega, x, ?_⟩
    rw [bytes]
    exact unit

theorem readCommit_iff (g : Nat) (page : List Byte) :
    readCommit page = some g ↔
      recordHolds 0x03 8 (headerUnit page 2) = true ∧ 1 ≤ g ∧ field (headerUnit page 2) 2 2 = g := by
  unfold readCommit
  dsimp only
  by_cases ok : recordHolds 0x03 8 (headerUnit page 2) = true ∧ 1 ≤ field (headerUnit page 2) 2 2
  · rw [if_pos ok, Option.some.injEq]
    exact ⟨fun e => ⟨ok.1, e ▸ ok.2, e⟩, fun ⟨_, _, e⟩ => e⟩
  · rw [if_neg ok]
    exact iff_of_false nofun fun ⟨holds, least, e⟩ => ok ⟨holds, e ▸ least⟩

theorem readRetire_iff (g : Nat) (page : List Byte) :
    readRetire page = some g ↔
      recordHolds 0x04 8 (headerUnit page 3) = true ∧ 2 ≤ g ∧ field (headerUnit page 3) 2 2 = g := by
  unfold readRetire
  dsimp only
  by_cases ok : recordHolds 0x04 8 (headerUnit page 3) = true ∧ 2 ≤ field (headerUnit page 3) 2 2
  · rw [if_pos ok, Option.some.injEq]
    exact ⟨fun e => ⟨ok.1, e ▸ ok.2, e⟩, fun ⟨_, _, e⟩ => e⟩
  · rw [if_neg ok]
    exact iff_of_false nofun fun ⟨holds, least, e⟩ => ok ⟨holds, e ▸ least⟩

/-- A commit record by its bytes. -/
theorem readCommit_bytes_iff (g : Nat) {page : List Byte} (whole : page.length = 4096) :
    readCommit page = some g ↔
      1 ≤ g ∧ g ≤ 65535 ∧ ∃ x, headerUnit page 2 = withCheck ([0x03, x] ++ leBytes 2 g) ++ List.replicate 248 0xFF := by
  rw [readCommit_iff]
  constructor
  · rintro ⟨holds, least, rfl⟩
    obtain ⟨most, bytes⟩ := bytes_of_generation (headerUnit_length whole (by omega)) holds
    exact ⟨least, most, bytes⟩
  · rintro ⟨least, most, x, unit⟩
    obtain ⟨holds, value⟩ := generation_of_bytes most unit
    exact ⟨holds, least, value⟩

/-- A retire record by its bytes. -/
theorem readRetire_bytes_iff (g : Nat) {page : List Byte} (whole : page.length = 4096) :
    readRetire page = some g ↔
      2 ≤ g ∧ g ≤ 65535 ∧ ∃ x, headerUnit page 3 = withCheck ([0x04, x] ++ leBytes 2 g) ++ List.replicate 248 0xFF := by
  rw [readRetire_iff]
  constructor
  · rintro ⟨holds, least, rfl⟩
    obtain ⟨most, bytes⟩ := bytes_of_generation (headerUnit_length whole (by omega)) holds
    exact ⟨least, most, bytes⟩
  · rintro ⟨least, most, x, unit⟩
    obtain ⟨holds, value⟩ := generation_of_bytes most unit
    exact ⟨holds, least, value⟩

/-! ### The stage record -/

/-- A name in its field: the name, then zeros. -/
theorem nameField_eq {n : Name} (short : n.length ≤ 8) : nameField n = n ++ List.replicate (8 - n.length) 0 := by
  rw [nameField, List.take_append, List.take_of_length_le short, List.take_replicate, Nat.min_eq_left (by omega)]

theorem readStage_iff (largest : Nat) (page : List Byte) (r : StageRecord) :
    readStage largest page = some r ↔
      recordHolds 0x01 24 (headerUnit page 0) = true ∧ parseName (slice (headerUnit page 0) 4 8) = some r.name ∧
        field (headerUnit page 0) 1 1 = r.line.val ∧ wordOf (field (headerUnit page 0) 12 4) = r.version ∧
        field (headerUnit page 0) 16 4 = r.length ∧ r.length % 256 = 0 ∧ 256 ≤ r.length ∧ r.length ≤ largest := by
  unfold readStage
  dsimp only
  generalize headerUnit page 0 = u
  constructor
  · intro reads
    split at reads
    · cases reads
    · next name parses =>
      split at reads
      · next line =>
        split at reads
        · next ok =>
          obtain ⟨holds, units, least, most⟩ := ok
          obtain rfl := Option.some.inj reads
          exact ⟨holds, parses, rfl, rfl, rfl, units, least, most⟩
        · cases reads
      · cases reads
  · rintro ⟨holds, parses, line, version, length, units, least, most⟩
    have low : field u 1 1 < 8 := line ▸ r.line.isLt
    simp only [parses]
    rw [dif_pos low, if_pos ⟨holds, by rw [length]; exact units, by rw [length]; exact least, by rw [length]; exact most⟩,
      version, length]
    congr 1
    cases r
    congr 1
    exact Fin.ext line

/-- The fields of a stage record's unit. -/
theorem stage_fields {u name version length rest : List Byte} {k l x y : Byte}
    (unit : u = withCheck ([k, l, x, y] ++ name ++ version ++ length) ++ rest)
    (eight : name.length = 8) (versionFour : version.length = 4) (lengthFour : length.length = 4) :
    field u 1 1 = l.toNat ∧ slice u 4 8 = name ∧ field u 12 4 = leNat version ∧ field u 16 4 = leNat length := by
  refine ⟨?_, ?_, ?_, ?_⟩
  · have parts : u = [k] ++ [l] ++ ([x, y] ++ name ++ version ++ length ++
        wordBytes (crc32 ([k, l, x, y] ++ name ++ version ++ length)) ++ rest) := by
      rw [unit, withCheck]
      simp only [List.append_assoc, List.cons_append, List.nil_append]
    rw [parts, field_at _ _ _ 1 1 rfl rfl]
    simp [leNat]
  · rw [unit, withCheck, List.append_assoc, List.append_assoc (_ ++ version), List.append_assoc (_ ++ name)]
    exact slice_at _ _ _ _ _ rfl eight
  · rw [unit, withCheck, List.append_assoc, List.append_assoc (_ ++ version)]
    exact field_at _ _ _ _ _ (by rw [List.length_append, eight]; rfl) versionFour
  · rw [unit, withCheck, List.append_assoc]
    exact field_at _ _ _ _ _ (by rw [List.length_append, List.length_append, eight, versionFour]; rfl) lengthFour

theorem readStage_of_bytes {largest : Nat} {page : List Byte} {r : StageRecord} {x y : Byte}
    (some_ : 1 ≤ r.name.length) (short : r.name.length ≤ 8) (prints : ∀ c ∈ r.name, 0x20 ≤ c.toNat ∧ c.toNat ≤ 0x7E)
    (units : r.length % 256 = 0) (least : 256 ≤ r.length) (most : r.length ≤ largest) (small : r.length < 4294967296)
    (unit : headerUnit page 0 = withCheck ([0x01, byteOf r.line.val, x, y] ++
      (r.name ++ List.replicate (8 - r.name.length) 0) ++ wordBytes r.version ++ leBytes 4 r.length) ++
        List.replicate 232 0xFF) :
    readStage largest page = some r := by
  have eight : (r.name ++ List.replicate (8 - r.name.length) (0 : Byte)).length = 8 := by
    rw [List.length_append, List.length_replicate]
    omega
  obtain ⟨line, name, version, length⟩ := stage_fields unit eight (wordBytes_length _) (leBytes_length _ _)
  have low := r.line.isLt
  rw [readStage_iff, line, name, version, length]
  refine ⟨recordHolds_of_bytes ?_ rfl unit, (parseName_iff eight _).mpr ⟨some_, short, prints, rfl⟩, ?_,
    wordOf_wordBytes _, ?_, units, least, most⟩
  · simp only [List.length_append, List.length_cons, List.length_nil, List.length_replicate, wordBytes_length,
      leBytes_length]
    omega
  · simp only [byteOf, BitVec.toNat_ofNat]
    omega
  · rw [leNat_leBytes]
    omega

theorem bytes_of_readStage {largest : Nat} {page : List Byte} {r : StageRecord} (whole : page.length = 4096)
    (reads : readStage largest page = some r) :
    1 ≤ r.name.length ∧ r.name.length ≤ 8 ∧ (∀ c ∈ r.name, 0x20 ≤ c.toNat ∧ c.toNat ≤ 0x7E) ∧
      r.length % 256 = 0 ∧ 256 ≤ r.length ∧ r.length ≤ largest ∧ r.length < 4294967296 ∧
      ∃ x y, headerUnit page 0 = withCheck ([0x01, byteOf r.line.val, x, y] ++
        (r.name ++ List.replicate (8 - r.name.length) 0) ++ wordBytes r.version ++ leBytes 4 r.length) ++
          List.replicate 232 0xFF := by
  obtain ⟨holds, parses, line, version, length, units, least, most⟩ := (readStage_iff largest page r).mp reads
  obtain ⟨body, fits, kind, unit⟩ :=
    (recordHolds_iff (headerUnit_length whole (by omega)) (by omega) (by omega)).mp holds
  obtain ⟨front, v, n, rfl, frontTwelve, vFour, nFour⟩ := exists_parts body 12 4 (by omega)
  replace nFour : n.length = 4 := by omega
  obtain ⟨head, name, none_, rfl, headFour, eight, empty⟩ := exists_parts front 4 8 (by omega)
  obtain rfl := List.eq_nil_of_length_eq_zero (empty.trans (by omega))
  rw [List.append_nil] at unit kind
  match head, headFour with
  | [k, l, x, y], _ =>
    obtain rfl := Option.some.inj kind
    obtain ⟨atLine, atName, atVersion, atLength⟩ := stage_fields unit eight vFour nFour
    rw [atName] at parses
    obtain ⟨some_, short, prints, padded⟩ := (parseName_iff eight _).mp parses
    rw [atLine] at line
    rw [atVersion] at version
    rw [atLength] at length
    have small : r.length < 4294967296 := by
      have := leNat_lt n
      rw [nFour, length] at this
      omega
    have lineByte : byteOf r.line.val = l := by rw [← line, byteOf_toNat]
    have lengthBytes : leBytes 4 r.length = n := by rw [← length, ← nFour, leBytes_leNat]
    refine ⟨some_, short, prints, units, least, most, small, x, y, ?_⟩
    rw [lineByte, lengthBytes, ← padded, ← wordBytes_of_leNat vFour version]
    exact unit

/-! ### Present and invalid records -/

theorem recordInvalid_iff (largest : Nat) (page : List Byte) :
    (recordInvalid largest page 0 = true ↔ ¬ (∀ x ∈ headerUnit page 0, x = 0xFF) ∧ readStage largest page = none) ∧
    (recordInvalid largest page 1 = true ↔ ¬ (∀ x ∈ headerUnit page 1, x = 0xFF) ∧ readSeal page = none) ∧
    (recordInvalid largest page 2 = true ↔ ¬ (∀ x ∈ headerUnit page 2, x = 0xFF) ∧ readCommit page = none) ∧
    (recordInvalid largest page 3 = true ↔ ¬ (∀ x ∈ headerUnit page 3, x = 0xFF) ∧ readRetire page = none) := by
  simp only [← erased_iff, recordInvalid, Bool.and_eq_true, Bool.not_eq_true', Option.isNone_iff_eq_none,
    Bool.not_eq_true, and_self]

/-! ### Configuration copies -/

/-- A copy by its bytes: its sequence, its record and the check over both (R173, R176). -/
theorem readCopy_of_bytes {n : Nat} {body rest : List Byte} {c : ConfigRecord} (least : 1 ≤ n) (most : n ≤ 4294967295)
    (parses : parseConfig body = some c) : readCopy (configBytes n body ++ rest) = some (n, c) := by
  have size : body.length = 196 := parseConfig_length parses
  have sequence : field (configBytes n body ++ rest) 0 4 = n := by
    have value := field_at [] (leBytes 4 n) (body ++ wordBytes (crc32 (leBytes 4 n ++ body)) ++ rest) 0 4 rfl
      (leBytes_length _ _)
    rw [configBytes, withCheck, List.append_assoc, List.append_assoc, ← List.append_assoc body]
    refine value.trans ?_
    rw [leNat_leBytes]
    omega
  have covered : (configBytes n body ++ rest).take 200 = leBytes 4 n ++ body := by
    rw [configBytes, withCheck, List.append_assoc]
    exact List.take_left' (by rw [List.length_append, leBytes_length, size])
  have check : field (configBytes n body ++ rest) 200 4 = leNat (wordBytes (crc32 (leBytes 4 n ++ body))) :=
    field_at _ _ _ _ _ (by rw [List.length_append, leBytes_length, size]) (wordBytes_length _)
  have record : slice (configBytes n body ++ rest) 4 196 = body := by
    rw [configBytes, withCheck, List.append_assoc]
    exact slice_at _ _ _ _ _ (leBytes_length _ _) size
  rw [readCopy]
  simp only [sequence, covered, check, record, wordOf_wordBytes]
  rw [if_pos ⟨trivial, least⟩, parses]
  rfl

theorem bytes_of_readCopy {n : Nat} {c : ConfigRecord} {page : List Byte} (whole : page.length = 4096)
    (reads : readCopy page = some (n, c)) :
    ∃ body tail, page = withCheck (leBytes 4 n ++ body) ++ tail ∧ 1 ≤ n ∧ n ≤ 4294967295 ∧ parseConfig body = some c := by
  rw [readCopy] at reads
  split at reads
  · next ok =>
    obtain ⟨check, least⟩ := ok
    obtain ⟨c', parses, e⟩ := Option.map_eq_some_iff.mp reads
    obtain ⟨rfl, rfl⟩ := Prod.mk.inj e
    have four : (slice page 0 4).length = 4 := by simp [slice, whole]
    have checkFour : (slice page 200 4).length = 4 := by simp [slice, whole]
    have sequence : leBytes 4 (field page 0 4) = page.take 4 := by
      have bytes := leBytes_leNat (slice page 0 4)
      rw [four] at bytes
      exact bytes
    have covered : page.take 200 = page.take 4 ++ slice page 4 196 := by
      rw [show 200 = 4 + 196 from rfl, List.take_add]
      rfl
    have small := leNat_lt (slice page 0 4)
    rw [four] at small
    refine ⟨slice page 4 196, page.drop 204, ?_, least, Nat.le_of_lt_succ small, parses⟩
    rw [sequence, ← covered]
    conv_lhs => rw [take_slice_drop page 200 4, wordBytes_of_leNat checkFour check]
    rfl
  · cases reads

/-- Settles O52, record by record: the bytes written read back, and what reads was written so. -/
theorem recordsReadBack : Obligations.RecordsReadBack := by
  refine ⟨fun n body rest c => readCopy_of_bytes, fun l name version length largest page h1 h8 prints units least most
    small unit => ?_, fun image check page unit => readSeal_of_bytes unit, fun g page least most unit => ?_,
    fun g page least most unit => ?_, fun largest page mark => (header_marked largest mark).2,
    fun n largest c page whole => ?_, fun kind size u unit least most => recordHolds_iff unit least most⟩
  · rw [stageBytes, nameField_eq h8] at unit
    exact readStage_of_bytes (r := { line := l, name := name, version := version, length := length }) h1 h8 prints units
      least most small unit
  · obtain ⟨holds, value⟩ := generation_of_bytes most unit
    exact (readCommit_iff g page).mpr ⟨holds, least, value⟩
  · obtain ⟨holds, value⟩ := generation_of_bytes most unit
    exact (readRetire_iff g page).mpr ⟨holds, least, value⟩
  · intro checked unit rest blank
    refine ⟨⟨bytes_of_readCopy whole, ?_⟩, fun r => ⟨bytes_of_readStage whole, ?_⟩, fun image check =>
      ⟨bytes_of_readSeal whole, ?_⟩, fun g => readCommit_bytes_iff g whole, fun g => readRetire_bytes_iff g whole,
      recordInvalid_iff largest page⟩
    · rintro ⟨body, tail, rfl, least, most, parses⟩
      exact readCopy_of_bytes least most parses
    · rintro ⟨h1, h8, prints, units, least, most, small, x, y, bytes⟩
      exact readStage_of_bytes h1 h8 prints units least most small bytes
    · rintro ⟨x, y, z, bytes⟩
      exact readSeal_of_bytes bytes

end Sys2Proof.Machine.State
end

section
/-!
PROOFS. The reads of a start (spec/09): the configuration copies, the headers and the check lists.
-/

namespace Sys2Proof.Machine.State

/-! ### The choice of a configuration (R174) -/

/-- The configuration chosen and the copy it came from, entered: the scan begins. -/
def chosen (u : CopyUsed) (c : ConfigRecord) (s : State) : State :=
  { s with cfg := c, start := { s.start with copyUsed := some u, phase := .scan, scan := [],
                                             request := some (.headerRead 0) } }

/-- A copy is chosen. -/
theorem chooseConfig_copy {s : State} {u : CopyUsed} {c : ConfigRecord}
    (choice : chosenConfig s.start.copyA s.start.copyB = (u, c)) (copy : u ≠ .defaults) : s.chooseConfig = s.chosen u c := by
  simp only [chooseConfig, choice, if_neg copy]
  rfl

/-- No copy is valid: the defaults, with CONFIG_FALLBACK. -/
theorem chooseConfig_defaults {s : State} (noA : s.start.copyA = none) (noB : s.start.copyB = none) :
    s.chooseConfig = (s.chosen .defaults ConfigRecord.defaults).log { kind := .configFallback } := by
  have choice : chosenConfig s.start.copyA s.start.copyB = (.defaults, ConfigRecord.defaults) := by rw [noA, noB]; rfl
  simp only [chooseConfig, choice, if_pos]
  rfl

theorem chooseConfig_both {s : State} {m n : Nat} {x y : ConfigRecord} (a : s.start.copyA = some (m, x))
    (b : s.start.copyB = some (n, y)) : s.chooseConfig = if m < n then s.chosen .b y else s.chosen .a x := by
  have choice : chosenConfig s.start.copyA s.start.copyB = if m < n then (.b, y) else (.a, x) := by rw [a, b]; rfl
  split
  · next higher => exact chooseConfig_copy (choice.trans (if_pos higher)) nofun
  · next lower => exact chooseConfig_copy (choice.trans (if_neg lower)) nofun

/-! ### Check lists (R23, R180) -/

/-- Whether a check list agrees with its slot's seal record. -/
def listAgrees (x : ScanEntry) (d : List Byte) : Bool :=
  match x.sealRec with
  | none => false
  | some r => r.2 == crc32 (d.take (4 * x.pages))

theorem listAgrees_iff (x : ScanEntry) (d : List Byte) :
    listAgrees x d = true ↔ ∃ image, x.sealRec = some (image, crc32 (d.take (4 * x.pages))) := by
  unfold listAgrees
  rcases x.sealRec with _ | ⟨image, check⟩
  · exact iff_of_false nofun nofun
  · simp

/-- A scan table with one entry replaced. -/
def setScan (n : SlotNo) (y : ScanEntry) (s : State) : State :=
  { s with start := { s.start with scan := s.start.scan.set n.val y } }

/-- A check list read, by its agreement and its slot's class. -/
theorem listRead_eq {n : SlotNo} {d : List Byte} {x : ScanEntry} {s : State} (entry : s.start.scan[n.val]? = some x) :
    s.listRead n d =
      if listAgrees x d = true then (s.setScan n { x with list := some (bytesWords x.pages d) }).nextList
      else if x.cls = .current then (s.log { kind := .lineDamaged, slot := some n, line := x.line }).nextList
      else ((s.setScan n { x with cls := .dirty .listFail }).log
        { kind := .recovery, slot := some n, line := x.line, detail := wordOf 6 }).nextList := by
  rw [listRead, entry]
  rfl

/-- The words of bytes, one by one. -/
theorem bytesWords_get {k : Nat} {d : List Byte} {i : Nat} (lt : i < k) :
    (bytesWords k d)[i]? = some (wordOf (leNat ((d.drop (4 * i)).take 4))) := by
  induction k generalizing d i with
  | zero => exact absurd lt (Nat.not_lt_zero i)
  | succ k ih =>
    cases i with
    | zero => rfl
    | succ i =>
      rw [bytesWords, List.getElem?_cons_succ, ih (Nat.lt_of_succ_lt_succ lt), List.drop_drop]
      rw [show 4 + 4 * i = 4 * (i + 1) by omega]

/-- Settles O53, read by read. -/
theorem startUpReads : Obligations.StartUpReads := by
  refine ⟨fun o errors s live op => ⟨fun work => ?_, fun work => ?_, fun n work => ?_, fun n work => ?_⟩,
    fun s errors => ⟨fun other => ?_, fun other => ?_, fun other => ?_⟩, fun s => ⟨fun phase => ?_, fun phase => ?_, fun phase => ?_⟩,
    fun s => ⟨fun m n x y a b => chooseConfig_both a b, fun m x a b => ?_, fun n y a b => ?_, chooseConfig_defaults⟩,
    fun n d x s entry => ?_, fun k d i lt _ => bytesWords_get lt, fun s => ⟨fun n rest more => ?_, fun none => ?_⟩⟩
  iterate 4
    · refine next_whenLive live ?_
      simp only [op, work]
      rfl
  iterate 3
    · refine next_whenLive_same ?_
      split
      · rfl
      · next o op =>
        split
        · next c work => exact absurd work (other o c op)
        · rfl
  · simp only [resumeStart, phase]
    rfl
  · rcases phase with phase | phase | phase
    all_goals
      conv_lhs => rw [resumeStart, phase]
      rfl
  · rw [resumeStart, phase]
  · exact chooseConfig_copy (by rw [a, b]; rfl) nofun
  · exact chooseConfig_copy (by rw [a, b]; rfl) nofun
  · intro pages line entered agrees
    have held : listAgrees x d = true ↔ agrees := listAgrees_iff x d
    have read := listRead_eq (d := d) entry
    refine ⟨fun yes => read.trans (if_pos (held.mpr yes)), fun no current => read.trans ?_, fun no other => read.trans ?_⟩
    · exact (if_neg fun yes => no (held.mp yes)).trans (if_pos current)
    · exact (if_neg fun yes => no (held.mp yes)).trans (if_neg other)
  · rw [nextList, more]
    rfl
  · rw [nextList, none]

end Sys2Proof.Machine.State
end

section
/-!
PROOFS. The candidates of the scan (spec/09, R178 and R179): each slot's class, and what is chosen among the candidates.
-/

namespace Sys2Proof.Machine.State

/-! ### A slot's own class (R178) -/

theorem scanClass_eq (page : List Byte) (stageRec : Option StageRecord) (sealRec : Option (Word × Word))
    (commitRec : Option Nat) :
    scanClass page stageRec sealRec commitRec =
      if ∀ b ∈ page, b = 0xFF then .empty
      else if stageRec = none then .dirty .invalidHeader
      else if commitRec ≠ none then .committedCandidate
      else if sealRec ≠ none then .sealedCandidate
      else .dirty .unsealed := by
  unfold scanClass
  refine if_congr (erased_iff page) rfl ?_
  cases stageRec with
  | none => rfl
  | some r => cases commitRec <;> cases sealRec <;> rfl

/-! ### The candidates of a line -/

/-- An entry of a scan table is of a class and a line. -/
def OfClass (c : ScanClass) (l : LineNo) (x : ScanEntry) : Prop := x.cls = c ∧ x.line = some l

theorem mem_candidates {t : List ScanEntry} {c : ScanClass} {l : LineNo} {k : Nat} {x : ScanEntry} :
    (k, x) ∈ candidates t c l ↔ t[k]? = some x ∧ OfClass c l x := by
  simp only [candidates, List.mem_filter, numbered_mem, Nat.zero_add, exists_eq_left', Bool.and_eq_true, beq_iff_eq,
    OfClass]

theorem candidates_sorted (t : List ScanEntry) (c : ScanClass) (l : LineNo) :
    (candidates t c l).Pairwise (fun x y => x.1 < y.1) :=
  (numbered_sorted 0 t).filter _

/-- The order of committed candidates, key by key (R179 step 1). -/
theorem candidateKey_before (x c : ScanEntry) (j k : Nat) :
    (candidateKey x < candidateKey c ∨ candidateKey x = candidateKey c ∧ k < j) ↔
      (generationKey x < generationKey c ∨ generationKey x = generationKey c ∧
        (unretiredKey x < unretiredKey c ∨ unretiredKey x = unretiredKey c ∧
          (versionKey x < versionKey c ∨ versionKey x = versionKey c ∧ k < j))) := by
  have := versionKey_lt x
  have := versionKey_lt c
  have := unretiredKey_le x
  have := unretiredKey_le c
  unfold candidateKey
  omega

/-- Slot `k`, holding `c`, is the first of a line's committed candidates. -/
def IsCurrent (t : List ScanEntry) (l : LineNo) (k : Nat) (c : ScanEntry) : Prop :=
  t[k]? = some c ∧ OfClass .committedCandidate l c ∧
    ∀ j x, t[j]? = some x → OfClass .committedCandidate l x → j ≠ k →
      generationKey x < generationKey c ∨ generationKey x = generationKey c ∧
        (unretiredKey x < unretiredKey c ∨ unretiredKey x = unretiredKey c ∧
          (versionKey x < versionKey c ∨ versionKey x = versionKey c ∧ k < j))

theorem chosenCurrent_iff (t : List ScanEntry) (l : LineNo) (k : Nat) (c : ScanEntry) :
    chosenCurrent t l = some (k, c) ↔ IsCurrent t l k c := by
  rw [chosenCurrent, choose_spec _ candidateKey beats_key _ (candidates_sorted _ _ _), mem_candidates, IsCurrent, and_assoc]
  refine and_congr_right fun _ => and_congr_right fun _ => ?_
  constructor
  · intro first j x entry candidate other
    exact (candidateKey_before x c j k).mp (first (j, x) (mem_candidates.mpr ⟨entry, candidate⟩) other)
  · rintro first ⟨j, x⟩ candidate other
    obtain ⟨entry, candidate⟩ := mem_candidates.mp candidate
    exact (candidateKey_before x c j k).mpr (first j x entry candidate other)

/-- An entry is no newer than its line's CURRENT slot. -/
def IsOld (t : List ScanEntry) (l : LineNo) (x : ScanEntry) : Prop :=
  ∃ k c, IsCurrent t l k c ∧ versionKey x ≤ versionKey c

theorem oldVersion_iff (t : List ScanEntry) (l : LineNo) (x : ScanEntry) : oldVersion t l x = true ↔ IsOld t l x := by
  simp only [IsOld, ← chosenCurrent_iff, oldVersion]
  rcases chosenCurrent t l with _ | ⟨k, c⟩
  · simp
  · simp only [decide_eq_true_eq, Option.some.injEq, Prod.mk.injEq]
    exact ⟨fun le => ⟨k, c, ⟨rfl, rfl⟩, le⟩, fun ⟨_, _, ⟨_, e⟩, le⟩ => e ▸ le⟩

/-- Slot `k`, holding `c`, is the first of a line's sealed candidates that are newer than its CURRENT slot. -/
def IsSealed (t : List ScanEntry) (l : LineNo) (k : Nat) (c : ScanEntry) : Prop :=
  ((t[k]? = some c ∧ OfClass .sealedCandidate l c) ∧ ¬ IsOld t l c) ∧
    ∀ j x, t[j]? = some x → OfClass .sealedCandidate l x → ¬ IsOld t l x → j ≠ k →
      versionKey x < versionKey c ∨ versionKey x = versionKey c ∧ k < j

theorem mem_newCandidates {t : List ScanEntry} {l : LineNo} {k : Nat} {x : ScanEntry} :
    (k, x) ∈ (candidates t .sealedCandidate l).filter (fun x => !oldVersion t l x.2) ↔
      (t[k]? = some x ∧ OfClass .sealedCandidate l x) ∧ ¬ IsOld t l x := by
  rw [List.mem_filter, mem_candidates, Bool.not_eq_true', ← oldVersion_iff, Bool.not_eq_true]

theorem chosenSealed_iff (t : List ScanEntry) (l : LineNo) (k : Nat) (c : ScanEntry) :
    chosenSealed t l = some (k, c) ↔ IsSealed t l k c := by
  rw [chosenSealed, choose_spec _ versionKey newer_key _ ((candidates_sorted _ _ _).filter _), mem_newCandidates, IsSealed]
  refine and_congr_right fun _ => ?_
  constructor
  · intro first j x entry candidate new other
    exact first (j, x) (mem_newCandidates.mpr ⟨⟨entry, candidate⟩, new⟩) other
  · rintro first ⟨j, x⟩ candidate other
    obtain ⟨⟨entry, candidate⟩, new⟩ := mem_newCandidates.mp candidate
    exact first j x entry candidate new other

/-! ### The resolved table (R179) -/

theorem resolveScan_length (t : List ScanEntry) : (resolveScan t).length = t.length := by
  have numbers (k : Nat) (es : List ScanEntry) : (numbered k es).length = es.length := by
    induction es generalizing k with
    | nil => rfl
    | cons e es ih => rw [numbered, List.length_cons, ih, List.length_cons]
  rw [resolveScan, List.length_map, numbers]

theorem resolveScan_get {t : List ScanEntry} {i : Nat} {e : ScanEntry} (entry : t[i]? = some e) :
    (resolveScan t)[i]? = some { e with cls := resolvedClass t i e } := by
  rw [resolveScan, List.getElem?_map, numbered_get, entry]
  simp only [Option.map_some, Nat.zero_add]

/-- A slot number chosen for a line names the slot's own entry. -/
theorem map_fst_eq_iff {t : List ScanEntry} {i : Nat} {e : ScanEntry} {choice : Option (Nat × ScanEntry)}
    (entry : t[i]? = some e) (inside : ∀ k c, choice = some (k, c) → t[k]? = some c) :
    choice.map Prod.fst = some i ↔ choice = some (i, e) := by
  rcases choice with _ | ⟨k, c⟩
  · exact iff_of_false nofun nofun
  · simp only [Option.map_some, Option.some.injEq, Prod.mk.injEq]
    refine ⟨fun same => ⟨same, ?_⟩, And.left⟩
    have held := inside k c rfl
    rw [same, entry] at held
    exact (Option.some.inj held).symm

/-- A committed candidate's class, resolved. -/
theorem resolvedClass_committed {t : List ScanEntry} {l : LineNo} {i : Nat} {e : ScanEntry} (entry : t[i]? = some e)
    (candidate : OfClass .committedCandidate l e) :
    (IsCurrent t l i e → resolvedClass t i e = .current) ∧
    (¬ IsCurrent t l i e → resolvedClass t i e = .dirty .superseded) := by
  obtain ⟨cls, line⟩ := candidate
  have mine : (chosenCurrent t l).map Prod.fst = some i ↔ IsCurrent t l i e :=
    (map_fst_eq_iff entry fun k c choice => ((chosenCurrent_iff t l k c).mp choice).1).trans (chosenCurrent_iff t l i e)
  have resolved : resolvedClass t i e =
      if (chosenCurrent t l).map Prod.fst = some i then .current else .dirty .superseded := by
    simp only [resolvedClass, cls, line]
  exact ⟨fun yes => resolved.trans (if_pos (mine.mpr yes)), fun no => resolved.trans (if_neg fun yes => no (mine.mp yes))⟩

/-- A sealed candidate's class, resolved. -/
theorem resolvedClass_sealed {t : List ScanEntry} {l : LineNo} {i : Nat} {e : ScanEntry} (entry : t[i]? = some e)
    (candidate : OfClass .sealedCandidate l e) :
    (IsOld t l e → resolvedClass t i e = .dirty .oldVersion) ∧
    (¬ IsOld t l e →
      (IsSealed t l i e → resolvedClass t i e = .sealed) ∧
      (¬ IsSealed t l i e → resolvedClass t i e = .dirty .duplicateSeal)) := by
  obtain ⟨cls, line⟩ := candidate
  have mine : (chosenSealed t l).map Prod.fst = some i ↔ IsSealed t l i e :=
    (map_fst_eq_iff entry fun k c choice => ((chosenSealed_iff t l k c).mp choice).1.1.1).trans (chosenSealed_iff t l i e)
  have resolved : resolvedClass t i e =
      if oldVersion t l e then .dirty .oldVersion
      else if (chosenSealed t l).map Prod.fst = some i then .sealed else .dirty .duplicateSeal := by
    simp only [resolvedClass, cls, line]
  refine ⟨fun old => resolved.trans (if_pos ((oldVersion_iff t l e).mpr old)), fun new => ?_⟩
  replace resolved := resolved.trans (if_neg fun old => new ((oldVersion_iff t l e).mp old))
  exact ⟨fun yes => resolved.trans (if_pos (mine.mpr yes)), fun no => resolved.trans (if_neg fun yes => no (mine.mp yes))⟩

/-- Any other slot keeps its class. -/
theorem resolvedClass_other {t : List ScanEntry} {i : Nat} {e : ScanEntry} (noCommit : e.cls ≠ .committedCandidate)
    (noSeal : e.cls ≠ .sealedCandidate) : resolvedClass t i e = e.cls := by
  unfold resolvedClass
  split
  · next cls _ => exact absurd cls noCommit
  · next cls _ => exact absurd cls noSeal
  · rfl

/-! ### What follows the scan -/

/-- RECOVERY for one slot of a resolved table, when it is DIRTY. -/
def recoverSlot (t : List ScanEntry) (x : State) (n : SlotNo) : State :=
  match t[n.val]? with
  | none => x
  | some e =>
    match e.cls with
    | .dirty r => x.log { kind := .recovery, slot := some n, line := e.stageRec.map (·.line), detail := wordOf r.code }
    | _ => x

/-- Past the end of the table there is nothing to log. -/
theorem recoverSlot_past {t : List ScanEntry} {k : Nat} (past : t.drop k = []) (s : State) :
    (allSlots.drop k).foldl (recoverSlot t) s = s := by
  have least : ∀ n ∈ allSlots.drop k, k ≤ n.val := fun n mem => by
    obtain ⟨i, _, rfl⟩ := List.mem_drop_iff_getElem.mp mem
    simp only [allSlots, tall, List.getElem_finRange]
    exact Nat.le_add_right k i
  revert least
  induction allSlots.drop k with
  | nil => exact fun _ => rfl
  | cons n ns ih =>
    intro least
    have nothing : recoverSlot t s n = s := by
      have absent : t[n.val]? = none :=
        List.getElem?_eq_none (Nat.le_trans (List.drop_eq_nil_iff.mp past) (least n List.mem_cons_self))
      rw [recoverSlot, absent]
    rw [List.foldl_cons, nothing]
    exact ih fun m mem => least m (List.mem_cons_of_mem n mem)

/-- RECOVERY from a slot on, entry by entry. -/
theorem logRecovery_from {t es : List ScanEntry} {k : Nat} (s : State) (rest : t.drop k = es) (few : k + es.length ≤ 16) :
    logRecovery (numbered k es) s = (allSlots.drop k).foldl (recoverSlot t) s := by
  induction es generalizing k s with
  | nil => exact (recoverSlot_past rest s).symm
  | cons e es ih =>
    have small : k < 16 := by
      rw [List.length_cons] at few
      omega
    have entry : t[k]? = some e := by rw [← Nat.add_zero k, ← List.getElem?_drop, rest]; rfl
    have next : t.drop (k + 1) = es := by rw [← List.drop_drop, rest]; rfl
    have slots : allSlots.drop k = ⟨k, small⟩ :: allSlots.drop (k + 1) := by
      rw [List.drop_eq_getElem_cons (show k < allSlots.length from small)]
      simp only [allSlots, tall, List.getElem_finRange]
      rfl
    have first : logRecovery (numbered k (e :: es)) s =
        logRecovery (numbered (k + 1) es) (recoverSlot t s ⟨k, small⟩) := by
      rw [recoverSlot]
      simp only [entry]
      rw [numbered, logRecovery]
      cases e.cls with
      | dirty r => simp only [dif_pos small] <;> rfl
      | _ => rfl
    rw [first, ih _ next (by rw [List.length_cons] at few; omega), slots, List.foldl_cons]

theorem slotsOf_eq (t : List ScanEntry) (c : ScanClass) :
    slotsOf t c = allSlots.filter (fun n => (t[n.val]?).map (·.cls) == some c) := by
  refine List.filter_congr fun n _ => ?_
  cases t[n.val]? <;> rfl

/-- The scan's end: RECOVERY for each DIRTY slot, then the check lists. -/
theorem resolve_eq {s : State} (few : s.start.scan.length ≤ 16) :
    s.resolve = (allSlots.foldl (recoverSlot (resolveScan s.start.scan))
      { s with start := { s.start with
        scan := resolveScan s.start.scan, phase := .lists,
        toRead := slotsOf (resolveScan s.start.scan) .current ++ slotsOf (resolveScan s.start.scan) .sealed } }).nextList := by
  rw [resolve]
  dsimp only
  rw [logRecovery_from (t := resolveScan s.start.scan) (k := 0) _ List.drop_zero (by rw [resolveScan_length]; omega), List.drop_zero]
  rfl

/-- Settles O54, slot by slot of the resolved table. -/
theorem candidatesAreResolved : Obligations.CandidatesAreResolved := by
  refine ⟨fun largest page => ?_, fun scan i e entry => ?_, fun s few => ?_⟩
  · intro st
    rw [scanEntry, scanClass_eq]
  · intro of version generation unretired newer current old
    have resolved (c : ScanClass) (h : resolvedClass scan i e = c) : (resolveScan scan)[i]? = some { e with cls := c } :=
      (resolveScan_get entry).trans (by rw [h])
    refine ⟨resolveScan_length scan, fun l candidate => ?_, fun l candidate => ?_, fun noCommit noSeal => ?_⟩
    · obtain ⟨first, beaten⟩ := resolvedClass_committed entry candidate
      exact ⟨fun yes => resolved _ (first yes), fun no => resolved _ (beaten no)⟩
    · obtain ⟨behind, ahead⟩ := resolvedClass_sealed entry candidate
      refine ⟨fun yes => resolved _ (behind yes), fun new => ?_⟩
      obtain ⟨first, beaten⟩ := ahead new
      refine ⟨fun best => resolved _ (first ⟨⟨⟨entry, candidate⟩, new⟩, best⟩), fun ⟨j, x, held, other, young, apart, better⟩ =>
        resolved _ (beaten fun best => better ?_)⟩
      obtain ⟨_, before⟩ := best
      exact before j x held other young apart
    · rw [resolveScan_get entry, resolvedClass_other noCommit noSeal]
  · intro scan of recovery
    have current : slotsOf scan .current = of .current := slotsOf_eq scan .current
    have sealed : slotsOf scan .sealed = of .sealed := slotsOf_eq scan .sealed
    rw [resolve_eq few, current, sealed]
    rfl

end Sys2Proof.Machine.State
end

section
/-!
PROOFS. The rebuild of the directory and the hand-over (spec/09).
-/

namespace Sys2Proof.Machine.State

/-! ### The rebuild (R26, R180) -/

theorem tget_tableOf {α : Type} {n : Nat} (f : Fin n → α) (i : Fin n) : tget (tableOf n f) i = f i := by
  simp [tableOf, tget, tall]

theorem slot_rebuild (s : State) (n : SlotNo) :
    s.rebuild.slot n = ((s.start.scan[n.val]?).map rebuiltSlot).getD Slot.reset :=
  tget_tableOf _ n

theorem line_rebuild (s : State) (l : LineNo) : s.rebuild.line l = rebuiltLine s.start.scan l :=
  tget_tableOf _ l

/-- Slot `n` of a scan table is of a class and a line. -/
def SlotOf (t : List ScanEntry) (c : ScanClass) (l : LineNo) (n : SlotNo) : Prop :=
  ∃ e, t[n.val]? = some e ∧ OfClass c l e

theorem slotOfLine_eq (t : List ScanEntry) (c : ScanClass) (l : LineNo) :
    slotOfLine t c l = allSlots.find? (fun n =>
      (match t[n.val]? with | none => false | some e => e.cls == c) &&
        (match t[n.val]? with | none => false | some e => e.line == some l)) := by
  rw [slotOfLine, slotsOf, List.find?_filter]
  simp only [Bool.decide_and, Bool.decide_eq_true] <;> rfl

theorem slotOf_test (t : List ScanEntry) (c : ScanClass) (l : LineNo) (n : SlotNo) :
    ((match t[n.val]? with | none => false | some e => e.cls == c) &&
      (match t[n.val]? with | none => false | some e => e.line == some l)) = true ↔ SlotOf t c l n := by
  unfold SlotOf OfClass
  cases t[n.val]? with
  | none => exact iff_of_false nofun fun ⟨_, absent, _⟩ => nomatch absent
  | some e => simp

theorem slotOfLine_none {t : List ScanEntry} {c : ScanClass} {l : LineNo} (no : ∀ n, ¬ SlotOf t c l n) :
    slotOfLine t c l = none := by
  rw [slotOfLine_eq]
  exact List.find?_eq_none.mpr fun n _ yes => no n ((slotOf_test t c l n).mp yes)

/-- A line's only slot of a class. -/
theorem slotOfLine_only {t : List ScanEntry} {c : ScanClass} {l : LineNo} {n : SlotNo} (yes : SlotOf t c l n)
    (only : ∀ m, SlotOf t c l m → m = n) : slotOfLine t c l = some n := by
  cases found : slotOfLine t c l with
  | none =>
    rw [slotOfLine_eq] at found
    exact absurd ((slotOf_test t c l n).mpr yes) (List.find?_eq_none.mp found n (List.mem_finRange n))
  | some m =>
    rw [slotOfLine_eq] at found
    have test := List.find?_some found
    rw [only m ((slotOf_test t c l m).mp test)]

theorem pending_rebuiltLine (t : List ScanEntry) (l : LineNo) : (rebuiltLine t l).pending = slotOfLine t .sealed l := by
  unfold rebuiltLine
  split
  · rfl
  · split <;> rfl

/-- A line without a CURRENT slot. -/
theorem rebuiltLine_empty {t : List ScanEntry} {l : LineNo} (no : ∀ n, ¬ SlotOf t .current l n) :
    rebuiltLine t l = { Line.reset with pending := (rebuiltLine t l).pending } := by
  conv_rhs => rw [pending_rebuiltLine]
  rw [rebuiltLine, slotOfLine_none no]

/-- A line with one CURRENT slot. -/
theorem rebuiltLine_current {t : List ScanEntry} {l : LineNo} {n : SlotNo} {e : ScanEntry} (yes : SlotOf t .current l n)
    (only : ∀ m, SlotOf t .current l m → m = n) (entry : t[n.val]? = some e) :
    rebuiltLine t l =
      { state := if e.list = none then .damaged else .active, name := e.stageRec.map (·.name), current := some n,
        pending := (rebuiltLine t l).pending, generation := e.commitRec.getD 0, version := e.stageRec.map (·.version),
        lock := none } := by
  conv_rhs => rw [pending_rebuiltLine]
  rw [rebuiltLine, slotOfLine_only yes only]
  simp only [entry]
  cases e.list <;> rfl

/-! ### The hand-over (R182) -/

theorem settleStatuses_eq_foldl (ps : List Port) (s : State) :
    settleStatuses ps s = ps.foldl (fun x p => (x.settleStatus p 0).settleStatus p 1) s := by
  induction ps generalizing s with
  | nil => rfl
  | cons p ps ih => rw [settleStatuses, ih, List.foldl_cons]

theorem handOverPorts_eq_foldl (ps : List Port) (s : State) :
    handOverPorts ps s = ps.foldl (fun x p => x.handOverPort p) s := by
  induction ps generalizing s with
  | nil => rfl
  | cons p ps ih => rw [handOverPorts, ih, List.foldl_cons]

theorem startKind_code (k : StartKind) : k.code = match k with | .cold => 0 | .restart => 1 := by
  cases k <;> rfl

theorem copyUsed_code (u : Option CopyUsed) :
    (u.map CopyUsed.code).getD 0 =
      match u with | none | some .a => 0 | some .b => 1 | some .defaults => 2 := by
  rcases u with _ | u
  · rfl
  · cases u <;> rfl

/-- The hand-over, block by block: the event record, the configuration writer, the ports, the held status commands. -/
theorem handOver_eq (s : State) :
    s.handOver = State.allPorts.foldl (fun x p => (x.settleStatus p 0).settleStatus p 1)
      (State.allPorts.foldl (fun x p => x.handOverPort p)
        (({ s with
            start := { s.start with phase := .done },
            cfgw := { copyA := takenCopy s.start.copyA, copyB := takenCopy s.start.copyB, write := none } } : State).log
          { kind := .startup,
            detail := packWord s.start.kind.code ((s.start.copyUsed.map CopyUsed.code).getD 0) 0 0 })) := by
  rw [handOver, settleStatuses_eq_foldl, handOverPorts_eq_foldl]
  rfl

/-- A port made OFF: its notices gone, its reset line asserted. -/
def switchedOff (p : Port) (s : State) : State :=
  s.modPort p (fun r => { r with notices := [], lost := 0, sup :=
    { r.sup with state := .off, lineAsserted := true, timer := .stopped } })

theorem makeOff_eq (p : Port) (s : State) :
    s.makeOff p = switchedOff p (if (s.port p).link.state = .up then s.linkDown p .off
      else s.modPort p (fun r => { r with link := { r.link with state := .down, trainTimer := none } })) := by
  unfold makeOff
  dsimp only
  rw [clearNotices, modSup, modPort_modPort]
  rfl

theorem handOverPort_eq (p : Port) (s : State) :
    s.handOverPort p = if (s.portCfg p).enabled = true then s.enterPreloading p else s.makeOff p := rfl

/-- Settles O55, block by block of the hand-over. -/
theorem rebuildAndHandOver : Obligations.RebuildAndHandOver := by
  refine ⟨fun s => ?_, fun s => ?_, fun p s => ?_, fun p t a s args => ⟨fun c => ?_, fun c => ?_, fun c => ?_⟩, fun p t s args => ?_⟩
  · intro t scan
    refine ⟨rfl, fun n absent => ?_, fun n e entry => ?_, fun l => ?_⟩
    · exact (slot_rebuild s n).trans (congrArg (fun x => (x.map rebuiltSlot).getD Slot.reset) absent)
    · intro known
      have held : t.slot n = rebuiltSlot e := 
        (slot_rebuild s n).trans (congrArg (fun x => (x.map rebuiltSlot).getD Slot.reset) entry)
      rw [held]
      refine ⟨fun cls => ?_, fun r cls => ?_, fun cls => ?_, fun cls => ?_⟩
      all_goals simp only [rebuiltSlot, cls] <;> rfl
    · intro of
      have record : t.line l = rebuiltLine scan l := line_rebuild s l
      rw [record]
      refine ⟨fun n yes only => ?_, fun no => ?_, fun no => rebuiltLine_empty no, fun n e yes only entry =>
        rebuiltLine_current yes only entry⟩
      · exact (pending_rebuiltLine scan l).trans (slotOfLine_only yes only)
      · exact (pending_rebuiltLine scan l).trans (slotOfLine_none no)
  · intro copy kind used a
    have kinds : s.start.kind.code = kind := startKind_code _
    have uses : (s.start.copyUsed.map CopyUsed.code).getD 0 = used := copyUsed_code _
    rw [handOver_eq, kinds, uses]
    rfl
  · intro off
    have disabled (no : (s.portCfg p).enabled = false) : s.handOverPort p = s.makeOff p := by
      rw [handOverPort_eq, no]
      rfl
    refine ⟨fun yes => ?_, fun no up => ?_, fun no down => ?_⟩
    · exact (handOverPort_eq p s).trans (if_pos yes)
    · rw [disabled no, makeOff_eq, if_pos up]
      rfl
    · rw [disabled no, makeOff_eq, if_neg down]
      rfl
  iterate 3 · simp only [settleStatus, c, args]
  · unfold settleStatus
    split
    · next e => exact absurd (args.symm.trans e) nofun
    · next e => exact absurd (args.symm.trans e) nofun
    · next e => exact absurd (args.symm.trans e) nofun
    · rfl

end Sys2Proof.Machine.State
end

section
/-!
PROOFS. Supervision (spec/07): the heartbeat, the release of a master and its hold.
-/

namespace Sys2Proof.Machine.State

/-! ### SERVICE (R139, R140) -/

/-- A drawn token is not 0 and not the one it replaces. -/
theorem boundToken_new (t : BitVec 16) (old : Option (BitVec 16)) : boundToken t old ≠ 0 ∧ some (boundToken t old) ≠ old := by
  unfold boundToken
  split
  · next new => exact new
  · split
    · next one =>
      rw [one]
      exact ⟨by decide, by decide⟩
    · next other => exact ⟨by decide, Ne.symm other⟩

theorem cmdTags_modSup (p x : Port) (f : Supervision → Supervision) (s : State) :
    ((s.modSup x f).port p).cmdTags = (s.port p).cmdTags := by
  by_cases same : p = x
  · subst same
    simp [modSup]
  · rw [modSup, port_modPort_ne same]

/-- An accepted SERVICE: the token drawn, and the port RUNNING with it (R140). -/
def serviced (p : Port) (new : BitVec 16) (s : State) : State :=
  ({ s with draws := s.draws + 1 } : State).modPort p (fun r =>
    { r with sup := { r.sup with
      state := .running, token := some new, timer := .deadline ((s.portCfg p).heartbeat * 1000) } })

theorem cmdTags_serviced (p : Port) (new : BitVec 16) (s : State) : ((s.serviced p new).port p).cmdTags = (s.port p).cmdTags := by
  rw [serviced, port_modPort_same]
  rfl

theorem acceptService_eq (p : Port) (t : CmdTag) (old : Option (BitVec 16)) (s : State) :
    s.acceptService p t old =
      (s.serviced p (boundToken (Config.freeToken s.draws) old)).answer p t .ok
        [wordOf (boundToken (Config.freeToken s.draws) old).toNat, wordOf (s.portCfg p).heartbeat] := rfl

/-- An accepted SERVICE answers with the token it drew. -/
theorem acceptService_opened (p : Port) (q : Seq) (t : CmdTag) (old : Option (BitVec 16)) (s : State) :
    ∃ new : BitVec 16, new ≠ 0 ∧ some new ≠ old ∧
      (s.opened p q t (some .service)).acceptService p t old =
        ((s.opened p q t (some .service)).serviced p new).replied p t .ok
          [wordOf new.toNat, wordOf (s.portCfg p).heartbeat] := by
  obtain ⟨nonzero, other⟩ := boundToken_new (Config.freeToken s.draws) old
  refine ⟨boundToken (Config.freeToken s.draws) old, nonzero, other, ?_⟩
  rw [acceptService_eq]
  exact answer_of_cmdTags (s := s) (q := q) (c := some .service) (cmdTags_serviced p _ _) _ _

theorem serviceBody_booting {p : Port} {t : CmdTag} {token : Word} {s : State} (booting : (s.port p).sup.state = .booting) :
    s.serviceBody p t token =
      if token.setWidth 16 = (0 : BitVec 16) then s.acceptService p t (s.port p).sup.lastToken
      else s.answer p t .badToken [] := by
  simp only [serviceBody, booting]

theorem serviceBody_running {p : Port} {t : CmdTag} {token : Word} {s : State}
    (running : (s.port p).sup.state = .running ∨ (s.port p).sup.state = .warned) :
    s.serviceBody p t token =
      if (s.port p).sup.token = some (token.setWidth 16) then s.acceptService p t (s.port p).sup.token
      else s.answer p t .badToken [] := by
  rcases running with running | running
  all_goals simp only [serviceBody, running]

theorem serviceBody_other {p : Port} {t : CmdTag} {token : Word} {s : State}
    (other : (s.port p).sup.state = .free ∨ (s.port p).sup.state = .off ∨ s.Held p) :
    s.serviceBody p t token = s.answer p t .notSupervised [] := by
  rcases other with other | other | other | other | other
  all_goals simp only [serviceBody, other]

/-! ### RELEASE_PORT (R150) -/

theorem releasePortBody_eq {p : Port} {t : CmdTag} {port : Word} {s : State} (off : ¬ s.portHeld p = true) :
    s.releasePortBody p t port =
      match portArg port with
      | none => s.answer p t .badArgument []
      | some x =>
        if (s.port x).sup.state = .quarantined then
          (s.modSup x (fun u => { u with state := .held, history := [], timer := s.holdTimer x })).answer p t .ok []
        else s.answer p t .badState [] :=
  if_neg off

/-! ### What a restart claims of the port's replies (R145, R146) -/

/-- A command tag once the replies held at a restart are dropped. -/
def heldDropped (c : CmdTagRecord) : CmdTagRecord := if c.restartHeld = false then c else endedCmd c

/-- The reply of an accepted RESTART_HUB was held at the restart and is formed (R171). -/
abbrev dropsRestart (s : State) (p : Port) (t : CmdTag) : Prop :=
  (s.cmdTag p t).restartHeld = true ∧ (s.cmdTag p t).state = .ready ∧ restartReply (s.cmdTag p t) = true

theorem modCmdTag_congr {p : Port} {t : CmdTag} {f g : CmdTagRecord → CmdTagRecord} {s : State}
    (same : f (s.cmdTag p t) = g (s.cmdTag p t)) : s.modCmdTag p t f = s.modCmdTag p t g :=
  modPort_congr (by
    show ({ s.port p with cmdTags := tset (s.port p).cmdTags t (f (s.cmdTag p t)) } : PortRecord) = _
    rw [same]
    rfl)

theorem dropHeld_eq (p : Port) (t : CmdTag) (s : State) :
    s.dropHeld p t = (s.modCmdTag p t heldDropped).withRestart (if s.dropsRestart p t then .dropped else s.hubRestart) := by
  rw [dropHeld]
  by_cases held : (s.cmdTag p t).restartHeld = true
  · have ends : heldDropped (s.cmdTag p t) = endedCmd (s.cmdTag p t) := if_neg (by simp [held])
    have drops : s.dropsRestart p t ↔ (s.cmdTag p t).state = .ready ∧ restartReply (s.cmdTag p t) = true := and_iff_right held
    rw [if_pos held, endCmd_eq, modCmdTag_congr ends]
    exact congrArg (fun h => (s.modCmdTag p t endedCmd).withRestart h) (if_congr drops.symm rfl rfl)
  · have stays : heldDropped (s.cmdTag p t) = s.cmdTag p t := if_pos (by simpa using held)
    rw [if_neg held, if_neg (fun drops => held drops.1)]
    have same : s.modCmdTag p t heldDropped = s := modPort_id (by
      show ({ s.port p with cmdTags := tset (s.port p).cmdTags t (heldDropped (s.cmdTag p t)) } : PortRecord) = _
      rw [stays, cmdTag, tset_tget])
    rw [same]
    rfl

/-- Both command tags at a restart's claim, and what becomes of a RESTART_HUB reply (R171). -/
theorem dropHelds_eq (p : Port) (s : State) :
    (s.dropHeld p 0).dropHeld p 1 =
      (s.modPort p (fun r => { r with cmdTags := tmap heldDropped r.cmdTags })).withRestart
        (if ∃ t, s.dropsRestart p t then .dropped else s.hubRestart) := by
  have other : (s.modCmdTag p 0 heldDropped).cmdTag p 1 = s.cmdTag p 1 := by
    simp [modCmdTag, cmdTag]
  have both : (s.modCmdTag p 0 heldDropped).modCmdTag p 1 heldDropped =
      s.modPort p (fun r => { r with cmdTags := tmap heldDropped r.cmdTags }) := by
    simp only [modCmdTag, modPort_modPort, ← tmap_two]
    refine modPort_congr ?_
    simp
  have either : (∃ t, s.dropsRestart p t) ↔ s.dropsRestart p 0 ∨ s.dropsRestart p 1 := Fin.exists_fin_two
  have second (h : HubRestart) : ((s.modCmdTag p 0 heldDropped).withRestart h).dropsRestart p 1 ↔ s.dropsRestart p 1 := by
    simp only [dropsRestart, cmdTag_withRestart, other]
  rw [dropHeld_eq p 0, dropHeld_eq p 1, ← both, if_congr either rfl rfl, if_congr (second _) rfl rfl, withRestart_hubRestart]
  refine congrArg (fun h => ((s.modCmdTag p 0 heldDropped).modCmdTag p 1 heldDropped).withRestart h) ?_
  by_cases one : s.dropsRestart p 1
  · rw [if_pos one, if_pos (Or.inr one)]
  · rw [if_neg one]
    exact if_congr (or_iff_left one).symm rfl rfl

/-! ### Settling O56 -/

theorem clearNotices_claim (p : Port) (k : Nat) (s : State) (claims : (s.port p).clearNotices = k + 1) :
    ((s.modPort p (fun r => { r with clearNotices := r.clearNotices - 1 })).clearNotices p) =
      s.modPort p (fun r => { r with clearNotices := k, notices := [], lost := 0 }) := by
  rw [clearNotices, modPort_modPort]
  refine modPort_congr ?_
  simp only [claims, Nat.add_sub_cancel]

/-- A report of a completed preload: the count falls, and a PRELOADING master is released (R137). -/
theorem preloadReport_eq (p : Port) (k : Nat) (s : State) (reports : (s.port p).completions = k + 1) :
    (let x := s.modPort p (fun r => { r with completions := r.completions - 1 })
     if (x.port p).sup.state = .preloading then x.releaseMaster p else x) =
      s.modPort p (fun r =>
        { r with
          completions := k,
          sup := if r.sup.state ≠ .preloading then r.sup
            else if (s.portCfg p).supervised then
              { r.sup with state := .booting, lineAsserted := false, timer := .bootTimeout ((s.portCfg p).bootTimeout * 1000) }
            else { r.sup with state := .free, lineAsserted := false, timer := .stopped } }) := by
  dsimp only
  rw [port_modPort_same]
  by_cases preloading : (s.port p).sup.state = .preloading
  · rw [if_pos preloading, releaseMaster, modSup, modPort_modPort]
    refine modPort_congr ?_
    simp only [reports, Nat.add_sub_cancel, preloading, ne_eq, not_true_eq_false, if_false]
    rfl
  · rw [if_neg preloading]
    refine modPort_congr ?_
    simp only [reports, Nat.add_sub_cancel, if_pos preloading, ne_eq]

/-- Settles O56, command by command and report by report. -/
theorem mastersAreHeldAndReleased : Obligations.MastersAreHeldAndReleased := by
  refine ⟨fun p q t token s d => ?_, fun p q t port s d free => ?_, fun p k s live reports => ?_, fun p s none => ?_,
    fun p d s live held timer => ?_, fun p s no => ?_, fun p k s live claims => ?_, fun p s none => ?_⟩
  · intro o u tok beat answered accepted
    have sup : (o.port p).sup = u := sup_opened _ _ _ _ _ _
    have answers (st : Status) : o.answer p t st [] = o.replied p t st [] := answer_of_opened _ _ _ _ _ _ _
    have accepts (old : Option (BitVec 16)) (body : o.serviceBody p t token = o.acceptService p t old) : accepted old := by
      obtain ⟨new, nonzero, other, reply⟩ := acceptService_opened p q t old s
      exact ⟨new, nonzero, other, next_dispatched d (body.trans reply)⟩
    have booting (state : u.state = .booting) := serviceBody_booting (t := t) (token := token) (s := o) (p := p) (by rw [sup, state])
    have running (state : u.state = .running ∨ u.state = .warned) :=
      serviceBody_running (t := t) (token := token) (s := o) (p := p) (by rw [sup]; exact state)
    refine ⟨fun state zero => accepts _ ?_, fun state nonzero => next_dispatched d ?_, fun state same => accepts _ ?_,
      fun state other => next_dispatched d ?_, fun state => next_dispatched d ?_⟩
    · rw [booting state, if_pos zero, sup]
    · exact ((booting state).trans (if_neg nonzero)).trans (answers _)
    · rw [running state, sup, if_pos same]
    · refine ((running state).trans (if_neg ?_)).trans (answers _)
      rw [sup]
      exact other
    · refine (serviceBody_other ?_).trans (answers _)
      unfold Held
      rw [sup]
      exact state
  · intro o
    have off : ¬ o.portHeld p = true := not_held_opened free
    have answers (st : Status) : o.answer p t st [] = o.replied p t st [] := answer_of_opened _ _ _ _ _ _ _
    have body := releasePortBody_eq (t := t) (port := port) off
    refine ⟨fun large => next_dispatched d (body.trans ?_), fun x same => ?_⟩
    · rw [portArg_none large]
      exact answers _
    · have sup : (o.port x).sup = (s.port x).sup := sup_opened _ _ _ _ _ _
      rw [portArg_some same] at body
      refine ⟨fun other => next_dispatched d (body.trans ?_), fun quarantined => next_dispatched d (body.trans ?_)⟩
      · exact (if_neg (by rw [sup]; exact other)).trans (answers _)
      · refine (if_pos (by rw [sup, quarantined])).trans ?_
        exact answer_of_cmdTags (s := s) (q := q) (c := some .releasePort) (cmdTags_modSup p x _ _) _ _
  · intro c
    refine next_whenLive live ((if_neg (by rw [reports]; exact Nat.succ_ne_zero k)).trans ?_)
    exact preloadReport_eq p k s reports
  · exact next_whenLive_same (if_pos none)
  · refine next_whenLive live ?_
    simp only [held, timer]
    rfl
  · refine next_whenLive_same ?_
    split
    · next d state timer => exact absurd no (not_or.mpr ⟨not_not.mpr state, fun h => h d timer⟩)
    · rfl
  · intro cut u restarts
    have cleared := clearNotices_claim p k s claims
    have waits : (∃ t, ((s.modPort p (fun r => { r with clearNotices := k, notices := [], lost := 0 })).dropsRestart p t)) ↔
        restarts := by
      refine exists_congr fun t => ?_
      unfold dropsRestart
      rw [restartReply_iff, cmdTag, port_modPort_same]
      rfl
    have ends : exec (.restartClearNotices p) s =
        .next (u.withRestart (if restarts then .dropped else s.hubRestart)).settle := by
      refine next_whenLive live ((if_neg (by rw [claims]; exact Nat.succ_ne_zero k)).trans ?_)
      dsimp only
      rw [cleared, dropHelds_eq, if_congr waits rfl rfl, modPort_modPort]
      rfl
    refine ⟨fun no => ends.trans ?_, fun yes => ends.trans ?_⟩
    · rw [if_neg no]
      rfl
    · rw [if_pos yes]
      rfl
  · exact next_whenLive_same (if_pos none)

end Sys2Proof.Machine.State
end

section
/-!
PROOFS. Port restarts (spec/07): what a restart claims, and what causes one.
-/

namespace Sys2Proof.Machine.State

/-! ### A restart (R143, R145, R146, R148) -/

/-- A port restarted: its supervision record and the requests to its neighbours (R143). -/
def restarted (p : Port) (cause : RestartCause) (s : State) : State :=
  s.modPort p (fun r =>
    { r with
      sup := { r.sup with
        state := s.stateEntered p, lineAsserted := true,
        timer := if s.stateEntered p = .quarantined then .stopped else s.holdTimer p,
        token := none, lastToken := if r.sup.token = none then r.sup.lastToken else r.sup.token,
        history := s.newHistory p, lastCause := some cause },
      cancelLoads := if r.sup.state = .preloading then r.cancelLoads + 1 else r.cancelLoads,
      bindItems := r.bindItems ++ [.unbindAll], endReads := r.endReads + 1, clearNotices := r.clearNotices + 1,
      dropLock := r.dropLock + 1, cmdTags := tmap markHeld r.cmdTags })

theorem restarted_eq (p : Port) (cause : RestartCause) (s : State) :
    (s.handRequests p).modSup p (s.restartedSup p cause) = s.restarted p cause := by
  have last (u : Supervision) : (if u.token.isSome then u.token else u.lastToken) =
      if u.token = none then u.lastToken else u.token := by cases u.token <;> rfl
  unfold handRequests restartedSup restarted
  rw [modSup, modPort_modPort]
  refine modPort_congr ?_
  simp only [last]

theorem toldOfReset_eq (s : State) (p : Port) :
    s.toldOfReset p = State.allPorts.filter (fun x =>
      s.started && (s.portCfg x).supervise && x != p && (s.port x).sup.state != .off) := by
  rw [toldOfReset, supervisors, List.filter_filter]
  refine List.filter_congr fun x _ => ?_
  rw [Bool.and_comm, ← Bool.and_assoc]
  rfl

/-- A restart's claim: the port, the event, the notices to the other supervisors, and a quarantine's event. -/
theorem restart_eq (p : Port) (cause : RestartCause) (by' : Option Port) (s : State) :
    s.restart p cause by' =
      (let z := (s.toldOfReset p).foldl
        (fun z t => z.hand t
          { kind := .portReset, subject := some p.val, value := packWord cause.code (s.stateEntered p).code 0 0 })
        ((s.restarted p cause).log
          { kind := .portReset, port := some p,
            detail := packWord cause.code (s.stateEntered p).code (optByte (by'.map Fin.val)) 0 })
       if s.stateEntered p = .quarantined then z.log { kind := .portQuarantined, port := some p } else z) := by
  unfold restart
  rw [restarted_eq]
  simp only [handAll_eq_foldl]

/-! ### What a restart leaves of the ports' supervision and tags -/

/-- A notice handed to a port changes only its notices. -/
theorem hand_port (p : Port) (n : Notice) (s : State) (x : Port) :
    ((s.hand p n).port x).sup = (s.port x).sup ∧ ((s.hand p n).port x).cmdTags = (s.port x).cmdTags := by
  have only (f : PortRecord → PortRecord) (sup : ∀ r, (f r).sup = r.sup) (tags : ∀ r, (f r).cmdTags = r.cmdTags) :
      ((s.modPort p f).port x).sup = (s.port x).sup ∧ ((s.modPort p f).port x).cmdTags = (s.port x).cmdTags := by
    by_cases same : x = p
    · subst same
      rw [port_modPort_same]
      exact ⟨sup _, tags _⟩
    · rw [port_modPort_ne same]
      exact ⟨rfl, rfl⟩
  unfold hand
  dsimp only
  split
  · exact only _ (fun _ => rfl) fun _ => rfl
  · split
    · exact ⟨rfl, rfl⟩
    · split
      · exact only _ (fun _ => rfl) fun _ => rfl
      · exact only _ (fun _ => rfl) fun _ => rfl

theorem hands_port (n : Notice) (ps : List Port) (s : State) (x : Port) :
    ((ps.foldl (fun z t => z.hand t n) s).port x).sup = (s.port x).sup ∧
      ((ps.foldl (fun z t => z.hand t n) s).port x).cmdTags = (s.port x).cmdTags := by
  induction ps generalizing s with
  | nil => exact ⟨rfl, rfl⟩
  | cons p ps ih =>
    obtain ⟨sup, tags⟩ := hand_port p n s x
    rw [List.foldl_cons, (ih _).1, (ih _).2, sup, tags]
    exact ⟨rfl, rfl⟩

theorem port_restart (p : Port) (cause : RestartCause) (by' : Option Port) (s : State) (x : Port) :
    ((s.restart p cause by').port x).sup = ((s.restarted p cause).port x).sup ∧
      ((s.restart p cause by').port x).cmdTags = ((s.restarted p cause).port x).cmdTags := by
  rw [restart_eq]
  dsimp only
  split
  · exact hands_port _ _ _ x
  · exact hands_port _ _ _ x

theorem state_restart (p : Port) (cause : RestartCause) (by' : Option Port) (s : State) :
    ((s.restart p cause by').port p).sup.state = s.stateEntered p := by
  rw [(port_restart p cause by' s p).1, restarted, port_modPort_same]

/-- A restart marks tags; it does not change their states. -/
theorem cmdTag_state_restart (p : Port) (cause : RestartCause) (by' : Option Port) (s : State) (x : Port) (t : CmdTag) :
    ((s.restart p cause by').cmdTag x t).state = (s.cmdTag x t).state := by
  rw [cmdTag, (port_restart p cause by' s x).2, restarted]
  by_cases same : x = p
  · subst same
    rw [port_modPort_same, tget_tmap, markHeld]
    split <;> rfl
  · rw [port_modPort_ne same]
    rfl

/-! ### RESET_PORT (R149) -/

theorem resetPortBody_free {p : Port} {t : CmdTag} {port : Word} {s : State} (off : ¬ s.portHeld p = true) :
    s.resetPortBody p t port =
      match portArg port with
      | none => s.answer p t .badArgument []
      | some x =>
        match (s.port x).sup.state with
        | .off => s.answer p t .badState []
        | .quarantined => s.answer p t .badState []
        | _ => (s.restart x .command (some p)).answer p t .ok [wordOf (s.stateEntered x).code] :=
  if_neg off

/-- Settles O57, by the restart's claim and each cause of one. -/
theorem portsAreRestarted : Obligations.PortsAreRestarted := by
  refine ⟨fun p cause by' s => ?_, fun p d s live => ⟨fun state timer => ?_, fun state timer => ?_, fun state timer => ?_⟩,
    fun p s => ⟨fun no => ?_, fun no => ?_, fun no => ?_⟩, fun p q t port s d free => ?_⟩
  · intro c history entered told x y z
    have others : s.toldOfReset p = told := toldOfReset_eq s p
    rw [restart_eq, others]
    rfl
  · refine next_whenLive live ?_
    simp only [state, timer]
  · refine next_whenLive live ?_
    simp only [state, timer]
  · intro c
    refine ⟨fun zero => next_whenLive live ?_, fun grace => next_whenLive live ?_⟩
    all_goals simp only [state, timer]
    · exact if_pos zero
    · exact if_neg grace
  iterate 3
    · refine next_whenLive_same ?_
      split
      · next d state timer => exact absurd no (not_or.mpr ⟨not_not.mpr state, fun h => h d timer⟩)
      · rfl
  · intro o
    have off : ¬ o.portHeld p = true := not_held_opened free
    have answers (st : Status) : o.answer p t st [] = o.replied p t st [] := answer_of_opened _ _ _ _ _ _ _
    have body := resetPortBody_free (t := t) (port := port) off
    refine ⟨fun large => next_dispatched d (body.trans ?_), fun x same => ?_⟩
    · rw [portArg_none large]
      exact answers _
    · have sup : (o.port x).sup = (s.port x).sup := sup_opened _ _ _ _ _ _
      rw [portArg_some same] at body
      refine ⟨fun refused => next_dispatched d (body.trans ?_), fun on free => next_dispatched d (body.trans ?_)⟩
      · dsimp only
        rw [sup]
        rcases refused with state | state
        all_goals
          rw [state]
          exact answers _
      · have opened : ((o.restart x .command (some p)).cmdTag p t).state = .opened := by
          rw [cmdTag_state_restart, cmdTag_opened]
        rw [state_restart, ← answer_opened opened]
        dsimp only
        rw [sup]
        split
        · next state => exact absurd state on
        · next state => exact absurd state free
        · rfl

end Sys2Proof.Machine.State
end

section
/-!
PROOFS. The status queries, READ_EVENTS, RESTART_HUB and the event record (spec/10).
-/

namespace Sys2Proof.Machine.State

/-! ### The words of the status replies (section 11.2) -/

theorem idleWord_eq (k : Option Lock) :
    idleWord k =
      match k with
      | none => wordOf 0xFFFFFFFF
      | some k => match k.idle with
        | none => wordOf 0xFFFFFFFE
        | some d => wordOf (d / 1000) := rfl

theorem lockPhase_bind (s : State) (l : LineNo) (k : Option Lock) :
    k.bind (fun _ => s.lockPhase l) =
      match k with
      | none => none
      | some _ => (s.work l).map (fun w => w.phase.code) := by
  cases k <;> rfl

theorem cursorOf_eq (s : State) (n : SlotNo) :
    s.cursorOf n =
      match s.reclaim with
      | none => none
      | some j => if j.target = n then some j.cursor else none := by
  unfold cursorOf
  cases s.reclaim <;> rfl

theorem flagByte_isSome {α : Type} [DecidableEq α] (x : Option α) : flagByte x.isSome = if x = none then 0 else 1 := by
  cases x <;> rfl

/-- The kind and the remaining time of a supervision timer. -/
theorem timerField_eq (t : SupTimer) :
    (match t with
      | .stopped => (0xFF, wordOf 0xFFFFFFFF)
      | .resetHold d => (0, wordOf (d / 1000))
      | .bootTimeout d => (1, wordOf (d / 1000))
      | .deadline d => (2, wordOf (d / 1000))
      | .grace d => (3, wordOf (d / 1000)) : Nat × Word) = (timerKind t, timerLeft t) := by
  cases t <;> rfl

/-- A table in a list. -/
theorem toList_eq_map {α : Type} {n : Nat} (v : Vector α n) : v.toList = (List.finRange n).map (tget v) := by
  refine List.ext_getElem (by simp) fun i _ _ => ?_
  simp [tget, Vector.get]

theorem windows_flatMap (s : State) (p : Port) :
    (s.port p).windows.toList.flatMap windowWords =
      windowWords (s.window p 0) ++ windowWords (s.window p 1) ++ windowWords (s.window p 2) ++ windowWords (s.window p 3) := by
  rw [toList_eq_map, show List.finRange 4 = [0, 1, 2, 3] from rfl]
  simp only [List.map_cons, List.map_nil, List.flatMap_cons, List.flatMap_nil, List.append_nil, List.append_assoc]
  rfl

theorem readTagBits (s : State) (p : Port) :
    tagBits ((s.port p).readTags.toList.map (·.state)) =
      (s.readTag p 0).state.code + 4 * (s.readTag p 1).state.code + 16 * (s.readTag p 2).state.code +
        64 * (s.readTag p 3).state.code + 256 * (s.readTag p 4).state.code + 1024 * (s.readTag p 5).state.code +
        4096 * (s.readTag p 6).state.code + 16384 * (s.readTag p 7).state.code := by
  rw [toList_eq_map, show List.finRange 8 = [0, 1, 2, 3, 4, 5, 6, 7] from rfl]
  simp only [List.map_cons, List.map_nil, tagBits, readTag]
  omega

theorem cmdTagBits (s : State) (p : Port) :
    tagBits ((s.port p).cmdTags.toList.map (·.state)) = (s.cmdTag p 0).state.code + 4 * (s.cmdTag p 1).state.code := by
  rw [toList_eq_map, show List.finRange 2 = [0, 1] from rfl]
  simp only [List.map_cons, List.map_nil, tagBits, cmdTag]
  omega

theorem slotArg_some {s : State} {x : Word} {n : SlotNo} (same : x.toNat = n.val) (exists_ : n.val < s.cfg.slotCount) :
    s.slotArg x = some n := by
  unfold slotArg
  rw [dif_pos (by rw [same]; exact n.isLt), if_pos (by rw [same]; exact exists_)]
  exact congrArg some (Fin.ext same)

theorem slotArg_none {s : State} {x : Word} (outside : 16 ≤ x.toNat ∨ s.cfg.slotCount ≤ x.toNat) : s.slotArg x = none := by
  unfold slotArg
  split
  · exact if_neg (by omega)
  · rfl

/-! ### READ_EVENTS (R187) -/

theorem eventWords_of {r : EventRecord} {start next : Word} {k : Nat} {es : List Event} {gap : Bool}
    (taken : eventsFrom r start k = (es, gap)) (follows : nextSequence r start (es, gap) = next) :
    eventWords r start k = [packWord es.length (flagByte gap) 0 0, next] ++ es.flatMap Event.words := by
  simp only [eventWords, taken, follows]

theorem eventsFrom_empty {r : EventRecord} (start : Word) (k : Nat) (none : r.entries = []) :
    eventsFrom r start k = ([], start != r.next) := by
  simp only [eventsFrom, none]

/-- The entries READ_EVENTS takes, by the distance of the start from the oldest entry. -/
theorem eventsFrom_held {r : EventRecord} {oldest : Event} {rest : List Event} (start : Word) (k : Nat)
    (held : r.entries = oldest :: rest) :
    eventsFrom r start k =
      if (start - oldest.seq).toNat < r.entries.length then ((r.entries.drop (start - oldest.seq).toNat).take k, false)
      else if (start - oldest.seq).toNat = r.entries.length then ([], false)
      else (r.entries.take k, true) := by
  rw [eventsFrom]
  split
  · next none => exact absurd (held.symm.trans none) nofun
  · next o os first =>
    obtain ⟨rfl, rfl⟩ := List.cons.inj (first.symm.trans held)
    rfl

theorem nextSequence_last {r : EventRecord} {start : Word} {es : List Event} {gap : Bool} {last : Event}
    (ends : es.getLast? = some last) : nextSequence r start (es, gap) = last.seq + 1 := by
  simp only [nextSequence, ends]

theorem readEventsBody_free {p : Port} {t : CmdTag} {start count : Word} {s : State} (off : ¬ s.portHeld p = true) :
    s.readEventsBody p t start count =
      if count.toNat = 0 ∨ 8 < count.toNat then s.answer p t .badArgument []
      else s.answer p t .ok (eventWords s.events start count.toNat) :=
  if_neg off

/-! ### The event record (R186) -/

theorem log_room {e : EventBody} {s : State} (room : s.events.entries.length < 64) :
    s.log e = { s with events :=
      { entries := s.events.entries ++ [{ seq := s.events.next, body := e }], next := s.events.next + 1 } } := by
  have fits : (s.events.entries ++ [({ seq := s.events.next, body := e } : Event)]).length ≤ 64 := by
    rw [List.length_append, List.length_singleton]
    omega
  simp only [log, if_pos fits]

theorem log_full {e : EventBody} {s : State} {oldest : Event} {rest : List Event} (held : s.events.entries = oldest :: rest)
    (full : 64 ≤ s.events.entries.length) :
    s.log e = { s with events :=
      { entries := rest ++ [{ seq := s.events.next, body := e }], next := s.events.next + 1 } } := by
  have tooMany : ¬ (s.events.entries ++ [({ seq := s.events.next, body := e } : Event)]).length ≤ 64 := by
    rw [List.length_append, List.length_singleton]
    omega
  simp only [log, if_neg tooMany]
  rw [held]
  rfl

/-- STATUS_PORT, of the port itself or by a supervisor (R163, R185). -/
theorem statusPortBody_some {p x : Port} {t : CmdTag} {port : Word} {s : State} (same : port.toNat = x.val)
    (allowed : x = p ∨ (s.portCfg p).supervise = true) :
    s.statusPortBody p t port = s.answer p t .ok (s.portWords x) := by
  rw [statusPortBody, portArg_some same]
  exact if_pos allowed

/-- Settles O58, query by query. -/
theorem queriesAreAnswered : Obligations.QueriesAreAnswered := by
  refine ⟨fun p q t line s d => ?_, fun p q t slot s d => ?_, fun p q t port s d => ?_, fun p s => ?_,
    fun p q t start count s d free => ?_, fun p q t s d free => ?_, fun e s => ?_⟩
  · intro o
    have answers (st : Status) (res : List Word) : o.answer p t st res = o.replied p t st res := answer_of_opened _ _ _ _ _ _ _
    refine ⟨fun large => next_dispatched d ?_, fun l same => ?_⟩
    · rw [statusLineBody, lineArg_none large]
      exact answers _ _
    · intro r idle phase
      have phases : r.lock.bind (fun _ => o.lockPhase l) = phase := lockPhase_bind s l r.lock
      refine next_dispatched d ?_
      rw [statusLineBody, lineArg_some same, ← phases]
      exact answers _ _
  · intro o
    have answers (st : Status) (res : List Word) : o.answer p t st res = o.replied p t st res := answer_of_opened _ _ _ _ _ _ _
    refine ⟨fun outside => next_dispatched d ?_, fun n same few => ?_⟩
    · rw [statusSlotBody, slotArg_none (s := o) outside]
      exact answers _ _
    · intro r generation cursor
      have cursors : o.cursorOf n = cursor := cursorOf_eq s n
      refine next_dispatched d ?_
      rw [statusSlotBody, slotArg_some (s := o) same few, ← cursors, ← flagByte_isSome r.checkList]
      exact answers _ _
  · intro o
    have answers (st : Status) (res : List Word) : o.answer p t st res = o.replied p t st res := answer_of_opened _ _ _ _ _ _ _
    refine ⟨fun large => next_dispatched d ?_, fun x same allowed => next_dispatched d ?_⟩
    · rw [statusPortBody, portArg_none large]
      exact answers _ _
    · exact (statusPortBody_some (s := o) same allowed).trans (answers _ _)
  · intro r c bit timer window lock
    have timers : timer = (timerKind r.sup.timer, timerLeft r.sup.timer) := timerField_eq r.sup.timer
    rw [timers, ← readTagBits, ← cmdTagBits]
    unfold portWords
    dsimp only
    rw [windows_flatMap]
    rfl
  · intro o held k answered
    have off : ¬ o.portHeld p = true := not_held_opened free
    have answers (st : Status) (res : List Word) : o.answer p t st res = o.replied p t st res := answer_of_opened _ _ _ _ _ _ _
    have body := readEventsBody_free (t := t) (start := start) (count := count) off
    refine ⟨fun bad => next_dispatched d (body.trans ?_), fun least most => ?_⟩
    · exact (if_pos bad).trans (answers _ _)
    · have reply {es : List Event} {gap : Bool} {next : Word} (taken : eventsFrom s.events start k = (es, gap))
          (follows : nextSequence s.events start (es, gap) = next) : answered es (flagByte gap) next := by
        refine next_dispatched d (body.trans ((if_neg (by omega)).trans ?_))
        rw [← eventWords_of taken follows]
        exact answers _ _
      refine ⟨fun none same => reply (gap := false) ?_ rfl, fun none other => reply (gap := true) ?_ rfl,
        fun oldest rest first => ?_⟩
      · rw [eventsFrom_empty _ _ none, same, bne_self_eq_false]
      · rw [eventsFrom_empty _ _ none, bne_iff_ne.mpr other]
      · intro far
        have taken := eventsFrom_held start k first
        refine ⟨fun last inside ends => reply (gap := false) (taken.trans (if_pos inside)) (nextSequence_last ends),
          fun past => reply (gap := false) (taken.trans ((if_neg past.not_lt).trans (if_pos past))) rfl,
          fun last beyond ends => reply (gap := true)
            (taken.trans ((if_neg beyond.not_gt).trans (if_neg beyond.ne'))) (nextSequence_last ends)⟩
  · have off : ¬ (s.opened p q t (some .restartHub)).portHeld p = true := not_held_opened free
    exact next_dispatched d ((if_neg off).trans (answer_of_opened _ _ _ _ _ _ _))
  · intro entry
    refine ⟨log_room, fun oldest rest held full => log_full held full, fun last => ?_⟩
    show s.events.next + 1 = 0
    rw [last]
    rfl

end Sys2Proof.Machine.State
end
